-- ==== Sys2Proof/Word.lean ====
section
/-! DEFINITION. The word types of the block. Every address, timestamp and data operand is 32 bits (R5, R92), a register
bank word is 16 bits (R25), a command packet 104 bits (R90). -/

namespace Sys2Proof

/-- A byte of backing memory. -/
abbrev Byte := BitVec 8

/-- A register bank word (REG_W = 16, R5). -/
abbrev Half := BitVec 16

/-- An address, a timestamp, a 32-bit register or a data operand (ADDR_W = CYC_W = 32, R5). -/
abbrev Word := BitVec 32

/-- A command packet: `op` 103:100, `w` 99:98, `pid` 97:96, `ADDR` 95:64, `DATA` 63:32, `CYC` 31:0 (R90). -/
abbrev Packet := BitVec 104

end Sys2Proof
end

