-- ==== Sys2Proof/Syntax.lean ====
section
/-! DEFINITION. The command set of the block as an inductive type: one constructor for each of the 23 rows of
spec/opcode_table.json (R95), with the operands the row's rule uses. Operands a row ignores are not held. -/

namespace Sys2Proof

/-- Processor ids PRI = 0, MCP = 1, SCP = 2 (R3). -/
inductive Pid where
  | pri
  | mcp
  | scp
deriving DecidableEq, Repr

/-- The two coprocessors, master and slave (R3). -/
inductive Cop where
  | mcp
  | scp
deriving DecidableEq, Repr

/-- Register classes CLASS (R6): SYS 0, VDP 1, LOCAL 2 (`loc`), COMM 3, PWM 4, DMA 5. -/
inductive RegClass where
  | sys
  | vdp
  | loc
  | comm
  | pwm
  | dma
deriving DecidableEq, Repr

/-- One command. A row marked INTERNAL in R95 is issued only by the block's own rules (R93). -/
inductive Instr where
  /-- BUS_RD8 p, ADDR @CYC (R112). -/
  | busRd8 (p : Pid) (addr cyc : Word)
  /-- BUS_RD16 p, ADDR @CYC (R113). -/
  | busRd16 (p : Pid) (addr cyc : Word)
  /-- BUS_RD32 p, ADDR @CYC (R114). -/
  | busRd32 (p : Pid) (addr cyc : Word)
  /-- BUS_WR8 p, ADDR, DATA[7:0] @CYC (R115). -/
  | busWr8 (p : Pid) (addr : Word) (data : Byte) (cyc : Word)
  /-- BUS_WR16 p, ADDR, DATA[15:0] @CYC (R116). -/
  | busWr16 (p : Pid) (addr : Word) (data : Half) (cyc : Word)
  /-- BUS_WR32 p, ADDR, DATA @CYC (R118). -/
  | busWr32 (p : Pid) (addr data cyc : Word)
  /-- ACK_SLICE p (R273). -/
  | ackSlice (p : Pid)
  /-- ADVANCE k, n: pid MCP or SCP only (R146). -/
  | advance (k : Cop) (n : Word)
  /-- STATUS (R274). -/
  | status
  /-- POLL_DETECT p, class, ADDR @CYC (R161), INTERNAL. -/
  | pollDetect (p : Pid) (c : RegClass) (addr cyc : Word)
  /-- POLL_UNDETECT p, class (R165), INTERNAL. -/
  | pollUndetect (p : Pid) (c : RegClass)
  /-- SYNC_RD class @NOW (R141), INTERNAL. -/
  | syncRd (c : RegClass) (now : Word)
  /-- SYNC_WR class @NOW (R144), INTERNAL. -/
  | syncWr (c : RegClass) (now : Word)
  /-- DMA_RUN with the triggering command's CYC (R185), INTERNAL. -/
  | dmaRun (cyc : Word)
  /-- BANK_SELECT n (R221), INTERNAL. -/
  | bankSelect (n : Word)
  /-- FILL (R226), INTERNAL. -/
  | fill
  /-- DIV32 of DIVU[k] (R239), INTERNAL. -/
  | div32 (k : Cop)
  /-- DIV64 of DIVU[k] (R240), INTERNAL. -/
  | div64 (k : Cop)
  /-- RESET_ALL @NOW (R285). -/
  | resetAll (cyc : Word)
  /-- STATE_RESTORED @NOW (R287). -/
  | stateRestored (cyc : Word)
  /-- COP_RESET @NOW (R216), INTERNAL. The writer p is not in the packet (`State.writer`, log 10). -/
  | copReset (cyc : Word)
  /-- FB_SWAP h with h = DATA[0] (R231), INTERNAL; `true` is half 1. -/
  | fbSwap (h : Bool)
  /-- INIT f @NOW with f = DATA[0], `true` when the allocation failed (R255). -/
  | init (fail : Bool) (cyc : Word)
deriving DecidableEq, Repr

end Sys2Proof
end

