-- ==== Sys2Proof/WellFormed.lean ====
section
/-! DEFINITION. Which commands are well formed. The operand types of Instr already exclude the reserved pid 11, a pid the
row does not list and the class codes 6 and 7 (R96); what is left is the class operand of the sync gate. -/

namespace Sys2Proof

/-- SHARED = CLASS \ {LOCAL} (R6). -/
def RegClass.shared : RegClass → Bool
  | .loc => false
  | _ => true

/-- A command whose operands are in the range its rule gives: the class of SYNC_RD and SYNC_WR is in SHARED
(R141, R144; log 13). -/
def Instr.wf : Instr → Bool
  | .syncRd c _ => c.shared
  | .syncWr c _ => c.shared
  | _ => true

end Sys2Proof
end

