-- ==== Sys2Proof/Decode.lean ====
section
/-! DEFINITION. Command packets: the fields of a packet (R90), the decoder, total on any bytes and rejecting by name (R95,
R96), and the encoder, written from the same map. -/

namespace Sys2Proof

/-- Why a packet is illegal (R96). -/
inductive DecodeError where
  /-- Fewer than 13 bytes: no packet at all (R90). -/
  | truncated
  /-- op 0000, 0110 or 0111. -/
  | reservedOp
  /-- w = 11 in BUS_RD or BUS_WR, or a `w` that is no row of its group. -/
  | reservedWidth
  /-- pid = 11 in a group that carries a pid. -/
  | reservedPid
  /-- A pid the row does not list. -/
  | unlistedPid
  /-- An op-1111 sub-code other than the five listed. -/
  | reservedSubcode
  /-- A class code 6 or 7. -/
  | reservedClass
  /-- A sync operation on the class LOCAL, which is not in SHARED (R141; log 13). -/
  | notSharedClass
deriving DecidableEq, Repr

/-! ## The packet's fields (R90) -/

def fieldOp (k : Packet) : BitVec 4 := k.extractLsb' 100 4
def fieldW (k : Packet) : BitVec 2 := k.extractLsb' 98 2
def fieldPid (k : Packet) : BitVec 2 := k.extractLsb' 96 2
def fieldAddr (k : Packet) : Word := k.extractLsb' 64 32
def fieldData (k : Packet) : Word := k.extractLsb' 32 32
def fieldCyc (k : Packet) : Word := k.extractLsb' 0 32

/-- The class operand `DATA[2:0]` (R92). -/
def fieldClass (data : Word) : BitVec 3 := data.extractLsb' 0 3

/-! ## Operand decoding -/

/-- pid 0, 1, 2; 3 is reserved (R96). -/
def decodePid (b : BitVec 2) : Except DecodeError Pid :=
  match b.toNat with
  | 0 => .ok .pri
  | 1 => .ok .mcp
  | 2 => .ok .scp
  | _ => .error .reservedPid

/-- A pid that must be a coprocessor's (ADVANCE, DIV32, DIV64). -/
def decodeCop (b : BitVec 2) : Except DecodeError Cop :=
  match b.toNat with
  | 0 => .error .unlistedPid
  | 1 => .ok .mcp
  | 2 => .ok .scp
  | _ => .error .reservedPid

/-- A row that lists pid 0 only (log 30). -/
def decodePidZero (b : BitVec 2) (i : Instr) : Except DecodeError Instr :=
  match b.toNat with
  | 0 => .ok i
  | 3 => .error .reservedPid
  | _ => .error .unlistedPid

/-- Class codes SYS 0, VDP 1, LOCAL 2, COMM 3, PWM 4, DMA 5 (R92); 6 and 7 are reserved. -/
def decodeClass (b : BitVec 3) : Except DecodeError RegClass :=
  match b.toNat with
  | 0 => .ok .sys
  | 1 => .ok .vdp
  | 2 => .ok .loc
  | 3 => .ok .comm
  | 4 => .ok .pwm
  | 5 => .ok .dma
  | _ => .error .reservedClass

/-- A class operand that must be in SHARED. -/
def decodeShared (b : BitVec 3) : Except DecodeError RegClass := do
  let c ← decodeClass b
  if c.shared then .ok c else .error .notSharedClass

/-! ## The opcode map (R95) -/

/-- op 0001: BUS_RD. -/
def decodeRead (k : Packet) : Except DecodeError Instr :=
  match (fieldW k).toNat with
  | 0 => (decodePid (fieldPid k)).map fun p => .busRd8 p (fieldAddr k) (fieldCyc k)
  | 1 => (decodePid (fieldPid k)).map fun p => .busRd16 p (fieldAddr k) (fieldCyc k)
  | 2 => (decodePid (fieldPid k)).map fun p => .busRd32 p (fieldAddr k) (fieldCyc k)
  | _ => .error .reservedWidth

/-- op 0010: BUS_WR; the data operand is DATA[7:0], DATA[15:0] or DATA (R92). -/
def decodeWrite (k : Packet) : Except DecodeError Instr :=
  match (fieldW k).toNat with
  | 0 => (decodePid (fieldPid k)).map fun p =>
      .busWr8 p (fieldAddr k) ((fieldData k).extractLsb' 0 8) (fieldCyc k)
  | 1 => (decodePid (fieldPid k)).map fun p =>
      .busWr16 p (fieldAddr k) ((fieldData k).extractLsb' 0 16) (fieldCyc k)
  | 2 => (decodePid (fieldPid k)).map fun p => .busWr32 p (fieldAddr k) (fieldData k) (fieldCyc k)
  | _ => .error .reservedWidth

/-- The groups 0011 to 1110 with one row, `w = 00`. -/
def decodeW0 (k : Packet) (r : Except DecodeError Instr) : Except DecodeError Instr :=
  match (fieldW k).toNat with
  | 0 => r
  | _ => .error .reservedWidth

/-- op 1010: the sync gate. -/
def decodeSync (k : Packet) : Except DecodeError Instr :=
  match (fieldW k).toNat with
  | 0 => do
      let c ← decodeShared (fieldClass (fieldData k))
      decodePidZero (fieldPid k) (.syncRd c (fieldCyc k))
  | 1 => do
      let c ← decodeShared (fieldClass (fieldData k))
      decodePidZero (fieldPid k) (.syncWr c (fieldCyc k))
  | _ => .error .reservedWidth

/-- op 1110: the division units. -/
def decodeDiv (k : Packet) : Except DecodeError Instr :=
  match (fieldW k).toNat with
  | 0 => (decodeCop (fieldPid k)).map .div32
  | 1 => (decodeCop (fieldPid k)).map .div64
  | _ => .error .reservedWidth

/-- op 1111: the four bits `w, pid` form one sub-operation code. -/
def decodeSubop (k : Packet) : Except DecodeError Instr :=
  match (fieldW k).toNat, (fieldPid k).toNat with
  | 0, 0 => .ok (.resetAll (fieldCyc k))
  | 0, 1 => .ok (.stateRestored (fieldCyc k))
  | 0, 2 => .ok (.copReset (fieldCyc k))
  | 1, 0 => .ok (.fbSwap ((fieldData k).getLsbD 0))
  | 2, 0 => .ok (.init ((fieldData k).getLsbD 0) (fieldCyc k))
  | _, _ => .error .reservedSubcode

/-- The command a packet stands for, or why it is illegal (R95, R96). R95 and R185 give DMA_RUN no operand; the triggering
command's CYC is taken from the packet's CYC field (log 32, DESIGN CHOICE). -/
def decode (k : Packet) : Except DecodeError Instr :=
  match (fieldOp k).toNat with
  | 1 => decodeRead k
  | 2 => decodeWrite k
  | 3 => decodeW0 k ((decodePid (fieldPid k)).map .ackSlice)
  | 4 => decodeW0 k ((decodeCop (fieldPid k)).map fun c => .advance c (fieldData k))
  | 5 => decodeW0 k (decodePidZero (fieldPid k) .status)
  | 8 => decodeW0 k do
      let p ← decodePid (fieldPid k)
      let c ← decodeClass (fieldClass (fieldData k))
      .ok (.pollDetect p c (fieldAddr k) (fieldCyc k))
  | 9 => decodeW0 k do
      let p ← decodePid (fieldPid k)
      let c ← decodeClass (fieldClass (fieldData k))
      .ok (.pollUndetect p c)
  | 10 => decodeSync k
  | 11 => decodeW0 k (decodePidZero (fieldPid k) (.dmaRun (fieldCyc k)))
  | 12 => decodeW0 k (decodePidZero (fieldPid k) (.bankSelect (fieldData k)))
  | 13 => decodeW0 k (decodePidZero (fieldPid k) .fill)
  | 14 => decodeDiv k
  | 15 => decodeSubop k
  | _ => .error .reservedOp

/-- The rows R95 marks INTERNAL; at the HOST interface they are illegal (R93, R96). -/
def Instr.internal : Instr → Bool
  | .pollDetect .. | .pollUndetect .. | .syncRd .. | .syncWr .. | .dmaRun .. | .bankSelect .. | .fill
  | .div32 .. | .div64 .. | .copReset .. | .fbSwap .. => true
  | .busRd8 .. | .busRd16 .. | .busRd32 .. | .busWr8 .. | .busWr16 .. | .busWr32 .. | .ackSlice .. | .advance ..
  | .status | .resetAll .. | .stateRestored .. | .init .. => false

/-! ## Bytes

A decoder reads 13 bytes, most significant (the header H) first (R90). -/

/-- The 13 bytes of a packet, H first. -/
def packetBytes (k : Packet) : List Byte :=
  (List.range 13).map fun i => k.extractLsb' (8 * (12 - i)) 8

/-- The number a list of bytes spells, the first byte most significant. -/
def bytesNat (bs : List Byte) : Nat := bs.foldl (fun n b => 256 * n + b.toNat) 0

/-- The first packet of a list of bytes and the bytes after it. -/
def takePacket (bs : List Byte) : Except DecodeError (Packet × List Byte) :=
  if bs.length < 13 then .error .truncated else .ok (BitVec.ofNat 104 (bytesNat (bs.take 13)), bs.drop 13)

/-- Decode the command at the head of a list of bytes. -/
def decodeBytes (bs : List Byte) : Except DecodeError (Instr × List Byte) := do
  let (k, rest) ← takePacket bs
  let i ← decode k
  .ok (i, rest)

/-- What the decoder reads from a packet whose bits are `w`, numbered as spec/opcode_table.json numbers them: bit 0 is bit 0
of PKT. Bits above the packet's 104 do not exist, and bits above `nbits` are 0. -/
def decodeTableWord (nbits w : Nat) : Option Instr :=
  match decodeBytes (packetBytes (BitVec.ofNat 104 (w % 2 ^ nbits))) with
  | .ok (i, _) => some i
  | .error _ => none

/-! ## The encoder -/

/-- A packet from its six fields (R90). -/
def mkPacket (op : BitVec 4) (w pid : BitVec 2) (addr data cyc : Word) : Packet :=
  (op ++ w ++ pid ++ addr ++ data ++ cyc : BitVec (4 + 2 + 2 + 32 + 32 + 32))

def Pid.code : Pid → BitVec 2
  | .pri => 0
  | .mcp => 1
  | .scp => 2

def Cop.code : Cop → BitVec 2
  | .mcp => 1
  | .scp => 2

/-- The class code as a data operand (R92). -/
def RegClass.code : RegClass → Word
  | .sys => 0
  | .vdp => 1
  | .loc => 2
  | .comm => 3
  | .pwm => 4
  | .dma => 5

/-- A one-bit operand in DATA[0]. -/
def bitOperand (b : Bool) : Word := if b then 1 else 0

/-- The packet of a command; operands the row ignores are 0 (R95). -/
def encode : Instr → Packet
  | .busRd8 p a t => mkPacket 1 0 p.code a 0 t
  | .busRd16 p a t => mkPacket 1 1 p.code a 0 t
  | .busRd32 p a t => mkPacket 1 2 p.code a 0 t
  | .busWr8 p a d t => mkPacket 2 0 p.code a (d.setWidth 32) t
  | .busWr16 p a d t => mkPacket 2 1 p.code a (d.setWidth 32) t
  | .busWr32 p a d t => mkPacket 2 2 p.code a d t
  | .ackSlice p => mkPacket 3 0 p.code 0 0 0
  | .advance k n => mkPacket 4 0 k.code 0 n 0
  | .status => mkPacket 5 0 0 0 0 0
  | .pollDetect p c a t => mkPacket 8 0 p.code a c.code t
  | .pollUndetect p c => mkPacket 9 0 p.code 0 c.code 0
  | .syncRd c t => mkPacket 10 0 0 0 c.code t
  | .syncWr c t => mkPacket 10 1 0 0 c.code t
  | .dmaRun t => mkPacket 11 0 0 0 0 t
  | .bankSelect n => mkPacket 12 0 0 0 n 0
  | .fill => mkPacket 13 0 0 0 0 0
  | .div32 k => mkPacket 14 0 k.code 0 0 0
  | .div64 k => mkPacket 14 1 k.code 0 0 0
  | .resetAll t => mkPacket 15 0 0 0 0 t
  | .stateRestored t => mkPacket 15 0 1 0 0 t
  | .copReset t => mkPacket 15 0 2 0 0 t
  | .fbSwap h => mkPacket 15 1 0 0 (bitOperand h) 0
  | .init f t => mkPacket 15 2 0 0 (bitOperand f) t

end Sys2Proof
end

