-- ==== Sys2Proof/Config.lean ====
section
/-! DEFINITION. The configuration of the block (R5, R282): every OPEN parameter as plain data, so that a configuration is
an argument of the model (it is a field of State). An OPEN predicate or function has a finite domain and is held as a finite
list (log 2). `Config.ex` is the example configuration EX of 95_test_vectors.md section 2 (log 1). The one free value of the
spec, `draw_32` (R239, R240), is the opaque constant `Config.drawWord`. -/

namespace Sys2Proof

/-! ## Tables indexed by a small set -/

/-- One value for each processor. -/
structure PerPid (α : Type) where
  pri : α
  mcp : α
  scp : α
deriving DecidableEq, Repr

/-- One value for each coprocessor. -/
structure PerCop (α : Type) where
  mcp : α
  scp : α
deriving DecidableEq, Repr

/-- Access widths (R68). -/
inductive Width where
  | w8
  | w16
  | w32
deriving DecidableEq, Repr

/-- Directions RD and WR of a view (R22). -/
inductive Dir where
  | rd
  | wr
deriving DecidableEq, Repr

/-- One value for each width. -/
structure PerWidth (α : Type) where
  w8 : α
  w16 : α
  w32 : α
deriving DecidableEq, Repr

/-- One value for each direction. -/
structure PerDir (α : Type) where
  rd : α
  wr : α
deriving DecidableEq, Repr

/-- Sides (R7): side(PRI) = PRI-side, side(MCP) = side(SCP) = COP-side. -/
inductive Side where
  | pri
  | cop
deriving DecidableEq, Repr

/-- One value for each side. -/
structure PerSide (α : Type) where
  pri : α
  cop : α
deriving DecidableEq, Repr

/-- One value for each register class. -/
structure PerClass (α : Type) where
  sys : α
  vdp : α
  loc : α
  comm : α
  pwm : α
  dma : α
deriving DecidableEq, Repr

/-! ## Views (R22) and backing memory (R24) -/

/-- Backing regions: cartridge storage, the framebuffer half FB[0] (`false`) or FB[1] (`true`), and the platform's RAM
regions by number (R24). -/
inductive Region where
  | cart
  | fb (half : Bool)
  | ram (n : Nat)
deriving DecidableEq, Repr

/-- Handler ids (R22). -/
inductive Handler where
  | sys
  | vdp
  | loc
  | comm
  | pwm
  | dma
  | div
deriving DecidableEq, Repr

/-- An entry of a view (R22). -/
inductive Entry where
  | mem (region : Region) (base : Nat) (mask : Word)
  | hnd (h : Handler)
  | split
  | stub
deriving DecidableEq, Repr

/-- A view: slot number to entry, slots strictly rising; a slot that is not listed is STUB (R71 (c)). -/
abbrev View := List (Nat × Entry)

/-- The 18 views (R22). -/
abbrev Views := PerPid (PerWidth (PerDir View))

/-! ## Registers (R25, R29, R31) -/

/-- The registers of the DMA record with an address of their own (R29, R97). -/
inductive DmaReg where
  | sar
  | dar
  | tcr
  | chcr
  | len
  | stat
  | fifoData
deriving DecidableEq, Repr

/-- The registers of a division unit (R31). -/
inductive DivReg where
  | dvsr
  | dvdnt
  | dvdnth
  | dvdntl
  | quot
  | rem
  | quotM
  | remM
deriving DecidableEq, Repr

/-- Register ids. -/
inductive Reg where
  | sys (i : Nat)
  | vdp (i : Nat)
  | loc (k : Cop) (i : Nat)
  | comm (i : Nat)
  | pwm (i : Nat)
  | dma (d : DmaReg)
  | div (k : Cop) (d : DivReg)
deriving DecidableEq, Repr

/-- One line of the register map: through handler `handler`, processor `pid` sees register `reg` at byte address `base` and
the bytes after it (R26). -/
structure RegRow where
  pid : Pid
  handler : Handler
  base : Word
  reg : Reg
deriving DecidableEq, Repr

/-! ## Predicates and functions as lists -/

/-- `(v & mask) = value`. -/
structure MaskTest where
  mask : Word
  value : Word
deriving DecidableEq, Repr

/-- A test of one word of a register array. -/
structure RegTest where
  index : Nat
  mask : Half
  value : Half
deriving DecidableEq, Repr

/-- The kinds of entry `accessCycles` tells apart. -/
inductive AccessKind where
  | mem
  | hnd (h : Handler)
  | stub
deriving DecidableEq, Repr

/-- One value of `accessCycles` (R5). -/
structure CycleRow where
  pid : Pid
  kind : AccessKind
  width : Width
  cycles : Word
deriving DecidableEq, Repr

/-- An interrupt request `host.raise(target, level, vector)` (R257). -/
structure Irq where
  target : Pid
  level : Nat
  vector : Nat
deriving DecidableEq, Repr

/-- One line of IRQ_LIKELY and IRQ_RAISE (R125, R257): it applies to a write by `pid` to `reg` whose old and new values
pass the two tests. -/
structure IrqRow where
  pid : Pid
  reg : Reg
  old : MaskTest
  new : MaskTest
  likely : Bool
  raises : List Irq
deriving DecidableEq, Repr

/-- One slot of FB_DRAW_SLOTS or FB_VIS_SLOTS with its `FBbase` (R231). -/
structure FbSlot where
  pid : Pid
  width : Width
  dir : Dir
  slot : Nat
  base : Nat
deriving DecidableEq, Repr

/-- DIV0 (R5): what a division by zero leaves. -/
inductive DivZero where
  | stale
  | zero
deriving DecidableEq, Repr

/-- MISALIGN (R5). -/
inductive Misalign where
  | alignDown
  | refuse
deriving DecidableEq, Repr

/-- The OPEN parameters of R5. Register positions are indexes of SYS or VDP words (R27). -/
structure Config where
  /-- SHIFT[p]. -/
  shift : PerPid Nat
  /-- NSLOT[p]. -/
  nslot : PerPid Nat
  /-- VIEW0. -/
  view0 : Views
  /-- REGMAP[p] and base_p(r). -/
  regmap : List RegRow
  /-- N_SYS. -/
  nSys : Nat
  /-- N_VDP. -/
  nVdp : Nat
  /-- N_LOCAL. -/
  nLoc : Nat
  /-- N_COMM. -/
  nComm : Nat
  /-- N_PWM. -/
  nPwm : Nat
  /-- WMASK(r); a register that is not listed is wholly writable. -/
  wmask : List (Reg × Word)
  /-- RESET_VALUE(r); a register that is not listed resets to 0. -/
  resetValue : List (Reg × Word)
  /-- POLL_SET as its membership table. -/
  pollSet : PerPid (PerClass Bool)
  /-- POLL_MAXGAP[c]. -/
  pollMaxgap : PerClass Word
  /-- SYNC_GAP[c]. -/
  syncGap : PerClass Word
  /-- FIFO_CAP. -/
  fifoCap : Nat
  /-- DMA_OWNER. -/
  dmaOwner : Cop
  /-- DMA_EN(CHCR): true when one of the tests holds. -/
  dmaEn : List MaskTest
  /-- DMA_DONE_BIT. -/
  dmaDoneBit : Nat
  /-- The position of STAT.FULL (R29). -/
  statFullBit : Nat
  /-- TCR_W. -/
  tcrW : Nat
  /-- CART_SIZE. -/
  cartSize : Nat
  /-- size(FB[0]). -/
  fb0Size : Nat
  /-- size(FB[1]). -/
  fb1Size : Nat
  /-- The sizes of the RAM regions. -/
  ramSizes : List Nat
  /-- BANK_SIZE. -/
  bankSize : Nat
  /-- BANK_SLOTS.first. -/
  bankFirst : Nat
  /-- |BANK_SLOTS|. -/
  bankCount : Nat
  /-- The SYS word that holds BANK_FIELD, the field's lowest bit and its width. -/
  bankReg : Nat
  bankLo : Nat
  bankWidth : Nat
  /-- RES_REG and RES_BIT. -/
  resReg : Nat
  resBit : Nat
  /-- FS_REG and FS_BIT. -/
  fsReg : Nat
  fsBit : Nat
  /-- The VDP words FILL_LEN, FILL_ADDR, FILL_DATA. -/
  fillLen : Nat
  fillAddr : Nat
  fillData : Nat
  /-- FILL_LEN_W. -/
  fillLenW : Nat
  /-- FB_DRAW_SLOTS and FB_VIS_SLOTS. -/
  fbDraw : List FbSlot
  fbVis : List FbSlot
  /-- FB_MASK. -/
  fbMask : Word
  /-- FB_GATE over VDP words: true when every test of one of the lists holds. -/
  fbGate : List (List RegTest)
  /-- COMM_ENABLED over SYS words, in the same form. -/
  commEnabled : List (List RegTest)
  /-- DIV0. -/
  div0 : DivZero
  /-- accessCycles of every access that `cycles` does not list. -/
  cyclesDefault : Word
  /-- accessCycles. -/
  cycles : List CycleRow
  /-- IRQ_LIKELY and IRQ_RAISE. -/
  irq : List IrqRow
  /-- MISALIGN. -/
  misalign : Misalign
  /-- Whether a COMM write that changes a bit outside WMASK logs A3, as the example in R253 says, or not, as R211's
  pseudocode has it; the spec's files differ, so both are allowed (log 12). -/
  commA3 : Bool
deriving DecidableEq, Repr

/-- `draw_32` (R239, R240, I5): the n-th free value. It has no body: nothing can be proved of it (log 15). -/
opaque Config.drawWord : Nat → Word

/-- What backing memory holds at power-on (R24, R280, I15: a draw, any value), for each key of MEM. It has no body: nothing can
be proved of it (log 4). -/
opaque Config.powerOnByte : Nat → Byte

/-! ## The example configuration EX (95_test_vectors.md section 2) -/

/-- The same tables for each width. -/
def Config.everyWidth {α : Type} (a : α) : PerWidth α := { w8 := a, w16 := a, w32 := a }

/-- The slots every processor sees in every view: SYS, COMM, DMA, VDP. -/
def Config.exShared : View := [(0x1, .hnd .sys), (0x2, .hnd .comm), (0x3, .hnd .dma), (0x4, .hnd .vdp)]

/-- FB_DRAW_SLOTS for FB_HALF = 0. -/
def Config.exDraw : View := [(0x40, .mem (.fb false) 0 0xFFFF), (0x41, .mem (.fb false) 0x10000 0xFFFF)]

/-- FB_VIS_SLOTS for FB_HALF = 0. -/
def Config.exVis : View := [(0x42, .mem (.fb true) 0 0xFFFF), (0x43, .mem (.fb true) 0x10000 0xFFFF)]

/-- The coprocessor RAM. -/
def Config.exRam : View :=
  [(0x60, .mem (.ram 0) 0 0xFFFF), (0x61, .mem (.ram 0) 0x10000 0xFFFF), (0x62, .mem (.ram 0) 0x20000 0xFFFF),
   (0x63, .mem (.ram 0) 0x30000 0xFFFF)]

/-- The bank window at bank 0. -/
def Config.exBank : View :=
  [(0x90, .mem .cart 0 0xFFFF), (0x91, .mem .cart 0x10000 0xFFFF), (0x92, .mem .cart 0x20000 0xFFFF),
   (0x93, .mem .cart 0x30000 0xFFFF), (0x94, .mem .cart 0x40000 0xFFFF), (0x95, .mem .cart 0x50000 0xFFFF),
   (0x96, .mem .cart 0x60000 0xFFFF), (0x97, .mem .cart 0x70000 0xFFFF)]

def Config.exView0 : Views where
  pri := Config.everyWidth
    { rd := Config.exShared ++ Config.exDraw ++ Config.exVis ++ Config.exBank
      wr := Config.exShared ++ Config.exDraw }
  mcp := Config.everyWidth
    { rd := Config.exShared ++ [(0x5, .hnd .div), (0x6, .hnd .dma)] ++ Config.exDraw ++ Config.exRam
      wr := Config.exShared ++ [(0x5, .hnd .div), (0x6, .hnd .dma)] ++ Config.exDraw ++ Config.exRam }
  scp := Config.everyWidth
    { rd := Config.exShared ++ [(0x5, .hnd .div)] ++ Config.exDraw ++ Config.exRam
      wr := Config.exShared ++ [(0x5, .hnd .div)] ++ Config.exDraw ++ Config.exRam }

/-- The registers all three processors see, as `p` sees them. -/
def Config.exRegs (p : Pid) : List RegRow :=
  [⟨p, .sys, 0x00010000, .sys 0⟩, ⟨p, .sys, 0x00010002, .sys 1⟩] ++
  (List.range 8).map (fun i => ⟨p, .comm, BitVec.ofNat 32 (0x00020000 + 2 * i), .comm i⟩) ++
  [⟨p, .dma, 0x00030000, .dma .fifoData⟩, ⟨p, .dma, 0x00030002, .dma .len⟩, ⟨p, .dma, 0x00030004, .dma .stat⟩] ++
  [⟨p, .vdp, 0x00040000, .vdp 0⟩, ⟨p, .vdp, 0x00040002, .vdp 1⟩, ⟨p, .vdp, 0x00040004, .vdp 2⟩,
   ⟨p, .vdp, 0x00040006, .vdp 3⟩]

/-- The division unit of coprocessor `k`, which it sees as processor `p`. -/
def Config.exDivRegs (p : Pid) (k : Cop) : List RegRow :=
  [⟨p, .div, 0x00050000, .div k .dvsr⟩, ⟨p, .div, 0x00050004, .div k .dvdnt⟩, ⟨p, .div, 0x00050010, .div k .dvdnth⟩,
   ⟨p, .div, 0x00050014, .div k .dvdntl⟩, ⟨p, .div, 0x00050018, .div k .quot⟩, ⟨p, .div, 0x0005001C, .div k .rem⟩,
   ⟨p, .div, 0x00050020, .div k .quotM⟩, ⟨p, .div, 0x00050024, .div k .remM⟩]

/-- FB_DRAW_SLOTS or FB_VIS_SLOTS of one view: two slots of 64 KiB. -/
def Config.exFbSlots (p : Pid) (w : Width) (d : Dir) (first : Nat) : List FbSlot :=
  [⟨p, w, d, first, 0⟩, ⟨p, w, d, first + 1, 0x10000⟩]

/-- The result registers of a division unit are read-only. -/
def Config.exDivMasks (k : Cop) : List (Reg × Word) :=
  [(.div k .quot, 0), (.div k .rem, 0), (.div k .quotM, 0), (.div k .remM, 0)]

/-- The configuration EX. Where EX is silent (N_LOCAL, N_PWM, the FULL row of STAT beyond its bit) log 1 names the value. -/
def Config.ex : Config where
  shift := { pri := 16, mcp := 16, scp := 16 }
  nslot := { pri := 65536, mcp := 65536, scp := 65536 }
  view0 := Config.exView0
  regmap := Config.exRegs .pri ++ Config.exRegs .mcp ++ Config.exRegs .scp ++
    Config.exDivRegs .mcp .mcp ++ Config.exDivRegs .scp .scp ++
    [⟨.mcp, .dma, 0x00060000, .dma .sar⟩, ⟨.mcp, .dma, 0x00060004, .dma .dar⟩, ⟨.mcp, .dma, 0x00060008, .dma .tcr⟩,
     ⟨.mcp, .dma, 0x0006000C, .dma .chcr⟩]
  nSys := 2
  nVdp := 4
  nLoc := 1
  nComm := 8
  nPwm := 1
  wmask := [(.sys 0, 0x0003), (.sys 1, 0x0007), (.vdp 3, 0x0001), (.dma .stat, 0x0000)] ++
    Config.exDivMasks .mcp ++ Config.exDivMasks .scp
  resetValue := [(.sys 0, 0x0002)]
  pollSet :=
    { pri := ⟨true, true, false, true, true, false⟩, mcp := ⟨true, true, false, true, true, false⟩,
      scp := ⟨true, true, false, true, true, false⟩ }
  pollMaxgap := ⟨64, 64, 64, 64, 64, 64⟩
  syncGap := ⟨32, 32, 32, 32, 32, 32⟩
  fifoCap := 8
  dmaOwner := .mcp
  dmaEn := [⟨1, 1⟩]
  dmaDoneBit := 1
  statFullBit := 0
  tcrW := 32
  cartSize := 0x200000
  fb0Size := 0x20000
  fb1Size := 0x20000
  ramSizes := [0x40000]
  bankSize := 0x80000
  bankFirst := 0x90
  bankCount := 8
  bankReg := 1
  bankLo := 0
  bankWidth := 3
  resReg := 0
  resBit := 0
  fsReg := 3
  fsBit := 0
  fillLen := 0
  fillAddr := 1
  fillData := 2
  fillLenW := 8
  fbDraw := [Pid.pri, .mcp, .scp].flatMap fun p => [Width.w8, .w16, .w32].flatMap fun w => [Dir.rd, .wr].flatMap fun d =>
    Config.exFbSlots p w d 0x40
  fbVis := [Width.w8, .w16, .w32].flatMap fun w => Config.exFbSlots .pri w .rd 0x42
  fbMask := 0xFFFF
  fbGate := [[]]
  commEnabled := [[⟨0, 0x0002, 0x0002⟩]]
  div0 := .stale
  cyclesDefault := 1
  cycles := []
  irq := []
  misalign := .alignDown
  commA3 := false

end Sys2Proof
end

