-- ==== Sys2Proof/Machine/State.lean ====
section
/-! DEFINITION. The state of the block (R20 to R43), as plain data, and the state after reset. -/

namespace Sys2Proof.Machine

/-- A poll detector PD[p][c] (R32); `cnt` runs from 0 to 6. -/
structure Detector where
  anchor : Word
  last : Word
  cnt : Nat
  valid : Bool
deriving DecidableEq, Repr

/-- The detector after a reset or an undetect (R43, R165). -/
def Detector.clear : Detector := { anchor := 0, last := 0, cnt := 0, valid := false }

/-- The DMA record (R29), with the stored value of FIFO_DATA (R181). -/
structure Dma where
  sar : Word
  dar : Word
  tcr : Word
  chcr : Word
  len : Half
  stat : Half
  fifoData : Half
  fifo : List Half
  rx : Word
  busy : Bool
deriving DecidableEq, Repr

/-- A division unit DIVU[k] (R31). -/
structure Divu where
  dvsr : Word
  dvdnt : Word
  dvdnth : Word
  dvdntl : Word
  quot : Word
  rem : Word
  quotM : Word
  remM : Word
deriving DecidableEq, Repr

/-- Anomaly codes A1 to A10 (R251). -/
inductive Code where
  | a1
  | a2
  | a3
  | a4
  | a5
  | a6
  | a7
  | a8
  | a9
  | a10
deriving DecidableEq, Repr

/-- A record of ANOM (R39, R251). `pid` holds the two pid bits, which an illegal packet may have at 3; it is none where
the record has no processor (A9). -/
structure Anomaly where
  code : Code
  pid : Option (BitVec 2)
  addr : Word
deriving DecidableEq, Repr

/-- The response record of a command (R10). -/
structure Response where
  value : Word
  cycles : Word
  irq : Bool
deriving DecidableEq, Repr

/-- The response of a command that defines none of its fields (R10). -/
def Response.zero : Response := { value := 0, cycles := 0, irq := false }

/-- Where a packet comes from (R93): the host, or, in a trace, the block's own rules as a step of a command of `writer`. -/
inductive Origin where
  | host
  | internal (writer : Pid)
deriving DecidableEq, Repr

/-- A command the block has been sent and has not performed yet. -/
structure Request where
  origin : Origin
  packet : Packet
deriving DecidableEq, Repr

/-- A bus access a coprocessor makes while it runs inside the sync gate (R143, R149; log 23). -/
inductive CopCmd where
  | read (w : Width) (addr cyc : Word)
  | write (w : Width) (addr data cyc : Word)
deriving DecidableEq, Repr

/-- The host's answer to one `host.run(k, n)`: the commands coprocessor k issues, and the cycles it used; `none` when the run
never returns (R149). -/
structure Run where
  cmds : List CopCmd
  used : Option Word
deriving DecidableEq, Repr

/-- A call the block makes to a collaborator (R263), and the responses a coprocessor gets during a nested run. -/
inductive HostCall where
  | run (k : Cop) (n : Word)
  | raise (target : Pid) (level vector : Nat)
  | resetCop (k : Cop)
  | answer (k : Cop) (r : Response)
deriving DecidableEq, Repr

/-- Why the command in progress cannot be completed. -/
inductive Stop where
  /-- host.run(k, n) never returned (R149). -/
  | hung (k : Cop)
  /-- A misaligned access with MISALIGN = REFUSE (R67). -/
  | misaligned
  /-- A view entry breaking R62, or SPLIT in an 8- or 16-bit view (R112). -/
  | illFormedView
deriving DecidableEq, Repr

/-- The state of the block. The fields down to `initFailed` are the record S of R20; the others are R280's, the
configuration of R5, and the model's own (log 5, 9, 10, 15, 22). -/
structure State where
  /-- The OPEN parameters (R5). -/
  cfg : Config
  /-- VIEW (R22). -/
  view : Views
  /-- MEM (R24): the bytes written, one key for each byte of each region, see Ops.lean; canonical form `Memory.wf`. -/
  mem : List Host.Cell
  /-- REG (R25). -/
  sys : List Half
  vdp : List Half
  loc : PerCop (List Half)
  comm : List Half
  pwm : List Half
  /-- DIVU (R31). -/
  divu : PerCop Divu
  /-- DMA (R29). -/
  dma : Dma
  /-- PD and SPIN (R32, R33). -/
  pd : PerPid (PerClass Detector)
  spin : PerPid (PerClass Bool)
  /-- DIRTY (R34). -/
  dirty : PerClass (PerSide Bool)
  /-- LAST_SYNC and VT (R35). -/
  lastSync : Word
  vt : PerCop Word
  /-- END_SLICE (R36). -/
  endSlice : PerPid Bool
  /-- FB_HALF (R37): `true` when FB[1] is being drawn. -/
  fbHalf : Bool
  /-- BANK_OFF (R38). -/
  bankOff : Word
  /-- ANOM (R39), oldest record first. -/
  anom : List Anomaly
  /-- INIT_FAILED (R40). -/
  initFailed : Bool
  /-- Whether an INIT has been performed since power-on (R280). -/
  initialised : Bool
  /-- The commands that have arrived, oldest first (R21, R75). -/
  queue : List Request
  /-- The processor whose command issued the INTERNAL packet being performed (R216's p). -/
  writer : Pid
  /-- The host's answers to the coming host.run calls, in order. -/
  runs : List Run
  /-- The collaborator calls made, oldest first. -/
  calls : List HostCall
  /-- The response of the last command (R94). -/
  resp : Response
  /-- How many free values have been drawn. -/
  draws : Nat
  /-- Why the command in progress cannot be completed; none between commands. -/
  stop : Option Stop
deriving DecidableEq, Repr

/-- Why the machine stops with a fault. -/
inductive Fault where
  /-- A `host.run` that never returns: the primary's access hangs (R149). Raised by every command whose sync gate calls it
  (the BUS commands of PRI, SYNC_RD, SYNC_WR). Safe: the machine stops where the hardware hangs. -/
  | coprocessorRunHung (k : Cop)
deriving DecidableEq, Repr

/-- Why the model declines a command. -/
inductive Refusal where
  /-- An instruction without a meaning yet (no arm is left so). -/
  | notModelled (mnemonic : String)
  /-- A command before the first INIT (R280). Raised by every command but INIT. Safe: the spec refuses it. -/
  | uninitialised
  /-- A command while INIT_FAILED (R256). Raised by every command but INIT. Safe: the spec refuses it. -/
  | initFailed
  /-- A misaligned access with MISALIGN = REFUSE (R67), made by the command or inside it (log 19). Safe. -/
  | misalignedAccess
  /-- An access through an ill-formed view (R62, R112). Raised by the BUS commands and what they nest. Safe. -/
  | illFormedView
  /-- INIT with a configuration that breaks R282, or the partition of R5, or has no slot for an address (R23; log 20). Safe: the
  spec refuses it when a model is built (R282, I21). -/
  | illFormedConfiguration
deriving DecidableEq, Repr

/-- What a command answers. -/
abbrev Result := Host.Outcome State Fault Refusal

/-- The state right after reset, the table of R43: the state S0 of 95_test_vectors.md, after `init @0` with the
configuration EX (log 1, 3, 4). EX's VIEW0 already maps the bank window at bank 0 and the framebuffer slots for half 0. -/
def State.reset : State where
  cfg := Config.ex
  view := Config.exView0
  mem := []
  sys := [0x0002, 0]
  vdp := [0, 0, 0, 0]
  loc := { mcp := [0], scp := [0] }
  comm := [0, 0, 0, 0, 0, 0, 0, 0]
  pwm := [0]
  divu := { mcp := ⟨0, 0, 0, 0, 0, 0, 0, 0⟩, scp := ⟨0, 0, 0, 0, 0, 0, 0, 0⟩ }
  dma := { sar := 0, dar := 0, tcr := 0, chcr := 0, len := 0, stat := 0, fifoData := 0, fifo := [], rx := 0, busy := false }
  pd :=
    let d := Detector.clear
    { pri := ⟨d, d, d, d, d, d⟩, mcp := ⟨d, d, d, d, d, d⟩, scp := ⟨d, d, d, d, d, d⟩ }
  spin :=
    let f := false
    { pri := ⟨f, f, f, f, f, f⟩, mcp := ⟨f, f, f, f, f, f⟩, scp := ⟨f, f, f, f, f, f⟩ }
  dirty :=
    let f : PerSide Bool := { pri := false, cop := false }
    ⟨f, f, f, f, f, f⟩
  lastSync := 0
  vt := { mcp := 0, scp := 0 }
  endSlice := { pri := false, mcp := false, scp := false }
  fbHalf := false
  bankOff := 0
  anom := []
  initFailed := false
  initialised := true
  queue := []
  writer := .pri
  runs := []
  calls := []
  resp := Response.zero
  draws := 0
  stop := none

/-- Power-on, before the first INIT (R280): every command but INIT is refused, and ANOM is empty. The fields an INIT writes
have no meaning yet and are given their values in `State.reset` (log 3). -/
def State.powerOn : State := { State.reset with initialised := false }

end Sys2Proof.Machine
end

