-- ==== Sys2Proof/Machine/Ops.lean ====
section
/-! DEFINITION. The shared operations over the state: the small tables, backing memory (R24, R66), the register bank (R25),
views (R22), anomalies (R251), collaborator calls (R263), free values and the end of a command.

The block takes no exception, saves no pc and returns from none (R250, R259): its one way to report a violation is `logAnomaly`,
the shared operation every rule uses. -/

namespace Sys2Proof

/-! ## Small tables -/

def PerPid.get {α : Type} (t : PerPid α) : Pid → α
  | .pri => t.pri
  | .mcp => t.mcp
  | .scp => t.scp

def PerPid.set {α : Type} (t : PerPid α) (p : Pid) (a : α) : PerPid α :=
  match p with
  | .pri => { t with pri := a }
  | .mcp => { t with mcp := a }
  | .scp => { t with scp := a }

def PerCop.get {α : Type} (t : PerCop α) : Cop → α
  | .mcp => t.mcp
  | .scp => t.scp

def PerCop.set {α : Type} (t : PerCop α) (k : Cop) (a : α) : PerCop α :=
  match k with
  | .mcp => { t with mcp := a }
  | .scp => { t with scp := a }

def PerWidth.get {α : Type} (t : PerWidth α) : Width → α
  | .w8 => t.w8
  | .w16 => t.w16
  | .w32 => t.w32

def PerWidth.set {α : Type} (t : PerWidth α) (w : Width) (a : α) : PerWidth α :=
  match w with
  | .w8 => { t with w8 := a }
  | .w16 => { t with w16 := a }
  | .w32 => { t with w32 := a }

def PerDir.get {α : Type} (t : PerDir α) : Dir → α
  | .rd => t.rd
  | .wr => t.wr

def PerDir.set {α : Type} (t : PerDir α) (d : Dir) (a : α) : PerDir α :=
  match d with
  | .rd => { t with rd := a }
  | .wr => { t with wr := a }

def PerSide.get {α : Type} (t : PerSide α) : Side → α
  | .pri => t.pri
  | .cop => t.cop

def PerSide.set {α : Type} (t : PerSide α) (d : Side) (a : α) : PerSide α :=
  match d with
  | .pri => { t with pri := a }
  | .cop => { t with cop := a }

def PerClass.get {α : Type} (t : PerClass α) : RegClass → α
  | .sys => t.sys
  | .vdp => t.vdp
  | .loc => t.loc
  | .comm => t.comm
  | .pwm => t.pwm
  | .dma => t.dma

def PerClass.set {α : Type} (t : PerClass α) (c : RegClass) (a : α) : PerClass α :=
  match c with
  | .sys => { t with sys := a }
  | .vdp => { t with vdp := a }
  | .loc => { t with loc := a }
  | .comm => { t with comm := a }
  | .pwm => { t with pwm := a }
  | .dma => { t with dma := a }

/-- The three processors, in pid order. -/
def Pid.all : List Pid := [.pri, .mcp, .scp]

/-- The six classes, in code order (R6). -/
def RegClass.all : List RegClass := [.sys, .vdp, .loc, .comm, .pwm, .dma]

/-- The three widths. -/
def Width.all : List Width := [.w8, .w16, .w32]

/-- The processor a coprocessor is. -/
def Cop.pid : Cop → Pid
  | .mcp => .mcp
  | .scp => .scp

/-- Processor ids as numbers (R3). -/
def Pid.index : Pid → Nat
  | .pri => 0
  | .mcp => 1
  | .scp => 2

/-- Class codes as numbers (R6). -/
def RegClass.index : RegClass → Nat
  | .sys => 0
  | .vdp => 1
  | .loc => 2
  | .comm => 3
  | .pwm => 4
  | .dma => 5

/-- side(p) (R7). -/
def Pid.side : Pid → Side
  | .pri => .pri
  | .mcp => .cop
  | .scp => .cop

/-- other(side) (R7). -/
def Side.other : Side → Side
  | .pri => .cop
  | .cop => .pri

/-- Bytes of an access (R68). -/
def Width.bytes : Width → Nat
  | .w8 => 1
  | .w16 => 2
  | .w32 => 4

/-! ## Sparse tables in canonical form

Keys strictly rising, no entry that holds the value an unlisted key has, so that equal tables are equal lists. -/

/-- The value under a key; `d` is what an unlisted key holds. -/
def Table.get {β : Type} (d : β) : List (Nat × β) → Nat → β
  | [], _ => d
  | (k, v) :: rest, a => if k = a then v else Table.get d rest a

/-- Put a value under a key, keeping the canonical form. -/
def Table.set {β : Type} [DecidableEq β] (d : β) : List (Nat × β) → Nat → β → List (Nat × β)
  | [], a, b => if b = d then [] else [(a, b)]
  | (k, v) :: rest, a, b =>
    if a < k then (if b = d then (k, v) :: rest else (a, b) :: (k, v) :: rest)
    else if a = k then (if b = d then rest else (a, b) :: rest)
    else (k, v) :: Table.set d rest a b

/-- Every key is above `lo` or there is no bound, keys rise strictly, and no entry holds `d`. -/
def Table.wfFrom {β : Type} [DecidableEq β] (d : β) : Option Nat → List (Nat × β) → Bool
  | _, [] => true
  | lo, (k, v) :: rest => lo.all (fun l => decide (l < k)) && decide (v ≠ d) && Table.wfFrom d (some k) rest

/-- The canonical form. -/
def Table.wf {β : Type} [DecidableEq β] (d : β) (t : List (Nat × β)) : Bool := Table.wfFrom d none t

/-- size(region) (R24). -/
def Config.regionSize (g : Config) : Region → Nat
  | .cart => g.cartSize
  | .fb false => g.fb0Size
  | .fb true => g.fb1Size
  | .ram n => g.ramSizes.getD n 0

namespace Machine

/-! ## Backing memory (R24, R66)

MEM lists the bytes that have been written, keys strictly rising. A byte that nothing has written is not listed: it has no value
of the model's own, and reads as the power-on draw (log 4). -/

/-- The byte listed under a key, none when nothing has written it. -/
def Memory.find : List Host.Cell → Nat → Option Byte
  | [], _ => none
  | (k, v) :: rest, a => if k = a then some v else Memory.find rest a

/-- Put a byte under a key, keeping the keys in order. -/
def Memory.put : List Host.Cell → Nat → Byte → List Host.Cell
  | [], a, b => [(a, b)]
  | (k, v) :: rest, a, b =>
    if a < k then (a, b) :: (k, v) :: rest
    else if a = k then (a, b) :: rest
    else (k, v) :: Memory.put rest a b

/-- Every key is above `lo`, or there is no bound, and keys rise strictly. -/
def Memory.wfFrom : Option Nat → List Host.Cell → Bool
  | _, [] => true
  | lo, (k, _) :: rest => lo.all (fun l => decide (l < k)) && Memory.wfFrom (some k) rest

/-- The canonical form of MEM. -/
def Memory.wf (m : List Host.Cell) : Bool := Memory.wfFrom none m

/-- The number of a region. -/
def regionIndex : Region → Nat
  | .cart => 0
  | .fb false => 1
  | .fb true => 2
  | .ram n => 3 + n

/-- The key of byte `off` of a region: one key for each byte of each region, whatever the regions' sizes. -/
def cellKey (r : Region) (off : Nat) : Nat := 2 ^ regionIndex r * (2 * off + 1)

/-- One byte of backing memory: what was last written there, else the power-on draw. -/
def readByte (s : State) (r : Region) (off : Nat) : Byte :=
  (Memory.find s.mem (cellKey r off)).getD (Config.powerOnByte (cellKey r off))

/-- MemRead(R, off, n): n bytes, the byte at `off` most significant (R66). -/
def memRead (s : State) (r : Region) (off : Nat) : Nat → Word
  | 0 => 0
  | n + 1 => (memRead s r off n <<< 8) ||| (readByte s r (off + n)).setWidth 32

/-- The byte of an n-byte value that MemWrite stores at `off + i`: v[8(n-i)-1 : 8(n-i)-8] (R66). -/
def storedByte (n : Nat) (v : Word) (i : Nat) : Byte := (v >>> (8 * (n - 1 - i))).setWidth 8

/-- MemWrite(R, off, n, v) on the memory itself (R66), for a region of `size` bytes: it has no byte at `size` or above, and none
is stored there. Only a fill into a half of an odd number of bytes, or of 0 bytes, comes there (log 31, DESIGN CHOICE). -/
def putBytes (m : List Host.Cell) (r : Region) (size off n : Nat) (v : Word) : List Host.Cell :=
  (List.range n).foldl
    (fun m i => if off + i < size then Memory.put m (cellKey r (off + i)) (storedByte n v i) else m) m

/-- MemWrite(R, off, n, v) (R66). -/
def memWrite (r : Region) (off n : Nat) (v : Word) (s : State) : State :=
  { s with mem := putBytes s.mem r (s.cfg.regionSize r) off n v }

/-! ## Anomalies, collaborator calls, free values, the end of a command -/

/-- The pid bits of an anomaly record. -/
def pidBits (p : Pid) : Option (BitVec 2) := some p.code

/-- `log(code, p, a)`: append one record to ANOM and do nothing else (R9, R251). -/
def logAnomaly (c : Code) (p : Option (BitVec 2)) (a : Word) (s : State) : State :=
  { s with anom := s.anom ++ [{ code := c, pid := p, addr := a }] }

/-- Record a collaborator call (R263). -/
def recordCall (c : HostCall) (s : State) : State := { s with calls := s.calls ++ [c] }

/-- The command in progress cannot be completed; the first reason stands. -/
def halt (r : Stop) (s : State) : State := { s with stop := s.stop.or (some r) }

/-- The next free value (R239, R240; log 15). -/
def nextDraw (s : State) : Word := Config.drawWord s.draws

/-- A free value has been taken. -/
def countDraw (s : State) : State := { s with draws := s.draws + 1 }

/-- Give the response of the command (R94). -/
def respond (r : Response) (s : State) : State := { s with resp := r }

/-- How a command that could not be completed ends. -/
def Stop.outcome : Stop → Result
  | .hung k => .fault (.coprocessorRunHung k)
  | .misaligned => .refused .misalignedAccess
  | .illFormedView => .refused .illFormedView

/-- The outcome of a command whose effects led to `s`. -/
def settle (s : State) : Result :=
  match s.stop with
  | none => .next s
  | some r => r.outcome

/-- Perform a command: refused before the first INIT (R280) and while INIT_FAILED (R256). -/
def perform (s : State) (f : State → State) : Result :=
  if !s.initialised then .refused .uninitialised
  else if s.initFailed then .refused .initFailed
  else settle (f s)

/-! ## The register bank (R25, R29, R31) -/

def dmaLoad (d : Dma) : DmaReg → Word
  | .sar => d.sar
  | .dar => d.dar
  | .tcr => d.tcr
  | .chcr => d.chcr
  | .len => d.len.setWidth 32
  | .stat => d.stat.setWidth 32
  | .fifoData => d.fifoData.setWidth 32

def dmaStore (d : Dma) (r : DmaReg) (v : Word) : Dma :=
  match r with
  | .sar => { d with sar := v }
  | .dar => { d with dar := v }
  | .tcr => { d with tcr := v }
  | .chcr => { d with chcr := v }
  | .len => { d with len := v.setWidth 16 }
  | .stat => { d with stat := v.setWidth 16 }
  | .fifoData => { d with fifoData := v.setWidth 16 }

def divLoad (u : Divu) : DivReg → Word
  | .dvsr => u.dvsr
  | .dvdnt => u.dvdnt
  | .dvdnth => u.dvdnth
  | .dvdntl => u.dvdntl
  | .quot => u.quot
  | .rem => u.rem
  | .quotM => u.quotM
  | .remM => u.remM

def divStore (u : Divu) (r : DivReg) (v : Word) : Divu :=
  match r with
  | .dvsr => { u with dvsr := v }
  | .dvdnt => { u with dvdnt := v }
  | .dvdnth => { u with dvdnth := v }
  | .dvdntl => { u with dvdntl := v }
  | .quot => { u with quot := v }
  | .rem => { u with rem := v }
  | .quotM => { u with quotM := v }
  | .remM => { u with remM := v }

/-- A word of a register array, zero-extended. A word the array does not have reads 0 (log 36, DESIGN CHOICE). -/
def wordAt (l : List Half) (i : Nat) : Word := (l.getD i 0).setWidth 32

/-- `REG[r]`, zero-extended to 32 bits (R9). -/
def regLoad (s : State) : Reg → Word
  | .sys i => wordAt s.sys i
  | .vdp i => wordAt s.vdp i
  | .loc k i => wordAt (s.loc.get k) i
  | .comm i => wordAt s.comm i
  | .pwm i => wordAt s.pwm i
  | .dma d => dmaLoad s.dma d
  | .div k d => divLoad (s.divu.get k) d

/-- `REG[r] <- v` (R9). -/
def regStore (r : Reg) (v : Word) (s : State) : State :=
  match r with
  | .sys i => { s with sys := s.sys.set i (v.setWidth 16) }
  | .vdp i => { s with vdp := s.vdp.set i (v.setWidth 16) }
  | .loc k i => { s with loc := s.loc.set k ((s.loc.get k).set i (v.setWidth 16)) }
  | .comm i => { s with comm := s.comm.set i (v.setWidth 16) }
  | .pwm i => { s with pwm := s.pwm.set i (v.setWidth 16) }
  | .dma d => { s with dma := dmaStore s.dma d v }
  | .div k d => { s with divu := s.divu.set k (divStore (s.divu.get k) d v) }

/-! ## Views (R22) -/

/-- VIEW[p][w][d]. -/
def viewOf (s : State) (p : Pid) (w : Width) (d : Dir) : View := ((s.view.get p).get w).get d

/-- Rewrite one slot of a view. -/
def Views.put (vs : Views) (p : Pid) (w : Width) (d : Dir) (slot : Nat) (e : Entry) : Views :=
  let byDir := (vs.get p).get w
  vs.set p ((vs.get p).set w (byDir.set d (Table.set Entry.stub (byDir.get d) slot e)))

/-! ## Other fields -/

def setEndSlice (p : Pid) (b : Bool) (s : State) : State := { s with endSlice := s.endSlice.set p b }

def setDirty (c : RegClass) (d : Side) (b : Bool) (s : State) : State :=
  { s with dirty := s.dirty.set c ((s.dirty.get c).set d b) }

def setVt (k : Cop) (v : Word) (s : State) : State := { s with vt := s.vt.set k v }

/-- PD[p][c]. -/
def detectorOf (s : State) (p : Pid) (c : RegClass) : Detector := (s.pd.get p).get c

def setDetector (p : Pid) (c : RegClass) (d : Detector) (s : State) : State :=
  { s with pd := s.pd.set p ((s.pd.get p).set c d) }

/-- SPIN[p][c]. -/
def spinOf (s : State) (p : Pid) (c : RegClass) : Bool := (s.spin.get p).get c

def setSpin (p : Pid) (c : RegClass) (b : Bool) (s : State) : State :=
  { s with spin := s.spin.set p ((s.spin.get p).set c b) }

/-- DIRTY[c][side]. -/
def dirtyOf (s : State) (c : RegClass) (d : Side) : Bool := (s.dirty.get c).get d

/-- `after(a, b)`: sext_32(a - b) > 0 (R272). -/
def after (a b : Word) : Bool := (0 : Word).slt (a - b)

end Machine

end Sys2Proof
end

