-- ==== Sys2Proof/Machine/Platform.lean ====
section
/-! DEFINITION. What the configuration's data says: the OPEN functions and predicates of R5 as functions, and the check of
R282. -/

namespace Sys2Proof

namespace Config

/-- (p, c) ∈ POLL_SET. -/
def polled (g : Config) (p : Pid) (c : RegClass) : Bool := (g.pollSet.get p).get c

/-- The processor that owns the DMA channel. -/
def owner (g : Config) : Pid := g.dmaOwner.pid

end Config

/-- The first value listed under a register. -/
def Reg.lookup (d : Word) : List (Reg × Word) → Reg → Word
  | [], _ => d
  | (q, v) :: rest, r => if q = r then v else Reg.lookup d rest r

/-- The width of a register in bytes: 2 for a register bank word, LEN, STAT and FIFO_DATA, 4 for the others (R26, R29, R31). -/
def Reg.bytes : Reg → Nat
  | .sys _ | .vdp _ | .loc _ _ | .comm _ | .pwm _ => 2
  | .dma .len | .dma .stat | .dma .fifoData => 2
  | .dma .sar | .dma .dar | .dma .tcr | .dma .chcr => 4
  | .div _ _ => 4

/-- Whether the registers a handler is named after are 16 bits wide: the register arrays of R25, not the division unit's (R31). DMA
has registers of both widths (R29), and counts as 32 here (log 11). -/
def Handler.halves : Handler → Bool
  | .sys | .vdp | .loc | .comm | .pwm => true
  | .dma | .div => false

/-- class(r) (R6, R29, R31). -/
def Reg.cls : Reg → RegClass
  | .sys _ => .sys
  | .vdp _ => .vdp
  | .loc _ _ => .loc
  | .comm _ => .comm
  | .pwm _ => .pwm
  | .dma _ => .dma
  | .div _ _ => .loc

/-- The low `n` bits. -/
def lowMask (n : Nat) : Word := BitVec.ofNat 32 (2 ^ n - 1)

namespace Config

/-- The bits register r has: TCR_W of its 32 for TCR (R5, R29, D4; log 16), else its width. -/
def regMask (g : Config) : Reg → Word
  | .dma .tcr => lowMask (min g.tcrW 32)
  | r => lowMask (8 * r.bytes)

/-- TCR - 1, modulo 2^TCR_W (R29, R185; log 16). -/
def tcrDown (g : Config) (v : Word) : Word := if v = 0 then g.regMask (.dma .tcr) else v - 1

/-- The bit STAT.FULL (R29). -/
def fullBit (g : Config) : Word := (1 : Word) <<< g.statFullBit

/-- WMASK(r). The FULL bit of STAT is outside WMASK(STAT) (R190). -/
def writable (g : Config) (r : Reg) : Word :=
  let m := Reg.lookup 0xFFFFFFFF g.wmask r
  match r with
  | .dma .stat => m &&& ~~~g.fullBit
  | _ => m

/-- RESET_VALUE(r). -/
def resetOf (g : Config) (r : Reg) : Word := Reg.lookup 0 g.resetValue r &&& g.regMask r

/-- Whether the register bank holds r (R25). -/
def holds (g : Config) : Reg → Bool
  | .sys i => decide (i < g.nSys)
  | .vdp i => decide (i < g.nVdp)
  | .loc _ i => decide (i < g.nLoc)
  | .comm i => decide (i < g.nComm)
  | .pwm i => decide (i < g.nPwm)
  | .dma _ => true
  | .div _ _ => true

/-- A LOCAL register (a division unit included) is reached only by its own coprocessor (R6). -/
def reaches (p : Pid) : Reg → Bool
  | .loc k _ | .div k _ => p = k.pid
  | .sys _ | .vdp _ | .comm _ | .pwm _ | .dma _ => true

/-- A line of the register map covers addresses when its register exists, its processor may reach it (R6) and its base is aligned
to the register's width (R26); any other line covers nothing (log 18). -/
def covers (g : Config) (q : RegRow) : Bool := g.holds q.reg && reaches q.pid q.reg && q.base.toNat % q.reg.bytes == 0

/-- accessCycles(p, kind, w). -/
def accessCycles (g : Config) (p : Pid) (k : AccessKind) (w : Width) : Word :=
  match g.cycles.find? (fun c => c.pid = p && c.kind = k && c.width = w) with
  | some c => c.cycles
  | none => g.cyclesDefault

end Config

/-- One of a list of mask tests holds. -/
def MaskTest.any (l : List MaskTest) (v : Word) : Bool := l.any fun t => v &&& t.mask == t.value

/-- Every test of one of the lists holds of a register array; a word the array does not have reads 0 (log 36, DESIGN CHOICE). -/
def RegTest.any (l : List (List RegTest)) (a : List Half) : Bool :=
  l.any fun tests => tests.all fun t => a.getD t.index 0 &&& t.mask == t.value

namespace Config

/-- The done bit of CHCR (R29). -/
def doneBit (g : Config) : Word := (1 : Word) <<< g.dmaDoneBit

/-- DMA_EN(CHCR): one of the tests holds. The done bit is not part of it, whatever bits the tests name (R186). -/
def dmaEnabled (g : Config) (chcr : Word) : Bool :=
  g.dmaEn.any fun t => chcr &&& t.mask &&& ~~~g.doneBit == t.value &&& ~~~g.doneBit

/-- COMM_ENABLED(SYS) (R212). -/
def commOn (g : Config) (sys : List Half) : Bool := RegTest.any g.commEnabled sys

/-- FB_GATE(VDP) (R230). -/
def gateOpen (g : Config) (vdp : List Half) : Bool := RegTest.any g.fbGate vdp

/-- The lines of the interrupt table that apply to a register write. -/
def irqRows (g : Config) (p : Pid) (r : Reg) (old new : Word) : List IrqRow :=
  g.irq.filter fun q => q.pid = p && q.reg = r && MaskTest.any [q.old] old && MaskTest.any [q.new] new

/-- IRQ_LIKELY(p, r, old, new) (R127). -/
def irqLikely (g : Config) (p : Pid) (r : Reg) (old new : Word) : Bool := (g.irqRows p r old new).any (·.likely)

/-- IRQ_RAISE(p, r, old, new) (R257). -/
def irqRaise (g : Config) (p : Pid) (r : Reg) (old new : Word) : List Irq := (g.irqRows p r old new).flatMap (·.raises)

/-- The mask of a bank window entry, 2^SHIFT[PRI] - 1 (R221). -/
def bankMask (g : Config) : Word := lowMask g.shift.pri

/-- The slots BANK_SLOTS (R221). -/
def bankSlots (g : Config) : List Nat := (List.range g.bankCount).map (g.bankFirst + ·)

/-- slot(p, a) = (a >> SHIFT[p]) mod NSLOT[p] (R61). -/
def slotOf (g : Config) (p : Pid) (a : Word) : Nat := (a.toNat >>> g.shift.get p) % g.nslot.get p

/-- The BANK_FIELD of a register value (R219). -/
def bankField (g : Config) (v : Word) : Word := (v >>> g.bankLo) &&& lowMask g.bankWidth

/-! ## The configuration check (R282, R62) -/

/-- A MEM entry is well formed when base + mask < size, mask + 1 is a power of two of at least 4 and base is a multiple of 4
(R62); the other entries are judged by the view they stand in. -/
def memOk (g : Config) (r : Region) (base : Nat) (mask : Word) : Bool :=
  decide (base + mask.toNat < g.regionSize r) && mask &&& (mask + 1) == 0 && decide (3 ≤ mask.toNat) && base % 4 == 0

/-- An entry may stand in a view of width w: MEM well formed, SPLIT only in 32-bit views (R112). -/
def entryOk (g : Config) (w : Width) : Entry → Bool
  | .mem r b m => g.memOk r b m
  | .hnd _ => true
  | .split => w = .w32
  | .stub => true

/-- A view is canonical, within NSLOT slots, and every entry may stand in it. -/
def viewOk (g : Config) (p : Pid) (w : Width) (v : View) : Bool :=
  Table.wf Entry.stub v && v.all fun e => decide (e.1 < g.nslot.get p) && g.entryOk w e.2

/-- Every view is well formed. -/
def viewsOk (g : Config) (vs : Views) : Bool :=
  Pid.all.all fun p => Width.all.all fun w => [Dir.rd, .wr].all fun d => g.viewOk p w (((vs.get p).get w).get d)

/-- Every view has a slot, so that every address resolves to an entry (R23, R61). -/
def decodeOk (g : Config) : Bool := Pid.all.all fun p => decide (0 < g.nslot.get p)

/-- BANK_SLOTS covers BANK_SIZE bytes of PRI's space and CART_SIZE is a multiple of BANK_SIZE (R282); a window entry obeys
R62, so PRI's slots hold at least 4 bytes. -/
def bankOk (g : Config) : Bool :=
  g.bankCount * 2 ^ g.shift.pri == g.bankSize && g.cartSize % g.bankSize == 0 &&
  decide (g.bankFirst + g.bankCount ≤ g.nslot.pri) && (g.bankCount == 0 || decide (2 ≤ g.shift.pri))

/-- FB_DRAW_SLOTS and FB_VIS_SLOTS are a partition (R5): no slot stands in them twice. Each is a slot of its processor, and its
entry is well formed in both halves (R62, R231). -/
def fbOk (g : Config) : Bool :=
  (g.fbDraw ++ g.fbVis).all (fun f =>
    decide (f.slot < g.nslot.get f.pid) && g.memOk (.fb false) f.base g.fbMask && g.memOk (.fb true) f.base g.fbMask) &&
  decide ((g.fbDraw ++ g.fbVis).map fun f => (f.pid, f.width, f.dir, f.slot)).Nodup

/-- RESET_VALUE gives the bank field and the FS bit 0 (R282). -/
def resetsOk (g : Config) : Bool :=
  g.bankField (g.resetOf (.sys g.bankReg)) == 0 && !(g.resetOf (.vdp g.fsReg)).getLsbD g.fsBit

/-- The configuration constraints R282 names, and what R5, R22 and R23 say a view and FB_SLOTS are. POLL_SET ⊆ PID × CLASS holds
by type. -/
def wf (g : Config) : Bool :=
  g.viewsOk g.view0 && g.decodeOk && g.bankOk && g.fbOk && g.resetsOk && decide (4 ≤ g.fifoCap)

end Config

end Sys2Proof
end

