-- ==== Sys2Proof/Machine/Operands.lean ====
section
/-! DEFINITION. Operand forms: alignment (R67), view resolution (R111), the register map (R26) and byte lanes (R64, R65,
R123). -/

namespace Sys2Proof.Machine

/-- The address an access of width w is performed at: `a`, `a & ~1` or `a & ~3` (R67). -/
def alignDown (w : Width) (a : Word) : Word := a &&& ~~~(BitVec.ofNat 32 (w.bytes - 1))

/-- The address of an access, or none where MISALIGN = REFUSE refuses it (R67). -/
def alignAccess (g : Config) (w : Width) (a : Word) : Option Word :=
  if g.misalign = .refuse ∧ alignDown w a ≠ a then none else some (alignDown w a)

/-- `Resolve(p, w, d, a)`: the entry of the address's slot (R111). It reads VIEW only. -/
def resolve (s : State) (p : Pid) (w : Width) (d : Dir) (a : Word) : Entry :=
  Table.get Entry.stub (viewOf s p w d) (s.cfg.slotOf p a)

/-- The line of the register map that covers address `a` as processor p sees it through handler h: REGMAP[p](h, a) with
base_p(r), or none (R26). Only a line that `covers` counts (R6; log 18). -/
def regAt (g : Config) (p : Pid) (h : Handler) (a : Word) : Option RegRow :=
  g.regmap.find? fun q => q.pid = p && q.handler = h && decide ((a - q.base).toNat < q.reg.bytes) && g.covers q

/-- The byte lane of address `a` in the register a line covers (R26). -/
def laneOf (q : RegRow) (a : Word) : Nat := (a - q.base).toNat

/-- The registers of handler h that say how wide its registers are for processor p at an address that none of them covers: those p
sees in the address's slot, else all that p sees through h, else h's registers of any processor (log 11). -/
def decidingRows (g : Config) (p : Pid) (h : Handler) (a : Word) : List RegRow :=
  let all := g.regmap.filter fun q => q.handler = h && g.covers q
  let mine := all.filter (·.pid = p)
  match mine.filter fun q => g.slotOf p q.base == g.slotOf p a with
  | [] => if mine.isEmpty then all else mine
  | here => here

/-- A 32-bit access to HND(h) at the aligned address `a` is split when the handler's registers are 16 bits wide (R111). Where h has
registers of both widths, the one at `a` decides, else the one at `a + 2`, else whether one of `decidingRows` is 16 bits wide
(log 11, DESIGN CHOICE); a handler whose registers all have one width splits, or not, at every address. -/
def handlerSplits (g : Config) (p : Pid) (h : Handler) (a : Word) : Bool :=
  match regAt g p h a with
  | some q => q.reg.bytes == 2
  | none =>
    match regAt g p h (a + 2) with
    | some _ => true
    | none =>
      match decidingRows g p h a with
      | [] => h.halves
      | rows => rows.any (·.reg.bytes == 2)

/-- The shift that brings lane `o` of an n-byte access to an m-byte register to bit 0, big-endian (R64, R65). -/
def laneShift (m o n : Nat) : Nat := 8 * (m - o - n)

/-- The bits of an access of width w. -/
def widthMask (w : Width) : Word := lowMask (8 * w.bytes)

/-- The lanes an access of width w at lane o reads from an m-byte register value (R123). -/
def laneRead (v : Word) (m o : Nat) (w : Width) : Word := (v >>> laneShift m o w.bytes) &&& widthMask w

/-- lane-merge(old, v, o, w): the register value with the access's lanes replaced (R65). -/
def laneMerge (old v : Word) (m o : Nat) (w : Width) : Word :=
  let sh := laneShift m o w.bytes
  (old &&& ~~~(widthMask w <<< sh)) ||| ((v &&& widthMask w) <<< sh)

/-- `RegRead(r, a, w)` (R123). STAT and the divide results return their stored values like every other register (R191,
R241). -/
def regRead (s : State) (q : RegRow) (a : Word) (w : Width) : Word := laneRead (regLoad s q.reg) q.reg.bytes (laneOf q a) w

end Sys2Proof.Machine
end

