-- ==== Sys2Proof/Machine/Flags.lean ====
section
/-! DEFINITION. Every flag of the block (R41): the poll detectors and SPIN (R161 to R166), DIRTY (R126, R142, R145),
STAT.FULL and the done bit (R181, R185, R188), END_SLICE through `setEndSlice`, and the word STATUS returns (R274). -/

namespace Sys2Proof.Machine

/-! ## Poll detectors (R160 to R165) -/

/-- The smaller of the two wrapping distances between addresses (R161). -/
def pollDistance (a anchor : Word) : Word := if (a - anchor).ult (anchor - a) then a - anchor else anchor - a

/-- A qualifying hit: within POLL_TOL = 2 of the anchor and POLL_MAXGAP[c] of the last observation (R164). -/
def pollHit (maxgap : Word) (d : Detector) (a cyc : Word) : Bool :=
  d.valid && decide ((pollDistance a d.anchor).toNat ≤ 2) && decide ((cyc - d.last).toNat ≤ maxgap.toNat)

/-- The detector after an observation (R161). -/
def observe (maxgap : Word) (d : Detector) (a cyc : Word) : Detector :=
  if pollHit maxgap d a cyc then { d with cnt := d.cnt + 1, last := cyc }
  else { anchor := a, last := cyc, cnt := 0, valid := true }

/-- POLL_HITS (R5, R163). -/
def pollHits : Nat := 6

/-- POLL_DETECT(p, c, a, cyc) and whether it fired (R161 to R163). A pair outside POLL_SET has no detector: nothing happens
and it does not fire (log 14). -/
def pollDetect (p : Pid) (c : RegClass) (a cyc : Word) (s : State) : State × Bool :=
  if !s.cfg.polled p c || spinOf s p c then (s, false)
  else
    let d := observe (s.cfg.pollMaxgap.get c) (detectorOf s p c) a cyc
    let s := setDetector p c d s
    if d.cnt = pollHits then (setSpin p c true s, true) else (s, false)

/-- POLL_UNDETECT(p, c) (R165). -/
def pollUndetect (p : Pid) (c : RegClass) (s : State) : State :=
  if s.cfg.polled p c then setDetector p c Detector.clear (setSpin p c false s) else s

/-- POLL_UNDETECT(p, c) for every class c (R166). -/
def undetectAll (p : Pid) (s : State) : State := RegClass.all.foldl (fun s c => pollUndetect p c s) s

/-! ## Dirty flags and cross marking -/

/-- CrossMark(p, c): undetect every other processor's detector of the class, then mark the class dirty for the other side
(R126, R145). -/
def crossMark (p : Pid) (c : RegClass) (s : State) : State :=
  setDirty c p.side.other true
    (Pid.all.foldl (fun s q => if q = p then s else pollUndetect q c s) s)

/-! ## Bits of DMA.STAT and DMA.CHCR -/

/-- Write one bit of a halfword. -/
def setHalfBit (v : Half) (i : Nat) (b : Bool) : Half :=
  if b then v ||| ((1 : Half) <<< i) else v &&& ~~~((1 : Half) <<< i)

/-- Write one bit of a word. -/
def setWordBit (v : Word) (i : Nat) (b : Bool) : Word :=
  if b then v ||| ((1 : Word) <<< i) else v &&& ~~~((1 : Word) <<< i)

/-- STAT.FULL <- b. -/
def setFull (b : Bool) (s : State) : State :=
  { s with dma := { s.dma with stat := setHalfBit s.dma.stat s.cfg.statFullBit b } }

/-- |FIFO| = FIFO_CAP. -/
def fifoFull (s : State) : Bool := s.dma.fifo.length == s.cfg.fifoCap

/-- STAT.FULL <- (|FIFO| = FIFO_CAP) (R30). -/
def recomputeFull (s : State) : State := setFull (fifoFull s) s

/-! ## STATUS -/

/-- `b` as bit n of a word. -/
def bitAt (b : Bool) (n : Nat) : Word := if b then (1 : Word) <<< n else 0

/-- Bit 8p + c = SPIN[p][c], 0 for pairs outside POLL_SET (R274). -/
def spinBits (s : State) (p : Pid) : Word :=
  RegClass.all.foldl (fun v c => v ||| bitAt (s.cfg.polled p c && spinOf s p c) (8 * p.index + c.index)) 0

/-- The value of STATUS: the SPIN bits and bit 24 + p = END_SLICE[p] (R274). -/
def statusWord (s : State) : Word :=
  Pid.all.foldl (fun v p => v ||| spinBits s p ||| bitAt (s.endSlice.get p) (24 + p.index)) 0

end Sys2Proof.Machine
end

