-- ==== Sys2Proof/Machine/Units.lean ====
section
/-! DEFINITION. The handler-attached units (R216 to R240): coprocessor reset, bank switcher, fill, framebuffer swap and the
division units, each as an operation the register rules call, and the INTERNAL commands that name it. -/

namespace Sys2Proof.Machine

/-! ## Coprocessor reset (R216) -/

/-- COP_RESET(p, cyc). The interpreters' own state is reset by the collaborator calls; a coprocessor writer leaves VT
unchanged. -/
def copReset (p : Pid) (cyc : Word) (s : State) : State :=
  let s := recordCall (.resetCop .scp) (recordCall (.resetCop .mcp) s)
  let s := if p = .pri then setVt .scp cyc (setVt .mcp cyc s) else s
  let s := undetectAll .scp (undetectAll .mcp s)
  let s := RegClass.all.foldl (fun s c => if c.shared then setDirty c .cop false s else s) s
  setEndSlice .scp false (setEndSlice .mcp false s)

/-- COP_RESET as a command: p is the writer whose command issued it (log 10). -/
def execCopReset (cyc : Word) (s : State) : Result :=
  perform s fun s => respond Response.zero (copReset s.writer cyc s)

/-! ## Bank switcher (R221) -/

/-- The entry of a bank window slot for the window at `off`. -/
def bankEntry (g : Config) (off slot : Nat) : Entry :=
  .mem .cart (off + (slot - g.bankFirst) * 2 ^ g.shift.pri) g.bankMask

/-- The views with the bank window at `off`: PRI's read views of every width; write views are not changed. -/
def bankViews (g : Config) (off : Nat) (vs : Views) : Views :=
  Width.all.foldl (fun vs w => g.bankSlots.foldl (fun vs i => Views.put vs .pri w .rd i (bankEntry g off i)) vs) vs

/-- BANK_SELECT(n): n × BANK_SIZE is computed without wrapping; at or above CART_SIZE one A7 and nothing else. BANK_OFF is 32 bits
(R38) and keeps the low 32 bits of an accepted offset of 2^32 or more, while the window maps the whole offset (log 34, DESIGN
CHOICE). -/
def bankSelect (n : Word) (s : State) : State :=
  let off := n.toNat * s.cfg.bankSize
  if s.cfg.cartSize ≤ off then logAnomaly .a7 (pidBits .pri) n s
  else { s with bankOff := BitVec.ofNat 32 off, view := bankViews s.cfg off s.view }

def execBankSelect (n : Word) (s : State) : Result := perform s fun s => respond Response.zero (bankSelect n s)

/-! ## Framebuffer swap (R231) -/

/-- The views with the listed slots mapped to framebuffer half `h`. -/
def fbViews (g : Config) (h : Bool) (slots : List FbSlot) (vs : Views) : Views :=
  slots.foldl (fun vs f => Views.put vs f.pid f.width f.dir f.slot (.mem (.fb h) f.base g.fbMask)) vs

/-- FB_SWAP(h): FB[h] is the half being drawn, FB[1 - h] the visible one, in every view at once. -/
def fbSwap (h : Bool) (s : State) : State :=
  { s with
    fbHalf := h
    view := fbViews s.cfg (!h) s.cfg.fbVis (fbViews s.cfg h s.cfg.fbDraw s.view) }

def execFbSwap (h : Bool) (s : State) : Result := perform s fun s => respond Response.zero (fbSwap h s)

/-! ## Fill (R226) -/

/-- The word offset of the i-th word of a fill that starts at `start`: the high byte is held, the low byte wraps. -/
def fillOffset (start : Word) (i : Nat) : Nat := (start.toNat / 256 % 256) * 256 + (start.toNat % 256 + i) % 256

/-- The byte offset of the i-th word in a half of `size` bytes, aligned as MemWrite aligns it (R66). For a half of an odd number of
bytes, and for one of 0 bytes, where R226's mod has no value, this is the model's choice (log 31, DESIGN CHOICE). -/
def fillByte (size : Nat) (start : Word) (i : Nat) : Nat := 2 * fillOffset start i % size / 2 * 2

/-- FILL(): N + 1 words of FILL_DATA into the half being drawn. -/
def fill (s : State) : State :=
  let n := (wordAt s.vdp s.cfg.fillLen &&& lowMask s.cfg.fillLenW).toNat
  let start := wordAt s.vdp s.cfg.fillAddr
  let v := wordAt s.vdp s.cfg.fillData
  (List.range (n + 1)).foldl
    (fun s i => memWrite (.fb s.fbHalf) (fillByte (s.cfg.regionSize (.fb s.fbHalf)) start i) 2 v s) s

def execFill (s : State) : Result := perform s fun s => respond Response.zero (fill s)

/-! ## Division units (R239, R240) -/

def setDivu (k : Cop) (u : Divu) (s : State) : State := { s with divu := s.divu.set k u }

/-- DIV32(k): signed, the quotient truncates toward zero; the one overflow clamps and leaves a free remainder. -/
def div32 (k : Cop) (s : State) : State :=
  let u := s.divu.get k
  let n := u.dvdnt.toInt
  let d := u.dvsr.toInt
  if d = 0 then
    match s.cfg.div0 with
    | .stale => s
    | .zero => setDivu k { u with quot := 0, rem := 0 } s
  else if n = -2 ^ 31 ∧ d = -1 then
    countDraw (setDivu k { u with quot := 0x7FFFFFFF, rem := nextDraw s } s)
  else
    let q := n.tdiv d
    setDivu k { u with quot := BitVec.ofInt 32 q, rem := BitVec.ofInt 32 (n - q * d) } s

def execDiv32 (k : Cop) (s : State) : Result := perform s fun s => respond Response.zero (div32 k s)

/-- Both result pairs at once (R240). -/
def setResults (u : Divu) (q r : Word) : Divu := { u with quot := q, rem := r, quotM := q, remM := r }

/-- The signed 64-bit dividend (R240). -/
def dividend64 (u : Divu) : Int := (u.dvdnth ++ u.dvdntl : BitVec (32 + 32)).toInt

/-- DIV64(k): the quotient clamps to the 32-bit range, with a free remainder on overflow; results are mirrored. -/
def div64 (k : Cop) (s : State) : State :=
  let u := s.divu.get k
  let n := dividend64 u
  let d := u.dvsr.toInt
  if d = 0 then
    match s.cfg.div0 with
    | .stale => s
    | .zero => setDivu k (setResults u 0 0) s
  else
    let q := n.tdiv d
    if 2 ^ 31 - 1 < q then countDraw (setDivu k (setResults u 0x7FFFFFFF (nextDraw s)) s)
    else if q < -2 ^ 31 then countDraw (setDivu k (setResults u 0x80000000 (nextDraw s)) s)
    else setDivu k (setResults u (BitVec.ofInt 32 q) (BitVec.ofInt 32 (n - q * d))) s

def execDiv64 (k : Cop) (s : State) : Result := perform s fun s => respond Response.zero (div64 k s)

end Sys2Proof.Machine
end

