-- ==== Sys2Proof/Machine/Registers.lean ====
section
/-! DEFINITION. The register write rules of R97, called by the handler write path (R125). Each takes the writer p, the address
of the access, the old value and the lane-merged new value (zero-extended), and returns whether the write is marked. -/

namespace Sys2Proof.Machine

/-- What the rules call to start a transfer: `DmaTrigger(p)` with the command's CYC (R182). A destination write of a transfer
in progress calls a trigger that does nothing (R182's `not BUSY`; log 26). -/
abbrev Trigger := Pid → Word → State → State

/-- The bits of `new ^^^ old` a write may not change (R210). -/
def lockedChange (g : Config) (r : Reg) (old new : Word) : Bool := (old ^^^ new) &&& ~~~(g.writable r) != 0

/-- The value a write stores: the writable bits of `new`, the other bits of `old` (R210). -/
def mergeWritable (g : Config) (r : Reg) (old new : Word) : Word := (old &&& ~~~(g.writable r)) ||| (new &&& g.writable r)

/-- The generic write (R210): A3 when a bit outside WMASK would change. -/
def genericWrite (p : Pid) (addr : Word) (r : Reg) (old new : Word) (s : State) : State :=
  let s := regStore r (mergeWritable s.cfg r old new) s
  if lockedChange s.cfg r old new then logAnomaly .a3 (pidBits p) addr s else s

/-- A COMM register write (R211, R212): performed and logged A4 while COMM_ENABLED is false; unmarked when the stored value
would not change. `commA3` says whether A3 is logged (log 12). -/
def commWrite (p : Pid) (addr : Word) (r : Reg) (old new : Word) (s : State) : State × Bool :=
  let s := if s.cfg.commOn s.sys then s else logAnomaly .a4 (pidBits p) addr s
  let s := if s.cfg.commA3 && lockedChange s.cfg r old new then logAnomaly .a3 (pidBits p) addr s else s
  let v := mergeWritable s.cfg r old new
  if v = old then (s, false) else (regStore r v s, true)

/-- RES_REG's rule after the generic write: COP_RESET on a rising RES_BIT (R215). -/
def resetEdge (p : Pid) (i : Nat) (old cyc : Word) (s : State) : State :=
  if i = s.cfg.resReg ∧ old.getLsbD s.cfg.resBit = false ∧ (wordAt s.sys i).getLsbD s.cfg.resBit = true then
    copReset p cyc s
  else s

/-- BANK_FIELD's rule after the generic write: BANK_SELECT when the field changed (R219). -/
def bankChange (i : Nat) (old : Word) (s : State) : State :=
  if i = s.cfg.bankReg ∧ s.cfg.bankField (wordAt s.sys i) ≠ s.cfg.bankField old then
    bankSelect (s.cfg.bankField (wordAt s.sys i)) s
  else s

/-- A SYS register write: R210, then R215 and R219 in that order where they apply (R97). -/
def sysWrite (p : Pid) (addr : Word) (i : Nat) (old new cyc : Word) (s : State) : State :=
  bankChange i old (resetEdge p i old cyc (genericWrite p addr (.sys i) old new s))

/-- FS_REG's rule (R230): with FB_GATE open a generic write and, when the bit changes, FB_SWAP; with it closed a generic write
of every bit but FS_BIT. -/
def fsWrite (p : Pid) (addr : Word) (i : Nat) (old new : Word) (s : State) : State :=
  let b := new.getLsbD s.cfg.fsBit
  if s.cfg.gateOpen s.vdp then
    let s := genericWrite p addr (.vdp i) old new s
    if b ≠ old.getLsbD s.cfg.fsBit then fbSwap b s else s
  else genericWrite p addr (.vdp i) old (setWordBit new s.cfg.fsBit (old.getLsbD s.cfg.fsBit)) s

/-- A VDP register write: R230 for FS_REG, else R210; then FILL for FILL_DATA (R225). A word with both roles obeys both
(log 17). -/
def vdpWrite (p : Pid) (addr : Word) (i : Nat) (old new : Word) (s : State) : State :=
  let s := if i = s.cfg.fsReg then fsWrite p addr i old new s else genericWrite p addr (.vdp i) old new s
  if i = s.cfg.fillData then fill s else s

/-- DMA_CHUNK (R5). -/
def dmaChunk : Nat := 4

/-- A word enters the FIFO: RX counts it and FULL is recomputed (R181). -/
def fifoPush (w : Half) (s : State) : State :=
  recomputeFull { s with dma := { s.dma with fifo := s.dma.fifo ++ [w], rx := s.dma.rx + 1 } }

/-- A FIFO_DATA write (R181): A8 when the FIFO is full, else a push, and on every DMA_CHUNK-th push a trigger. -/
def fifoWrite (trig : Trigger) (p : Pid) (addr new cyc : Word) (s : State) : State :=
  let s := regStore (.dma .fifoData) new s
  if fifoFull s then logAnomaly .a8 (pidBits p) addr s
  else
    let s := fifoPush (new.setWidth 16) s
    if s.dma.rx.toNat % dmaChunk = 0 then trig p cyc s else s

/-- A CHCR write (R183): a generic write, then a trigger when words are staged. -/
def chcrWrite (trig : Trigger) (p : Pid) (addr old new cyc : Word) (s : State) : State :=
  let s := genericWrite p addr (.dma .chcr) old new s
  if s.dma.fifo = [] then s else trig p cyc s

/-- A LEN write (R184): a generic write, RX restarts, A5 for a length that is no multiple of DMA_CHUNK. -/
def lenWrite (p : Pid) (addr old new : Word) (s : State) : State :=
  let s := genericWrite p addr (.dma .len) old new s
  let s := { s with dma := { s.dma with rx := 0 } }
  if s.dma.len.toNat % dmaChunk = 0 then s else logAnomaly .a5 (pidBits p) addr s

/-- `RegWrite(p, r, old, new, cyc)`: the state after the register's rule, and `mark` (R97, R125). -/
def regWrite (trig : Trigger) (p : Pid) (addr : Word) (r : Reg) (old new cyc : Word) (s : State) : State × Bool :=
  match r with
  | .comm _ => commWrite p addr r old new s
  | .sys i => (sysWrite p addr i old new cyc s, true)
  | .vdp i => (vdpWrite p addr i old new s, true)
  | .loc _ _ => (genericWrite p addr r old new s, true)
  | .pwm _ => (genericWrite p addr r old new s, true)
  | .dma .fifoData => (fifoWrite trig p addr new cyc s, true)
  | .dma .chcr => (chcrWrite trig p addr old new cyc s, true)
  | .dma .len => (lenWrite p addr old new s, true)
  | .dma .sar | .dma .dar | .dma .tcr | .dma .stat => (genericWrite p addr r old new s, true)
  | .div k .dvdnt => (div32 k (genericWrite p addr r old new s), true)
  | .div k .dvdntl => (div64 k (genericWrite p addr r old new s), true)
  | .div _ .dvsr | .div _ .dvdnth | .div _ .quot | .div _ .rem | .div _ .quotM | .div _ .remM =>
    (genericWrite p addr r old new s, true)

end Sys2Proof.Machine
end

