-- ==== Sys2Proof/Machine/Access.lean ====
section
/-! DEFINITION. The access paths of the dispatcher (R110 to R127): memory, stub, handler read and write, and the split of
32-bit accesses. An access is the same for every issuer; what differs is what a DMA trigger and the sync gate do, which the
paths take as `Env`: a transfer's destination write starts no transfer (R182), and only PRI opens the gate (R122, R125). -/

namespace Sys2Proof.Machine

/-- What an access calls outside the dispatcher: DmaTrigger (R182) and GapSync (R143). -/
structure Env where
  trigger : Trigger
  gate : RegClass → Word → State → State

/-! ## Memory and stub paths -/

/-- The MEM path of a read (R120); an entry that breaks R62 is refused. -/
def memAccessRead (p : Pid) (w : Width) (r : Region) (base : Nat) (mask a : Word) (s : State) : State × Response :=
  if s.cfg.memOk r base mask then
    (s, { value := memRead s r (base + (a &&& mask).toNat) w.bytes, cycles := s.cfg.accessCycles p .mem w, irq := false })
  else (halt .illFormedView s, Response.zero)

/-- The MEM path of a write (R120). -/
def memAccessWrite (p : Pid) (w : Width) (r : Region) (base : Nat) (mask a v : Word) (s : State) : State × Response :=
  if s.cfg.memOk r base mask then
    (memWrite r (base + (a &&& mask).toNat) w.bytes v s,
      { value := 0, cycles := s.cfg.accessCycles p .mem w, irq := false })
  else (halt .illFormedView s, Response.zero)

/-- The stub path of a read: 0 and A1 (R119). -/
def stubRead (p : Pid) (w : Width) (a : Word) (s : State) : State × Response :=
  (logAnomaly .a1 (pidBits p) a s, { value := 0, cycles := s.cfg.accessCycles p .stub w, irq := false })

/-- The stub path of a write: A2 and nothing else (R119). -/
def stubWrite (p : Pid) (w : Width) (a : Word) (s : State) : State × Response :=
  (logAnomaly .a2 (pidBits p) a s, { value := 0, cycles := s.cfg.accessCycles p .stub w, irq := false })

/-! ## Handler paths -/

/-- SYNC_RD(c, NOW): a set dirty flag of PRI-side is cleared and nothing runs (R142); else the gate (R141). -/
def syncRead (env : Env) (c : RegClass) (now : Word) (s : State) : State :=
  if dirtyOf s c .pri then setDirty c .pri false s else env.gate c now s

/-- What a read of a register of class c does before the register is read (R122, R142). -/
def observeClass (env : Env) (p : Pid) (c : RegClass) (cyc : Word) (s : State) : State :=
  if c.shared then
    if p = .pri then syncRead env c cyc s
    else setDirty c .cop false s
  else s

/-- What a read of a register of class c does after the register is read: the detector, and END_SLICE when it fires (R122,
R124). -/
def pollRead (p : Pid) (c : RegClass) (a cyc : Word) (s : State) : State :=
  if s.cfg.polled p c then
    let (s, fired) := pollDetect p c a cyc s
    if fired then setEndSlice p true s else s
  else s

/-- `HRead(p, h, a, w, cyc)` (R122). -/
def handlerRead (env : Env) (p : Pid) (h : Handler) (a : Word) (w : Width) (cyc : Word) (s : State) : State × Response :=
  match regAt s.cfg p h a with
  | none => stubRead p w a s
  | some q =>
    let s := observeClass env p q.reg.cls cyc s
    let v := regRead s q a w
    (pollRead p q.reg.cls a cyc s, { value := v, cycles := s.cfg.accessCycles p (.hnd h) w, irq := false })

/-- One interrupt request: the collaborator call, and POLL_UNDETECT of every class of the target (R125, R258). -/
def raiseIrq (q : Irq) (s : State) : State := undetectAll q.target (recordCall (.raise q.target q.level q.vector) s)

/-- What a write does after its register rule: cross marking of a marked SHARED write, then the interrupts (R125). -/
def afterWrite (p : Pid) (r : Reg) (old : Word) (mark : Bool) (s : State) : State × Bool :=
  let s := if r.cls.shared && mark then crossMark p r.cls s else s
  let now := regLoad s r
  let irq := s.cfg.irqLikely p r old now
  let s := (s.cfg.irqRaise p r old now).foldl (fun s q => raiseIrq q s) s
  (if irq then setEndSlice p true s else s, irq)

/-- `HWrite(p, h, a, v, w, cyc)` (R125). -/
def handlerWrite (env : Env) (p : Pid) (h : Handler) (a v : Word) (w : Width) (cyc : Word) (s : State) : State × Response :=
  match regAt s.cfg p h a with
  | none => stubWrite p w a s
  | some q =>
    let s := if q.reg.cls.shared ∧ p = .pri then env.gate q.reg.cls cyc s else s
    let old := regLoad s q.reg
    let new := laneMerge old v q.reg.bytes (laneOf q a) w &&& s.cfg.regMask q.reg
    let (s, mark) := regWrite env.trigger p a q.reg old new cyc s
    let (s, irq) := afterWrite p q.reg old mark s
    (s, { value := 0, cycles := s.cfg.accessCycles p (.hnd h) w, irq := irq })

/-! ## Accesses of 8 and 16 bits, at an aligned address -/

def narrowRead (env : Env) (p : Pid) (w : Width) (a cyc : Word) (s : State) : State × Response :=
  match resolve s p w .rd a with
  | .mem r b m => memAccessRead p w r b m a s
  | .hnd h => handlerRead env p h a w cyc s
  | .split => (halt .illFormedView s, Response.zero)
  | .stub => stubRead p w a s

def narrowWrite (env : Env) (p : Pid) (w : Width) (a v cyc : Word) (s : State) : State × Response :=
  match resolve s p w .wr a with
  | .mem r b m => memAccessWrite p w r b m a v s
  | .hnd h => handlerWrite env p h a v w cyc s
  | .split => (halt .illFormedView s, Response.zero)
  | .stub => stubWrite p w a s

/-! ## Accesses of 32 bits, at an aligned address (R114, R117, R118) -/

/-- Two 16-bit reads, the high half first, each with every effect of its own (R117). Nothing runs between the two; what a half's own
gate runs is part of that half (R69, R75; log 33, DEDUCED). -/
def splitRead (env : Env) (p : Pid) (a cyc : Word) (s : State) : State × Response :=
  let (s, hi) := narrowRead env p .w16 a cyc s
  let (s, lo) := narrowRead env p .w16 (a + 2) cyc s
  (s, { value := (hi.value <<< 16) ||| (lo.value &&& 0xFFFF), cycles := hi.cycles + lo.cycles, irq := false })

/-- Two 16-bit writes, as `splitRead` (R117). -/
def splitWrite (env : Env) (p : Pid) (a v cyc : Word) (s : State) : State × Response :=
  let (s, hi) := narrowWrite env p .w16 a (v >>> 16) cyc s
  let (s, lo) := narrowWrite env p .w16 (a + 2) (v &&& 0xFFFF) cyc s
  (s, { value := 0, cycles := hi.cycles + lo.cycles, irq := hi.irq || lo.irq })

def wideRead (env : Env) (p : Pid) (a cyc : Word) (s : State) : State × Response :=
  match resolve s p .w32 .rd a with
  | .mem r b m => memAccessRead p .w32 r b m a s
  | .hnd h => if handlerSplits s.cfg p h a then splitRead env p a cyc s else handlerRead env p h a .w32 cyc s
  | .split => splitRead env p a cyc s
  | .stub => stubRead p .w32 a s

def wideWrite (env : Env) (p : Pid) (a v cyc : Word) (s : State) : State × Response :=
  match resolve s p .w32 .wr a with
  | .mem r b m => memAccessWrite p .w32 r b m a v s
  | .hnd h => if handlerSplits s.cfg p h a then splitWrite env p a v cyc s else handlerWrite env p h a v .w32 cyc s
  | .split => splitWrite env p a v cyc s
  | .stub => stubWrite p .w32 a s

/-! ## Accesses at any address -/

/-- A read of width w (R112, R113, R114): aligned first, or refused with MISALIGN = REFUSE (R67). -/
def busRead (env : Env) (p : Pid) (w : Width) (a cyc : Word) (s : State) : State × Response :=
  match alignAccess s.cfg w a with
  | none => (halt .misaligned s, Response.zero)
  | some a =>
    match w with
    | .w8 => narrowRead env p .w8 a cyc s
    | .w16 => narrowRead env p .w16 a cyc s
    | .w32 => wideRead env p a cyc s

/-- A write of width w (R115, R116, R118): the low bits of `v` of that width (R68). -/
def busWrite (env : Env) (p : Pid) (w : Width) (a v cyc : Word) (s : State) : State × Response :=
  match alignAccess s.cfg w a with
  | none => (halt .misaligned s, Response.zero)
  | some a =>
    match w with
    | .w8 => narrowWrite env p .w8 a v cyc s
    | .w16 => narrowWrite env p .w16 a v cyc s
    | .w32 => wideWrite env p a v cyc s

end Sys2Proof.Machine
end

