-- ==== Sys2Proof/Machine/Dma.lean ====
section
/-! DEFINITION. The DMA word-move engine (R182, R185 to R189). -/

namespace Sys2Proof.Machine

/-- The environment of a transfer's destination writes: BUSY, so no trigger starts a transfer (R182, R185), and the issuer
DMA_OWNER is a coprocessor, which opens no gate (R187; log 26). -/
def destinationEnv : Env := { trigger := fun _ _ s => s, gate := fun _ _ s => s }

/-- One turn of the transfer loop: the word `w` leaves the FIFO, `rest` stays, the word is written through DMA_OWNER's 16-bit
write view at DAR, and DAR, TCR and LEN advance in lock-step (R185, R187). TCR wraps modulo 2^TCR_W, which only a destination
write that set it to 0 can make it do (R185; log 16); LEN wraps modulo 2^16 in the same case, where R185 states nothing (log 35,
DESIGN CHOICE). -/
def dmaMove (cyc : Word) (w : Half) (rest : List Half) (s : State) : State :=
  let s := recomputeFull { s with dma := { s.dma with fifo := rest } }
  let s := (busWrite destinationEnv s.cfg.owner .w16 s.dma.dar (w.setWidth 32) cyc s).1
  { s with dma := { s.dma with
      dar := s.dma.dar + 2, tcr := s.cfg.tcrDown s.dma.tcr, len := s.dma.len - 1 } }

/-- The transfer loop, and whether it moved a word (R185). `fuel` bounds the turns; `dmaFuel` is enough for every state. -/
def dmaLoop : Nat → Word → State → Bool → State × Bool
  | 0, _, s, moved => (s, moved)
  | fuel + 1, cyc, s, moved =>
    if s.dma.tcr = 0 ∨ s.dma.len = 0 then (s, moved)
    else
      match s.dma.fifo with
      | [] => (s, moved)
      | w :: rest => dmaLoop fuel cyc (dmaMove cyc w rest s) true

/-- More turns than any transfer takes: each turn either shortens the FIFO or, where its destination write pushes a word back,
keeps it and lowers LEN. -/
def dmaFuel (s : State) : Nat := 65536 * s.dma.fifo.length + s.dma.len.toNat + 1

/-- DmaComplete() (R188). -/
def dmaComplete (s : State) : State :=
  let s := if (s.dma.tcr = 0) ≠ (s.dma.len = 0) then logAnomaly .a6 (pidBits s.cfg.owner) s.dma.dar s else s
  let s := setFull false s
  let s := { s with dma := { s.dma with chcr := setWordBit s.dma.chcr s.cfg.dmaDoneBit true } }
  undetectAll s.cfg.owner s

def setBusy (b : Bool) (s : State) : State := { s with dma := { s.dma with busy := b } }

/-- The end of a transfer: completion only when a word moved and TCR or LEN reached 0 (R185). -/
def dmaFinish (moved : Bool) (s : State) : State :=
  if moved && decide (s.dma.tcr = 0 ∨ s.dma.len = 0) then dmaComplete s else s

/-- DMA_RUN(cyc) (R185). -/
def dmaRun (cyc : Word) (s : State) : State :=
  let s := setBusy true s
  let x := dmaLoop (dmaFuel s) cyc s false
  setBusy false (dmaFinish x.2 x.1)

/-- DmaTrigger(p) (R182, R189). -/
def dmaTrigger (p : Pid) (cyc : Word) (s : State) : State :=
  if s.cfg.dmaEnabled s.dma.chcr && !s.dma.busy then setEndSlice p true (dmaRun cyc s) else s

/-- DMA_RUN as a command. The rules give its packet no operand and do not say where a packet of its own finds the triggering
command's CYC; it is taken from the packet's CYC field (log 32, DESIGN CHOICE). -/
def execDmaRun (cyc : Word) (s : State) : Result := perform s fun s => respond Response.zero (dmaRun cyc s)

end Sys2Proof.Machine
end

