-- ==== Sys2Proof/Machine/Sync.lean ====
section
/-! DEFINITION. The cross-processor barrier (R140 to R149): the gate, the nested coprocessor runs it asks for, its FSM form,
and the commands SYNC_RD, SYNC_WR and ADVANCE. -/

namespace Sys2Proof.Machine

/-- The environment of a coprocessor's accesses: transfers start, no gate opens (R291). -/
def coprocessorEnv : Env := { trigger := dmaTrigger, gate := fun _ _ s => s }

/-- A bus command coprocessor k issues during a nested run, performed at once (R75, R143); its response goes to k. -/
def copAccess (k : Cop) (c : CopCmd) (s : State) : State :=
  let (s, r) :=
    match c with
    | .read w a cyc => busRead coprocessorEnv k.pid w a cyc s
    | .write w a v cyc => busWrite coprocessorEnv k.pid w a v cyc s
  recordCall (.answer k r) s

/-- `host.run(k, n)`: the call is made, the commands of the host's next answer are performed, and the cycles used are
returned; none when the run does not return. After the last listed answer a run issues no command and uses n (log 5). -/
def hostRun (k : Cop) (n : Word) (s : State) : State × Option Word :=
  let s := recordCall (.run k n) s
  match s.runs with
  | [] => (s, some n)
  | r :: rest => (r.cmds.foldl (fun s c => copAccess k c s) { s with runs := rest }, r.used)

/-- max(n, used), unsigned (R143). -/
def runLength (n used : Word) : Word := if n.ult used then used else n

/-- Run coprocessor k up to NOW, when it is behind (R143). A run that never returns is kept as a hang (R149). -/
def runTo (k : Cop) (now : Word) (s : State) : State :=
  let n := now - s.vt.get k
  if after now (s.vt.get k) then
    match hostRun k n s with
    | (s, some used) => setVt k (s.vt.get k + runLength n used) s
    | (s, none) => halt (.hung k) s
  else s

/-- LAST_SYNC <- NOW. -/
def setLastSync (now : Word) (s : State) : State := { s with lastSync := now }

/-- The gap test (R143): NOW is later than LAST_SYNC, by more than SYNC_GAP[c]. -/
def gapOpen (c : RegClass) (now : Word) (s : State) : Bool :=
  after now s.lastSync && (s.cfg.syncGap.get c).ult (now - s.lastSync)

/-- GapSync(c, NOW) (R143): MCP, then SCP. -/
def gapSync (c : RegClass) (now : Word) (s : State) : State :=
  if gapOpen c now s then setLastSync now (runTo .scp now (runTo .mcp now s)) else s

/-- The environment of a command: PRI's accesses pass the gate. -/
def commandEnv : Env := { trigger := dmaTrigger, gate := gapSync }

/-! ## The gate as a state machine (R149) -/

inductive GatePhase where
  | idle
  | check
  | runMcp
  | runScp
  | commit
deriving DecidableEq, Repr

/-- A gate in progress with its latched class and NOW, and the block's state. -/
structure GateFsm where
  phase : GatePhase
  cls : RegClass
  now : Word
  block : State
deriving DecidableEq, Repr

/-- IDLE to CHECK on a SYNC_WR, or on a SYNC_RD without the dirty flag; a set flag is cleared and the gate stays IDLE. -/
def gateStart (isRead : Bool) (c : RegClass) (now : Word) (s : State) : GateFsm :=
  if isRead && dirtyOf s c .pri then { phase := .idle, cls := c, now := now, block := setDirty c .pri false s }
  else { phase := .check, cls := c, now := now, block := s }

/-- A gate after its run of coprocessor k: in the state after it, or still waiting in RUN_MCP or RUN_SCP when the run does not
return (R149). -/
def gateRan (k : Cop) (after : GatePhase) (g : GateFsm) : GateFsm :=
  let b := runTo k g.now g.block
  if b.stop.isSome then { g with block := b } else { g with phase := after, block := b }

/-- One transition of R149's table, a host.run and its return taken as one; a run that does not return leaves the gate waiting
for ever in the state that called it. -/
def gateStep (g : GateFsm) : GateFsm :=
  if g.block.stop.isSome then g
  else
    match g.phase with
    | .idle => g
    | .check => if gapOpen g.cls g.now g.block then { g with phase := .runMcp } else { g with phase := .idle }
    | .runMcp => gateRan .mcp .runScp g
    | .runScp => gateRan .scp .commit g
    | .commit => { g with phase := .idle, block := setLastSync g.now g.block }

/-! ## Commands -/

/-- SYNC_RD (R141). -/
def execSyncRd (c : RegClass) (now : Word) (s : State) : Result :=
  perform s fun s => respond Response.zero (syncRead commandEnv c now s)

/-- SYNC_WR (R144). -/
def execSyncWr (c : RegClass) (now : Word) (s : State) : Result :=
  perform s fun s => respond Response.zero (gapSync c now s)

/-- ADVANCE (R146): VT[k] <- VT[k] + n. -/
def execAdvance (k : Cop) (n : Word) (s : State) : Result :=
  perform s fun s => respond Response.zero (setVt k (s.vt.get k + n) s)

end Sys2Proof.Machine
end

