-- ==== Sys2Proof/Machine/Bus.lean ====
section
/-! DEFINITION. The bus dispatch commands (R112 to R118) and the poll detector's commands (R161, R165). -/

namespace Sys2Proof.Machine

/-- Give the response of an access. -/
def answer (x : State × Response) : State := respond x.2 x.1

/-- BUS_RD8 (R112). -/
def execBusRd8 (p : Pid) (a cyc : Word) (s : State) : Result := perform s fun s => answer (busRead commandEnv p .w8 a cyc s)

/-- BUS_RD16 (R113). -/
def execBusRd16 (p : Pid) (a cyc : Word) (s : State) : Result := perform s fun s => answer (busRead commandEnv p .w16 a cyc s)

/-- BUS_RD32 (R114, R117). -/
def execBusRd32 (p : Pid) (a cyc : Word) (s : State) : Result := perform s fun s => answer (busRead commandEnv p .w32 a cyc s)

/-- BUS_WR8 (R115). -/
def execBusWr8 (p : Pid) (a : Word) (v : Byte) (cyc : Word) (s : State) : Result :=
  perform s fun s => answer (busWrite commandEnv p .w8 a (v.setWidth 32) cyc s)

/-- BUS_WR16 (R116). -/
def execBusWr16 (p : Pid) (a : Word) (v : Half) (cyc : Word) (s : State) : Result :=
  perform s fun s => answer (busWrite commandEnv p .w16 a (v.setWidth 32) cyc s)

/-- BUS_WR32 (R117, R118). -/
def execBusWr32 (p : Pid) (a v cyc : Word) (s : State) : Result :=
  perform s fun s => answer (busWrite commandEnv p .w32 a v cyc s)

/-- POLL_DETECT (R161): value 1 when it fired (R94). END_SLICE is the caller's (R124). -/
def execPollDetect (p : Pid) (c : RegClass) (a cyc : Word) (s : State) : Result :=
  perform s fun s =>
    let (s, fired) := pollDetect p c a cyc s
    respond { value := if fired then 1 else 0, cycles := 0, irq := false } s

/-- POLL_UNDETECT (R165). -/
def execPollUndetect (p : Pid) (c : RegClass) (s : State) : Result :=
  perform s fun s => respond Response.zero (pollUndetect p c s)

end Sys2Proof.Machine
end

