-- ==== Sys2Proof/Machine/System.lean ====
section
/-! DEFINITION. The host commands (R255, R273, R274, R285, R287), what the host does outside the block before a restore
(R287, R289), and illegal packets (R96). -/

namespace Sys2Proof.Machine

/-- ACK_SLICE (R273). -/
def execAckSlice (p : Pid) (s : State) : Result := perform s fun s => respond Response.zero (setEndSlice p false s)

/-- STATUS (R274): changes no state but the response. -/
def execStatus (s : State) : Result :=
  perform s fun s => respond { value := statusWord s, cycles := 0, irq := false } s

/-! ## Reset (R285) -/

/-- RESET_VALUE of a 16-bit register. -/
def resetHalf (g : Config) (r : Reg) : Half := (g.resetOf r).setWidth 16

/-- A register array at its reset values. -/
def resetArray (g : Config) (n : Nat) (reg : Nat → Reg) : List Half := (List.range n).map fun i => resetHalf g (reg i)

/-- The DMA record after reset: registers at RESET_VALUE, FULL 0, FIFO empty, RX 0, BUSY false. -/
def resetDma (g : Config) : Dma where
  sar := g.resetOf (.dma .sar)
  dar := g.resetOf (.dma .dar)
  tcr := g.resetOf (.dma .tcr)
  chcr := g.resetOf (.dma .chcr)
  len := resetHalf g (.dma .len)
  stat := setHalfBit (resetHalf g (.dma .stat)) g.statFullBit false
  fifoData := resetHalf g (.dma .fifoData)
  fifo := []
  rx := 0
  busy := false

/-- A division unit after reset. -/
def resetDivu (g : Config) (k : Cop) : Divu where
  dvsr := g.resetOf (.div k .dvsr)
  dvdnt := g.resetOf (.div k .dvdnt)
  dvdnth := g.resetOf (.div k .dvdnth)
  dvdntl := g.resetOf (.div k .dvdntl)
  quot := g.resetOf (.div k .quot)
  rem := g.resetOf (.div k .rem)
  quotM := g.resetOf (.div k .quotM)
  remM := g.resetOf (.div k .remM)

/-- Every register at RESET_VALUE, and the DMA record reset (R285). -/
def resetRegisters (s : State) : State :=
  let g := s.cfg
  { s with
    sys := resetArray g g.nSys .sys
    vdp := resetArray g g.nVdp .vdp
    loc := { mcp := resetArray g g.nLoc (.loc .mcp), scp := resetArray g g.nLoc (.loc .scp) }
    comm := resetArray g g.nComm .comm
    pwm := resetArray g g.nPwm .pwm
    divu := { mcp := resetDivu g .mcp, scp := resetDivu g .scp }
    dma := resetDma g }

/-- What a reset and a restore share: detectors undetected, DIRTY and END_SLICE cleared, LAST_SYNC and VT at NOW (R285,
R287). -/
def clearTracking (cyc : Word) (s : State) : State :=
  let s := Pid.all.foldl (fun s p => undetectAll p s) s
  let off : PerSide Bool := { pri := false, cop := false }
  { s with
    dirty := { sys := off, vdp := off, loc := off, comm := off, pwm := off, dma := off }
    endSlice := { pri := false, mcp := false, scp := false }
    lastSync := cyc
    vt := { mcp := cyc, scp := cyc } }

/-- RESET_ALL(cyc) (R285). Memory and ANOM are not changed. -/
def resetAll (cyc : Word) (s : State) : State :=
  let s := clearTracking cyc (resetRegisters { s with view := s.cfg.view0 })
  fbSwap false (bankSelect 0 { s with bankOff := 0 })

/-- RESET_ALL. -/
def execResetAll (cyc : Word) (s : State) : Result := perform s fun s => respond Response.zero (resetAll cyc s)

/-! ## State restore (R287 to R289) -/

/-- What a save holds (R289); BUSY is not part of it. -/
structure Saved where
  sys : List Half
  vdp : List Half
  loc : PerCop (List Half)
  comm : List Half
  pwm : List Half
  divu : PerCop Divu
  dma : Dma
  mem : List Host.Cell
deriving DecidableEq, Repr

/-- The saved part of a state (R289). -/
def savedOf (s : State) : Saved :=
  { sys := s.sys, vdp := s.vdp, loc := s.loc, comm := s.comm, pwm := s.pwm, divu := s.divu,
    dma := { s.dma with busy := false }, mem := s.mem }

/-- The host writes a saved state directly, outside the block, before STATE_RESTORED (R287; log 25). -/
def loadSaved (x : Saved) (s : State) : State :=
  { s with
    sys := x.sys, vdp := x.vdp, loc := x.loc, comm := x.comm, pwm := x.pwm, divu := x.divu,
    dma := { x.dma with busy := s.dma.busy }, mem := x.mem }

/-- The bank mapping from the restored field: BANK_SELECT(n), or A7 and bank 0 when n is out of range (R287). -/
def restoreBank (s : State) : State :=
  let n := s.cfg.bankField (wordAt s.sys s.cfg.bankReg)
  if n.toNat * s.cfg.bankSize < s.cfg.cartSize then bankSelect n s
  else bankSelect 0 (logAnomaly .a7 (pidBits .pri) n s)

/-- STATE_RESTORED(cyc) (R287); the framebuffer half is re-derived without the display gate (R288). -/
def stateRestored (cyc : Word) (s : State) : State :=
  let s := restoreBank (setBusy false { s with view := s.cfg.view0 })
  let s := fbSwap ((wordAt s.vdp s.cfg.fsReg).getLsbD s.cfg.fsBit) s
  recomputeFull (clearTracking cyc s)

/-- STATE_RESTORED. -/
def execStateRestored (cyc : Word) (s : State) : Result := perform s fun s => respond Response.zero (stateRestored cyc s)

/-! ## Initialisation (R255, R282) -/

/-- A failed INIT: INIT_FAILED and one A9 (R255). -/
def initFailure (s : State) : State := logAnomaly .a9 none 0 { s with initFailed := true, initialised := true }

/-- A successful INIT: INIT_FAILED cleared, then RESET_ALL (R255). -/
def initSuccess (cyc : Word) (s : State) : State := resetAll cyc { s with initFailed := false, initialised := true }

/-- INIT, the one command accepted before the first INIT and after a failed one (R256, R280). A configuration that breaks R282
is refused (R282, I21), here where the block comes to life, before any other command can run (log 20). -/
def execInit (fail : Bool) (cyc : Word) (s : State) : Result :=
  if !s.cfg.wf then .refused .illFormedConfiguration
  else settle (respond Response.zero (if fail then initFailure s else initSuccess cyc s))

/-! ## Illegal packets (R96) -/

/-- A packet outside the encoding, or an INTERNAL row at the HOST interface: A10 with the packet's pid bits and ADDR, and a
zero response. -/
def illegalPacket (k : Packet) (s : State) : Result :=
  perform s fun s => respond Response.zero (logAnomaly .a10 (some (fieldPid k)) (fieldAddr k) s)

end Sys2Proof.Machine
end

