-- ==== Sys2Proof/Machine/Dispatch.lean ====
section
/-! DEFINITION. One arm per command: the meaning of each of the 23 rows. -/

namespace Sys2Proof.Machine

def exec (i : Instr) (s : State) : Host.Outcome State Fault Refusal :=
  match i with
  | .busRd8 p a cyc => Sys2Proof.Machine.execBusRd8 p a cyc s
  | .busRd16 p a cyc => Sys2Proof.Machine.execBusRd16 p a cyc s
  | .busRd32 p a cyc => Sys2Proof.Machine.execBusRd32 p a cyc s
  | .busWr8 p a v cyc => Sys2Proof.Machine.execBusWr8 p a v cyc s
  | .busWr16 p a v cyc => Sys2Proof.Machine.execBusWr16 p a v cyc s
  | .busWr32 p a v cyc => Sys2Proof.Machine.execBusWr32 p a v cyc s
  | .ackSlice p => Sys2Proof.Machine.execAckSlice p s
  | .advance k n => Sys2Proof.Machine.execAdvance k n s
  | .status => Sys2Proof.Machine.execStatus s
  | .pollDetect p c a cyc => Sys2Proof.Machine.execPollDetect p c a cyc s
  | .pollUndetect p c => Sys2Proof.Machine.execPollUndetect p c s
  | .syncRd c now => Sys2Proof.Machine.execSyncRd c now s
  | .syncWr c now => Sys2Proof.Machine.execSyncWr c now s
  | .dmaRun cyc => Sys2Proof.Machine.execDmaRun cyc s
  | .bankSelect n => Sys2Proof.Machine.execBankSelect n s
  | .fill => Sys2Proof.Machine.execFill s
  | .div32 k => Sys2Proof.Machine.execDiv32 k s
  | .div64 k => Sys2Proof.Machine.execDiv64 k s
  | .resetAll cyc => Sys2Proof.Machine.execResetAll cyc s
  | .stateRestored cyc => Sys2Proof.Machine.execStateRestored cyc s
  | .copReset cyc => Sys2Proof.Machine.execCopReset cyc s
  | .fbSwap h => Sys2Proof.Machine.execFbSwap h s
  | .init fail cyc => Sys2Proof.Machine.execInit fail cyc s

end Sys2Proof.Machine
end

