-- ==== Sys2Proof/Machine/Fetch.lean ====
section
/-! DEFINITION. Taking a command from the queue: what the step reads next, and whether a packet may be performed (R93, R96). -/

namespace Sys2Proof.Machine

/-- The state once the command `q` at the head of the queue has been taken: `rest` stays, and the writer of an INTERNAL packet
is known (log 10). -/
def take (q : Request) (rest : List Request) (s : State) : State :=
  { s with
    queue := rest
    writer := match q.origin with
      | .host => s.writer
      | .internal p => p }

/-- An INTERNAL row that arrives at the HOST interface is illegal (R93, R96). -/
def admitted (o : Origin) (i : Instr) : Bool :=
  match o with
  | .host => !i.internal
  | .internal _ => true

/-- The command a request stands for, none when its packet is illegal (R95, R96). -/
def commandOf (q : Request) : Option Instr :=
  match decode q.packet with
  | .ok i => if admitted q.origin i then some i else none
  | .error _ => none

/-- The origin under which a packet may be performed: INTERNAL rows come from the block's own rules (of a command of PRI),
everything else from the host. -/
def originFor (k : Packet) : Origin :=
  match decode k with
  | .ok i => if i.internal then .internal .pri else .host
  | .error _ => .host

end Sys2Proof.Machine
end

