-- ==== Sys2Proof/Machine/Step.lean ====
section
/-! DEFINITION. One step: the block performs the command at the head of its queue, whole (R21, R75, R291). With no command
pending it is idle: a passive slave starts nothing on its own (R262; log 21). -/

namespace Sys2Proof.Machine

def step (s : State) : Host.Outcome State Fault Refusal :=
  match s.queue with
  | [] => .next s
  | q :: rest =>
    match commandOf q with
    | some i => exec i (take q rest s)
    | none => illegalPacket q.packet (take q rest s)

/-- `s` with the packet whose bits are `w` (as spec/opcode_table.json numbers them) at the head of the queue, under the origin
that lets it be performed: the very next step performs exactly it (log 9). -/
def State.withFetchWord (s : State) (nbits w : Nat) : State :=
  let k : Packet := BitVec.ofNat 104 (w % 2 ^ nbits)
  { s with queue := { origin := originFor k, packet := k } :: s.queue }

end Sys2Proof.Machine
end

