-- ==== Sys2Proof/Safety.lean ====
section
/-! DEFINITION. What claims are stated in: when a command is accepted, the invariant of the block, and short names for the
commands and access paths of a given width. -/

namespace Sys2Proof.Machine

/-- The block accepts commands: initialised, not failed, and no command is stuck (R256, R280). -/
def State.Ready (s : State) : Prop := s.initialised = true ∧ s.initFailed = false ∧ s.stop = none

/-- Every listed answer to a host.run returns: no run hangs (R149). -/
def State.RunsReturn (s : State) : Prop := ∀ r ∈ s.runs, r.used ≠ none

/-- The register arrays have the sizes of the configuration (R20, R25). -/
def State.Sized (s : State) : Prop :=
  s.sys.length = s.cfg.nSys ∧ s.vdp.length = s.cfg.nVdp ∧ s.loc.mcp.length = s.cfg.nLoc ∧
  s.loc.scp.length = s.cfg.nLoc ∧ s.comm.length = s.cfg.nComm ∧ s.pwm.length = s.cfg.nPwm

/-- The invariant of the block between commands. -/
structure State.Inv (s : State) : Prop where
  /-- The configuration satisfies R282. -/
  cfg : s.cfg.wf = true
  /-- MEM is in canonical form. -/
  mem : Memory.wf s.mem = true
  /-- Every view is canonical and every entry well formed (R62, R112), so every address resolves to one entry (R23). -/
  views : s.cfg.viewsOk s.view = true
  /-- The register arrays keep their sizes (R20). -/
  sized : s.Sized
  /-- The FIFO never exceeds its capacity (R30). -/
  fifo : s.dma.fifo.length ≤ s.cfg.fifoCap
  /-- No transfer is in progress (R29). -/
  busy : s.dma.busy = false
  /-- A detector counts to 6, and reaches 6 only with its flag set (R32, R163). -/
  hits : ∀ p c, (detectorOf s p c).cnt ≤ if spinOf s p c then 6 else 5
  /-- Only a pair of POLL_SET spins (R33). -/
  spins : ∀ p c, s.cfg.polled p c = false → spinOf s p c = false
  /-- LOCAL has no dirty flag (R34). -/
  dirty : s.dirty.loc = { pri := false, cop := false }
  /-- No command is stuck. -/
  stop : s.stop = none

/-- The read command of a width. -/
def readCmd (w : Width) (p : Pid) (a cyc : Word) : Instr :=
  match w with
  | .w8 => .busRd8 p a cyc
  | .w16 => .busRd16 p a cyc
  | .w32 => .busRd32 p a cyc

/-- The write command of a width, with the low bits of `v` as its data (R68). -/
def writeCmd (w : Width) (p : Pid) (a v cyc : Word) : Instr :=
  match w with
  | .w8 => .busWr8 p a (v.setWidth 8) cyc
  | .w16 => .busWr16 p a (v.setWidth 16) cyc
  | .w32 => .busWr32 p a v cyc

/-- An access of processor p to the aligned address `a` reaches the register of line `q` through handler `h`, whole (R111,
R122, R125). -/
def ReachesRegister (s : State) (p : Pid) (w : Width) (d : Dir) (a : Word) (h : Handler) (q : RegRow) : Prop :=
  resolve s p w d a = .hnd h ∧ regAt s.cfg p h a = some q ∧ (w = .w32 → handlerSplits s.cfg p h a = false)

/-- An access to the aligned address `a` ends at the stub: a STUB entry, or a handler with no register there (R119). -/
def ReachesStub (s : State) (p : Pid) (w : Width) (d : Dir) (a : Word) : Prop :=
  resolve s p w d a = .stub ∨
  ∃ h, resolve s p w d a = .hnd h ∧ regAt s.cfg p h a = none ∧ (w = .w32 → handlerSplits s.cfg p h a = false)

/-- A 32-bit access to the aligned address `a` is split (R111, R117). -/
def ReachesSplit (s : State) (p : Pid) (d : Dir) (a : Word) : Prop :=
  resolve s p .w32 d a = .split ∨ ∃ h, resolve s p .w32 d a = .hnd h ∧ handlerSplits s.cfg p h a = true

/-- A write by p to a register of class c runs no coprocessor: p is one, the class is not shared, or the gap test fails
(R125, R143, R144). -/
def GateStaysShut (s : State) (p : Pid) (c : RegClass) (cyc : Word) : Prop :=
  p ≠ .pri ∨ c.shared = false ∨ gapOpen c cyc s = false

/-- A register whose writes are generic and start no unit (R97, R190, R210, R235). -/
def plainReg (g : Config) : Reg → Bool
  | .loc _ _ | .pwm _ => true
  | .dma .sar | .dma .dar | .dma .tcr | .dma .stat => true
  | .div _ .dvsr | .div _ .dvdnth | .div _ .quot | .div _ .rem | .div _ .quotM | .div _ .remM => true
  | .sys i => i != g.resReg && i != g.bankReg
  | .vdp i => i != g.fsReg && i != g.fillData
  | .comm _ => false
  | .dma .chcr | .dma .len | .dma .fifoData => false
  | .div _ .dvdnt | .div _ .dvdntl => false

/-- The value a write of `v` at `a` presents to register line q: the access's lanes of the old value replaced (R65), in the
bits the register has. -/
def presented (s : State) (q : RegRow) (a v : Word) (w : Width) : Word :=
  laneMerge (regLoad s q.reg) v q.reg.bytes (laneOf q a) w &&& s.cfg.regMask q.reg

/-- Time, the configuration, and what only the model holds, but for the outputs. -/
def SameControl (s t : State) : Prop :=
  t.cfg = s.cfg ∧ t.lastSync = s.lastSync ∧ t.vt = s.vt ∧ t.initFailed = s.initFailed ∧ t.initialised = s.initialised ∧
  t.queue = s.queue ∧ t.writer = s.writer ∧ t.runs = s.runs ∧ t.draws = s.draws ∧ t.stop = s.stop

/-- The views and what they are derived from. -/
def SameMapping (s t : State) : Prop := t.view = s.view ∧ t.fbHalf = s.fbHalf ∧ t.bankOff = s.bankOff

/-- What no register write that starts no unit ever touches. -/
def SameOutside (s t : State) : Prop := SameControl s t ∧ SameMapping s t ∧ t.mem = s.mem

/-- The register arrays and the division units. -/
def SameBanks (s t : State) : Prop :=
  t.sys = s.sys ∧ t.vdp = s.vdp ∧ t.loc = s.loc ∧ t.comm = s.comm ∧ t.pwm = s.pwm ∧ t.divu = s.divu

/-- What a generic write of `v` stores: its writable bits, and the old value's others (R210). -/
def storedValue (s : State) (r : Reg) (v : Word) : Word :=
  (regLoad s r &&& ~~~(s.cfg.writable r)) ||| (v &&& s.cfg.writable r)

/-- Every register but `r` holds what it held. -/
def OtherRegistersKept (s t : State) (r : Reg) : Prop := ∀ r', r' ≠ r → regLoad t r' = regLoad s r'

/-! ## Reads and writes of a register -/

/-- Processor p's access at the aligned address `a` reads register line `q` and runs no coprocessor: p is one, the class is not
SHARED, its dirty flag is set, or the gap test fails (R122, R141, R142, R143). -/
structure ReadsRegister (s : State) (p : Pid) (w : Width) (a cyc : Word) (h : Handler) (q : RegRow) : Prop where
  ready : s.Ready
  aligned : alignDown w a = a
  reaches : ReachesRegister s p w .rd a h q
  shut : p ≠ .pri ∨ q.reg.cls.shared = false ∨ dirtyOf s q.reg.cls .pri = true ∨ gapOpen q.reg.cls cyc s = false

/-- Processor p's access at the aligned address `a` writes register line `q` and its gate runs no coprocessor. -/
structure WritesRegister (s : State) (p : Pid) (w : Width) (a cyc : Word) (h : Handler) (q : RegRow) : Prop where
  ready : s.Ready
  sized : s.Sized
  aligned : alignDown w a = a
  reaches : ReachesRegister s p w .wr a h q
  shut : GateStaysShut s p q.reg.cls cyc

/-- The bits a generic write may not change, as the anomalies it logs (R210). -/
def lockedLog (s : State) (p : Pid) (a : Word) (r : Reg) (old new : Word) : List Anomaly :=
  if (old ^^^ new) &&& ~~~(s.cfg.writable r) = 0 then [] else [{ code := .a3, pid := some p.code, addr := a }]

/-- Whether a write by p that turned register r from `old` to `now` undetects (q, c): cross marking when it is marked, and the
interrupts it requests (R125, R126, R258). -/
def wakes (g : Config) (p : Pid) (r : Reg) (old now : Word) (mark : Bool) (q : Pid) (c : RegClass) : Bool :=
  g.polled q c && ((mark && r.cls.shared && c = r.cls && q ≠ p) || (g.irqRaise p r old now).any (·.target = q))

/-- The steps every register write ends with (R125), between the state `s` before it and `t` after it: cross marking when the
write is marked, the interrupt requests, END_SLICE and the response. -/
structure WriteEnds (s t : State) (p : Pid) (w : Width) (h : Handler) (r : Reg) (old : Word) (mark : Bool) : Prop where
  /-- Undetected pairs (R126, R258); every other detector and SPIN flag is kept. -/
  detectors : ∀ q c, detectorOf t q c =
    if wakes s.cfg p r old (regLoad t r) mark q c then Detector.clear else detectorOf s q c
  spins : ∀ q c, spinOf t q c = (spinOf s q c && !wakes s.cfg p r old (regLoad t r) mark q c)
  /-- The class is dirty for the other side when the write is marked (R126, R145). -/
  dirty : ∀ c d, dirtyOf t c d =
    (dirtyOf s c d || (mark && r.cls.shared && decide (c = r.cls) && decide (d = p.side.other)))
  /-- The interrupt requests, in order (R257). -/
  calls : t.calls = s.calls ++
    (s.cfg.irqRaise p r old (regLoad t r)).map (fun q => HostCall.raise q.target q.level q.vector)
  /-- END_SLICE of the writer when an interrupt is likely (R127). -/
  endSlice : ∀ q, t.endSlice.get q = (s.endSlice.get q || (decide (q = p) && s.cfg.irqLikely p r old (regLoad t r)))
  resp : t.resp = { value := 0, cycles := s.cfg.accessCycles p (.hnd h) w, irq := s.cfg.irqLikely p r old (regLoad t r) }

/-- The staging FIFO, its counter and BUSY. -/
def SameStaging (s t : State) : Prop := t.dma.fifo = s.dma.fifo ∧ t.dma.rx = s.dma.rx ∧ t.dma.busy = s.dma.busy

/-! ## Packets in numbers (R95, R96) -/

/-- The op-1111 sub-operation code `w, pid` (R95). -/
def subcode (k : Packet) : Nat := 4 * (fieldW k).toNat + (fieldPid k).toNat

/-- The reserved and illegal encodings R96 lists, but for an INTERNAL row at the HOST interface. -/
def ReservedEncoding (k : Packet) : Prop :=
  let op := (fieldOp k).toNat
  let w := (fieldW k).toNat
  let pid := (fieldPid k).toNat
  op ∈ [0, 6, 7] ∨
  (op ∈ [1, 2] ∧ w = 3) ∨
  (op ∈ [3, 4, 5, 8, 9, 11, 12, 13] ∧ w ≠ 0) ∨
  (op ∈ [10, 14] ∧ 2 ≤ w) ∨
  (op ≠ 15 ∧ pid = 3) ∨
  (op ∈ [4, 14] ∧ pid = 0) ∨
  (op ∈ [5, 10, 11, 12, 13] ∧ pid ≠ 0) ∨
  (op = 15 ∧ subcode k ∉ [0, 1, 2, 4, 8]) ∨
  (op ∈ [8, 9, 10] ∧ 6 ≤ (fieldClass (fieldData k)).toNat)

/-- A row R95 marks INTERNAL. -/
def InternalRow (k : Packet) : Prop :=
  (fieldOp k).toNat ∈ [8, 9, 10, 11, 12, 13, 14] ∨ ((fieldOp k).toNat = 15 ∧ subcode k ∈ [2, 4])

/-- The bits of the packet a row uses: its header and the operands of R95. -/
def usedBits (i : Instr) : Packet :=
  let all : Word := 0xFFFFFFFF
  match i with
  | .busRd8 .. | .busRd16 .. | .busRd32 .. => mkPacket 15 3 3 all 0 all
  | .busWr8 .. => mkPacket 15 3 3 all 0xFF all
  | .busWr16 .. => mkPacket 15 3 3 all 0xFFFF all
  | .busWr32 .. => mkPacket 15 3 3 all all all
  | .ackSlice .. | .status | .fill | .div32 .. | .div64 .. => mkPacket 15 3 3 0 0 0
  | .advance .. | .bankSelect .. => mkPacket 15 3 3 0 all 0
  | .pollDetect .. => mkPacket 15 3 3 all 7 all
  | .pollUndetect .. => mkPacket 15 3 3 0 7 0
  | .syncRd .. | .syncWr .. => mkPacket 15 3 3 0 7 all
  | .dmaRun .. | .resetAll .. | .stateRestored .. | .copReset .. => mkPacket 15 3 3 0 0 all
  | .fbSwap .. => mkPacket 15 3 3 0 1 0
  | .init .. => mkPacket 15 3 3 0 1 all

/-! ## Sequences -/

/-- The values a sequence of POLL_DETECT commands at one address returns, as far as they run. -/
def pollValues (p : Pid) (c : RegClass) (a : Word) : List Word → State → List Word
  | [], _ => []
  | t :: ts, s =>
    match exec (.pollDetect p c a t) s with
    | .next s => s.resp.value :: pollValues p c a ts s
    | _ => []

/-- The bus command a coprocessor's access is (R143). -/
def CopCmd.command (k : Cop) : CopCmd → Instr
  | .read w a cyc => readCmd w k.pid a cyc
  | .write w a v cyc => writeCmd w k.pid a v cyc

/-- `v` is where the commands of a run of coprocessor k lead from `u`, each performed as the bus command it is, in order, its
response given to k (R75, R143). -/
def Performed (k : Cop) : List CopCmd → State → State → Prop
  | [], u, v => v = u
  | c :: cs, u, v => ∃ t, exec (c.command k) u = .next t ∧
      Performed k cs { t with resp := u.resp, calls := t.calls ++ [.answer k t.resp] } v

/-- The commands of the host's next answer: none when no answer is listed (log 5). -/
def nextCmds (runs : List Run) : List CopCmd := (runs.head?.map Run.cmds).getD []

/-- What a host.run of n cycles reports: the next answer of the list, or n when none is listed (log 5). -/
def usedBy (runs : List Run) (n : Word) : Word :=
  match runs with
  | [] => n
  | r :: _ => r.used.getD n

/-- `v` is where the gate's turn for coprocessor k leads from `u` (R143): nowhere when it is not behind NOW; else host.run(k, n) is
called with n = NOW - VT[k], the commands of the host's answer are performed, and VT[k] moves by the larger of n and what the run
reports. -/
def RunsUpTo (k : Cop) (now : Word) (u v : State) : Prop :=
  let n := now - u.vt.get k
  if 0 < n.toInt then
    ∃ x, Performed k (nextCmds u.runs) { u with calls := u.calls ++ [.run k n], runs := u.runs.tail } x ∧
      v = { x with vt := u.vt.set k (u.vt.get k + BitVec.ofNat 32 (max n.toNat (usedBy u.runs n).toNat)) }
  else v = u

/-- The two states hold the same saved part and configuration (R289). -/
def SameSaved (s t : State) : Prop := s.cfg = t.cfg ∧ savedOf s = savedOf t

/-- The commands that open no gate and read no register: none of them can set SPIN. -/
def NeverDetects : Instr → Prop
  | .busWr8 p .. | .busWr16 p .. | .busWr32 p .. => p ≠ .pri
  | .busRd8 .. | .busRd16 .. | .busRd32 .. | .pollDetect .. | .syncRd .. | .syncWr .. => False
  | .ackSlice .. | .advance .. | .status | .pollUndetect .. | .dmaRun .. | .bankSelect .. | .fill | .div32 .. | .div64 ..
  | .resetAll .. | .stateRestored .. | .copReset .. | .fbSwap .. | .init .. => True

/-- The bus commands of a coprocessor. -/
def CoprocessorAccess : Instr → Prop
  | .busRd8 p .. | .busRd16 p .. | .busRd32 p .. | .busWr8 p .. | .busWr16 p .. | .busWr32 p .. => p ≠ .pri
  | .ackSlice .. | .advance .. | .status | .pollDetect .. | .pollUndetect .. | .syncRd .. | .syncWr .. | .dmaRun ..
  | .bankSelect .. | .fill | .div32 .. | .div64 .. | .resetAll .. | .stateRestored .. | .copReset .. | .fbSwap .. | .init .. =>
    False

/-! ## A transfer into backing memory (R185, R187, R192) -/

/-- The number of words a transfer moves: it ends when TCR or LEN reaches 0 or the FIFO is empty (R185). -/
def movedWords (s : State) : Nat := min (min s.dma.tcr.toNat s.dma.len.toNat) s.dma.fifo.length

/-- The aligned destination address of the i-th word of a transfer (R67, R185). -/
def destination (s : State) (i : Nat) : Word := alignDown .w16 (s.dma.dar + BitVec.ofNat 32 (2 * i))

/-- The i-th word of a transfer goes to bytes `off i` and `off i + 1` of region `rgn i`, through DMA_OWNER's 16-bit write view. -/
def GoesTo (s : State) (i : Nat) (r : Region) (off : Nat) : Prop :=
  ∃ b m, resolve s s.cfg.owner .w16 .wr (destination s i) = .mem r b m ∧ s.cfg.memOk r b m = true ∧
    off = b + (destination s i &&& m).toNat

end Sys2Proof.Machine
end

