-- ==== Sys2Proof/Certificates/Slice0/Obligations.lean ====
section
/-! DEFINITION. The statements for the provers, file by file of spec/. A statement that rests on a choice of the model says so and
names the log entry (notes/assumptions). -/

open Sys2Proof Sys2Proof.Machine

/-! ## Encoding (30_encoding.md) -/

/-- Every well-formed command survives encoding: decoding its packet gives it back, with every operand (R90, R92, R95). The
CYC of a DMA_RUN packet is an operand of the model (log 32, DESIGN CHOICE), and a sync operation on LOCAL is not well formed (log
13, DEDUCED). -/
def Obligations.EncodedCommandsDecodeBack : Prop :=
  ∀ i : Instr, i.wf = true → decode (encode i) = .ok i

/-- R90: a packet is 13 bytes, the header H = op, w, pid first; fewer bytes are no packet. -/
def Obligations.PacketBytesAreFramed : Prop :=
  (∀ bs : List Byte, bs.length < 13 → takePacket bs = .error .truncated) ∧
  ∀ (k : Packet) (rest : List Byte),
    (packetBytes k).length = 13 ∧
    (packetBytes k).head? = some (fieldOp k ++ fieldW k ++ fieldPid k : BitVec (4 + 2 + 2)) ∧
    takePacket (packetBytes k ++ rest) = .ok (k, rest)

/-- What a packet decodes to is well formed, and its encoding is the packet in the bits the row uses: no header bit and no
operand bit is misread (R92, R95). For DMA_RUN the CYC field counts as used (log 32, DESIGN CHOICE: R95 and R185 give it no operand),
and that no sync operation on LOCAL decodes is log 13 (DEDUCED). -/
def Obligations.DecodedCommandsUseTheirBits : Prop :=
  ∀ (k : Packet) (i : Instr), decode k = .ok i → i.wf = true ∧ encode i = k &&& usedBits i

/-- The packets that decode are those that R96 does not list; a sync operation on the class LOCAL is illegal as well (log 13,
DEDUCED). For STATUS, DMA_RUN and FILL, where R95 lists pid "0 (ignored)", pid 1 and 2 count as listed by R96 (log 30, DEDUCED). -/
def Obligations.LegalPacketsDecode : Prop :=
  ∀ k : Packet, (∃ i, decode k = .ok i) ↔
    ¬ ReservedEncoding k ∧ ¬ ((fieldOp k).toNat = 10 ∧ (fieldClass (fieldData k)).toNat = 2)

/-- Words of 95_test_vectors.md sections 3 and 10, written out there, decode to the commands named beside them. -/
def Obligations.SpecWordsDecode : Prop :=
  decode 0x10_00600001_00000000_00000000 = .ok (.busRd8 .pri 0x00600001 0) ∧
  decode 0x15_00020000_00000000_0000000A = .ok (.busRd16 .mcp 0x00020000 10) ∧
  decode 0x29_00060004_00600100_00000005 = .ok (.busWr32 .mcp 0x00060004 0x00600100 5) ∧
  decode 0x42_00000000_00000020_00000000 = .ok (.advance .scp 0x20) ∧
  decode 0x81_00020000_00000003_00000046 = .ok (.pollDetect .mcp .comm 0x00020000 70) ∧
  decode 0xA4_00000000_00000005_00000064 = .ok (.syncWr .dma 100) ∧
  decode 0xE6_00000000_00000000_00000000 = .ok (.div64 .scp) ∧
  decode 0xF1_00000000_00000000_000000C8 = .ok (.stateRestored 200) ∧
  decode 0xF8_00000000_00000001_00000000 = .ok (.init true 0)

/-! ## The step (R21, R75, R93, R96) -/

/-- A step performs the command at the head of the queue, whole: the decoded command's meaning on the state with the request
taken and, for an INTERNAL packet, its writer noted (log 9, 10). An empty queue is idle (log 21, DEDUCED). -/
def Obligations.StepPerformsTheDecodedCommand : Prop :=
  (∀ s : State, s.queue = [] → step s = .next s) ∧
  (∀ (s : State) (k : Packet) (rest : List Request) (i : Instr), s.queue = ⟨.host, k⟩ :: rest → decode k = .ok i →
    i.internal = false → step s = exec i { s with queue := rest }) ∧
  ∀ (s : State) (k : Packet) (p : Pid) (rest : List Request) (i : Instr), s.queue = ⟨.internal p, k⟩ :: rest →
    decode k = .ok i → step s = exec i { s with queue := rest, writer := p }

/-- R96: a reserved encoding, or an INTERNAL row at the HOST interface, changes nothing but one A10 with the packet's pid bits
and ADDR, and answers zeros (log 8, DESIGN CHOICE: A10 where R96 also allows a refusal). Pid 1 and 2 of STATUS, DMA_RUN and FILL
count as reserved (log 30, DEDUCED); a sync operation on LOCAL (log 13) is not spoken of here. -/
def Obligations.IllegalPacketLogsA10 : Prop :=
  ∀ (s : State) (o : Origin) (k : Packet) (rest : List Request), s.Ready → s.queue = ⟨o, k⟩ :: rest →
    (ReservedEncoding k ∨ (InternalRow k ∧ o = .host)) →
    ∃ t, step s = .next t ∧ t.resp = { value := 0, cycles := 0, irq := false } ∧
      t.anom = s.anom ++ [{ code := .a10, pid := some (fieldPid k), addr := fieldAddr k }] ∧
      t = { s with queue := rest, writer := t.writer, anom := t.anom, resp := t.resp }

/-! ## Initialisation, reset and restore (60_exceptions.md, 70_reset_and_hazards.md) -/

/-- R256: while INIT_FAILED is set every command but INIT is refused; the same holds before the first INIT (R280). -/
def Obligations.CommandsRefusedUntilInit : Prop :=
  ∀ (i : Instr) (s : State), (∀ f cyc, i ≠ .init f cyc) →
    (s.initialised = false → exec i s = .refused .uninitialised) ∧
    (s.initialised = true → s.initFailed = true → exec i s = .refused .initFailed)

/-- R255: INIT with f = 1 sets INIT_FAILED and logs one A9; with f = 0 it clears INIT_FAILED and is RESET_ALL, in whatever state
it finds the block. Its answer is zeros. -/
def Obligations.InitFailsOrResets : Prop :=
  ∀ (s : State) (cyc : Word), s.cfg.wf = true → s.stop = none →
    exec (.init true cyc) s = .next { s with
      initFailed := true, initialised := true, anom := s.anom ++ [{ code := .a9, pid := none, addr := 0 }]
      resp := { value := 0, cycles := 0, irq := false } } ∧
    ∃ t, exec (.init false cyc) s = .next t ∧
      exec (.resetAll cyc) { s with initFailed := false, initialised := true } = .next t ∧
      t.initFailed = false ∧ t.resp = { value := 0, cycles := 0, irq := false }

/-- R43, R285: every field after RESET_ALL. Memory, ANOM (but for the A7 of an empty cartridge) and INIT_FAILED are unchanged. -/
def Obligations.ResetAllGivesTheResetTable : Prop :=
  ∀ (s : State) (cyc : Word), s.Ready → ∃ t, exec (.resetAll cyc) s = .next t ∧
    t.view = fbViews s.cfg true s.cfg.fbVis (fbViews s.cfg false s.cfg.fbDraw
      (if s.cfg.cartSize = 0 then s.cfg.view0 else bankViews s.cfg 0 s.cfg.view0)) ∧
    (∀ r, s.cfg.holds r = true → r ≠ .dma .stat → regLoad t r = s.cfg.resetOf r) ∧
    regLoad t (.dma .stat) = s.cfg.resetOf (.dma .stat) &&& ~~~(s.cfg.fullBit) ∧
    t.dma.fifo = [] ∧ t.dma.rx = 0 ∧ t.dma.busy = false ∧
    (∀ p c, s.cfg.polled p c = true →
      detectorOf t p c = { anchor := 0, last := 0, cnt := 0, valid := false } ∧ spinOf t p c = false) ∧
    (∀ c d, dirtyOf t c d = false) ∧ (∀ p, t.endSlice.get p = false) ∧
    t.lastSync = cyc ∧ (∀ k, t.vt.get k = cyc) ∧ t.fbHalf = false ∧ t.bankOff = 0 ∧
    t.anom = s.anom ++ (if s.cfg.cartSize = 0 then [{ code := .a7, pid := some 0, addr := 0 }] else []) ∧
    t = { s with
          view := t.view, sys := t.sys, vdp := t.vdp, loc := t.loc, comm := t.comm, pwm := t.pwm, divu := t.divu, dma := t.dma
          pd := t.pd, spin := t.spin, dirty := t.dirty, endSlice := t.endSlice, lastSync := t.lastSync, vt := t.vt
          fbHalf := t.fbHalf, bankOff := t.bankOff, anom := t.anom, resp := { value := 0, cycles := 0, irq := false } }

/-- R286: a second RESET_ALL with the same CYC changes nothing, but for a second A7 when CART_SIZE = 0. -/
def Obligations.ResetTwiceIsResetOnce : Prop :=
  ∀ (s : State) (cyc : Word), s.Ready → ∃ t, exec (.resetAll cyc) s = .next t ∧
    exec (.resetAll cyc) t = .next { t with
      anom := t.anom ++ (if s.cfg.cartSize = 0 then [{ code := .a7, pid := some 0, addr := 0 }] else []) }

/-- R287, R288: the views from VIEW0, the bank from the restored field (an offset out of range: A7 and bank 0), the framebuffer
half from the restored FS bit, detectors, DIRTY and END_SLICE cleared, LAST_SYNC and VT at CYC, FULL from the FIFO. An
empty cartridge is log 29 (DEDUCED), an offset of 2^32 or more log 34 (DESIGN CHOICE). -/
def Obligations.RestoreRederivesTheBlock : Prop :=
  ∀ (s : State) (cyc : Word), s.Ready →
    let g := s.cfg
    let n := g.bankField (regLoad s (.sys g.bankReg))
    let off := n.toNat * g.bankSize
    let fs := (regLoad s (.vdp g.fsReg)).getLsbD g.fsBit
    ∃ t, exec (.stateRestored cyc) s = .next t ∧
      t.view = fbViews g (!fs) g.fbVis (fbViews g fs g.fbDraw
        (if off < g.cartSize then bankViews g off g.view0
         else if g.cartSize = 0 then g.view0 else bankViews g 0 g.view0)) ∧
      t.bankOff = (if off < g.cartSize then BitVec.ofNat 32 off else if g.cartSize = 0 then s.bankOff else 0) ∧
      t.anom = s.anom ++ (if off < g.cartSize then []
        else if g.cartSize = 0 then [⟨.a7, some 0, n⟩, ⟨.a7, some 0, 0⟩] else [⟨.a7, some 0, n⟩]) ∧
      t.fbHalf = fs ∧
      t.dma = { s.dma with busy := false, stat := setHalfBit s.dma.stat g.statFullBit (s.dma.fifo.length == g.fifoCap) } ∧
      (∀ p c, g.polled p c = true → detectorOf t p c = Detector.clear ∧ spinOf t p c = false) ∧
      (∀ c d, dirtyOf t c d = false) ∧ (∀ p, t.endSlice.get p = false) ∧ t.lastSync = cyc ∧ (∀ k, t.vt.get k = cyc) ∧
      t = { s with
            view := t.view, bankOff := t.bankOff, anom := t.anom, fbHalf := t.fbHalf, dma := t.dma, pd := t.pd
            spin := t.spin, dirty := t.dirty, endSlice := t.endSlice, lastSync := t.lastSync, vt := t.vt
            resp := { value := 0, cycles := 0, irq := false } }

/-- R287, R289: two blocks with the same configuration and the same saved part are the same after a restore in everything but
ANOM and the model's own fields; with an empty cartridge BANK_OFF, which no bank then defines, is left as it was. -/
def Obligations.RestoreForgetsTheRest : Prop :=
  ∀ (s s' : State) (cyc : Word), s.Ready → s'.Ready → s.Inv → s'.Inv → SameSaved s s' →
    ∃ t t', exec (.stateRestored cyc) s = .next t ∧ exec (.stateRestored cyc) s' = .next t' ∧
      SameSaved t t' ∧ t.dma.busy = t'.dma.busy ∧ t.view = t'.view ∧ t.fbHalf = t'.fbHalf ∧
      (s.cfg.cartSize ≠ 0 → t.bankOff = t'.bankOff) ∧ t.dirty = t'.dirty ∧ t.endSlice = t'.endSlice ∧
      t.lastSync = t'.lastSync ∧ t.vt = t'.vt ∧ t.spin = t'.spin ∧
      ∀ p c, s.cfg.polled p c = true → detectorOf t p c = detectorOf t' p c

/-! ## Host commands (60_exceptions.md) -/

/-- R274: bit 8p + c of STATUS is SPIN[p][c] of a pair of POLL_SET, bit 24 + p is END_SLICE[p], every other bit is 0, and no state
changes. -/
def Obligations.StatusReturnsTheFlags : Prop :=
  ∀ s : State, s.Ready → ∃ t, exec .status s = .next t ∧
    (∀ n, t.resp.value.getLsbD n = true ↔
      (∃ p c, n = 8 * p.index + c.index ∧ s.cfg.polled p c = true ∧ spinOf s p c = true) ∨
      ∃ p, n = 24 + p.index ∧ s.endSlice.get p = true) ∧
    t = { s with resp := { value := t.resp.value, cycles := 0, irq := false } }

/-- R273: ACK_SLICE clears END_SLICE[p] and changes nothing else. -/
def Obligations.AckClearsEndSlice : Prop :=
  ∀ (s : State) (p : Pid), s.Ready → ∃ t, exec (.ackSlice p) s = .next t ∧
    (∀ q, t.endSlice.get q = if q = p then false else s.endSlice.get q) ∧
    t = { s with endSlice := t.endSlice, resp := { value := 0, cycles := 0, irq := false } }

/-- R146: ADVANCE adds n to VT[k], wrapping, and changes nothing else; PRI has no virtual time (pid 0 is illegal). -/
def Obligations.AdvanceMovesVirtualTime : Prop :=
  (∀ (s : State) (k : Cop) (n : Word), s.Ready → ∃ t, exec (.advance k n) s = .next t ∧
    (∀ j, t.vt.get j = if j = k then s.vt.get k + n else s.vt.get j) ∧
    t = { s with vt := t.vt, resp := { value := 0, cycles := 0, irq := false } }) ∧
  ∀ addr data cyc : Word, decode (mkPacket 4 0 0 addr data cyc) = .error .unlistedPid

/-! ## Memory (20_memory.md, 40_bus_dispatch.md) -/

/-- R120 for reads: the bytes of the region from base + (a & mask), most significant first (R63, R66), the cycles of a MEM access,
and no change of state. -/
def Obligations.MemoryReadIsBigEndian : Prop :=
  ∀ (s : State) (p : Pid) (w : Width) (a cyc : Word) (r : Region) (b : Nat) (m : Word), s.Ready → alignDown w a = a →
    resolve s p w .rd a = .mem r b m → s.cfg.memOk r b m = true →
    let off := b + (a &&& m).toNat
    exec (readCmd w p a cyc) s = .next { s with resp := {
      value := match w with
        | .w8 => (readByte s r off).setWidth 32
        | .w16 => (readByte s r off ++ readByte s r (off + 1) : BitVec (8 + 8)).setWidth 32
        | .w32 => (readByte s r off ++ readByte s r (off + 1) ++ readByte s r (off + 2) ++ readByte s r (off + 3) :
            BitVec (8 + 8 + 8 + 8))
      cycles := s.cfg.accessCycles p .mem w
      irq := false } }

/-- R120 for writes, and R66's MemWrite: byte i of the n stored is v[8(n-i)-1 : 8(n-i)-8], every other byte of every region is
kept, and nothing else changes. -/
def Obligations.MemoryWriteStoresBytes : Prop :=
  ∀ (s : State) (p : Pid) (w : Width) (a v cyc : Word) (r : Region) (b : Nat) (m : Word), s.Ready →
    alignDown w a = a → resolve s p w .wr a = .mem r b m → s.cfg.memOk r b m = true →
    let off := b + (a &&& m).toNat
    ∃ t, exec (writeCmd w p a v cyc) s = .next t ∧
      (∀ i, i < w.bytes → readByte t r (off + i) = v.extractLsb' (8 * (w.bytes - i) - 8) 8) ∧
      (∀ q j, ¬ (q = r ∧ off ≤ j ∧ j < off + w.bytes) → readByte t q j = readByte s q j) ∧
      t = { s with mem := t.mem, resp := { value := 0, cycles := s.cfg.accessCycles p .mem w, irq := false } }

/-- R119: a STUB read returns 0 and logs A1, a STUB write logs A2, at every width, and nothing else happens; so does an access to
a handler with no register there. Whether a 32-bit access at such a handler address is one stub access or two is log 11
(DESIGN CHOICE); this speaks of those that are one. -/
def Obligations.StubAccessesAreLogged : Prop :=
  ∀ (s : State) (p : Pid) (w : Width) (a v cyc : Word), s.Ready → alignDown w a = a →
    (ReachesStub s p w .rd a → exec (readCmd w p a cyc) s = .next { s with
      anom := s.anom ++ [{ code := .a1, pid := some p.code, addr := a }]
      resp := { value := 0, cycles := s.cfg.accessCycles p .stub w, irq := false } }) ∧
    (ReachesStub s p w .wr a → exec (writeCmd w p a v cyc) s = .next { s with
      anom := s.anom ++ [{ code := .a2, pid := some p.code, addr := a }]
      resp := { value := 0, cycles := s.cfg.accessCycles p .stub w, irq := false } })

/-- R67: a misaligned access is the access at a & ~1 or a & ~3; with MISALIGN = REFUSE it is refused instead. -/
def Obligations.MisalignedAccesses : Prop :=
  ∀ (s : State) (p : Pid) (w : Width) (a v cyc : Word), s.Ready →
    let b := match w with
      | .w8 => a
      | .w16 => a &&& ~~~(1 : Word)
      | .w32 => a &&& ~~~(3 : Word)
    (s.cfg.misalign = .alignDown →
      exec (readCmd w p a cyc) s = exec (readCmd w p b cyc) s ∧
      exec (writeCmd w p a v cyc) s = exec (writeCmd w p b v cyc) s) ∧
    (s.cfg.misalign = .refuse → b ≠ a →
      exec (readCmd w p a cyc) s = .refused .misalignedAccess ∧
      exec (writeCmd w p a v cyc) s = .refused .misalignedAccess)

/-- R62, R66: an aligned access never runs past base + mask, addresses repeat every mask + 1 bytes; R61: addresses that agree in
the slot reach the same entry. -/
def Obligations.AccessesStayInTheirEntry : Prop :=
  (∀ (g : Config) (w : Width) (a : Word) (r : Region) (b : Nat) (m : Word), g.memOk r b m = true → alignDown w a = a →
    b + (a &&& m).toNat + w.bytes ≤ b + m.toNat + 1 ∧ b + m.toNat < g.regionSize r ∧ (a + (m + 1)) &&& m = a &&& m) ∧
  ∀ (s : State) (p : Pid) (w : Width) (d : Dir) (a a' : Word),
    a.toNat % (2 ^ s.cfg.shift.get p * s.cfg.nslot.get p) = a'.toNat % (2 ^ s.cfg.shift.get p * s.cfg.nslot.get p) →
    resolve s p w d a = resolve s p w d a'

/-- R117: a split 32-bit access is the whole 16-bit access to the high half, gate and all, and then the one to the low half, value and
cycles put together and irq the OR. The second half starts from the first's state, before any response is given, so no other
processor's command runs between the halves (R69); what a half's own gate runs is part of that half (R75; log 33, DEDUCED). Where the
first half left LAST_SYNC = CYC (R148), and in every access of a coprocessor (R291), the second half runs no coprocessor. A run that
hangs in either half hangs the access (R149; log 6). A 32-bit entry of a handler whose registers, those processor p sees or all of
them, have one width is split at every address when that is 16 bits, and at none when it is 32 (R111). For a handler of both widths it
is log 11 (DESIGN CHOICE). -/
def Obligations.SplitAccessIsTwoHalves : Prop :=
  (∀ (g : Config) (p : Pid) (h : Handler) (a : Word) (m : Nat), alignDown .w32 a = a →
    let row := fun q : RegRow => q ∈ g.regmap ∧ q.handler = h ∧ g.covers q = true
    ((∃ q, row q ∧ q.pid = p) → (∀ q, row q → q.pid = p → q.reg.bytes = m) → handlerSplits g p h a = decide (m = 2)) ∧
    ((∃ q, row q) → (∀ q, row q → q.reg.bytes = m) → handlerSplits g p h a = decide (m = 2))) ∧
  ∀ (s : State) (p : Pid) (a v cyc : Word), s.Ready → alignDown .w32 a = a →
    (ReachesSplit s p .rd a →
      (∀ k, exec (.busRd16 p a cyc) s = .fault (.coprocessorRunHung k) →
        exec (.busRd32 p a cyc) s = .fault (.coprocessorRunHung k)) ∧
      ∀ x, exec (.busRd16 p a cyc) s = .next x →
        (∀ k, exec (.busRd16 p (a + 2) cyc) { x with resp := s.resp } = .fault (.coprocessorRunHung k) →
          exec (.busRd32 p a cyc) s = .fault (.coprocessorRunHung k)) ∧
        ∀ y, exec (.busRd16 p (a + 2) cyc) { x with resp := s.resp } = .next y →
          exec (.busRd32 p a cyc) s = .next { y with resp := {
            value := (x.resp.value.extractLsb' 0 16 ++ y.resp.value.extractLsb' 0 16 : BitVec (16 + 16))
            cycles := x.resp.cycles + y.resp.cycles
            irq := false } } ∧
          (p ≠ .pri ∨ x.lastSync = cyc → y = { x with
            dirty := y.dirty, pd := y.pd, spin := y.spin, endSlice := y.endSlice, anom := y.anom, resp := y.resp })) ∧
    (ReachesSplit s p .wr a →
      (∀ k, exec (.busWr16 p a (v.extractLsb' 16 16) cyc) s = .fault (.coprocessorRunHung k) →
        exec (.busWr32 p a v cyc) s = .fault (.coprocessorRunHung k)) ∧
      ∀ x, exec (.busWr16 p a (v.extractLsb' 16 16) cyc) s = .next x →
        (∀ k, exec (.busWr16 p (a + 2) (v.extractLsb' 0 16) cyc) { x with resp := s.resp } = .fault (.coprocessorRunHung k) →
          exec (.busWr32 p a v cyc) s = .fault (.coprocessorRunHung k)) ∧
        ∀ y, exec (.busWr16 p (a + 2) (v.extractLsb' 0 16) cyc) { x with resp := s.resp } = .next y →
          exec (.busWr32 p a v cyc) s = .next { y with resp := {
            value := 0
            cycles := x.resp.cycles + y.resp.cycles
            irq := x.resp.irq || y.resp.irq } } ∧
          (p ≠ .pri ∨ x.lastSync = cyc →
            y.lastSync = x.lastSync ∧ y.runs = x.runs ∧ ∃ l, y.calls = x.calls ++ l ∧ ∀ k n, HostCall.run k n ∉ l))

/-- R64, R65, R123: the byte and halfword lanes of 16-bit and 32-bit registers, big-endian, for reads and for merges. -/
def Obligations.RegisterLanesAreBigEndian : Prop :=
  (∀ v : Word, laneRead v 2 0 .w16 = v &&& 0xFFFF ∧ laneRead v 2 0 .w8 = (v.extractLsb' 8 8).setWidth 32 ∧
    laneRead v 2 1 .w8 = (v.extractLsb' 0 8).setWidth 32 ∧ laneRead v 4 0 .w32 = v) ∧
  (∀ (v : Word) (j : Nat), j < 2 → laneRead v 4 (2 * j) .w16 = (v.extractLsb' (16 - 16 * j) 16).setWidth 32) ∧
  (∀ (v : Word) (i : Nat), i < 4 → laneRead v 4 i .w8 = (v.extractLsb' (24 - 8 * i) 8).setWidth 32) ∧
  (∀ (m o : Nat) (w : Width) (old v : Word), (m = 2 ∨ m = 4) → o % w.bytes = 0 → o + w.bytes ≤ m →
    laneRead (laneMerge old v m o w) m o w = v &&& widthMask w ∧
    ∀ (o' : Nat), o' < m → (o' < o ∨ o + w.bytes ≤ o') →
      laneRead (laneMerge old v m o w) m o' .w8 = laneRead old m o' .w8)

/-! ## Handler accesses (40_bus_dispatch.md) -/

/-- R122 to R124 where no coprocessor runs: the register's lanes, the dirty flag of the reader's side cleared (R142), the detector
of a polled class advanced, END_SLICE set when it fires, and nothing else. -/
def Obligations.HandlerReadEffects : Prop :=
  ∀ (s : State) (p : Pid) (w : Width) (a cyc : Word) (h : Handler) (q : RegRow), ReadsRegister s p w a cyc h q →
    let c := q.reg.cls
    let counts := s.cfg.polled p c && !spinOf s p c
    let d := observe (s.cfg.pollMaxgap.get c) (detectorOf s p c) a cyc
    let fires := counts && decide (d.cnt = 6)
    ∃ t, exec (readCmd w p a cyc) s = .next t ∧
      t.resp = { value := regRead s q a w, cycles := s.cfg.accessCycles p (.hnd h) w, irq := false } ∧
      (∀ x y, dirtyOf t x y = (dirtyOf s x y && !(c.shared && decide (x = c) && decide (y = p.side)))) ∧
      (∀ x y, detectorOf t x y = if counts = true ∧ x = p ∧ y = c then d else detectorOf s x y) ∧
      (∀ x y, spinOf t x y = (spinOf s x y || (fires && decide (x = p) && decide (y = c)))) ∧
      (∀ x, t.endSlice.get x = (s.endSlice.get x || (fires && decide (x = p)))) ∧
      t = { s with dirty := t.dirty, pd := t.pd, spin := t.spin, endSlice := t.endSlice, resp := t.resp }

/-- R122, R124, R76: a PRI read of a SHARED register is SYNC_RD first, and from the state that leaves, it returns the register,
advances the detector of a polled class, sets END_SLICE when it fires, and does nothing else. -/
def Obligations.PrimaryReadSyncsFirst : Prop :=
  ∀ (s t : State) (w : Width) (a cyc : Word) (h : Handler) (q : RegRow), s.Ready → alignDown w a = a →
    ReachesRegister s .pri w .rd a h q → q.reg.cls.shared = true → exec (.syncRd q.reg.cls cyc) s = .next t →
    let c := q.reg.cls
    let counts := t.cfg.polled .pri c && !spinOf t .pri c
    let d := observe (t.cfg.pollMaxgap.get c) (detectorOf t .pri c) a cyc
    let fires := counts && decide (d.cnt = 6)
    ∃ u, exec (readCmd w .pri a cyc) s = .next u ∧
      u.resp = { value := regRead t q a w, cycles := t.cfg.accessCycles .pri (.hnd h) w, irq := false } ∧
      (∀ x y, detectorOf u x y = if counts = true ∧ x = .pri ∧ y = c then d else detectorOf t x y) ∧
      (∀ x y, spinOf u x y = (spinOf t x y || (fires && decide (x = .pri) && decide (y = c)))) ∧
      (∀ x, u.endSlice.get x = (t.endSlice.get x || (fires && decide (x = .pri)))) ∧
      u = { t with pd := u.pd, spin := u.spin, endSlice := u.endSlice, resp := u.resp }

/-- R125, R144: a PRI write of a SHARED register is SYNC_WR first, and then the same write with the gate shut. -/
def Obligations.PrimaryWriteSyncsFirst : Prop :=
  ∀ (s t : State) (w : Width) (a v cyc : Word) (h : Handler) (q : RegRow), s.Ready → alignDown w a = a →
    ReachesRegister s .pri w .wr a h q → ReachesRegister t .pri w .wr a h q → q.reg.cls.shared = true →
    exec (.syncWr q.reg.cls cyc) s = .next t →
    gapOpen q.reg.cls cyc t = false ∧
    exec (writeCmd w .pri a v cyc) s = exec (writeCmd w .pri a v cyc) { t with resp := s.resp }

/-- R210 with R125, for every register without a rule of its own: the writable bits stored, A3 when another bit would change,
cross marking, interrupts and the response, and nothing else. -/
def Obligations.PlainWriteEffects : Prop :=
  ∀ (s : State) (p : Pid) (w : Width) (a v cyc : Word) (h : Handler) (q : RegRow), WritesRegister s p w a cyc h q →
    plainReg s.cfg q.reg = true →
    ∃ t, exec (writeCmd w p a v cyc) s = .next t ∧
      regLoad t q.reg = storedValue s q.reg (presented s q a v w) ∧ OtherRegistersKept s t q.reg ∧
      t.anom = s.anom ++ lockedLog s p a q.reg (regLoad s q.reg) (presented s q a v w) ∧
      WriteEnds s t p w h q.reg (regLoad s q.reg) true ∧ SameOutside s t ∧ SameStaging s t

/-- R211, R212: a COMM write; A4 while the ports are not enabled, no marking when the stored value is the old one. Whether A3 is
logged for a bit outside WMASK is the configuration's (log 12, DESIGN CHOICE). -/
def Obligations.CommWriteEffects : Prop :=
  ∀ (s : State) (p : Pid) (w : Width) (a v cyc : Word) (h : Handler) (q : RegRow) (i : Nat),
    WritesRegister s p w a cyc h q → q.reg = .comm i →
    ∃ t, exec (writeCmd w p a v cyc) s = .next t ∧
      regLoad t q.reg = storedValue s q.reg (presented s q a v w) ∧ OtherRegistersKept s t q.reg ∧
      t.anom = s.anom ++ (if s.cfg.commOn s.sys then [] else [{ code := .a4, pid := some p.code, addr := a }]) ++
        (if s.cfg.commA3 then lockedLog s p a q.reg (regLoad s q.reg) (presented s q a v w) else []) ∧
      WriteEnds s t p w h q.reg (regLoad s q.reg)
        (decide (storedValue s q.reg (presented s q a v w) ≠ regLoad s q.reg)) ∧
      SameOutside s t ∧ SameStaging s t

/-- R126, R168: after a marked write by p to a SHARED register (every rule but an equal-value COMM write marks) no other processor
spins on the class and the class is dirty for the other side, whatever else the write did. -/
def Obligations.MarkedWriteWakesTheOthers : Prop :=
  ∀ (s t : State) (p : Pid) (w : Width) (a v cyc : Word) (h : Handler) (q : RegRow), s.Inv → alignDown w a = a →
    ReachesRegister s p w .wr a h q → q.reg.cls.shared = true →
    ((∀ i, q.reg ≠ .comm i) ∨
      (WritesRegister s p w a cyc h q ∧ storedValue s q.reg (presented s q a v w) ≠ regLoad s q.reg)) →
    exec (writeCmd w p a v cyc) s = .next t →
    (∀ x, x ≠ p → spinOf t x q.reg.cls = false) ∧
    (∀ x, x ≠ p → s.cfg.polled x q.reg.cls = true → detectorOf t x q.reg.cls = Detector.clear) ∧
    dirtyOf t q.reg.cls p.side.other = true

/-! ## Register units (44_register_units.md) -/

/-- R216: COP_RESET resets both interpreters, sets VT to CYC when PRI is the writer (log 10), clears the coprocessors' detectors
and END_SLICE and the COP-side dirty flags, and touches nothing else (R290). -/
def Obligations.CopResetEffects : Prop :=
  ∀ (s : State) (cyc : Word), s.Ready → ∃ t, exec (.copReset cyc) s = .next t ∧
    t.calls = s.calls ++ [.resetCop .mcp, .resetCop .scp] ∧
    (∀ k, t.vt.get k = if s.writer = .pri then cyc else s.vt.get k) ∧
    (∀ p c, detectorOf t p c = if p ≠ .pri ∧ s.cfg.polled p c = true then Detector.clear else detectorOf s p c) ∧
    (∀ p c, spinOf t p c = if p ≠ .pri ∧ s.cfg.polled p c = true then false else spinOf s p c) ∧
    (∀ c d, dirtyOf t c d = if d = .cop ∧ c.shared = true then false else dirtyOf s c d) ∧
    (∀ p, t.endSlice.get p = if p = .pri then s.endSlice.get p else false) ∧
    t = { s with
          calls := t.calls, vt := t.vt, pd := t.pd, spin := t.spin, dirty := t.dirty, endSlice := t.endSlice
          resp := { value := 0, cycles := 0, irq := false } }

/-- R215, R216: a write to RES_REG is generic, A3 included, and when the stored RES_BIT rises it performs a COP_RESET of the writer
before the steps every write ends with: VT set for PRI, the coprocessors' detectors, END_SLICE and COP-side dirty flags cleared.
Without an edge only those steps follow. (A word that also holds BANK_FIELD may log A7 and move the window: BankFieldWrite.) -/
def Obligations.ResetEnableEdge : Prop :=
  ∀ (s : State) (p : Pid) (w : Width) (a v cyc : Word) (h : Handler) (q : RegRow), WritesRegister s p w a cyc h q →
    q.reg = .sys s.cfg.resReg →
    let old := regLoad s q.reg
    let new := storedValue s q.reg (presented s q a v w)
    let raised := (s.cfg.irqRaise p q.reg old new).map (fun x => HostCall.raise x.target x.level x.vector)
    ∃ t, exec (writeCmd w p a v cyc) s = .next t ∧ regLoad t q.reg = new ∧ OtherRegistersKept s t q.reg ∧
      t.mem = s.mem ∧ SameStaging s t ∧ t.lastSync = s.lastSync ∧ t.runs = s.runs ∧ t.draws = s.draws ∧
      (s.cfg.resReg ≠ s.cfg.bankReg → t.anom = s.anom ++ lockedLog s p a q.reg old (presented s q a v w) ∧ SameMapping s t) ∧
      if old.getLsbD s.cfg.resBit = false ∧ new.getLsbD s.cfg.resBit = true then
        t.calls = s.calls ++ [.resetCop .mcp, .resetCop .scp] ++ raised ∧
        (∀ k, t.vt.get k = if p = .pri then cyc else s.vt.get k) ∧
        (∀ k c, s.cfg.polled (Cop.pid k) c = true → detectorOf t k.pid c = Detector.clear ∧ spinOf t k.pid c = false) ∧
        (∀ k, t.endSlice.get (Cop.pid k) = (decide (k.pid = p) && s.cfg.irqLikely p q.reg old new)) ∧
        (∀ c, c.shared = true → dirtyOf t c .cop = (decide (c = .sys) && decide (p = .pri))) ∧
        ∃ u, exec (.copReset cyc) { regStore q.reg new s with writer := p } = .next u ∧ WriteEnds u t p w h q.reg old true
      else WriteEnds s t p w h q.reg old true ∧ t.vt = s.vt

/-- R219, R302: a write to the register of BANK_FIELD is generic, and selects the stored bank exactly when the field changes; the
field keeps the written value even when the switch is refused. It ends as every write does, response, interrupts, marking and
END_SLICE; where the word is RES_REG too and its RES_BIT rises, ResetEnableEdge says how it ends. Of an offset of 2^32 or more
BANK_OFF keeps the low 32 bits (log 34, DESIGN CHOICE). -/
def Obligations.BankFieldWrite : Prop :=
  ∀ (s : State) (p : Pid) (w : Width) (a v cyc : Word) (h : Handler) (q : RegRow), WritesRegister s p w a cyc h q →
    q.reg = .sys s.cfg.bankReg →
    let old := regLoad s q.reg
    let new := storedValue s q.reg (presented s q a v w)
    let n := s.cfg.bankField new
    let off := n.toNat * s.cfg.bankSize
    ∃ t, exec (writeCmd w p a v cyc) s = .next t ∧ regLoad t q.reg = new ∧ OtherRegistersKept s t q.reg ∧
      t.mem = s.mem ∧ SameStaging s t ∧ t.fbHalf = s.fbHalf ∧
      (¬ (s.cfg.bankReg = s.cfg.resReg ∧ old.getLsbD s.cfg.resBit = false ∧ new.getLsbD s.cfg.resBit = true) →
        WriteEnds s t p w h q.reg old true ∧ SameControl s t) ∧
      if n = s.cfg.bankField old then
        t.view = s.view ∧ t.bankOff = s.bankOff ∧ t.anom = s.anom ++ lockedLog s p a q.reg old (presented s q a v w)
      else if s.cfg.cartSize ≤ off then
        t.view = s.view ∧ t.bankOff = s.bankOff ∧
        t.anom = s.anom ++ lockedLog s p a q.reg old (presented s q a v w) ++ [{ code := .a7, pid := some 0, addr := n }]
      else
        t.view = bankViews s.cfg off s.view ∧ t.bankOff = BitVec.ofNat 32 off ∧
        t.anom = s.anom ++ lockedLog s p a q.reg old (presented s q a v w)

/-- R221: BANK_SELECT at or above CART_SIZE logs one A7 and changes nothing; below it, BANK_OFF is the offset and exactly the bank
window's slots of PRI's read views map the cartridge from there. Of an offset of 2^32 or more BANK_OFF keeps the low 32 bits (log
34, DESIGN CHOICE). -/
def Obligations.BankSelectMapsTheWindow : Prop :=
  ∀ (s : State) (n : Word), s.Ready → s.cfg.viewsOk s.view = true →
    let off := n.toNat * s.cfg.bankSize
    (s.cfg.cartSize ≤ off → exec (.bankSelect n) s = .next { s with
      anom := s.anom ++ [{ code := .a7, pid := some 0, addr := n }]
      resp := { value := 0, cycles := 0, irq := false } }) ∧
    (off < s.cfg.cartSize → ∃ t, exec (.bankSelect n) s = .next t ∧ t.bankOff = BitVec.ofNat 32 off ∧
      (∀ p w d slot, Table.get Entry.stub (viewOf t p w d) slot =
        if p = .pri ∧ d = .rd ∧ s.cfg.bankFirst ≤ slot ∧ slot < s.cfg.bankFirst + s.cfg.bankCount then
          .mem .cart (off + (slot - s.cfg.bankFirst) * 2 ^ s.cfg.shift.pri) (BitVec.ofNat 32 (2 ^ s.cfg.shift.pri - 1))
        else Table.get Entry.stub (viewOf s p w d) slot) ∧
      t = { s with bankOff := t.bankOff, view := t.view, resp := { value := 0, cycles := 0, irq := false } })

/-- R226, R300: FILL writes N + 1 words of FILL_DATA into the half being drawn, the low byte of the word offset wrapping and the
high byte held, and nothing else. In a half of an odd number of bytes a word may lie at an odd offset, which MemWrite aligns (R66),
and its second byte may lie past the end, where there is none, and a half of 0 bytes has no byte at all (log 31, DESIGN
CHOICE). -/
def Obligations.FillWrapsInItsRow : Prop :=
  ∀ s : State, s.Ready →
    let n := (regLoad s (.vdp s.cfg.fillLen)).toNat % 2 ^ s.cfg.fillLenW
    let start := (regLoad s (.vdp s.cfg.fillAddr)).toNat
    let v := regLoad s (.vdp s.cfg.fillData)
    let half : Region := .fb s.fbHalf
    let size := s.cfg.regionSize half
    let off := fun i : Nat => (2 * ((start / 256 % 256) * 256 + (start % 256 + i) % 256) % size) / 2 * 2
    ∃ t, exec .fill s = .next t ∧
      (∀ i, i ≤ n → (off i < size → readByte t half (off i) = v.extractLsb' 8 8) ∧
        (off i + 1 < size → readByte t half (off i + 1) = v.extractLsb' 0 8)) ∧
      (∀ q j, (q = half → ∀ i, i ≤ n → j ≠ off i ∧ j ≠ off i + 1) → readByte t q j = readByte s q j) ∧
      (size % 2 = 0 → ∀ i, off i = 2 * ((start / 256 % 256) * 256 + (start % 256 + i) % 256) % size) ∧
      t = { s with mem := t.mem, resp := { value := 0, cycles := 0, irq := false } }

/-- R225: a write to FILL_DATA is generic and then a FILL. (A FILL_DATA word that is also FS_REG is left to log 17.) -/
def Obligations.FillDataWriteFills : Prop :=
  ∀ (s : State) (p : Pid) (w : Width) (a v cyc : Word) (h : Handler) (q : RegRow), WritesRegister s p w a cyc h q →
    q.reg = .vdp s.cfg.fillData → s.cfg.fillData ≠ s.cfg.fsReg →
    ∃ t u, exec .fill (regStore q.reg (storedValue s q.reg (presented s q a v w)) s) = .next u ∧
      exec (writeCmd w p a v cyc) s = .next t ∧ t.mem = u.mem ∧
      regLoad t q.reg = storedValue s q.reg (presented s q a v w) ∧ OtherRegistersKept s t q.reg ∧
      t.anom = s.anom ++ lockedLog s p a q.reg (regLoad s q.reg) (presented s q a v w) ∧
      WriteEnds s t p w h q.reg (regLoad s q.reg) true ∧ SameControl s t ∧ SameMapping s t ∧ SameStaging s t

/-- R231: FB_SWAP(h) makes h the half being drawn; every slot of FB_DRAW_SLOTS maps FB[h], every slot of FB_VIS_SLOTS the other
half, all other slots are kept, and nothing else changes. -/
def Obligations.FbSwapRemapsTheSlots : Prop :=
  ∀ (s : State) (h : Bool), s.Ready → s.cfg.viewsOk s.view = true →
    let names := fun (f : FbSlot) (p : Pid) (w : Width) (d : Dir) (slot : Nat) =>
      f.pid = p ∧ f.width = w ∧ f.dir = d ∧ f.slot = slot
    ∃ t, exec (.fbSwap h) s = .next t ∧ t.fbHalf = h ∧
      (∀ p w d slot, (∀ f ∈ s.cfg.fbDraw ++ s.cfg.fbVis, ¬ names f p w d slot) →
        Table.get Entry.stub (viewOf t p w d) slot = Table.get Entry.stub (viewOf s p w d) slot) ∧
      (∀ f ∈ s.cfg.fbVis, (∀ f' ∈ s.cfg.fbVis, names f' f.pid f.width f.dir f.slot → f'.base = f.base) →
        Table.get Entry.stub (viewOf t f.pid f.width f.dir) f.slot = .mem (.fb (!h)) f.base s.cfg.fbMask) ∧
      (∀ f ∈ s.cfg.fbDraw, (∀ f' ∈ s.cfg.fbVis, ¬ names f' f.pid f.width f.dir f.slot) →
        (∀ f' ∈ s.cfg.fbDraw, names f' f.pid f.width f.dir f.slot → f'.base = f.base) →
        Table.get Entry.stub (viewOf t f.pid f.width f.dir) f.slot = .mem (.fb h) f.base s.cfg.fbMask) ∧
      t = { s with fbHalf := t.fbHalf, view := t.view, resp := { value := 0, cycles := 0, irq := false } }

/-- R230, R301: with FB_GATE open a write to FS_REG is generic and swaps when the FS bit changes; with it closed the FS bit and the
mapping stay and the other bits are written. (An FS_REG word that is also FILL_DATA is left to log 17.) -/
def Obligations.SwapIsGated : Prop :=
  ∀ (s : State) (p : Pid) (w : Width) (a v cyc : Word) (h : Handler) (q : RegRow), WritesRegister s p w a cyc h q →
    q.reg = .vdp s.cfg.fsReg → s.cfg.fillData ≠ s.cfg.fsReg →
    let old := regLoad s q.reg
    let new := presented s q a v w
    let b := new.getLsbD s.cfg.fsBit
    ∃ t, exec (writeCmd w p a v cyc) s = .next t ∧ OtherRegistersKept s t q.reg ∧
      WriteEnds s t p w h q.reg old true ∧ t.mem = s.mem ∧ SameStaging s t ∧ SameControl s t ∧ t.bankOff = s.bankOff ∧
      if s.cfg.gateOpen s.vdp then
        regLoad t q.reg = storedValue s q.reg new ∧ t.anom = s.anom ++ lockedLog s p a q.reg old new ∧
        if b = old.getLsbD s.cfg.fsBit then t.fbHalf = s.fbHalf ∧ t.view = s.view
        else t.fbHalf = b ∧ t.view = fbViews s.cfg (!b) s.cfg.fbVis (fbViews s.cfg b s.cfg.fbDraw s.view)
      else
        (regLoad t q.reg).getLsbD s.cfg.fsBit = old.getLsbD s.cfg.fsBit ∧
        (∀ n, n ≠ s.cfg.fsBit → (regLoad t q.reg).getLsbD n = (storedValue s q.reg new).getLsbD n) ∧
        t.anom = s.anom ++ lockedLog s p a q.reg old (setWordBit new s.cfg.fsBit (old.getLsbD s.cfg.fsBit)) ∧
        t.fbHalf = s.fbHalf ∧ t.view = s.view

/-- R239: the signed 32-bit division, truncating; by zero stale or zero (R303); the one overflow clamps and its remainder is the
next free value. Only QUOT and REM of unit k are written. -/
def Obligations.Div32Results : Prop :=
  ∀ (s : State) (k : Cop), s.Ready →
    let u := s.divu.get k
    let n := u.dvdnt.toInt
    let d := u.dvsr.toInt
    ∃ t, exec (.div32 k) s = .next t ∧
      (d = 0 → s.cfg.div0 = .stale → t.divu.get k = u) ∧
      (d = 0 → s.cfg.div0 = .zero → t.divu.get k = { u with quot := 0, rem := 0 }) ∧
      (n = -2147483648 → d = -1 →
        t.divu.get k = { u with quot := 0x7FFFFFFF, rem := Config.drawWord s.draws } ∧ t.draws = s.draws + 1) ∧
      (d ≠ 0 → ¬ (n = -2147483648 ∧ d = -1) → ∃ q r : Word, t.divu.get k = { u with quot := q, rem := r } ∧
        q.toInt = n.tdiv d ∧ r.toInt = n - n.tdiv d * d) ∧
      (¬ (n = -2147483648 ∧ d = -1) → t.draws = s.draws) ∧
      (∀ j, j ≠ k → t.divu.get j = s.divu.get j) ∧
      t = { s with divu := t.divu, draws := t.draws, resp := { value := 0, cycles := 0, irq := false } }

/-- R240: the signed 64-bit dividend; a quotient out of the 32-bit range clamps, with one free value as the remainder of both
pairs; results are mirrored. -/
def Obligations.Div64Results : Prop :=
  ∀ (s : State) (k : Cop), s.Ready →
    let u := s.divu.get k
    let n := (u.dvdnth ++ u.dvdntl : BitVec (32 + 32)).toInt
    let d := u.dvsr.toInt
    let q := n.tdiv d
    let both := fun (x y : Word) => { u with quot := x, rem := y, quotM := x, remM := y }
    ∃ t, exec (.div64 k) s = .next t ∧
      (d = 0 → s.cfg.div0 = .stale → t.divu.get k = u) ∧
      (d = 0 → s.cfg.div0 = .zero → t.divu.get k = both 0 0) ∧
      (d ≠ 0 → 2147483647 < q → t.divu.get k = both 0x7FFFFFFF (Config.drawWord s.draws) ∧ t.draws = s.draws + 1) ∧
      (d ≠ 0 → q < -2147483648 → t.divu.get k = both 0x80000000 (Config.drawWord s.draws) ∧ t.draws = s.draws + 1) ∧
      (d ≠ 0 → -2147483648 ≤ q → q ≤ 2147483647 → t.draws = s.draws ∧ ∃ x y : Word, t.divu.get k = both x y ∧
        x.toInt = q ∧ y.toInt = n - q * d) ∧
      (d = 0 → t.draws = s.draws) ∧
      (∀ j, j ≠ k → t.divu.get j = s.divu.get j) ∧
      t = { s with divu := t.divu, draws := t.draws, resp := { value := 0, cycles := 0, irq := false } }

/-- R236, R238: a write to DVDNT is generic and then DIV32, a write to DVDNTL generic and then DIV64, at every width. -/
def Obligations.DividendWriteDivides : Prop :=
  ∀ (s : State) (p : Pid) (w : Width) (a v cyc : Word) (h : Handler) (q : RegRow) (k : Cop),
    WritesRegister s p w a cyc h q →
    ∀ i : Instr, (q.reg = .div k .dvdnt ∧ i = .div32 k) ∨ (q.reg = .div k .dvdntl ∧ i = .div64 k) →
    ∃ t u, exec i (regStore q.reg (storedValue s q.reg (presented s q a v w)) s) = .next u ∧
      exec (writeCmd w p a v cyc) s = .next t ∧ t.divu = u.divu ∧ t.draws = u.draws ∧
      t.anom = s.anom ++ lockedLog s p a q.reg (regLoad s q.reg) (presented s q a v w) ∧
      WriteEnds s t p w h q.reg (regLoad s q.reg) true ∧ SameControl u t ∧ SameMapping s t ∧ t.mem = s.mem ∧
      t.dma = s.dma ∧ SameBanks u t

/-! ## The sync gate (41_sync.md) -/

/-- R141: SYNC_RD with the dirty flag set clears it and runs nothing; without it, it is SYNC_WR of the class, and SYNC_WR inside
the tolerance window does nothing (R143, R144). -/
def Obligations.SyncReadBranches : Prop :=
  ∀ (s : State) (c : RegClass) (now : Word), s.Ready → c.shared = true →
    (dirtyOf s c .pri = true → ∃ t, exec (.syncRd c now) s = .next t ∧
      (∀ x y, dirtyOf t x y = if x = c ∧ y = .pri then false else dirtyOf s x y) ∧
      t = { s with dirty := t.dirty, resp := { value := 0, cycles := 0, irq := false } }) ∧
    (dirtyOf s c .pri = false → exec (.syncRd c now) s = exec (.syncWr c now) s) ∧
    (¬ (0 < (now - s.lastSync).toInt ∧ (s.cfg.syncGap.get c).toNat < (now - s.lastSync).toNat) →
      exec (.syncWr c now) s = .next { s with resp := { value := 0, cycles := 0, irq := false } })

/-- R143: an open gate takes its turn for MCP and then for SCP (`RunsUpTo`): one that is behind NOW gets host.run(k, NOW - VT[k]),
the commands of its run are performed as bus commands in order (R75), and VT[k] moves by the larger of n and what the run reports;
then LAST_SYNC is NOW. The answers are those of State.runs, and an exhausted list reports n without commands (log 5, DESIGN
CHOICE). A run that never returns, the first or the second, hangs the access (R149), which is a fault here (log 6, DEDUCED). -/
def Obligations.OpenGateRunsTheCoprocessors : Prop :=
  ∀ (s : State) (c : RegClass) (now : Word), s.Ready → s.Inv → s.cfg.misalign = .alignDown → c.shared = true →
    0 < (now - s.lastSync).toInt → (s.cfg.syncGap.get c).toNat < (now - s.lastSync).toNat →
    let n := fun k => now - s.vt.get k
    let behind := fun k => 0 < (now - s.vt.get k).toInt
    let longer := fun (x y : Word) => BitVec.ofNat 32 (max x.toNat y.toNat)
    let rest := if behind .mcp then s.runs.tail else s.runs
    let hangs := fun (k : Cop) (runs : List Run) => behind k ∧ ∃ cmds later, runs = ⟨cmds, none⟩ :: later
    (¬ hangs .mcp s.runs → ¬ hangs .scp rest → ∃ m u t, RunsUpTo .mcp now s m ∧ RunsUpTo .scp now m u ∧ exec (.syncWr c now) s = .next t ∧
      t = { u with lastSync := now, resp := { value := 0, cycles := 0, irq := false } } ∧
      t.vt.mcp = (if behind .mcp then s.vt.mcp + longer (n .mcp) (usedBy s.runs (n .mcp)) else s.vt.mcp) ∧
      t.vt.scp = (if behind .scp then s.vt.scp + longer (n .scp) (usedBy rest (n .scp)) else s.vt.scp) ∧
      t.runs = (if behind .scp then rest.tail else rest)) ∧
    (hangs .mcp s.runs → exec (.syncWr c now) s = .fault (.coprocessorRunHung .mcp)) ∧
    (¬ hangs .mcp s.runs → hangs .scp rest → exec (.syncWr c now) s = .fault (.coprocessorRunHung .scp))

/-- R147: a gate moves LAST_SYNC only to a later NOW, and VT[k] only when it is behind and by at least NOW - VT[k]; so neither moves
backward (R272), as long as no run reports 2^31 cycles or more. -/
def Obligations.GateNeverMovesTimeBack : Prop :=
  ∀ (s t : State) (c : RegClass) (now : Word), c.shared = true → exec (.syncWr c now) s = .next t →
    (t.lastSync = s.lastSync ∨ (t.lastSync = now ∧ 0 < (now - s.lastSync).toInt)) ∧
    (∀ k, t.vt.get k = s.vt.get k ∨ (0 < (now - s.vt.get k).toInt ∧
      ∃ m : Word, (now - s.vt.get k).toNat ≤ m.toNat ∧ t.vt.get k = s.vt.get k + m)) ∧
    ((∀ r ∈ s.runs, ∀ used, r.used = some used → used.toNat < 2 ^ 31) →
      ∀ k, t.vt.get k = s.vt.get k ∨ after (t.vt.get k) (s.vt.get k) = true)

/-- R148: a second gate of the class with the same NOW does nothing, and after a gate that opened (R143) neither does one of any
other SHARED class. -/
def Obligations.GateIsIdempotent : Prop :=
  ∀ (s t : State) (c : RegClass) (now : Word), c.shared = true → exec (.syncWr c now) s = .next t →
    let opened := 0 < (now - s.lastSync).toInt ∧ (s.cfg.syncGap.get c).toNat < (now - s.lastSync).toNat
    ∀ x : RegClass, x.shared = true → (x = c ∨ opened) →
      exec (.syncWr x now) t = .next { t with resp := { value := 0, cycles := 0, irq := false } }

/-- R149: the gate as a state machine. From its start it is back in IDLE after at most four transitions with the state SYNC_RD or
SYNC_WR leaves, and it never gets there when a run hangs. -/
def Obligations.GateFsmRefinesTheCommands : Prop :=
  ∀ (s : State) (isRead : Bool) (c : RegClass) (now : Word), s.Ready → c.shared = true →
    let i : Instr := if isRead then .syncRd c now else .syncWr c now
    (∀ t, exec i s = .next t → ∃ n, n ≤ 4 ∧ (gateStep^[n] (gateStart isRead c now s)).phase = .idle ∧
      t = respond Response.zero (gateStep^[n] (gateStart isRead c now s)).block) ∧
    (∀ k, exec i s = .fault (.coprocessorRunHung k) → ∀ n, (gateStep^[n] (gateStart isRead c now s)).phase ≠ .idle)

/-! ## Poll detectors (42_poll.md) -/

/-- R161 to R164: one observation by a monitored pair. While SPIN is set nothing happens; a hit (within 2 of the anchor and the
class's gap) counts; anything else re-anchors; the sixth hit sets SPIN and returns 1. -/
def Obligations.PollDetectObserves : Prop :=
  ∀ (s : State) (p : Pid) (c : RegClass) (a cyc : Word), s.Ready → s.cfg.polled p c = true →
    let d := detectorOf s p c
    let hit := d.valid = true ∧ min (a - d.anchor).toNat (d.anchor - a).toNat ≤ 2 ∧
      (cyc - d.last).toNat ≤ (s.cfg.pollMaxgap.get c).toNat
    let d' : Detector := if hit then { d with cnt := d.cnt + 1, last := cyc } else { anchor := a, last := cyc, cnt := 0, valid := true }
    ∃ t, exec (.pollDetect p c a cyc) s = .next t ∧
      (spinOf s p c = true → t = { s with resp := { value := 0, cycles := 0, irq := false } }) ∧
      (spinOf s p c = false →
        t.resp = { value := if d'.cnt = 6 then 1 else 0, cycles := 0, irq := false } ∧
        (∀ x y, detectorOf t x y = if x = p ∧ y = c then d' else detectorOf s x y) ∧
        (∀ x y, spinOf t x y = if x = p ∧ y = c then decide (d'.cnt = 6) else spinOf s x y) ∧
        t = { s with pd := t.pd, spin := t.spin, resp := t.resp })

/-- R167: from a detector with valid and SPIN false, POLL_DETECT calls at one address with gaps up to POLL_MAXGAP return 1 on the
seventh call and 0 on every other one. -/
def Obligations.PollFiresOnTheSeventhCall : Prop :=
  ∀ (s : State) (p : Pid) (c : RegClass) (a : Word) (times : List Word), s.Ready → s.cfg.polled p c = true →
    spinOf s p c = false → (detectorOf s p c).valid = false →
    (∀ i, (h : i + 1 < times.length) → (times[i + 1] - times[i]).toNat ≤ (s.cfg.pollMaxgap.get c).toNat) →
    pollValues p c a times s = (List.range times.length).map (fun i => if i = 6 then 1 else 0)

/-- R165: POLL_UNDETECT clears the flag and the detector of a pair of POLL_SET, and does nothing for any other pair. -/
def Obligations.PollUndetectClears : Prop :=
  ∀ (s : State) (p : Pid) (c : RegClass), s.Ready →
    (s.cfg.polled p c = false →
      exec (.pollUndetect p c) s = .next { s with resp := { value := 0, cycles := 0, irq := false } }) ∧
    (s.cfg.polled p c = true → ∃ t, exec (.pollUndetect p c) s = .next t ∧
      (∀ x y, spinOf t x y = if x = p ∧ y = c then false else spinOf s x y) ∧
      (∀ x y, detectorOf t x y =
        if x = p ∧ y = c then { anchor := 0, last := 0, cnt := 0, valid := false } else detectorOf s x y) ∧
      t = { s with spin := t.spin, pd := t.pd, resp := { value := 0, cycles := 0, irq := false } })

/-- R163: POLL_DETECT is the only path that sets SPIN. A command that reads no register and opens no gate, a whole DMA transfer and
its destination writes included, sets none. -/
def Obligations.OnlyReadsSetSpin : Prop :=
  ∀ (i : Instr) (s t : State) (p : Pid) (c : RegClass), NeverDetects i → exec i s = .next t → spinOf s p c = false →
    spinOf t p c = false

/-! ## DMA (43_dma.md) -/

/-- R181, R182, R189: a push; A8 and no push when the FIFO is full; on every fourth push, with the channel enabled and not BUSY, a
DMA_RUN and END_SLICE of the writer, before the steps every write ends with. A transfer's own write to FIFO_DATA (BUSY) only
pushes. -/
def Obligations.FifoPushAndTrigger : Prop :=
  ∀ (s : State) (p : Pid) (w : Width) (a v cyc : Word) (h : Handler) (q : RegRow), WritesRegister s p w a cyc h q →
    q.reg = .dma .fifoData →
    let new : Half := (presented s q a v w).setWidth 16
    let full := s.dma.fifo.length = s.cfg.fifoCap
    let pushed : Dma := { s.dma with
      fifoData := new, fifo := s.dma.fifo ++ [new], rx := s.dma.rx + 1
      stat := setHalfBit s.dma.stat s.cfg.statFullBit (s.dma.fifo.length + 1 == s.cfg.fifoCap) }
    let triggers := (s.dma.rx + 1).toNat % 4 = 0 ∧ s.cfg.dmaEnabled s.dma.chcr = true ∧ s.dma.busy = false
    (full → ∃ t, exec (writeCmd w p a v cyc) s = .next t ∧ t.dma = { s.dma with fifoData := new } ∧
      t.anom = s.anom ++ [{ code := .a8, pid := some p.code, addr := a }] ∧
      WriteEnds s t p w h q.reg (regLoad s q.reg) true ∧ SameOutside s t ∧ SameBanks s t) ∧
    (¬ full → ¬ triggers → ∃ t, exec (writeCmd w p a v cyc) s = .next t ∧ t.dma = pushed ∧ t.anom = s.anom ∧
      WriteEnds s t p w h q.reg (regLoad s q.reg) true ∧ SameOutside s t ∧ SameBanks s t) ∧
    (¬ full → triggers → ∀ u, exec (.dmaRun cyc) { s with dma := pushed } = .next u →
      ∃ t, exec (writeCmd w p a v cyc) s = .next t ∧ t.dma = u.dma ∧ t.mem = u.mem ∧ t.anom = u.anom ∧
        WriteEnds { u with endSlice := u.endSlice.set p true } t p w h q.reg (regLoad s q.reg) true ∧
        SameControl u t ∧ SameMapping u t ∧ SameBanks u t)

/-- R183, R182, R189: a CHCR write is generic; with words staged, the channel enabled by the stored value and not BUSY, it starts a
DMA_RUN and sets END_SLICE of the writer, before the steps every write ends with. -/
def Obligations.ChcrWriteStartsStagedWords : Prop :=
  ∀ (s : State) (p : Pid) (w : Width) (a v cyc : Word) (h : Handler) (q : RegRow), WritesRegister s p w a cyc h q →
    q.reg = .dma .chcr →
    let stored := storedValue s q.reg (presented s q a v w)
    let locked := lockedLog s p a q.reg (regLoad s q.reg) (presented s q a v w)
    let set : State := { s with dma := { s.dma with chcr := stored }, anom := s.anom ++ locked }
    ((s.dma.fifo = [] ∨ s.cfg.dmaEnabled stored = false ∨ s.dma.busy = true) → ∃ t, exec (writeCmd w p a v cyc) s = .next t ∧
      t.dma = set.dma ∧ t.anom = set.anom ∧ WriteEnds s t p w h q.reg (regLoad s q.reg) true ∧ SameOutside s t ∧
      SameBanks s t) ∧
    (s.dma.fifo ≠ [] → s.cfg.dmaEnabled stored = true → s.dma.busy = false → ∀ u, exec (.dmaRun cyc) set = .next u →
      ∃ t, exec (writeCmd w p a v cyc) s = .next t ∧ t.dma = u.dma ∧ t.mem = u.mem ∧ t.anom = u.anom ∧
        WriteEnds { u with endSlice := u.endSlice.set p true } t p w h q.reg (regLoad s q.reg) true ∧
        SameControl u t ∧ SameMapping u t ∧ SameBanks u t)

/-- R184: a LEN write is generic, restarts RX, and logs A5 when the stored length is no multiple of 4. -/
def Obligations.LenWriteRestartsTheCount : Prop :=
  ∀ (s : State) (p : Pid) (w : Width) (a v cyc : Word) (h : Handler) (q : RegRow), WritesRegister s p w a cyc h q →
    q.reg = .dma .len →
    let stored := storedValue s q.reg (presented s q a v w)
    ∃ t, exec (writeCmd w p a v cyc) s = .next t ∧ t.dma = { s.dma with len := stored.setWidth 16, rx := 0 } ∧
      t.anom = s.anom ++ lockedLog s p a q.reg (regLoad s q.reg) (presented s q a v w) ++
        (if stored.toNat % 4 = 0 then [] else [{ code := .a5, pid := some p.code, addr := a }]) ∧
      WriteEnds s t p w h q.reg (regLoad s q.reg) true ∧ SameOutside s t ∧ SameBanks s t

/-- R185, R309: DMA_RUN ends, wherever its destination writes go, those that write LEN or TCR included (logs 16, 35): with TCR or LEN at 0 or the FIFO empty, and BUSY cleared. Timeouts
and budgets do not exist; the transfer ends on its own. -/
def Obligations.DmaRunEnds : Prop :=
  ∀ (s : State) (cyc : Word), s.Ready → s.Inv → s.cfg.misalign = .alignDown →
    ∃ t, exec (.dmaRun cyc) s = .next t ∧ t.dma.busy = false ∧
      (t.dma.tcr = 0 ∨ t.dma.len = 0 ∨ t.dma.fifo = []) ∧ t.lastSync = s.lastSync ∧ t.vt = s.vt ∧ t.runs = s.runs ∧
      t.resp = { value := 0, cycles := 0, irq := false }

/-- R185, R187, R188, R192: into backing memory, DMA_RUN writes exactly the first min(TCR, LEN, |FIFO|) words in order, big-endian,
from DAR on in steps of 2; the counts, DAR and the FIFO advance in lock-step; when a word moved and a count reached 0 it completes:
A6 on a mismatch, FULL cleared, the done bit set, the owner's detectors cleared. Every other byte is kept. -/
def Obligations.DmaRunMovesExactlyTheWords : Prop :=
  ∀ (s : State) (cyc : Word) (rgn : Nat → Region) (off : Nat → Nat), s.Ready → s.Inv →
    alignAccess s.cfg .w16 s.dma.dar ≠ none →
    let n := movedWords s
    (∀ i, i < n → GoesTo s i (rgn i) (off i)) →
    (∀ i j, i < n → j < n → rgn i = rgn j → off i = off j → i = j) →
    let ends := 0 < n ∧ (s.dma.tcr.toNat = n ∨ s.dma.len.toNat = n)
    let owner := s.cfg.owner
    ∃ t, exec (.dmaRun cyc) s = .next t ∧
      (∀ i (h : i < s.dma.fifo.length), i < n →
        readByte t (rgn i) (off i) = s.dma.fifo[i].extractLsb' 8 8 ∧
        readByte t (rgn i) (off i + 1) = s.dma.fifo[i].extractLsb' 0 8) ∧
      (∀ q j, (∀ i, i < n → q = rgn i → j ≠ off i ∧ j ≠ off i + 1) → readByte t q j = readByte s q j) ∧
      t.dma = { s.dma with
        dar := s.dma.dar + BitVec.ofNat 32 (2 * n), tcr := s.dma.tcr - BitVec.ofNat 32 n
        len := s.dma.len - BitVec.ofNat 16 n, fifo := s.dma.fifo.drop n
        stat := if ends then setHalfBit s.dma.stat s.cfg.statFullBit false
          else if n = 0 then s.dma.stat
          else setHalfBit s.dma.stat s.cfg.statFullBit (s.dma.fifo.length - n == s.cfg.fifoCap)
        chcr := if ends then setWordBit s.dma.chcr s.cfg.dmaDoneBit true else s.dma.chcr } ∧
      t.anom = s.anom ++ (if ends ∧ s.dma.tcr.toNat ≠ s.dma.len.toNat then
        [{ code := .a6, pid := some owner.code, addr := s.dma.dar + BitVec.ofNat 32 (2 * n) }] else []) ∧
      (∀ x y, detectorOf t x y =
        if ends ∧ x = owner ∧ s.cfg.polled x y = true then Detector.clear else detectorOf s x y) ∧
      (∀ x y, spinOf t x y = if ends ∧ x = owner ∧ s.cfg.polled x y = true then false else spinOf s x y) ∧
      t = { s with
            mem := t.mem, dma := t.dma, anom := t.anom, pd := t.pd, spin := t.spin
            resp := { value := 0, cycles := 0, irq := false } }

/-- R185, R187, R182, R188: DMA_RUN turn by turn, wherever its words go. With TCR or LEN at 0 or the FIFO empty it changes nothing.
Otherwise the first word leaves the FIFO, FULL is recomputed, and the word is written by a BUS_WR16 of DMA_OWNER at DAR, with every
effect of one: the register rule and cross marking of a handler destination, the A2 and the dropped word of a STUB. BUSY is set,
so that write starts no transfer (log 26). Then DAR, TCR and LEN advance in lock-step (after a write that set TCR or LEN to 0:
logs 16, 35), and the transfer goes on from there, or completes when a count is 0. A destination write that is refused (R67)
refuses the command. -/
def Obligations.DestinationWriteIsABusWrite : Prop :=
  (∀ (s : State) (a cyc : Word) (v : Half), s.Ready → s.dma.busy = true →
    exec (.busWr16 s.cfg.owner a v cyc) s =
      settle (answer (busWrite destinationEnv s.cfg.owner .w16 a (v.setWidth 32) cyc s))) ∧
  ∀ (s : State) (cyc : Word), s.Ready → s.dma.busy = false →
    (s.dma.tcr = 0 ∨ s.dma.len = 0 ∨ s.dma.fifo = [] →
      exec (.dmaRun cyc) s = .next { s with resp := { value := 0, cycles := 0, irq := false } }) ∧
    ∀ (w : Half) (rest : List Half), s.dma.tcr ≠ 0 → s.dma.len ≠ 0 → s.dma.fifo = w :: rest →
      let owner := s.cfg.owner
      let popped : State := { s with dma := { s.dma with
        busy := true, fifo := rest, stat := setHalfBit s.dma.stat s.cfg.statFullBit (rest.length == s.cfg.fifoCap) } }
      (∀ r, exec (.busWr16 owner s.dma.dar w cyc) popped = .refused r → exec (.dmaRun cyc) s = .refused r) ∧
      ∀ t, exec (.busWr16 owner s.dma.dar w cyc) popped = .next t →
        let moved : State := { t with
          resp := s.resp
          dma := { t.dma with dar := t.dma.dar + 2, tcr := s.cfg.tcrDown t.dma.tcr, len := t.dma.len - 1 } }
        dmaMove cyc w rest { s with dma := { s.dma with busy := true } } = moved ∧
        (moved.dma.tcr ≠ 0 → moved.dma.len ≠ 0 →
          exec (.dmaRun cyc) s = exec (.dmaRun cyc) { moved with dma := { moved.dma with busy := false } }) ∧
        (moved.dma.tcr = 0 ∨ moved.dma.len = 0 → ∃ u, exec (.dmaRun cyc) s = .next u ∧
          u.dma = { moved.dma with
            busy := false, stat := setHalfBit moved.dma.stat s.cfg.statFullBit false
            chcr := setWordBit moved.dma.chcr s.cfg.dmaDoneBit true } ∧
          u.anom = moved.anom ++ (if moved.dma.tcr = 0 ∧ moved.dma.len = 0 then []
            else [{ code := .a6, pid := some owner.code, addr := moved.dma.dar }]) ∧
          (∀ x y, detectorOf u x y =
            if x = owner ∧ s.cfg.polled x y = true then Detector.clear else detectorOf moved x y) ∧
          (∀ x y, spinOf u x y = if x = owner ∧ s.cfg.polled x y = true then false else spinOf moved x y) ∧
          u = { moved with
            dma := u.dma, anom := u.anom, pd := u.pd, spin := u.spin
            resp := { value := 0, cycles := 0, irq := false } })

/-! ## The whole machine -/

/-- The state after reset meets the invariant and accepts commands. -/
def Obligations.ResetMeetsTheInvariant : Prop := State.reset.Inv ∧ State.reset.Ready ∧ State.reset.RunsReturn

/-- Every step keeps the invariant, from every state that meets it: well-formed views (R23, R62), FIFO at most FIFO_CAP (R30),
counters at most 6 (R32), SPIN only in POLL_SET (R33), no dirty flag for LOCAL (R34), fixed sizes (R20), BUSY false between
commands (R29), canonical memory. -/
def Obligations.StepKeepsTheInvariant : Prop :=
  ∀ s t : State, s.Inv → step s = .next t → t.Inv

/-- R250: no command can fail. In a block that accepts commands, whose coprocessor runs return and which aligns addresses down
(R67), every command answers a next state and the block goes on accepting commands; after INIT only a failed one stops that. -/
def Obligations.NoCommandFails : Prop :=
  ∀ (i : Instr) (s : State), s.Inv → s.Ready → s.RunsReturn → s.cfg.misalign = .alignDown →
    ∃ t, exec i s = .next t ∧ ((∀ cyc, i ≠ .init true cyc) → t.Ready) ∧ t.RunsReturn

/-- R39: ANOM is append-only, and so is the record of collaborator calls; no command changes the configuration or the commands still
to come. -/
def Obligations.HistoryIsAppendOnly : Prop :=
  ∀ (i : Instr) (s t : State), exec i s = .next t →
    (∃ l, t.anom = s.anom ++ l) ∧ (∃ l, t.calls = s.calls ++ l) ∧ t.cfg = s.cfg ∧ t.queue = s.queue

/-- R291, R298, R123: a coprocessor's bus command, whatever it reaches, opens no gate, so it never moves LAST_SYNC or a virtual time and
takes no run; and its reads change no register, no byte of memory and no view. -/
def Obligations.CoprocessorAccessesOpenNoGate : Prop :=
  (∀ (i : Instr) (s t : State), CoprocessorAccess i → exec i s = .next t →
    t.lastSync = s.lastSync ∧ t.vt = s.vt ∧ t.runs = s.runs) ∧
  ∀ (p : Pid) (w : Width) (a cyc : Word) (s t : State), p ≠ .pri → exec (readCmd w p a cyc) s = .next t →
    (∀ r, regLoad t r = regLoad s r) ∧ t.dma = s.dma ∧ t.mem = s.mem ∧ t.view = s.view
end

