-- ==== Sys2Proof/Laws/State.lean ====
section
/-! SUPPORT. The small lemmas of the tables and of every state update: what an update writes and what it keeps, each true by
rfl, so that no later proof unfolds a record update. -/

namespace Sys2Proof

/-! ## Tables indexed by a small set -/

@[simp] theorem PerPid.get_set_same {α : Type} (t : PerPid α) (p : Pid) (a : α) : (t.set p a).get p = a := by
  cases p <;> rfl

theorem PerPid.get_set {α : Type} (t : PerPid α) (p q : Pid) (a : α) :
    (t.set p a).get q = if q = p then a else t.get q := by
  cases p <;> cases q <;> rfl

@[simp] theorem PerPid.set_get {α : Type} (t : PerPid α) (p : Pid) : t.set p (t.get p) = t := by
  cases p <;> rfl

theorem PerPid.ext_get {α : Type} {t u : PerPid α} (h : ∀ p, t.get p = u.get p) : t = u := by
  cases t; cases u
  simp only [PerPid.mk.injEq]
  exact ⟨h .pri, h .mcp, h .scp⟩

@[simp] theorem PerCop.get_set_same {α : Type} (t : PerCop α) (p : Cop) (a : α) : (t.set p a).get p = a := by
  cases p <;> rfl

theorem PerCop.get_set {α : Type} (t : PerCop α) (p q : Cop) (a : α) :
    (t.set p a).get q = if q = p then a else t.get q := by
  cases p <;> cases q <;> rfl

@[simp] theorem PerCop.set_get {α : Type} (t : PerCop α) (p : Cop) : t.set p (t.get p) = t := by
  cases p <;> rfl

theorem PerCop.ext_get {α : Type} {t u : PerCop α} (h : ∀ p, t.get p = u.get p) : t = u := by
  cases t; cases u
  simp only [PerCop.mk.injEq]
  exact ⟨h .mcp, h .scp⟩

@[simp] theorem PerWidth.get_set_same {α : Type} (t : PerWidth α) (p : Width) (a : α) : (t.set p a).get p = a := by
  cases p <;> rfl

theorem PerWidth.get_set {α : Type} (t : PerWidth α) (p q : Width) (a : α) :
    (t.set p a).get q = if q = p then a else t.get q := by
  cases p <;> cases q <;> rfl

@[simp] theorem PerWidth.set_get {α : Type} (t : PerWidth α) (p : Width) : t.set p (t.get p) = t := by
  cases p <;> rfl

theorem PerWidth.ext_get {α : Type} {t u : PerWidth α} (h : ∀ p, t.get p = u.get p) : t = u := by
  cases t; cases u
  simp only [PerWidth.mk.injEq]
  exact ⟨h .w8, h .w16, h .w32⟩

@[simp] theorem PerDir.get_set_same {α : Type} (t : PerDir α) (p : Dir) (a : α) : (t.set p a).get p = a := by
  cases p <;> rfl

theorem PerDir.get_set {α : Type} (t : PerDir α) (p q : Dir) (a : α) :
    (t.set p a).get q = if q = p then a else t.get q := by
  cases p <;> cases q <;> rfl

@[simp] theorem PerDir.set_get {α : Type} (t : PerDir α) (p : Dir) : t.set p (t.get p) = t := by
  cases p <;> rfl

theorem PerDir.ext_get {α : Type} {t u : PerDir α} (h : ∀ p, t.get p = u.get p) : t = u := by
  cases t; cases u
  simp only [PerDir.mk.injEq]
  exact ⟨h .rd, h .wr⟩

@[simp] theorem PerSide.get_set_same {α : Type} (t : PerSide α) (p : Side) (a : α) : (t.set p a).get p = a := by
  cases p <;> rfl

theorem PerSide.get_set {α : Type} (t : PerSide α) (p q : Side) (a : α) :
    (t.set p a).get q = if q = p then a else t.get q := by
  cases p <;> cases q <;> rfl

@[simp] theorem PerSide.set_get {α : Type} (t : PerSide α) (p : Side) : t.set p (t.get p) = t := by
  cases p <;> rfl

theorem PerSide.ext_get {α : Type} {t u : PerSide α} (h : ∀ p, t.get p = u.get p) : t = u := by
  cases t; cases u
  simp only [PerSide.mk.injEq]
  exact ⟨h .pri, h .cop⟩

@[simp] theorem PerClass.get_set_same {α : Type} (t : PerClass α) (p : RegClass) (a : α) : (t.set p a).get p = a := by
  cases p <;> rfl

theorem PerClass.get_set {α : Type} (t : PerClass α) (p q : RegClass) (a : α) :
    (t.set p a).get q = if q = p then a else t.get q := by
  cases p <;> cases q <;> rfl

@[simp] theorem PerClass.set_get {α : Type} (t : PerClass α) (p : RegClass) : t.set p (t.get p) = t := by
  cases p <;> rfl

theorem PerClass.ext_get {α : Type} {t u : PerClass α} (h : ∀ p, t.get p = u.get p) : t = u := by
  cases t; cases u
  simp only [PerClass.mk.injEq]
  exact ⟨h .sys, h .vdp, h .loc, h .comm, h .pwm, h .dma⟩

@[simp] theorem Side.other_other (d : Side) : d.other.other = d := by cases d <;> rfl

@[simp] theorem Cop.pid_ne_pri (k : Cop) : k.pid ≠ Pid.pri := by cases k <;> decide

namespace Machine

/-! ## State updates -/

@[simp] theorem memWrite_keeps (r : Region) (off n : Nat) (v : Word) (s : State) :
    (memWrite r off n v s).cfg = s.cfg ∧ (memWrite r off n v s).view = s.view ∧ (memWrite r off n v s).sys = s.sys ∧
    (memWrite r off n v s).vdp = s.vdp ∧ (memWrite r off n v s).loc = s.loc ∧ (memWrite r off n v s).comm = s.comm ∧
    (memWrite r off n v s).pwm = s.pwm ∧ (memWrite r off n v s).divu = s.divu ∧ (memWrite r off n v s).dma = s.dma ∧
    (memWrite r off n v s).pd = s.pd ∧ (memWrite r off n v s).spin = s.spin ∧
    (memWrite r off n v s).dirty = s.dirty ∧ (memWrite r off n v s).lastSync = s.lastSync ∧
    (memWrite r off n v s).vt = s.vt ∧ (memWrite r off n v s).endSlice = s.endSlice ∧
    (memWrite r off n v s).fbHalf = s.fbHalf ∧ (memWrite r off n v s).bankOff = s.bankOff ∧
    (memWrite r off n v s).anom = s.anom ∧ (memWrite r off n v s).initFailed = s.initFailed ∧
    (memWrite r off n v s).initialised = s.initialised ∧ (memWrite r off n v s).queue = s.queue ∧
    (memWrite r off n v s).writer = s.writer ∧ (memWrite r off n v s).runs = s.runs ∧
    (memWrite r off n v s).calls = s.calls ∧ (memWrite r off n v s).resp = s.resp ∧
    (memWrite r off n v s).draws = s.draws ∧ (memWrite r off n v s).stop = s.stop :=
  ⟨rfl, rfl, rfl, rfl, rfl, rfl, rfl, rfl, rfl, rfl, rfl, rfl, rfl, rfl, rfl, rfl, rfl, rfl, rfl, rfl, rfl, rfl, rfl, rfl, rfl, rfl, rfl⟩

@[simp] theorem memWrite_mem (r : Region) (off n : Nat) (v : Word) (s : State) : (memWrite r off n v s).mem = putBytes s.mem r (s.cfg.regionSize r) off n v := rfl

@[simp] theorem logAnomaly_keeps (c : Code) (p : Option (BitVec 2)) (a : Word) (s : State) :
    (logAnomaly c p a s).cfg = s.cfg ∧ (logAnomaly c p a s).view = s.view ∧ (logAnomaly c p a s).mem = s.mem ∧
    (logAnomaly c p a s).sys = s.sys ∧ (logAnomaly c p a s).vdp = s.vdp ∧ (logAnomaly c p a s).loc = s.loc ∧
    (logAnomaly c p a s).comm = s.comm ∧ (logAnomaly c p a s).pwm = s.pwm ∧ (logAnomaly c p a s).divu = s.divu ∧
    (logAnomaly c p a s).dma = s.dma ∧ (logAnomaly c p a s).pd = s.pd ∧ (logAnomaly c p a s).spin = s.spin ∧
    (logAnomaly c p a s).dirty = s.dirty ∧ (logAnomaly c p a s).lastSync = s.lastSync ∧
    (logAnomaly c p a s).vt = s.vt ∧ (logAnomaly c p a s).endSlice = s.endSlice ∧
    (logAnomaly c p a s).fbHalf = s.fbHalf ∧ (logAnomaly c p a s).bankOff = s.bankOff ∧
    (logAnomaly c p a s).initFailed = s.initFailed ∧ (logAnomaly c p a s).initialised = s.initialised ∧
    (logAnomaly c p a s).queue = s.queue ∧ (logAnomaly c p a s).writer = s.writer ∧
    (logAnomaly c p a s).runs = s.runs ∧ (logAnomaly c p a s).calls = s.calls ∧ (logAnomaly c p a s).resp = s.resp ∧
    (logAnomaly c p a s).draws = s.draws ∧ (logAnomaly c p a s).stop = s.stop :=
  ⟨rfl, rfl, rfl, rfl, rfl, rfl, rfl, rfl, rfl, rfl, rfl, rfl, rfl, rfl, rfl, rfl, rfl, rfl, rfl, rfl, rfl, rfl, rfl, rfl, rfl, rfl, rfl⟩

@[simp] theorem logAnomaly_anom (c : Code) (p : Option (BitVec 2)) (a : Word) (s : State) : (logAnomaly c p a s).anom = s.anom ++ [{ code := c, pid := p, addr := a }] := rfl

@[simp] theorem recordCall_keeps (c : HostCall) (s : State) :
    (recordCall c s).cfg = s.cfg ∧ (recordCall c s).view = s.view ∧ (recordCall c s).mem = s.mem ∧
    (recordCall c s).sys = s.sys ∧ (recordCall c s).vdp = s.vdp ∧ (recordCall c s).loc = s.loc ∧
    (recordCall c s).comm = s.comm ∧ (recordCall c s).pwm = s.pwm ∧ (recordCall c s).divu = s.divu ∧
    (recordCall c s).dma = s.dma ∧ (recordCall c s).pd = s.pd ∧ (recordCall c s).spin = s.spin ∧
    (recordCall c s).dirty = s.dirty ∧ (recordCall c s).lastSync = s.lastSync ∧ (recordCall c s).vt = s.vt ∧
    (recordCall c s).endSlice = s.endSlice ∧ (recordCall c s).fbHalf = s.fbHalf ∧
    (recordCall c s).bankOff = s.bankOff ∧ (recordCall c s).anom = s.anom ∧
    (recordCall c s).initFailed = s.initFailed ∧ (recordCall c s).initialised = s.initialised ∧
    (recordCall c s).queue = s.queue ∧ (recordCall c s).writer = s.writer ∧ (recordCall c s).runs = s.runs ∧
    (recordCall c s).resp = s.resp ∧ (recordCall c s).draws = s.draws ∧ (recordCall c s).stop = s.stop :=
  ⟨rfl, rfl, rfl, rfl, rfl, rfl, rfl, rfl, rfl, rfl, rfl, rfl, rfl, rfl, rfl, rfl, rfl, rfl, rfl, rfl, rfl, rfl, rfl, rfl, rfl, rfl, rfl⟩

@[simp] theorem recordCall_calls (c : HostCall) (s : State) : (recordCall c s).calls = s.calls ++ [c] := rfl

@[simp] theorem halt_keeps (r : Stop) (s : State) :
    (halt r s).cfg = s.cfg ∧ (halt r s).view = s.view ∧ (halt r s).mem = s.mem ∧ (halt r s).sys = s.sys ∧
    (halt r s).vdp = s.vdp ∧ (halt r s).loc = s.loc ∧ (halt r s).comm = s.comm ∧ (halt r s).pwm = s.pwm ∧
    (halt r s).divu = s.divu ∧ (halt r s).dma = s.dma ∧ (halt r s).pd = s.pd ∧ (halt r s).spin = s.spin ∧
    (halt r s).dirty = s.dirty ∧ (halt r s).lastSync = s.lastSync ∧ (halt r s).vt = s.vt ∧
    (halt r s).endSlice = s.endSlice ∧ (halt r s).fbHalf = s.fbHalf ∧ (halt r s).bankOff = s.bankOff ∧
    (halt r s).anom = s.anom ∧ (halt r s).initFailed = s.initFailed ∧ (halt r s).initialised = s.initialised ∧
    (halt r s).queue = s.queue ∧ (halt r s).writer = s.writer ∧ (halt r s).runs = s.runs ∧
    (halt r s).calls = s.calls ∧ (halt r s).resp = s.resp ∧ (halt r s).draws = s.draws :=
  ⟨rfl, rfl, rfl, rfl, rfl, rfl, rfl, rfl, rfl, rfl, rfl, rfl, rfl, rfl, rfl, rfl, rfl, rfl, rfl, rfl, rfl, rfl, rfl, rfl, rfl, rfl, rfl⟩

@[simp] theorem halt_stop (r : Stop) (s : State) : (halt r s).stop = s.stop.or (some r) := rfl

@[simp] theorem countDraw_keeps (s : State) :
    (countDraw s).cfg = s.cfg ∧ (countDraw s).view = s.view ∧ (countDraw s).mem = s.mem ∧ (countDraw s).sys = s.sys ∧
    (countDraw s).vdp = s.vdp ∧ (countDraw s).loc = s.loc ∧ (countDraw s).comm = s.comm ∧ (countDraw s).pwm = s.pwm ∧
    (countDraw s).divu = s.divu ∧ (countDraw s).dma = s.dma ∧ (countDraw s).pd = s.pd ∧ (countDraw s).spin = s.spin ∧
    (countDraw s).dirty = s.dirty ∧ (countDraw s).lastSync = s.lastSync ∧ (countDraw s).vt = s.vt ∧
    (countDraw s).endSlice = s.endSlice ∧ (countDraw s).fbHalf = s.fbHalf ∧ (countDraw s).bankOff = s.bankOff ∧
    (countDraw s).anom = s.anom ∧ (countDraw s).initFailed = s.initFailed ∧
    (countDraw s).initialised = s.initialised ∧ (countDraw s).queue = s.queue ∧ (countDraw s).writer = s.writer ∧
    (countDraw s).runs = s.runs ∧ (countDraw s).calls = s.calls ∧ (countDraw s).resp = s.resp ∧
    (countDraw s).stop = s.stop :=
  ⟨rfl, rfl, rfl, rfl, rfl, rfl, rfl, rfl, rfl, rfl, rfl, rfl, rfl, rfl, rfl, rfl, rfl, rfl, rfl, rfl, rfl, rfl, rfl, rfl, rfl, rfl, rfl⟩

@[simp] theorem countDraw_draws (s : State) : (countDraw s).draws = s.draws + 1 := rfl

@[simp] theorem respond_keeps (r : Response) (s : State) :
    (respond r s).cfg = s.cfg ∧ (respond r s).view = s.view ∧ (respond r s).mem = s.mem ∧ (respond r s).sys = s.sys ∧
    (respond r s).vdp = s.vdp ∧ (respond r s).loc = s.loc ∧ (respond r s).comm = s.comm ∧ (respond r s).pwm = s.pwm ∧
    (respond r s).divu = s.divu ∧ (respond r s).dma = s.dma ∧ (respond r s).pd = s.pd ∧ (respond r s).spin = s.spin ∧
    (respond r s).dirty = s.dirty ∧ (respond r s).lastSync = s.lastSync ∧ (respond r s).vt = s.vt ∧
    (respond r s).endSlice = s.endSlice ∧ (respond r s).fbHalf = s.fbHalf ∧ (respond r s).bankOff = s.bankOff ∧
    (respond r s).anom = s.anom ∧ (respond r s).initFailed = s.initFailed ∧
    (respond r s).initialised = s.initialised ∧ (respond r s).queue = s.queue ∧ (respond r s).writer = s.writer ∧
    (respond r s).runs = s.runs ∧ (respond r s).calls = s.calls ∧ (respond r s).draws = s.draws ∧
    (respond r s).stop = s.stop :=
  ⟨rfl, rfl, rfl, rfl, rfl, rfl, rfl, rfl, rfl, rfl, rfl, rfl, rfl, rfl, rfl, rfl, rfl, rfl, rfl, rfl, rfl, rfl, rfl, rfl, rfl, rfl, rfl⟩

@[simp] theorem respond_resp (r : Response) (s : State) : (respond r s).resp = r := rfl

@[simp] theorem setEndSlice_keeps (p : Pid) (b : Bool) (s : State) :
    (setEndSlice p b s).cfg = s.cfg ∧ (setEndSlice p b s).view = s.view ∧ (setEndSlice p b s).mem = s.mem ∧
    (setEndSlice p b s).sys = s.sys ∧ (setEndSlice p b s).vdp = s.vdp ∧ (setEndSlice p b s).loc = s.loc ∧
    (setEndSlice p b s).comm = s.comm ∧ (setEndSlice p b s).pwm = s.pwm ∧ (setEndSlice p b s).divu = s.divu ∧
    (setEndSlice p b s).dma = s.dma ∧ (setEndSlice p b s).pd = s.pd ∧ (setEndSlice p b s).spin = s.spin ∧
    (setEndSlice p b s).dirty = s.dirty ∧ (setEndSlice p b s).lastSync = s.lastSync ∧ (setEndSlice p b s).vt = s.vt ∧
    (setEndSlice p b s).fbHalf = s.fbHalf ∧ (setEndSlice p b s).bankOff = s.bankOff ∧
    (setEndSlice p b s).anom = s.anom ∧ (setEndSlice p b s).initFailed = s.initFailed ∧
    (setEndSlice p b s).initialised = s.initialised ∧ (setEndSlice p b s).queue = s.queue ∧
    (setEndSlice p b s).writer = s.writer ∧ (setEndSlice p b s).runs = s.runs ∧ (setEndSlice p b s).calls = s.calls ∧
    (setEndSlice p b s).resp = s.resp ∧ (setEndSlice p b s).draws = s.draws ∧ (setEndSlice p b s).stop = s.stop :=
  ⟨rfl, rfl, rfl, rfl, rfl, rfl, rfl, rfl, rfl, rfl, rfl, rfl, rfl, rfl, rfl, rfl, rfl, rfl, rfl, rfl, rfl, rfl, rfl, rfl, rfl, rfl, rfl⟩

@[simp] theorem setEndSlice_endSlice (p : Pid) (b : Bool) (s : State) : (setEndSlice p b s).endSlice = s.endSlice.set p b := rfl

@[simp] theorem setDirty_keeps (c : RegClass) (d : Side) (b : Bool) (s : State) :
    (setDirty c d b s).cfg = s.cfg ∧ (setDirty c d b s).view = s.view ∧ (setDirty c d b s).mem = s.mem ∧
    (setDirty c d b s).sys = s.sys ∧ (setDirty c d b s).vdp = s.vdp ∧ (setDirty c d b s).loc = s.loc ∧
    (setDirty c d b s).comm = s.comm ∧ (setDirty c d b s).pwm = s.pwm ∧ (setDirty c d b s).divu = s.divu ∧
    (setDirty c d b s).dma = s.dma ∧ (setDirty c d b s).pd = s.pd ∧ (setDirty c d b s).spin = s.spin ∧
    (setDirty c d b s).lastSync = s.lastSync ∧ (setDirty c d b s).vt = s.vt ∧
    (setDirty c d b s).endSlice = s.endSlice ∧ (setDirty c d b s).fbHalf = s.fbHalf ∧
    (setDirty c d b s).bankOff = s.bankOff ∧ (setDirty c d b s).anom = s.anom ∧
    (setDirty c d b s).initFailed = s.initFailed ∧ (setDirty c d b s).initialised = s.initialised ∧
    (setDirty c d b s).queue = s.queue ∧ (setDirty c d b s).writer = s.writer ∧ (setDirty c d b s).runs = s.runs ∧
    (setDirty c d b s).calls = s.calls ∧ (setDirty c d b s).resp = s.resp ∧ (setDirty c d b s).draws = s.draws ∧
    (setDirty c d b s).stop = s.stop :=
  ⟨rfl, rfl, rfl, rfl, rfl, rfl, rfl, rfl, rfl, rfl, rfl, rfl, rfl, rfl, rfl, rfl, rfl, rfl, rfl, rfl, rfl, rfl, rfl, rfl, rfl, rfl, rfl⟩

@[simp] theorem setDirty_dirty (c : RegClass) (d : Side) (b : Bool) (s : State) : (setDirty c d b s).dirty = s.dirty.set c ((s.dirty.get c).set d b) := rfl

@[simp] theorem setVt_keeps (k : Cop) (v : Word) (s : State) :
    (setVt k v s).cfg = s.cfg ∧ (setVt k v s).view = s.view ∧ (setVt k v s).mem = s.mem ∧ (setVt k v s).sys = s.sys ∧
    (setVt k v s).vdp = s.vdp ∧ (setVt k v s).loc = s.loc ∧ (setVt k v s).comm = s.comm ∧ (setVt k v s).pwm = s.pwm ∧
    (setVt k v s).divu = s.divu ∧ (setVt k v s).dma = s.dma ∧ (setVt k v s).pd = s.pd ∧ (setVt k v s).spin = s.spin ∧
    (setVt k v s).dirty = s.dirty ∧ (setVt k v s).lastSync = s.lastSync ∧ (setVt k v s).endSlice = s.endSlice ∧
    (setVt k v s).fbHalf = s.fbHalf ∧ (setVt k v s).bankOff = s.bankOff ∧ (setVt k v s).anom = s.anom ∧
    (setVt k v s).initFailed = s.initFailed ∧ (setVt k v s).initialised = s.initialised ∧
    (setVt k v s).queue = s.queue ∧ (setVt k v s).writer = s.writer ∧ (setVt k v s).runs = s.runs ∧
    (setVt k v s).calls = s.calls ∧ (setVt k v s).resp = s.resp ∧ (setVt k v s).draws = s.draws ∧
    (setVt k v s).stop = s.stop :=
  ⟨rfl, rfl, rfl, rfl, rfl, rfl, rfl, rfl, rfl, rfl, rfl, rfl, rfl, rfl, rfl, rfl, rfl, rfl, rfl, rfl, rfl, rfl, rfl, rfl, rfl, rfl, rfl⟩

@[simp] theorem setVt_vt (k : Cop) (v : Word) (s : State) : (setVt k v s).vt = s.vt.set k v := rfl

@[simp] theorem setDetector_keeps (p : Pid) (c : RegClass) (d : Detector) (s : State) :
    (setDetector p c d s).cfg = s.cfg ∧ (setDetector p c d s).view = s.view ∧ (setDetector p c d s).mem = s.mem ∧
    (setDetector p c d s).sys = s.sys ∧ (setDetector p c d s).vdp = s.vdp ∧ (setDetector p c d s).loc = s.loc ∧
    (setDetector p c d s).comm = s.comm ∧ (setDetector p c d s).pwm = s.pwm ∧ (setDetector p c d s).divu = s.divu ∧
    (setDetector p c d s).dma = s.dma ∧ (setDetector p c d s).spin = s.spin ∧ (setDetector p c d s).dirty = s.dirty ∧
    (setDetector p c d s).lastSync = s.lastSync ∧ (setDetector p c d s).vt = s.vt ∧
    (setDetector p c d s).endSlice = s.endSlice ∧ (setDetector p c d s).fbHalf = s.fbHalf ∧
    (setDetector p c d s).bankOff = s.bankOff ∧ (setDetector p c d s).anom = s.anom ∧
    (setDetector p c d s).initFailed = s.initFailed ∧ (setDetector p c d s).initialised = s.initialised ∧
    (setDetector p c d s).queue = s.queue ∧ (setDetector p c d s).writer = s.writer ∧
    (setDetector p c d s).runs = s.runs ∧ (setDetector p c d s).calls = s.calls ∧
    (setDetector p c d s).resp = s.resp ∧ (setDetector p c d s).draws = s.draws ∧ (setDetector p c d s).stop = s.stop :=
  ⟨rfl, rfl, rfl, rfl, rfl, rfl, rfl, rfl, rfl, rfl, rfl, rfl, rfl, rfl, rfl, rfl, rfl, rfl, rfl, rfl, rfl, rfl, rfl, rfl, rfl, rfl, rfl⟩

@[simp] theorem setDetector_pd (p : Pid) (c : RegClass) (d : Detector) (s : State) : (setDetector p c d s).pd = s.pd.set p ((s.pd.get p).set c d) := rfl

@[simp] theorem setSpin_keeps (p : Pid) (c : RegClass) (b : Bool) (s : State) :
    (setSpin p c b s).cfg = s.cfg ∧ (setSpin p c b s).view = s.view ∧ (setSpin p c b s).mem = s.mem ∧
    (setSpin p c b s).sys = s.sys ∧ (setSpin p c b s).vdp = s.vdp ∧ (setSpin p c b s).loc = s.loc ∧
    (setSpin p c b s).comm = s.comm ∧ (setSpin p c b s).pwm = s.pwm ∧ (setSpin p c b s).divu = s.divu ∧
    (setSpin p c b s).dma = s.dma ∧ (setSpin p c b s).pd = s.pd ∧ (setSpin p c b s).dirty = s.dirty ∧
    (setSpin p c b s).lastSync = s.lastSync ∧ (setSpin p c b s).vt = s.vt ∧ (setSpin p c b s).endSlice = s.endSlice ∧
    (setSpin p c b s).fbHalf = s.fbHalf ∧ (setSpin p c b s).bankOff = s.bankOff ∧ (setSpin p c b s).anom = s.anom ∧
    (setSpin p c b s).initFailed = s.initFailed ∧ (setSpin p c b s).initialised = s.initialised ∧
    (setSpin p c b s).queue = s.queue ∧ (setSpin p c b s).writer = s.writer ∧ (setSpin p c b s).runs = s.runs ∧
    (setSpin p c b s).calls = s.calls ∧ (setSpin p c b s).resp = s.resp ∧ (setSpin p c b s).draws = s.draws ∧
    (setSpin p c b s).stop = s.stop :=
  ⟨rfl, rfl, rfl, rfl, rfl, rfl, rfl, rfl, rfl, rfl, rfl, rfl, rfl, rfl, rfl, rfl, rfl, rfl, rfl, rfl, rfl, rfl, rfl, rfl, rfl, rfl, rfl⟩

@[simp] theorem setSpin_spin (p : Pid) (c : RegClass) (b : Bool) (s : State) : (setSpin p c b s).spin = s.spin.set p ((s.spin.get p).set c b) := rfl

@[simp] theorem setDivu_keeps (k : Cop) (u : Divu) (s : State) :
    (setDivu k u s).cfg = s.cfg ∧ (setDivu k u s).view = s.view ∧ (setDivu k u s).mem = s.mem ∧
    (setDivu k u s).sys = s.sys ∧ (setDivu k u s).vdp = s.vdp ∧ (setDivu k u s).loc = s.loc ∧
    (setDivu k u s).comm = s.comm ∧ (setDivu k u s).pwm = s.pwm ∧ (setDivu k u s).dma = s.dma ∧
    (setDivu k u s).pd = s.pd ∧ (setDivu k u s).spin = s.spin ∧ (setDivu k u s).dirty = s.dirty ∧
    (setDivu k u s).lastSync = s.lastSync ∧ (setDivu k u s).vt = s.vt ∧ (setDivu k u s).endSlice = s.endSlice ∧
    (setDivu k u s).fbHalf = s.fbHalf ∧ (setDivu k u s).bankOff = s.bankOff ∧ (setDivu k u s).anom = s.anom ∧
    (setDivu k u s).initFailed = s.initFailed ∧ (setDivu k u s).initialised = s.initialised ∧
    (setDivu k u s).queue = s.queue ∧ (setDivu k u s).writer = s.writer ∧ (setDivu k u s).runs = s.runs ∧
    (setDivu k u s).calls = s.calls ∧ (setDivu k u s).resp = s.resp ∧ (setDivu k u s).draws = s.draws ∧
    (setDivu k u s).stop = s.stop :=
  ⟨rfl, rfl, rfl, rfl, rfl, rfl, rfl, rfl, rfl, rfl, rfl, rfl, rfl, rfl, rfl, rfl, rfl, rfl, rfl, rfl, rfl, rfl, rfl, rfl, rfl, rfl, rfl⟩

@[simp] theorem setDivu_divu (k : Cop) (u : Divu) (s : State) : (setDivu k u s).divu = s.divu.set k u := rfl

@[simp] theorem setFull_keeps (b : Bool) (s : State) :
    (setFull b s).cfg = s.cfg ∧ (setFull b s).view = s.view ∧ (setFull b s).mem = s.mem ∧ (setFull b s).sys = s.sys ∧
    (setFull b s).vdp = s.vdp ∧ (setFull b s).loc = s.loc ∧ (setFull b s).comm = s.comm ∧ (setFull b s).pwm = s.pwm ∧
    (setFull b s).divu = s.divu ∧ (setFull b s).pd = s.pd ∧ (setFull b s).spin = s.spin ∧
    (setFull b s).dirty = s.dirty ∧ (setFull b s).lastSync = s.lastSync ∧ (setFull b s).vt = s.vt ∧
    (setFull b s).endSlice = s.endSlice ∧ (setFull b s).fbHalf = s.fbHalf ∧ (setFull b s).bankOff = s.bankOff ∧
    (setFull b s).anom = s.anom ∧ (setFull b s).initFailed = s.initFailed ∧
    (setFull b s).initialised = s.initialised ∧ (setFull b s).queue = s.queue ∧ (setFull b s).writer = s.writer ∧
    (setFull b s).runs = s.runs ∧ (setFull b s).calls = s.calls ∧ (setFull b s).resp = s.resp ∧
    (setFull b s).draws = s.draws ∧ (setFull b s).stop = s.stop :=
  ⟨rfl, rfl, rfl, rfl, rfl, rfl, rfl, rfl, rfl, rfl, rfl, rfl, rfl, rfl, rfl, rfl, rfl, rfl, rfl, rfl, rfl, rfl, rfl, rfl, rfl, rfl, rfl⟩

@[simp] theorem setFull_dma (b : Bool) (s : State) : (setFull b s).dma = { s.dma with stat := setHalfBit s.dma.stat s.cfg.statFullBit b } := rfl

@[simp] theorem setBusy_keeps (b : Bool) (s : State) :
    (setBusy b s).cfg = s.cfg ∧ (setBusy b s).view = s.view ∧ (setBusy b s).mem = s.mem ∧ (setBusy b s).sys = s.sys ∧
    (setBusy b s).vdp = s.vdp ∧ (setBusy b s).loc = s.loc ∧ (setBusy b s).comm = s.comm ∧ (setBusy b s).pwm = s.pwm ∧
    (setBusy b s).divu = s.divu ∧ (setBusy b s).pd = s.pd ∧ (setBusy b s).spin = s.spin ∧
    (setBusy b s).dirty = s.dirty ∧ (setBusy b s).lastSync = s.lastSync ∧ (setBusy b s).vt = s.vt ∧
    (setBusy b s).endSlice = s.endSlice ∧ (setBusy b s).fbHalf = s.fbHalf ∧ (setBusy b s).bankOff = s.bankOff ∧
    (setBusy b s).anom = s.anom ∧ (setBusy b s).initFailed = s.initFailed ∧
    (setBusy b s).initialised = s.initialised ∧ (setBusy b s).queue = s.queue ∧ (setBusy b s).writer = s.writer ∧
    (setBusy b s).runs = s.runs ∧ (setBusy b s).calls = s.calls ∧ (setBusy b s).resp = s.resp ∧
    (setBusy b s).draws = s.draws ∧ (setBusy b s).stop = s.stop :=
  ⟨rfl, rfl, rfl, rfl, rfl, rfl, rfl, rfl, rfl, rfl, rfl, rfl, rfl, rfl, rfl, rfl, rfl, rfl, rfl, rfl, rfl, rfl, rfl, rfl, rfl, rfl, rfl⟩

@[simp] theorem setBusy_dma (b : Bool) (s : State) : (setBusy b s).dma = { s.dma with busy := b } := rfl

@[simp] theorem setLastSync_keeps (n : Word) (s : State) :
    (setLastSync n s).cfg = s.cfg ∧ (setLastSync n s).view = s.view ∧ (setLastSync n s).mem = s.mem ∧
    (setLastSync n s).sys = s.sys ∧ (setLastSync n s).vdp = s.vdp ∧ (setLastSync n s).loc = s.loc ∧
    (setLastSync n s).comm = s.comm ∧ (setLastSync n s).pwm = s.pwm ∧ (setLastSync n s).divu = s.divu ∧
    (setLastSync n s).dma = s.dma ∧ (setLastSync n s).pd = s.pd ∧ (setLastSync n s).spin = s.spin ∧
    (setLastSync n s).dirty = s.dirty ∧ (setLastSync n s).vt = s.vt ∧ (setLastSync n s).endSlice = s.endSlice ∧
    (setLastSync n s).fbHalf = s.fbHalf ∧ (setLastSync n s).bankOff = s.bankOff ∧ (setLastSync n s).anom = s.anom ∧
    (setLastSync n s).initFailed = s.initFailed ∧ (setLastSync n s).initialised = s.initialised ∧
    (setLastSync n s).queue = s.queue ∧ (setLastSync n s).writer = s.writer ∧ (setLastSync n s).runs = s.runs ∧
    (setLastSync n s).calls = s.calls ∧ (setLastSync n s).resp = s.resp ∧ (setLastSync n s).draws = s.draws ∧
    (setLastSync n s).stop = s.stop :=
  ⟨rfl, rfl, rfl, rfl, rfl, rfl, rfl, rfl, rfl, rfl, rfl, rfl, rfl, rfl, rfl, rfl, rfl, rfl, rfl, rfl, rfl, rfl, rfl, rfl, rfl, rfl, rfl⟩

@[simp] theorem setLastSync_lastSync (n : Word) (s : State) : (setLastSync n s).lastSync = n := rfl

@[simp] theorem fbSwap_keeps (h : Bool) (s : State) :
    (fbSwap h s).cfg = s.cfg ∧ (fbSwap h s).mem = s.mem ∧ (fbSwap h s).sys = s.sys ∧ (fbSwap h s).vdp = s.vdp ∧
    (fbSwap h s).loc = s.loc ∧ (fbSwap h s).comm = s.comm ∧ (fbSwap h s).pwm = s.pwm ∧ (fbSwap h s).divu = s.divu ∧
    (fbSwap h s).dma = s.dma ∧ (fbSwap h s).pd = s.pd ∧ (fbSwap h s).spin = s.spin ∧ (fbSwap h s).dirty = s.dirty ∧
    (fbSwap h s).lastSync = s.lastSync ∧ (fbSwap h s).vt = s.vt ∧ (fbSwap h s).endSlice = s.endSlice ∧
    (fbSwap h s).bankOff = s.bankOff ∧ (fbSwap h s).anom = s.anom ∧ (fbSwap h s).initFailed = s.initFailed ∧
    (fbSwap h s).initialised = s.initialised ∧ (fbSwap h s).queue = s.queue ∧ (fbSwap h s).writer = s.writer ∧
    (fbSwap h s).runs = s.runs ∧ (fbSwap h s).calls = s.calls ∧ (fbSwap h s).resp = s.resp ∧
    (fbSwap h s).draws = s.draws ∧ (fbSwap h s).stop = s.stop :=
  ⟨rfl, rfl, rfl, rfl, rfl, rfl, rfl, rfl, rfl, rfl, rfl, rfl, rfl, rfl, rfl, rfl, rfl, rfl, rfl, rfl, rfl, rfl, rfl, rfl, rfl, rfl⟩

@[simp] theorem fbSwap_fbHalf (h : Bool) (s : State) : (fbSwap h s).fbHalf = h := rfl

@[simp] theorem fbSwap_view (h : Bool) (s : State) : (fbSwap h s).view = fbViews s.cfg (!h) s.cfg.fbVis (fbViews s.cfg h s.cfg.fbDraw s.view) := rfl

/-! ## Compound reads -/

@[simp] theorem detectorOf_setDetector (s : State) (p q : Pid) (c d : RegClass) (x : Detector) :
    detectorOf (setDetector p c x s) q d = if q = p ∧ d = c then x else detectorOf s q d := by
  cases p <;> cases q <;> cases c <;> cases d <;> rfl

@[simp] theorem spinOf_setSpin (s : State) (p q : Pid) (c d : RegClass) (b : Bool) :
    spinOf (setSpin p c b s) q d = if q = p ∧ d = c then b else spinOf s q d := by
  cases p <;> cases q <;> cases c <;> cases d <;> rfl

@[simp] theorem dirtyOf_setDirty (s : State) (c d : RegClass) (x y : Side) (b : Bool) :
    dirtyOf (setDirty c x b s) d y = if d = c ∧ y = x then b else dirtyOf s d y := by
  cases c <;> cases d <;> cases x <;> cases y <;> rfl

end Machine

end Sys2Proof
end

