-- ==== Sys2Proof/Laws/Table.lean ====
section
/-! SUPPORT. The laws of the sparse tables (views and backing memory): reads after writes, and that a write keeps the canonical
form. -/

namespace Sys2Proof

variable {β : Type} [DecidableEq β] {d : β}

/-- The canonical form of a nonempty table, taken apart. -/
theorem Table.wfFrom_cons {lo : Option Nat} {k : Nat} {v : β} {rest : List (Nat × β)} :
    Table.wfFrom d lo ((k, v) :: rest) = true ↔ (∀ l, lo = some l → l < k) ∧ v ≠ d ∧ Table.wfFrom d (some k) rest = true := by
  cases lo <;> simp [Table.wfFrom, and_assoc]

/-- A weaker bound keeps the canonical form. -/
theorem Table.wfFrom_weaken {lo lo' : Option Nat} {t : List (Nat × β)} (h : Table.wfFrom d lo t = true)
    (hlo : ∀ l, lo' = some l → ∃ l', lo = some l' ∧ l ≤ l') : Table.wfFrom d lo' t = true := by
  cases t with
  | nil => rfl
  | cons e rest =>
    obtain ⟨k, v⟩ := e
    rw [Table.wfFrom_cons] at h ⊢
    refine ⟨fun l hl => ?_, h.2⟩
    obtain ⟨l', hl', hle⟩ := hlo l hl
    exact Nat.lt_of_le_of_lt hle (h.1 l' hl')

/-- Below its bound a table holds nothing. -/
theorem Table.get_of_le {t : List (Nat × β)} {l a : Nat} (h : Table.wfFrom d (some l) t = true) (ha : a ≤ l) :
    Table.get d t a = d := by
  induction t generalizing l with
  | nil => rfl
  | cons e rest ih =>
    obtain ⟨k, v⟩ := e
    rw [Table.wfFrom_cons] at h
    have hk := h.1 l rfl
    rw [Table.get, if_neg (by omega)]
    exact ih h.2.2 (by omega)

/-- A write keeps the canonical form above a bound. -/
theorem Table.wfFrom_set {lo : Option Nat} {t : List (Nat × β)} {a : Nat} {b : β} (h : Table.wfFrom d lo t = true)
    (ha : ∀ l, lo = some l → l < a) : Table.wfFrom d lo (Table.set d t a b) = true := by
  induction t generalizing lo with
  | nil =>
    by_cases hb : b = d
    · simp [Table.set, hb, Table.wfFrom]
    · simp only [Table.set, hb, if_false]
      exact Table.wfFrom_cons.2 ⟨ha, hb, rfl⟩
  | cons e rest ih =>
    obtain ⟨k, v⟩ := e
    have hc := Table.wfFrom_cons.1 h
    unfold Table.set
    split_ifs with hlt hb heq hb
    · exact h
    · exact Table.wfFrom_cons.2 ⟨ha, hb, Table.wfFrom_cons.2 ⟨fun l hl => by cases hl; exact hlt, hc.2⟩⟩
    · exact Table.wfFrom_weaken hc.2.2 fun l hl => ⟨k, rfl, Nat.le_of_lt (hc.1 l hl)⟩
    · exact Table.wfFrom_cons.2 ⟨ha, hb, heq ▸ hc.2.2⟩
    · exact Table.wfFrom_cons.2 ⟨hc.1, hc.2.1, ih hc.2.2 fun l hl => by cases hl; omega⟩

/-- A write keeps the canonical form. -/
theorem Table.wf_set {t : List (Nat × β)} {a : Nat} {b : β} (h : Table.wf d t = true) :
    Table.wf d (Table.set d t a b) = true :=
  Table.wfFrom_set h fun _ hl => nomatch hl

/-- A write leaves every other key alone. -/
theorem Table.get_set_other {t : List (Nat × β)} {a a' : Nat} {b : β} (h : a' ≠ a) :
    Table.get d (Table.set d t a b) a' = Table.get d t a' := by
  induction t with
  | nil => by_cases hb : b = d <;> simp [Table.set, Table.get, hb, h.symm]
  | cons e rest ih =>
    obtain ⟨k, v⟩ := e
    unfold Table.set
    split_ifs with hlt hb heq hb
    · rfl
    · rw [Table.get, if_neg h.symm]
    · rw [Table.get, if_neg (by omega)]
    · rw [Table.get, if_neg h.symm, Table.get, if_neg (by omega)]
    · simp only [Table.get, ih]

/-- A read after a write to the same key gives the value written. -/
theorem Table.get_set_same {lo : Option Nat} {t : List (Nat × β)} {a : Nat} {b : β} (h : Table.wfFrom d lo t = true) :
    Table.get d (Table.set d t a b) a = b := by
  induction t generalizing lo with
  | nil => by_cases hb : b = d <;> simp [Table.set, Table.get, hb]
  | cons e rest ih =>
    obtain ⟨k, v⟩ := e
    have hc := Table.wfFrom_cons.1 h
    unfold Table.set
    split_ifs with hlt hb heq hb
    · rw [Table.get, if_neg (by omega), hb]
      exact Table.get_of_le hc.2.2 (by omega)
    · simp [Table.get]
    · rw [hb]; exact Table.get_of_le hc.2.2 (by omega)
    · simp [Table.get]
    · rw [Table.get, if_neg (by omega)]; exact ih hc.2.2

/-- Reads after a write to a canonical table. -/
theorem Table.get_set {t : List (Nat × β)} {a a' : Nat} {b : β} (h : Table.wf d t = true) :
    Table.get d (Table.set d t a b) a' = if a' = a then b else Table.get d t a' := by
  split_ifs with ha
  · rw [ha]; exact Table.get_set_same h
  · exact Table.get_set_other ha

omit [DecidableEq β] in
/-- What a key holds is the default or an entry of the table. -/
theorem Table.get_mem {t : List (Nat × β)} (a : Nat) : Table.get d t a = d ∨ (a, Table.get d t a) ∈ t := by
  induction t with
  | nil => exact .inl rfl
  | cons e rest ih =>
    obtain ⟨k, v⟩ := e
    by_cases hk : k = a
    · simp [Table.get, hk]
    · simp only [Table.get, hk, if_false]
      exact ih.imp_right (List.mem_cons_of_mem _)

/-- An entry of a written table is the one written or an old one. -/
theorem Table.mem_set {t : List (Nat × β)} {a : Nat} {b : β} {e : Nat × β} (h : e ∈ Table.set d t a b) :
    e = (a, b) ∨ e ∈ t := by
  induction t with
  | nil => by_cases hb : b = d <;> simp_all [Table.set]
  | cons x rest ih =>
    obtain ⟨k, v⟩ := x
    unfold Table.set at h
    split_ifs at h with hlt hb heq hb
    · exact .inr h
    · exact (List.mem_cons.1 h).imp_right id
    · exact .inr (List.mem_cons_of_mem _ h)
    · exact (List.mem_cons.1 h).imp_right (List.mem_cons_of_mem _)
    · rcases List.mem_cons.1 h with h | h
      · exact .inr (h ▸ List.mem_cons_self ..)
      · exact (ih h).imp_right (List.mem_cons_of_mem _)

namespace Machine

/-! ## Backing memory -/

theorem Memory.wfFrom_cons {lo : Option Nat} {k : Nat} {v : Byte} {rest : List Host.Cell} :
    Memory.wfFrom lo ((k, v) :: rest) = true ↔ (∀ l, lo = some l → l < k) ∧ Memory.wfFrom (some k) rest = true := by
  cases lo <;> simp [Memory.wfFrom]

theorem Memory.wfFrom_put {lo : Option Nat} {m : List Host.Cell} {a : Nat} {b : Byte} (h : Memory.wfFrom lo m = true)
    (ha : ∀ l, lo = some l → l < a) : Memory.wfFrom lo (Memory.put m a b) = true := by
  induction m generalizing lo with
  | nil => exact Memory.wfFrom_cons.2 ⟨ha, rfl⟩
  | cons e rest ih =>
    obtain ⟨k, v⟩ := e
    have hc := Memory.wfFrom_cons.1 h
    unfold Memory.put
    split_ifs with hlt heq
    · exact Memory.wfFrom_cons.2 ⟨ha, Memory.wfFrom_cons.2 ⟨fun l hl => by cases hl; exact hlt, hc.2⟩⟩
    · exact Memory.wfFrom_cons.2 ⟨ha, heq ▸ hc.2⟩
    · exact Memory.wfFrom_cons.2 ⟨hc.1, ih hc.2 fun l hl => by cases hl; omega⟩

/-- A byte after one is put: that one under its key, every other as before. -/
theorem Memory.find_put (m : List Host.Cell) (a a' : Nat) (b : Byte) :
    Memory.find (Memory.put m a b) a' = if a' = a then some b else Memory.find m a' := by
  induction m with
  | nil => simp [Memory.put, Memory.find, eq_comm]
  | cons e rest ih =>
    obtain ⟨k, v⟩ := e
    unfold Memory.put
    by_cases h : a' = a
    · subst h
      rw [if_pos rfl]
      split_ifs with hlt heq
      · simp [Memory.find]
      · simp [Memory.find]
      · simp [Memory.find, ih, Ne.symm heq]
    · rw [if_neg h] at ih ⊢
      split_ifs with hlt heq
      · simp [Memory.find, Ne.symm h]
      · subst heq; simp [Memory.find, Ne.symm h]
      · simp [Memory.find, ih]

theorem putBytes_wf {m : List Host.Cell} (r : Region) (size off n : Nat) (v : Word) (h : Memory.wf m = true) :
    Memory.wf (putBytes m r size off n v) = true := by
  unfold putBytes
  induction List.range n generalizing m with
  | nil => exact h
  | cons i rest ih =>
    refine ih ?_
    dsimp only
    split_ifs
    · exact Memory.wfFrom_put h fun _ hl => nomatch hl
    · exact h

/-- MemWrite keeps the canonical form. -/
theorem memWrite_wf (r : Region) (off n : Nat) (v : Word) {s : State} (h : Memory.wf s.mem = true) :
    Memory.wf (memWrite r off n v s).mem = true :=
  putBytes_wf r _ off n v h

theorem two_pow_mul_odd_inj {a b x y : Nat} (h : 2 ^ a * (2 * x + 1) = 2 ^ b * (2 * y + 1)) : a = b ∧ x = y := by
  induction a generalizing b with
  | zero =>
    cases b with
    | zero => omega
    | succ b => rw [Nat.pow_succ, Nat.mul_comm (2 ^ b), Nat.mul_assoc] at h; omega
  | succ a ih =>
    cases b with
    | zero => rw [Nat.pow_succ, Nat.mul_comm (2 ^ a), Nat.mul_assoc] at h; omega
    | succ b =>
      rw [Nat.pow_succ, Nat.pow_succ, Nat.mul_comm (2 ^ a), Nat.mul_comm (2 ^ b), Nat.mul_assoc, Nat.mul_assoc] at h
      have := ih (Nat.eq_of_mul_eq_mul_left (by omega) h)
      omega

/-- Different bytes of different regions have different keys. -/
theorem cellKey_inj {r q : Region} {i j : Nat} (h : cellKey r i = cellKey q j) : r = q ∧ i = j := by
  obtain ⟨hidx, hij⟩ := two_pow_mul_odd_inj h
  refine ⟨?_, hij⟩
  rcases r with _ | (_ | _) | a <;> rcases q with _ | (_ | _) | b <;> simp [regionIndex] at hidx ⊢ <;> omega

/-- A byte of any region after MemWrite (R66): the bytes stored, and every other byte unchanged. -/
theorem readByte_memWrite (s : State) (r q : Region) (off n i : Nat) (v : Word) :
    readByte (memWrite r off n v s) q i =
      if q = r ∧ off ≤ i ∧ i < off + n ∧ i < s.cfg.regionSize r then storedByte n v (i - off) else readByte s q i := by
  suffices H : ∀ k, (Memory.find ((List.range k).foldl (fun m j => if off + j < s.cfg.regionSize r then
      Memory.put m (cellKey r (off + j)) (storedByte n v j) else m) s.mem) (cellKey q i)) =
      if q = r ∧ off ≤ i ∧ i < off + k ∧ i < s.cfg.regionSize r then some (storedByte n v (i - off))
      else Memory.find s.mem (cellKey q i) by
    unfold readByte
    rw [memWrite_mem, putBytes, H n]
    split_ifs <;> rfl
  intro k
  induction k with
  | zero => rw [if_neg (by omega)]; rfl
  | succ k ih =>
    rw [List.range_succ, List.foldl_append, List.foldl_cons, List.foldl_nil]
    by_cases hin : off + k < s.cfg.regionSize r
    · rw [if_pos hin, Memory.find_put, ih]
      by_cases hkey : cellKey q i = cellKey r (off + k)
      · obtain ⟨rfl, rfl⟩ := cellKey_inj hkey
        rw [if_pos hkey, if_pos ⟨rfl, by omega, by omega, hin⟩, Nat.add_sub_cancel_left]
      · rw [if_neg hkey]
        have hne : q = r → i ≠ off + k := fun hq hi => hkey (by rw [hq, hi])
        by_cases hq : q = r
        · have := hne hq
          congr 1
          exact propext ⟨fun h => ⟨h.1, h.2.1, by omega, h.2.2.2⟩, fun h => ⟨h.1, h.2.1, by omega, h.2.2.2⟩⟩
        · rw [if_neg (by tauto), if_neg (by tauto)]
    · rw [if_neg hin, ih]
      congr 1
      exact propext ⟨fun h => ⟨h.1, h.2.1, by omega, h.2.2.2⟩, fun h => ⟨h.1, h.2.1, by omega, h.2.2.2⟩⟩

end Machine

end Sys2Proof
end

