-- ==== Sys2Proof/Laws/Micro.lean ====
section
/-! SUPPORT. What a command can do, said once: every access is a chain of a few elementary changes of the state (`Base`,
`CopMicro`, `PriMicro`), so that an invariant or a frame is proved by going through those changes, never by unfolding the access
paths. -/

namespace Sys2Proof.Machine

/-- An elementary change made by any write, a transfer's destination write included. -/
inductive Base : State → State → Prop
  | log (s : State) (c : Code) (p : Option (BitVec 2)) (a : Word) : Base s (logAnomaly c p a s)
  | call (s : State) (c : HostCall) (h : ∀ k n, c ≠ .run k n) : Base s (recordCall c s)
  | misaligned (s : State) (w : Width) (a : Word) (h : alignAccess s.cfg w a = none) : Base s (halt .misaligned s)
  | illFormed (s : State) (p : Pid) (w : Width) (d : Dir) (a : Word)
      (h : s.cfg.entryOk w (resolve s p w d a) = false) : Base s (halt .illFormedView s)
  | store (s : State) (r : Reg) (v : Word) : Base s (regStore r v s)
  | write (s : State) (r : Region) (off n : Nat) (v : Word) : Base s (memWrite r off n v s)
  | dirty (s : State) (c : RegClass) (d : Side) (b : Bool) (h : c.shared = true ∨ b = false) : Base s (setDirty c d b s)
  | undetect (s : State) (p : Pid) (c : RegClass) : Base s (pollUndetect p c s)
  | endSlice (s : State) (p : Pid) (b : Bool) : Base s (setEndSlice p b s)
  | bank (s : State) (n : Word) : Base s (bankSelect n s)
  | fb (s : State) (h : Bool) : Base s (fbSwap h s)
  | divu (s : State) (k : Cop) (u : Divu) : Base s (setDivu k u s)
  | draw (s : State) : Base s (countDraw s)
  | push (s : State) (w : Half) (h : fifoFull s = false) : Base s (fifoPush w s)
  | restartRx (s : State) : Base s { s with dma := { s.dma with rx := 0 } }

/-- An elementary change made by a transfer: those of its destination writes, and its own. -/
inductive DmaMicro : State → State → Prop
  | base {s t : State} (h : Base s t) : DmaMicro s t
  | pop (s : State) (w : Half) (rest : List Half) (h : s.dma.fifo = w :: rest) :
      DmaMicro s (recomputeFull { s with dma := { s.dma with fifo := rest } })
  | count (s : State) (dar tcr : Word) (len : Half) :
      DmaMicro s { s with dma := { s.dma with dar := dar, tcr := tcr, len := len } }
  | full (s : State) (b : Bool) : DmaMicro s (setFull b s)
  | done (s : State) (v : Word) : DmaMicro s { s with dma := { s.dma with chcr := v } }

/-- An elementary change made by an access of a coprocessor: a transfer is one change, from BUSY to BUSY cleared. -/
inductive CopMicro : State → State → Prop
  | base {s t : State} (h : Base s t) : CopMicro s t
  | detect (s : State) (p : Pid) (c : RegClass) (a cyc : Word) : CopMicro s (pollDetect p c a cyc s).1
  | run {s t : State} (h : Relation.ReflTransGen DmaMicro (setBusy true s) t) : CopMicro s (setBusy false t)

/-- An elementary change made by an access of PRI: its gate runs coprocessors and moves the virtual times. -/
inductive PriMicro : State → State → Prop
  | cop {s t : State} (h : CopMicro s t) : PriMicro s t
  | asks (s : State) (k : Cop) (n : Word) : PriMicro s (recordCall (.run k n) s)
  | vt (s : State) (k : Cop) (v : Word) : PriMicro s (setVt k v s)
  | lastSync (s : State) (now : Word) : PriMicro s (setLastSync now s)
  | takeRun (s : State) (r : Run) (rest : List Run) (h : s.runs = r :: rest) : PriMicro s { s with runs := rest }
  | hang {s t : State} (k : Cop) (r : Run) (rest : List Run) (h : s.runs = r :: rest) (hr : r.used = none)
      (ht : Relation.ReflTransGen CopMicro { s with runs := rest } t) : PriMicro s (halt (.hung k) t)

/-- A relation that holds of a write by p under an environment: it contains the elementary changes, what the environment does
and, for PRI, setting VT (a coprocessor reset by PRI). -/
structure Writes (R : State → State → Prop) (p : Pid) (env : Env) : Prop where
  refl : ∀ s, R s s
  trans : ∀ {s t u}, R s t → R t u → R s u
  base : ∀ {s t}, Base s t → R s t
  trigger : ∀ q cyc s, R s (env.trigger q cyc s)
  gate : p = .pri → ∀ c now s, R s (env.gate c now s)
  vt : p = .pri → ∀ k v s, R s (setVt k v s)

/-- A relation that holds of every access by p under an environment: of its writes, and of an observation of a poll detector. -/
structure Within (R : State → State → Prop) (p : Pid) (env : Env) : Prop extends Writes R p env where
  detect : ∀ q c a cyc s, R s (pollDetect q c a cyc s).1

variable {R : State → State → Prop} {p : Pid} {env : Env}

/-- A fold of operations within R is within R. -/
theorem foldl_within {α : Type} {f : State → α → State} (hrefl : ∀ s, R s s)
    (htrans : ∀ {s t u}, R s t → R t u → R s u) (hf : ∀ s x, R s (f s x)) (l : List α) (s : State) :
    R s (l.foldl f s) := by
  induction l generalizing s with
  | nil => exact hrefl s
  | cons x rest ih => exact htrans (hf s x) (ih _)

/-- A choice of two operations within R. -/
theorem ite_within {c : Prop} [Decidable c] {s t u : State} (ht : R s t) (hu : R s u) : R s (if c then t else u) := by
  split_ifs <;> assumption

namespace Writes

theorem undetectAll (W : Writes R p env) (q : Pid) (s : State) : R s (undetectAll q s) :=
  foldl_within W.refl W.trans (fun s c => W.base (.undetect s q c)) _ s

theorem crossMark (W : Writes R p env) (q : Pid) (c : RegClass) (hc : c.shared = true) (s : State) :
    R s (crossMark q c s) := by
  refine W.trans (foldl_within W.refl W.trans (fun s x => ?_) _ s) (W.base (.dirty _ c _ true (.inl hc)))
  exact ite_within (W.refl s) (W.base (.undetect s x c))

theorem copReset (W : Writes R p env) (cyc : Word) (s : State) : R s (copReset p cyc s) := by
  unfold Machine.copReset
  refine W.trans (W.base (.call s (.resetCop .mcp) nofun)) (W.trans (W.base (.call _ (.resetCop .scp) nofun)) ?_)
  generalize recordCall (.resetCop .scp) (recordCall (.resetCop .mcp) s) = u
  have hvt : R u (if p = .pri then setVt .scp cyc (setVt .mcp cyc u) else u) := by
    by_cases hp : p = .pri
    · rw [if_pos hp]; exact W.trans (W.vt hp _ _ _) (W.vt hp _ _ _)
    · rw [if_neg hp]; exact W.refl _
  refine W.trans hvt ?_
  simp only
  generalize (if p = .pri then setVt .scp cyc (setVt .mcp cyc u) else u) = v
  refine W.trans (W.undetectAll .mcp v) (W.trans (W.undetectAll .scp _) (W.trans (foldl_within
    (f := fun s c => if c.shared = true then setDirty c .cop false s else s) W.refl W.trans ?_ RegClass.all _) ?_))
  · intro s c
    by_cases hc : c.shared = true
    · simp only [hc, if_true]; exact W.base (.dirty s c .cop false (.inr rfl))
    · simp only [hc]; exact W.refl s
  · exact W.trans (W.base (.endSlice _ .mcp false)) (W.base (.endSlice _ .scp false))

theorem fill (W : Writes R p env) (s : State) : R s (fill s) :=
  foldl_within W.refl W.trans (fun s _ => W.base (.write s _ _ _ _)) _ s

theorem div32 (W : Writes R p env) (k : Cop) (s : State) : R s (div32 k s) := by
  unfold Machine.div32
  simp only
  split_ifs
  · cases s.cfg.div0 with
    | stale => exact W.refl s
    | zero => exact W.base (.divu s k _)
  · exact W.trans (W.base (.divu s k _)) (W.base (.draw _))
  · exact W.base (.divu s k _)

theorem div64 (W : Writes R p env) (k : Cop) (s : State) : R s (div64 k s) := by
  unfold Machine.div64
  simp only
  split_ifs
  · cases s.cfg.div0 with
    | stale => exact W.refl s
    | zero => exact W.base (.divu s k _)
  · exact W.trans (W.base (.divu s k _)) (W.base (.draw _))
  · exact W.trans (W.base (.divu s k _)) (W.base (.draw _))
  · exact W.base (.divu s k _)

theorem genericWrite (W : Writes R p env) (q : Pid) (a : Word) (r : Reg) (old new : Word) (s : State) :
    R s (genericWrite q a r old new s) := by
  unfold Machine.genericWrite
  simp only
  split_ifs
  · exact W.trans (W.base (.store s r _)) (W.base (.log _ _ _ _))
  · exact W.base (.store s r _)

theorem commWrite (W : Writes R p env) (q : Pid) (a : Word) (r : Reg) (old new : Word) (s : State) :
    R s (commWrite q a r old new s).1 := by
  unfold Machine.commWrite
  simp only
  refine W.trans (t := if s.cfg.commOn s.sys = true then s else logAnomaly .a4 (pidBits q) a s)
    (ite_within (W.refl s) (W.base (.log _ _ _ _))) ?_
  generalize (if s.cfg.commOn s.sys = true then s else logAnomaly .a4 (pidBits q) a s) = u
  refine W.trans (t := if u.cfg.commA3 && lockedChange u.cfg r old new then logAnomaly .a3 (pidBits q) a u else u)
    (ite_within (W.base (.log _ _ _ _)) (W.refl u)) ?_
  generalize (if u.cfg.commA3 && lockedChange u.cfg r old new then logAnomaly .a3 (pidBits q) a u else u) = v
  split_ifs
  · exact W.refl v
  · exact W.base (.store v r _)

theorem sysWrite (W : Writes R p env) (a : Word) (i : Nat) (old new cyc : Word) (s : State) :
    R s (sysWrite p a i old new cyc s) := by
  unfold Machine.sysWrite resetEdge bankChange
  refine W.trans (W.genericWrite p a (.sys i) old new s) ?_
  refine W.trans (t := resetEdge p i old cyc (Machine.genericWrite p a (.sys i) old new s)) ?_ ?_
  · exact ite_within (W.copReset cyc _) (W.refl _)
  · exact ite_within (W.base (.bank _ _)) (W.refl _)

theorem fsWrite (W : Writes R p env) (q : Pid) (a : Word) (i : Nat) (old new : Word) (s : State) :
    R s (fsWrite q a i old new s) := by
  unfold Machine.fsWrite
  simp only
  split_ifs
  · exact W.trans (W.genericWrite q a (.vdp i) old new s) (W.base (.fb _ _))
  · exact W.genericWrite q a (.vdp i) old new s
  · exact W.genericWrite q a (.vdp i) old _ s

theorem vdpWrite (W : Writes R p env) (q : Pid) (a : Word) (i : Nat) (old new : Word) (s : State) :
    R s (vdpWrite q a i old new s) := by
  unfold Machine.vdpWrite
  refine W.trans (t := if i = s.cfg.fsReg then Machine.fsWrite q a i old new s else
    Machine.genericWrite q a (.vdp i) old new s) (ite_within (W.fsWrite q a i old new s) (W.genericWrite q a _ old new s)) ?_
  exact ite_within (W.fill _) (W.refl _)

theorem fifoWrite (W : Writes R p env) (q : Pid) (a new cyc : Word) (s : State) :
    R s (fifoWrite env.trigger q a new cyc s) := by
  unfold Machine.fifoWrite
  refine W.trans (W.base (.store s (.dma .fifoData) new)) ?_
  generalize regStore (.dma .fifoData) new s = u
  simp only
  split_ifs with hf
  · exact W.base (.log _ _ _ _)
  · exact W.trans (W.base (.push u _ (by simpa using hf))) (W.trigger _ _ _)
  · exact W.base (.push u _ (by simpa using hf))

theorem chcrWrite (W : Writes R p env) (q : Pid) (a old new cyc : Word) (s : State) :
    R s (chcrWrite env.trigger q a old new cyc s) :=
  W.trans (W.genericWrite q a (.dma .chcr) old new s) (ite_within (W.refl _) (W.trigger _ _ _))

theorem lenWrite (W : Writes R p env) (q : Pid) (a old new : Word) (s : State) : R s (lenWrite q a old new s) :=
  W.trans (W.genericWrite q a (.dma .len) old new s)
    (W.trans (W.base (.restartRx _)) (ite_within (W.refl _) (W.base (.log _ _ _ _))))

/-- A register rule is within R. -/
theorem regWrite (W : Writes R p env) (a : Word) (r : Reg) (old new cyc : Word) (s : State) :
    R s (regWrite env.trigger p a r old new cyc s).1 := by
  rcases r with i | i | ⟨k, i⟩ | i | i | d | ⟨k, d⟩
  · exact W.sysWrite a i old new cyc s
  · exact W.vdpWrite p a i old new s
  · exact W.genericWrite p a _ old new s
  · exact W.commWrite p a _ old new s
  · exact W.genericWrite p a _ old new s
  · cases d
    case fifoData => exact W.fifoWrite p a new cyc s
    case chcr => exact W.chcrWrite p a old new cyc s
    case len => exact W.lenWrite p a old new s
    all_goals exact W.genericWrite p a _ old new s
  · cases d
    case dvdnt => exact W.trans (W.genericWrite p a (.div k .dvdnt) old new s) (W.div32 k _)
    case dvdntl => exact W.trans (W.genericWrite p a (.div k .dvdntl) old new s) (W.div64 k _)
    all_goals exact W.genericWrite p a _ old new s

theorem raiseIrq (W : Writes R p env) (q : Irq) (s : State) : R s (raiseIrq q s) :=
  W.trans (W.base (.call _ _ fun _ _ h => by cases h)) (W.undetectAll _ _)

theorem afterWrite (W : Writes R p env) (q : Pid) (r : Reg) (old : Word) (mark : Bool) (s : State) :
    R s (afterWrite q r old mark s).1 := by
  unfold Machine.afterWrite
  refine W.trans (t := if r.cls.shared && mark then Machine.crossMark q r.cls s else s) ?_ ?_
  · by_cases hc : r.cls.shared = true
    · exact ite_within (W.crossMark q _ hc s) (W.refl s)
    · rw [if_neg (by simp [hc])]; exact W.refl s
  · exact W.trans (foldl_within W.refl W.trans (fun s x => W.raiseIrq x s) _ _)
      (ite_within (W.base (.endSlice _ _ _)) (W.refl _))

theorem handlerWrite (W : Writes R p env) (h : Handler) (a v : Word) (w : Width) (cyc : Word) (s : State) :
    R s (handlerWrite env p h a v w cyc s).1 := by
  unfold Machine.handlerWrite
  cases regAt s.cfg p h a with
  | none => exact W.base (.log _ _ _ _)
  | some q =>
    simp only
    refine W.trans (t := if q.reg.cls.shared ∧ p = .pri then env.gate q.reg.cls cyc s else s) ?_ ?_
    · by_cases hp : p = .pri
      · exact ite_within (W.gate hp _ _ _) (W.refl s)
      · rw [if_neg (by tauto)]; exact W.refl s
    · exact W.trans (W.regWrite a q.reg _ _ cyc _) (W.afterWrite p q.reg _ _ _)

theorem memAccessWrite (W : Writes R p env) {w : Width} {d : Dir} {r : Region} {b : Nat} {m a : Word} (x v : Word)
    {s : State} (h : resolve s p w d a = .mem r b m) : R s (memAccessWrite p w r b m x v s).1 := by
  unfold Machine.memAccessWrite
  split_ifs with hk
  · exact W.base (.write s _ _ _ _)
  · exact W.base (.illFormed s p w d a (by rw [h]; simpa [Config.entryOk] using hk))

theorem narrowWrite (W : Writes R p env) {w : Width} (hw : w ≠ .w32) (a v cyc : Word) (s : State) :
    R s (narrowWrite env p w a v cyc s).1 := by
  unfold Machine.narrowWrite
  cases h : resolve s p w .wr a with
  | mem r b m => exact W.memAccessWrite a v h
  | hnd k => exact W.handlerWrite k a v w cyc s
  | split => exact W.base (.illFormed s p w .wr a (by rw [h]; simpa [Config.entryOk] using hw))
  | stub => exact W.base (.log _ _ _ _)

theorem splitWrite (W : Writes R p env) (a v cyc : Word) (s : State) : R s (splitWrite env p a v cyc s).1 :=
  W.trans (W.narrowWrite (by decide) a _ cyc s) (W.narrowWrite (by decide) (a + 2) _ cyc _)

theorem wideWrite (W : Writes R p env) (a v cyc : Word) (s : State) : R s (wideWrite env p a v cyc s).1 := by
  unfold Machine.wideWrite
  cases h : resolve s p .w32 .wr a with
  | mem r b m => exact W.memAccessWrite a v h
  | hnd k =>
    simp only
    split_ifs
    · exact W.splitWrite a v cyc s
    · exact W.handlerWrite k a v .w32 cyc s
  | split => exact W.splitWrite a v cyc s
  | stub => exact W.base (.log _ _ _ _)

/-- Every write is within R. -/
theorem busWrite (W : Writes R p env) (w : Width) (a v cyc : Word) (s : State) : R s (busWrite env p w a v cyc s).1 := by
  unfold Machine.busWrite
  cases h : alignAccess s.cfg w a with
  | none => exact W.base (.misaligned s w a h)
  | some b =>
    cases w
    · exact W.narrowWrite (by decide) b v cyc s
    · exact W.narrowWrite (by decide) b v cyc s
    · exact W.wideWrite b v cyc s

end Writes

namespace Within

theorem syncRead (W : Within R p env) (hp : p = .pri) (c : RegClass) (now : Word) (s : State) :
    R s (syncRead env c now s) := by
  unfold Machine.syncRead
  exact ite_within (W.base (.dirty _ _ _ _ (.inr rfl))) (W.gate hp c now s)

theorem observeClass (W : Within R p env) (c : RegClass) (cyc : Word) (s : State) : R s (observeClass env p c cyc s) := by
  unfold Machine.observeClass
  by_cases hp : p = .pri
  · rw [if_pos hp]; exact ite_within (W.syncRead hp c cyc s) (W.refl s)
  · rw [if_neg hp]; exact ite_within (W.base (.dirty _ _ _ _ (.inr rfl))) (W.refl s)

theorem pollRead (W : Within R p env) (q : Pid) (c : RegClass) (a cyc : Word) (s : State) : R s (pollRead q c a cyc s) := by
  unfold Machine.pollRead
  refine ite_within ?_ (W.refl s)
  exact W.trans (W.detect q c a cyc s) (ite_within (W.base (.endSlice _ _ _)) (W.refl _))

theorem handlerRead (W : Within R p env) (h : Handler) (a : Word) (w : Width) (cyc : Word) (s : State) :
    R s (handlerRead env p h a w cyc s).1 := by
  unfold Machine.handlerRead
  cases regAt s.cfg p h a with
  | none => exact W.base (.log _ _ _ _)
  | some q => exact W.trans (W.observeClass q.reg.cls cyc s) (W.pollRead p q.reg.cls a cyc _)

theorem memAccessRead (W : Within R p env) {w : Width} {d : Dir} {r : Region} {b : Nat} {m a : Word} (v : Word) {s : State}
    (h : resolve s p w d a = .mem r b m) : R s (memAccessRead p w r b m v s).1 := by
  unfold Machine.memAccessRead
  split_ifs with hk
  · exact W.refl s
  · exact W.base (.illFormed s p w d a (by rw [h]; simpa [Config.entryOk] using hk))

theorem narrowRead (W : Within R p env) {w : Width} (hw : w ≠ .w32) (a cyc : Word) (s : State) :
    R s (narrowRead env p w a cyc s).1 := by
  unfold Machine.narrowRead
  cases h : resolve s p w .rd a with
  | mem r b m => exact W.memAccessRead a h
  | hnd k => exact W.handlerRead k a w cyc s
  | split => exact W.base (.illFormed s p w .rd a (by rw [h]; simpa [Config.entryOk] using hw))
  | stub => exact W.base (.log _ _ _ _)

theorem splitRead (W : Within R p env) (a cyc : Word) (s : State) : R s (splitRead env p a cyc s).1 :=
  W.trans (W.narrowRead (by decide) a cyc s) (W.narrowRead (by decide) (a + 2) cyc _)

theorem wideRead (W : Within R p env) (a cyc : Word) (s : State) : R s (wideRead env p a cyc s).1 := by
  unfold Machine.wideRead
  cases h : resolve s p .w32 .rd a with
  | mem r b m => exact W.memAccessRead a h
  | hnd k =>
    simp only
    split_ifs
    · exact W.splitRead a cyc s
    · exact W.handlerRead k a .w32 cyc s
  | split => exact W.splitRead a cyc s
  | stub => exact W.base (.log _ _ _ _)

/-- Every read is within R. -/
theorem busRead (W : Within R p env) (w : Width) (a cyc : Word) (s : State) : R s (busRead env p w a cyc s).1 := by
  unfold Machine.busRead
  cases h : alignAccess s.cfg w a with
  | none => exact W.base (.misaligned s w a h)
  | some b =>
    cases w
    · exact W.narrowRead (by decide) b cyc s
    · exact W.narrowRead (by decide) b cyc s
    · exact W.wideRead b cyc s

end Within

/-! ## The three environments -/

/-- A destination write of a transfer is a chain of elementary changes. -/
theorem writes_destination (k : Cop) : Writes (Relation.ReflTransGen Base) k.pid destinationEnv where
  refl _ := .refl
  trans := Relation.ReflTransGen.trans
  base h := .single h
  trigger _ _ _ := .refl
  gate h := absurd h k.pid_ne_pri
  vt h := absurd h k.pid_ne_pri

theorem dmaMicros_of_base {s t : State} (h : Relation.ReflTransGen Base s t) : Relation.ReflTransGen DmaMicro s t :=
  Relation.ReflTransGen.mono (fun _ _ h => DmaMicro.base h) _ _ h

/-- A turn of the transfer loop is a chain of a transfer's changes. -/
theorem dmaMove_micros (cyc : Word) (w : Half) (rest : List Half) (s : State) (h : s.dma.fifo = w :: rest) :
    Relation.ReflTransGen DmaMicro s (dmaMove cyc w rest s) := by
  unfold dmaMove
  refine .trans (.single (.pop s w rest h)) ?_
  refine .trans (dmaMicros_of_base ?_) (.single (.count _ _ _ _))
  exact (writes_destination _).busWrite .w16 _ _ cyc _

theorem dmaLoop_micros (fuel : Nat) (cyc : Word) (s : State) (moved : Bool) :
    Relation.ReflTransGen DmaMicro s (dmaLoop fuel cyc s moved).1 := by
  induction fuel generalizing s moved with
  | zero => exact .refl
  | succ n ih =>
    unfold dmaLoop
    split_ifs
    · exact .refl
    · cases h : s.dma.fifo with
      | nil => exact .refl
      | cons w rest => exact .trans (dmaMove_micros cyc w rest s h) (ih _ _)

theorem undetectAll_bases (q : Pid) (s : State) : Relation.ReflTransGen Base s (undetectAll q s) :=
  (writes_destination .mcp).undetectAll q s

theorem dmaComplete_micros (s : State) : Relation.ReflTransGen DmaMicro s (dmaComplete s) := by
  unfold dmaComplete
  refine .trans (b := if (s.dma.tcr = 0) ≠ (s.dma.len = 0) then
    logAnomaly .a6 (pidBits s.cfg.owner) s.dma.dar s else s) ?_ ?_
  · exact ite_within (R := Relation.ReflTransGen DmaMicro) (.single (.base (.log _ _ _ _))) .refl
  · exact .trans (.single (.full _ false)) (.trans (.single (.done _ _)) (dmaMicros_of_base (undetectAll_bases _ _)))

/-- A transfer is one change of a coprocessor's access. -/
theorem dmaRun_micro (cyc : Word) (s : State) : CopMicro s (dmaRun cyc s) := by
  unfold dmaRun
  refine .run (.trans (dmaLoop_micros (dmaFuel (setBusy true s)) cyc (setBusy true s) false) ?_)
  unfold dmaFinish
  exact ite_within (R := Relation.ReflTransGen DmaMicro) (dmaComplete_micros _) .refl

theorem dmaTrigger_micros (p : Pid) (cyc : Word) (s : State) : Relation.ReflTransGen CopMicro s (dmaTrigger p cyc s) := by
  unfold dmaTrigger
  split_ifs
  · exact .trans (.single (dmaRun_micro cyc s)) (.single (.base (.endSlice _ _ _)))
  · exact .refl

/-- An access of a coprocessor is a chain of its elementary changes. -/
theorem within_coprocessor (k : Cop) : Within (Relation.ReflTransGen CopMicro) k.pid coprocessorEnv where
  refl _ := .refl
  trans := Relation.ReflTransGen.trans
  base h := .single (.base h)
  trigger q cyc s := dmaTrigger_micros q cyc s
  gate h := absurd h k.pid_ne_pri
  vt h := absurd h k.pid_ne_pri
  detect q c a cyc s := .single (.detect s q c a cyc)

theorem copAccess_micros (k : Cop) (c : CopCmd) (s : State) : Relation.ReflTransGen CopMicro s (copAccess k c s) := by
  cases c with
  | read w a cyc => exact .trans ((within_coprocessor k).busRead w a cyc s) (.single (.base (.call _ _ nofun)))
  | write w a v cyc => exact .trans ((within_coprocessor k).busWrite w a v cyc s) (.single (.base (.call _ _ nofun)))

/-- The commands of one answer to a host.run. -/
theorem copAccesses_micros (k : Cop) (l : List CopCmd) (s : State) :
    Relation.ReflTransGen CopMicro s (l.foldl (fun s c => copAccess k c s) s) :=
  foldl_within (fun _ => .refl) .trans (fun s c => copAccess_micros k c s) l s

theorem priMicros_of_cop {s t : State} (h : Relation.ReflTransGen CopMicro s t) : Relation.ReflTransGen PriMicro s t :=
  Relation.ReflTransGen.mono (fun _ _ h => PriMicro.cop h) _ _ h

/-- A run of a coprocessor that is behind: the call, the host's answer, the time it moves (R143), or a hang (R149). -/
theorem hostRun_cases (k : Cop) (n : Word) (s : State) :
    (s.runs = [] ∧ hostRun k n s = (recordCall (.run k n) s, some n)) ∨
    ∃ r rest, s.runs = r :: rest ∧ hostRun k n s =
      (r.cmds.foldl (fun s c => copAccess k c s) { recordCall (.run k n) s with runs := rest }, r.used) := by
  unfold hostRun
  cases hr : s.runs with
  | nil => exact .inl ⟨rfl, by simp [hr]⟩
  | cons r rest => exact .inr ⟨r, rest, rfl, by simp [hr]⟩

theorem runTo_micros (k : Cop) (now : Word) (s : State) : Relation.ReflTransGen PriMicro s (runTo k now s) := by
  unfold runTo
  simp only
  split_ifs
  swap
  · exact .refl
  refine .trans (.single (.asks s k (now - s.vt.get k))) ?_
  rcases hostRun_cases k (now - s.vt.get k) s with ⟨_, h⟩ | ⟨r, rest, hr, h⟩
  · rw [h]; exact .single (.vt _ _ _)
  · rw [h]
    cases hu : r.used with
    | some used =>
      exact .trans (.single (.takeRun _ r rest hr))
        (.trans (priMicros_of_cop (copAccesses_micros k _ _)) (.single (.vt _ _ _)))
    | none => exact .single (.hang k r rest hr hu (copAccesses_micros k _ _))

/-- The gate is a chain of PRI's elementary changes. -/
theorem gapSync_micros (c : RegClass) (now : Word) (s : State) : Relation.ReflTransGen PriMicro s (gapSync c now s) := by
  unfold gapSync
  split_ifs
  · exact .trans (runTo_micros .mcp now s) (.trans (runTo_micros .scp now _) (.single (.lastSync _ _)))
  · exact .refl

/-- An access of any processor is a chain of PRI's elementary changes. -/
theorem within_command (p : Pid) : Within (Relation.ReflTransGen PriMicro) p commandEnv where
  refl _ := .refl
  trans := Relation.ReflTransGen.trans
  base h := .single (.cop (.base h))
  trigger q cyc s := priMicros_of_cop (dmaTrigger_micros q cyc s)
  gate _ c now s := gapSync_micros c now s
  vt _ k v s := .single (.vt s k v)
  detect q c a cyc s := .single (.cop (.detect s q c a cyc))

end Sys2Proof.Machine
end

