-- ==== Sys2Proof/Laws/Commands.lean ====
section
/-! SUPPORT. How a command ends, and what every command is: a chain of elementary changes followed by a response. -/

namespace Sys2Proof.Machine

/-! ## The end of a command -/

theorem settle_of_stop_none {s : State} (h : s.stop = none) : settle s = .next s := by
  unfold settle; rw [h]

theorem settle_eq_next {s t : State} : settle s = .next t ↔ s.stop = none ∧ t = s := by
  unfold settle
  cases h : s.stop with
  | none => simp [eq_comm]
  | some r => cases r <;> simp [Stop.outcome]

/-- A command of a block that accepts commands is its effects. -/
theorem perform_of_ready {s : State} (h : s.Ready) (f : State → State) : perform s f = settle (f s) := by
  unfold perform; simp [h.1, h.2.1]

/-- A command that answers a next state was accepted, and the next state is where its effects led. -/
theorem perform_eq_next {s t : State} {f : State → State} :
    perform s f = .next t ↔ s.initialised = true ∧ s.initFailed = false ∧ (f s).stop = none ∧ t = f s := by
  unfold perform
  cases hi : s.initialised <;> cases hf : s.initFailed <;> simp [settle_eq_next]

theorem perform_next {s : State} (h : s.Ready) {f : State → State} (hs : (f s).stop = none) : perform s f = .next (f s) := by
  rw [perform_of_ready h, settle_of_stop_none hs]

/-! ## What a command does to a block that accepts it -/

/-- The effects of every command but INIT, response included. -/
def effectOf (i : Instr) (s : State) : State :=
  match i with
  | .busRd8 p a cyc => answer (busRead commandEnv p .w8 a cyc s)
  | .busRd16 p a cyc => answer (busRead commandEnv p .w16 a cyc s)
  | .busRd32 p a cyc => answer (busRead commandEnv p .w32 a cyc s)
  | .busWr8 p a v cyc => answer (busWrite commandEnv p .w8 a (v.setWidth 32) cyc s)
  | .busWr16 p a v cyc => answer (busWrite commandEnv p .w16 a (v.setWidth 32) cyc s)
  | .busWr32 p a v cyc => answer (busWrite commandEnv p .w32 a v cyc s)
  | .ackSlice p => respond Response.zero (setEndSlice p false s)
  | .advance k n => respond Response.zero (setVt k (s.vt.get k + n) s)
  | .status => respond { value := statusWord s, cycles := 0, irq := false } s
  | .pollDetect p c a cyc =>
    respond { value := if (pollDetect p c a cyc s).2 then 1 else 0, cycles := 0, irq := false } (pollDetect p c a cyc s).1
  | .pollUndetect p c => respond Response.zero (pollUndetect p c s)
  | .syncRd c now => respond Response.zero (syncRead commandEnv c now s)
  | .syncWr c now => respond Response.zero (gapSync c now s)
  | .dmaRun cyc => respond Response.zero (dmaRun cyc s)
  | .bankSelect n => respond Response.zero (bankSelect n s)
  | .fill => respond Response.zero (fill s)
  | .div32 k => respond Response.zero (div32 k s)
  | .div64 k => respond Response.zero (div64 k s)
  | .resetAll cyc => respond Response.zero (resetAll cyc s)
  | .stateRestored cyc => respond Response.zero (stateRestored cyc s)
  | .copReset cyc => respond Response.zero (copReset s.writer cyc s)
  | .fbSwap h => respond Response.zero (fbSwap h s)
  | .init _ _ => s

/-- Every command but INIT is its effects, performed. -/
theorem exec_eq_perform (i : Instr) (s : State) (hi : ∀ f cyc, i ≠ .init f cyc) : exec i s = perform s (effectOf i) := by
  cases i <;> first | exact absurd rfl (hi _ _) | rfl

/-- A command of a block that accepts commands, whose effects do not stop it. -/
theorem exec_next {i : Instr} {s : State} (hi : ∀ f cyc, i ≠ .init f cyc) (hs : s.Ready)
    (h : (effectOf i s).stop = none) : exec i s = .next (effectOf i s) := by
  rw [exec_eq_perform i s hi, perform_next hs h]

/-! ## The bus commands at every width -/

theorem exec_readCmd (w : Width) (p : Pid) (a cyc : Word) (s : State) :
    exec (readCmd w p a cyc) s = perform s fun s => answer (busRead commandEnv p w a cyc s) := by
  cases w <;> rfl

/-- The low bits of a data operand that a write of width w uses (R68). -/
def lowBits (w : Width) (v : Word) : Word :=
  match w with
  | .w8 => (v.setWidth 8).setWidth 32
  | .w16 => (v.setWidth 16).setWidth 32
  | .w32 => v

theorem exec_writeCmd (w : Width) (p : Pid) (a v cyc : Word) (s : State) :
    exec (writeCmd w p a v cyc) s = perform s fun s => answer (busWrite commandEnv p w a (lowBits w v) cyc s) := by
  cases w <;> rfl

theorem lowBits_and (w : Width) (v : Word) : lowBits w v &&& widthMask w = v &&& widthMask w := by
  cases w
  · ext i hi; simp [lowBits, widthMask, lowMask, Width.bytes]; interval_cases i <;> simp
  · ext i hi; simp [lowBits, widthMask, lowMask, Width.bytes]; interval_cases i <;> simp
  · rfl

/-- A register sees only the low bits of the data. -/
theorem laneMerge_lowBits (old v : Word) (m o : Nat) (w : Width) :
    laneMerge old (lowBits w v) m o w = laneMerge old v m o w := by
  unfold laneMerge; rw [lowBits_and]

end Sys2Proof.Machine
end

