-- ==== Sys2Proof/Laws/Frames.lean ====
section
/-! SUPPORT. What no access ever changes, whatever it reaches, read off the elementary changes. -/

namespace Sys2Proof.Machine

/-- What every access keeps, and the records it only extends. -/
structure Fixed (s t : State) : Prop where
  cfg : t.cfg = s.cfg
  initFailed : t.initFailed = s.initFailed
  initialised : t.initialised = s.initialised
  queue : t.queue = s.queue
  writer : t.writer = s.writer
  resp : t.resp = s.resp
  anom : ∃ l, t.anom = s.anom ++ l
  calls : ∃ l, t.calls = s.calls ++ l
  /-- The first reason why a command cannot be completed stands. -/
  stop : s.stop ≠ none → t.stop = s.stop

/-- Time, and the host's answers to come: what only the gate and a coprocessor reset by PRI change. -/
structure Timeless (s t : State) : Prop where
  lastSync : t.lastSync = s.lastSync
  vt : t.vt = s.vt
  runs : t.runs = s.runs

theorem Fixed.refl (s : State) : Fixed s s := ⟨rfl, rfl, rfl, rfl, rfl, rfl, ⟨[], by simp⟩, ⟨[], by simp⟩, fun _ => rfl⟩

theorem Fixed.trans {s t u : State} (h : Fixed s t) (k : Fixed t u) : Fixed s u where
  cfg := k.cfg.trans h.cfg
  initFailed := k.initFailed.trans h.initFailed
  initialised := k.initialised.trans h.initialised
  queue := k.queue.trans h.queue
  writer := k.writer.trans h.writer
  resp := k.resp.trans h.resp
  anom := by obtain ⟨l, hl⟩ := h.anom; obtain ⟨m, hm⟩ := k.anom; exact ⟨l ++ m, by rw [hm, hl, List.append_assoc]⟩
  calls := by obtain ⟨l, hl⟩ := h.calls; obtain ⟨m, hm⟩ := k.calls; exact ⟨l ++ m, by rw [hm, hl, List.append_assoc]⟩
  stop hs := by rw [k.stop (by rw [h.stop hs]; exact hs), h.stop hs]

theorem Timeless.refl (s : State) : Timeless s s := ⟨rfl, rfl, rfl⟩

theorem Timeless.trans {s t u : State} (h : Timeless s t) (k : Timeless t u) : Timeless s u :=
  ⟨k.lastSync.trans h.lastSync, k.vt.trans h.vt, k.runs.trans h.runs⟩

/-- A change of none of those fields. -/
theorem Fixed.of_eq {s t : State} (h : t = { s with
    view := t.view, mem := t.mem, sys := t.sys, vdp := t.vdp, loc := t.loc, comm := t.comm, pwm := t.pwm, divu := t.divu
    dma := t.dma, pd := t.pd, spin := t.spin, dirty := t.dirty, endSlice := t.endSlice, fbHalf := t.fbHalf
    bankOff := t.bankOff, draws := t.draws }) : Fixed s t ∧ Timeless s t := by
  rw [h]
  exact ⟨⟨rfl, rfl, rfl, rfl, rfl, rfl, ⟨[], by simp⟩, ⟨[], by simp⟩, fun _ => rfl⟩, ⟨rfl, rfl, rfl⟩⟩

theorem regStore_fixed (r : Reg) (v : Word) (s : State) : Fixed s (regStore r v s) ∧ Timeless s (regStore r v s) := by
  rcases r with i | i | ⟨k, i⟩ | i | i | d | ⟨k, d⟩ <;> exact Fixed.of_eq rfl

theorem pollDetect_fixed (p : Pid) (c : RegClass) (a cyc : Word) (s : State) :
    Fixed s (pollDetect p c a cyc s).1 ∧ Timeless s (pollDetect p c a cyc s).1 := by
  unfold pollDetect
  simp only
  split_ifs <;> exact Fixed.of_eq rfl

theorem pollUndetect_fixed (p : Pid) (c : RegClass) (s : State) :
    Fixed s (pollUndetect p c s) ∧ Timeless s (pollUndetect p c s) := by
  unfold pollUndetect
  split_ifs <;> exact Fixed.of_eq rfl

theorem logAnomaly_fixed (c : Code) (p : Option (BitVec 2)) (a : Word) (s : State) :
    Fixed s (logAnomaly c p a s) ∧ Timeless s (logAnomaly c p a s) :=
  ⟨⟨rfl, rfl, rfl, rfl, rfl, rfl, ⟨_, rfl⟩, ⟨[], by simp⟩, fun _ => rfl⟩, ⟨rfl, rfl, rfl⟩⟩

theorem recordCall_fixed (c : HostCall) (s : State) : Fixed s (recordCall c s) ∧ Timeless s (recordCall c s) :=
  ⟨⟨rfl, rfl, rfl, rfl, rfl, rfl, ⟨[], by simp⟩, ⟨_, rfl⟩, fun _ => rfl⟩, ⟨rfl, rfl, rfl⟩⟩

theorem halt_fixed (r : Stop) (s : State) : Fixed s (halt r s) ∧ Timeless s (halt r s) :=
  ⟨⟨rfl, rfl, rfl, rfl, rfl, rfl, ⟨[], by simp⟩, ⟨[], by simp⟩, fun h => by
    obtain ⟨x, hx⟩ := Option.ne_none_iff_exists'.1 h; simp [hx]⟩, ⟨rfl, rfl, rfl⟩⟩

theorem bankSelect_fixed (n : Word) (s : State) : Fixed s (bankSelect n s) ∧ Timeless s (bankSelect n s) := by
  unfold bankSelect
  simp only
  split_ifs
  · exact logAnomaly_fixed _ _ _ s
  · exact Fixed.of_eq rfl

theorem Base.fixed {s t : State} (h : Base s t) : Fixed s t ∧ Timeless s t := by
  cases h with
  | log c p a => exact logAnomaly_fixed c p a s
  | call c h => exact recordCall_fixed c s
  | misaligned w a h => exact halt_fixed _ s
  | illFormed p w d a h => exact halt_fixed _ s
  | store r v => exact regStore_fixed r v s
  | undetect p c => exact pollUndetect_fixed p c s
  | bank n => exact bankSelect_fixed n s
  | write r off n v => exact Fixed.of_eq rfl
  | dirty c d b h => exact Fixed.of_eq rfl
  | endSlice p b => exact Fixed.of_eq rfl
  | fb h => exact Fixed.of_eq rfl
  | divu k u => exact Fixed.of_eq rfl
  | draw => exact Fixed.of_eq rfl
  | push w h => exact Fixed.of_eq rfl
  | restartRx => exact Fixed.of_eq rfl

theorem DmaMicro.fixed {s t : State} (h : DmaMicro s t) : Fixed s t ∧ Timeless s t := by
  cases h with
  | base h => exact h.fixed
  | pop w rest h => exact Fixed.of_eq rfl
  | count dar tcr len => exact Fixed.of_eq rfl
  | full b => exact Fixed.of_eq rfl
  | done v => exact Fixed.of_eq rfl

/-- A chain of changes keeps what each of them keeps. -/
theorem chain_induct {S R : State → State → Prop} (hrefl : ∀ s, R s s) (htrans : ∀ {s t u}, R s t → R t u → R s u)
    (hstep : ∀ {s t}, S s t → R s t) {s t : State} (h : Relation.ReflTransGen S s t) : R s t := by
  induction h with
  | refl => exact hrefl _
  | tail _ h ih => exact htrans ih (hstep h)

theorem fixed_refl (s : State) : Fixed s s ∧ Timeless s s := ⟨Fixed.refl s, Timeless.refl s⟩

theorem fixed_trans {s t u : State} (h : Fixed s t ∧ Timeless s t) (k : Fixed t u ∧ Timeless t u) : Fixed s u ∧ Timeless s u :=
  ⟨h.1.trans k.1, h.2.trans k.2⟩

theorem dma_chain_fixed {s t : State} (h : Relation.ReflTransGen DmaMicro s t) : Fixed s t ∧ Timeless s t :=
  chain_induct (R := fun s t => Fixed s t ∧ Timeless s t) fixed_refl fixed_trans DmaMicro.fixed h

theorem setBusy_fixed (b : Bool) (s : State) : Fixed s (setBusy b s) ∧ Timeless s (setBusy b s) := Fixed.of_eq rfl

theorem CopMicro.fixed {s t : State} (h : CopMicro s t) : Fixed s t ∧ Timeless s t := by
  cases h with
  | base h => exact h.fixed
  | detect p c a cyc => exact pollDetect_fixed p c a cyc s
  | run h => exact fixed_trans (fixed_trans (setBusy_fixed true s) (dma_chain_fixed h)) (setBusy_fixed false _)

theorem cop_chain_fixed {s t : State} (h : Relation.ReflTransGen CopMicro s t) : Fixed s t ∧ Timeless s t :=
  chain_induct (R := fun s t => Fixed s t ∧ Timeless s t) fixed_refl fixed_trans CopMicro.fixed h

theorem PriMicro.fixed {s t : State} (h : PriMicro s t) : Fixed s t := by
  cases h with
  | cop h => exact h.fixed.1
  | asks k n => exact (recordCall_fixed _ s).1
  | vt k v => exact ⟨rfl, rfl, rfl, rfl, rfl, rfl, ⟨[], by simp⟩, ⟨[], by simp⟩, fun _ => rfl⟩
  | lastSync now => exact ⟨rfl, rfl, rfl, rfl, rfl, rfl, ⟨[], by simp⟩, ⟨[], by simp⟩, fun _ => rfl⟩
  | takeRun r rest h => exact ⟨rfl, rfl, rfl, rfl, rfl, rfl, ⟨[], by simp⟩, ⟨[], by simp⟩, fun _ => rfl⟩
  | hang k r rest h hr ht =>
    have h0 : Fixed s { s with runs := rest } := ⟨rfl, rfl, rfl, rfl, rfl, rfl, ⟨[], by simp⟩, ⟨[], by simp⟩, fun _ => rfl⟩
    exact h0.trans ((cop_chain_fixed ht).1.trans (halt_fixed _ _).1)

/-- Every access keeps what Fixed names. -/
theorem pri_chain_fixed {s t : State} (h : Relation.ReflTransGen PriMicro s t) : Fixed s t :=
  chain_induct (R := Fixed) Fixed.refl Fixed.trans PriMicro.fixed h

theorem busRead_fixed (p : Pid) (w : Width) (a cyc : Word) (s : State) : Fixed s (busRead commandEnv p w a cyc s).1 :=
  pri_chain_fixed ((within_command p).busRead w a cyc s)

theorem busWrite_fixed (p : Pid) (w : Width) (a v cyc : Word) (s : State) : Fixed s (busWrite commandEnv p w a v cyc s).1 :=
  pri_chain_fixed ((within_command p).busWrite w a v cyc s)

theorem gapSync_fixed (c : RegClass) (now : Word) (s : State) : Fixed s (gapSync c now s) :=
  pri_chain_fixed (gapSync_micros c now s)

theorem syncRead_fixed (c : RegClass) (now : Word) (s : State) : Fixed s (syncRead commandEnv c now s) :=
  pri_chain_fixed ((within_command .pri).syncRead rfl c now s)

theorem narrowRead_fixed (p : Pid) {w : Width} (hw : w ≠ .w32) (a cyc : Word) (s : State) :
    Fixed s (narrowRead commandEnv p w a cyc s).1 :=
  pri_chain_fixed ((within_command p).narrowRead hw a cyc s)

theorem narrowWrite_fixed (p : Pid) {w : Width} (hw : w ≠ .w32) (a v cyc : Word) (s : State) :
    Fixed s (narrowWrite commandEnv p w a v cyc s).1 :=
  pri_chain_fixed ((within_command p).narrowWrite hw a v cyc s)

theorem dmaRun_fixed (cyc : Word) (s : State) : Fixed s (dmaRun cyc s) ∧ Timeless s (dmaRun cyc s) :=
  (dmaRun_micro cyc s).fixed

end Sys2Proof.Machine
end

