-- ==== Sys2Proof/Laws/Flags.lean ====
section
/-! SUPPORT. What the flag operations leave: detectors, SPIN, cross marking, interrupts. -/

namespace Sys2Proof.Machine

/-! ## POLL_UNDETECT (R165, R166) -/

theorem pollUndetect_eq (p : Pid) (c : RegClass) (s : State) :
    pollUndetect p c s = { s with pd := (pollUndetect p c s).pd, spin := (pollUndetect p c s).spin } := by
  unfold pollUndetect
  split_ifs <;> rfl

theorem detectorOf_pollUndetect (p x : Pid) (c y : RegClass) (s : State) :
    detectorOf (pollUndetect p c s) x y =
      if x = p ∧ y = c ∧ s.cfg.polled p c = true then Detector.clear else detectorOf s x y := by
  unfold pollUndetect
  split_ifs with h h'
  · rw [detectorOf_setDetector, if_pos ⟨h'.1, h'.2.1⟩]
  · rw [detectorOf_setDetector, if_neg (by tauto)]; rfl
  · tauto
  · rfl

theorem spinOf_pollUndetect (p x : Pid) (c y : RegClass) (s : State) :
    spinOf (pollUndetect p c s) x y = if x = p ∧ y = c ∧ s.cfg.polled p c = true then false else spinOf s x y := by
  unfold pollUndetect
  split_ifs with h h'
  · rw [show spinOf (setDetector p c Detector.clear (setSpin p c false s)) x y = spinOf (setSpin p c false s) x y from rfl,
      spinOf_setSpin, if_pos ⟨h'.1, h'.2.1⟩]
  · rw [show spinOf (setDetector p c Detector.clear (setSpin p c false s)) x y = spinOf (setSpin p c false s) x y from rfl,
      spinOf_setSpin, if_neg (by tauto)]
  · tauto
  · rfl

/-- A set of pairs has been undetected, and nothing else has changed. -/
structure Undetects (f : Pid → RegClass → Bool) (s t : State) : Prop where
  eq : t = { s with pd := t.pd, spin := t.spin }
  detector : ∀ x y, detectorOf t x y = if f x y && s.cfg.polled x y then Detector.clear else detectorOf s x y
  spin : ∀ x y, spinOf t x y = (spinOf s x y && !(f x y && s.cfg.polled x y))

theorem Undetects.refl (s : State) : Undetects (fun _ _ => false) s s := ⟨rfl, by simp, by simp⟩

theorem Undetects.one (p : Pid) (c : RegClass) (s : State) :
    Undetects (fun x y => decide (x = p) && decide (y = c)) s (pollUndetect p c s) := by
  refine ⟨pollUndetect_eq p c s, fun x y => ?_, fun x y => ?_⟩
  · rw [detectorOf_pollUndetect]
    by_cases h : x = p ∧ y = c
    · obtain ⟨rfl, rfl⟩ := h; simp
    · rw [if_neg (by tauto), if_neg (by simp; tauto)]
  · rw [spinOf_pollUndetect]
    by_cases h : x = p ∧ y = c
    · obtain ⟨rfl, rfl⟩ := h; cases s.cfg.polled x y <;> simp
    · rw [if_neg (by tauto)]
      have : (decide (x = p) && decide (y = c)) = false := by simp; tauto
      simp [this]

theorem Undetects.cfg {f : Pid → RegClass → Bool} {s t : State} (h : Undetects f s t) : t.cfg = s.cfg := by rw [h.eq]

theorem Undetects.trans {f g : Pid → RegClass → Bool} {s t u : State} (h : Undetects f s t) (k : Undetects g t u) :
    Undetects (fun x y => f x y || g x y) s u := by
  refine ⟨?_, fun x y => ?_, fun x y => ?_⟩
  · rw [k.eq, h.eq]
  · rw [k.detector, h.detector, h.cfg]
    cases f x y <;> cases g x y <;> cases s.cfg.polled x y <;> simp
  · rw [k.spin, h.spin, h.cfg]
    cases f x y <;> cases g x y <;> cases s.cfg.polled x y <;> cases spinOf s x y <;> simp

theorem Undetects.congr {f g : Pid → RegClass → Bool} {s t : State} (h : Undetects f s t) (e : ∀ x y, f x y = g x y) :
    Undetects g s t := by
  have : f = g := by funext x y; exact e x y
  exact this ▸ h

/-- A fold of undetecting operations undetects every pair one of them names. -/
theorem Undetects.foldl {α : Type} {op : State → α → State} {f : α → Pid → RegClass → Bool}
    (hop : ∀ s a, Undetects (f a) s (op s a)) (l : List α) (s : State) :
    Undetects (fun x y => l.any (f · x y)) s (l.foldl op s) := by
  induction l generalizing s with
  | nil => exact (Undetects.refl s).congr (by simp)
  | cons a rest ih => exact ((hop s a).trans (ih _)).congr (by simp)

/-- POLL_UNDETECT of every class of one processor (R166). -/
theorem undetectAll_undetects (p : Pid) (s : State) : Undetects (fun x _ => decide (x = p)) s (undetectAll p s) := by
  refine (Undetects.foldl (fun s c => Undetects.one p c s) RegClass.all s).congr fun x y => ?_
  by_cases h : x = p
  · subst h; cases y <;> simp [RegClass.all]
  · simp [h]

/-- CrossMark's undetects (R126). -/
theorem crossMark_undetects (p : Pid) (c : RegClass) (s : State) :
    Undetects (fun x y => decide (x ≠ p) && decide (y = c)) s
      (Pid.all.foldl (fun s q => if q = p then s else pollUndetect q c s) s) := by
  refine (Undetects.foldl (f := fun q x y => !decide (q = p) && (decide (x = q) && decide (y = c)))
    (fun s q => ?_) Pid.all s).congr fun x y => ?_
  · by_cases h : q = p
    · rw [if_pos h]; exact (Undetects.refl s).congr (by simp [h])
    · rw [if_neg h]; exact (Undetects.one q c s).congr (by simp [h])
  · cases x <;> cases p <;> cases y <;> cases c <;> rfl

/-! ## The end of a register write (R125) -/

theorem raiseIrqs_calls (l : List Irq) (s : State) :
    (l.foldl (fun s q => raiseIrq q s) s).calls = s.calls ++ l.map (fun q => HostCall.raise q.target q.level q.vector) := by
  induction l generalizing s with
  | nil => simp
  | cons q rest ih =>
    rw [List.foldl_cons, ih]
    have : (raiseIrq q s).calls = s.calls ++ [HostCall.raise q.target q.level q.vector] := by
      unfold raiseIrq; rw [(undetectAll_undetects _ _).eq]; rfl
    rw [this]; simp

/-- The interrupt requests of a write: the calls, and every detector of a target cleared (R258); nothing else. -/
theorem raiseIrqs_effect (l : List Irq) (s : State) :
    (∀ x y, detectorOf (l.foldl (fun s q => raiseIrq q s) s) x y =
      if l.any (·.target = x) && s.cfg.polled x y then Detector.clear else detectorOf s x y) ∧
    (∀ x y, spinOf (l.foldl (fun s q => raiseIrq q s) s) x y =
      (spinOf s x y && !(l.any (·.target = x) && s.cfg.polled x y))) ∧
    l.foldl (fun s q => raiseIrq q s) s = { s with
      pd := (l.foldl (fun s q => raiseIrq q s) s).pd, spin := (l.foldl (fun s q => raiseIrq q s) s).spin
      calls := (l.foldl (fun s q => raiseIrq q s) s).calls } := by
  induction l generalizing s with
  | nil => simp
  | cons q rest ih =>
    rw [List.foldl_cons]
    have h := undetectAll_undetects q.target (recordCall (.raise q.target q.level q.vector) s)
    have he : raiseIrq q s = undetectAll q.target (recordCall (.raise q.target q.level q.vector) s) := rfl
    rw [he]
    obtain ⟨i1, i2, i3⟩ := ih (undetectAll q.target (recordCall (.raise q.target q.level q.vector) s))
    have hcfg : (undetectAll q.target (recordCall (.raise q.target q.level q.vector) s)).cfg = s.cfg := by rw [h.eq]; rfl
    refine ⟨fun x y => ?_, fun x y => ?_, ?_⟩
    · rw [i1, h.detector, hcfg]
      have : detectorOf (recordCall (.raise q.target q.level q.vector) s) x y = detectorOf s x y := rfl
      rw [this]
      have hc : (recordCall (.raise q.target q.level q.vector) s).cfg = s.cfg := rfl
      rw [hc]
      by_cases hx : x = q.target
      · subst hx; cases s.cfg.polled q.target y <;> simp
      · have : ¬ q.target = x := fun e => hx e.symm
        simp [hx, this]
    · rw [i2, h.spin, hcfg]
      have : spinOf (recordCall (.raise q.target q.level q.vector) s) x y = spinOf s x y := rfl
      rw [this]
      have hc : (recordCall (.raise q.target q.level q.vector) s).cfg = s.cfg := rfl
      rw [hc]
      by_cases hx : x = q.target
      · subst hx; cases s.cfg.polled q.target y <;> simp
      · have : ¬ q.target = x := fun e => hx e.symm
        simp [hx, this]
    · generalize rest.foldl (fun s q => raiseIrq q s)
        (undetectAll q.target (recordCall (.raise q.target q.level q.vector) s)) = t at i3 ⊢
      generalize undetectAll q.target (recordCall (.raise q.target q.level q.vector) s) = u at i3 h
      have := congrArg (fun z : State => { z with pd := t.pd, spin := t.spin, calls := t.calls }) h.eq
      exact i3.trans this

end Sys2Proof.Machine
end

