-- ==== Sys2Proof/Laws/Handlers.lean ====
section
/-! SUPPORT. What an access to a register does, said once: its read (R122 to R124) and its write (R125) in terms of the register's
rule, and what the steps after the rule leave. -/

namespace Sys2Proof.Machine

/-! ## Dispatch -/

theorem alignAccess_of_aligned {g : Config} {w : Width} {a : Word} (h : alignDown w a = a) : alignAccess g w a = some a := by
  unfold alignAccess
  rw [if_neg (by simp [h]), h]

/-- An aligned read that reaches a register is a handler read. -/
theorem busRead_register {s : State} {p : Pid} {w : Width} {a : Word} {h : Handler} {q : RegRow} (env : Env) (cyc : Word)
    (ha : alignDown w a = a) (hr : ReachesRegister s p w .rd a h q) :
    busRead env p w a cyc s = handlerRead env p h a w cyc s := by
  obtain ⟨h1, h2, h3⟩ := hr
  unfold busRead
  rw [alignAccess_of_aligned ha]
  cases w
  · simp only [narrowRead, h1]
  · simp only [narrowRead, h1]
  · simp only [wideRead, h1, h3 rfl]; rfl

/-- An aligned write that reaches a register is a handler write. -/
theorem busWrite_register {s : State} {p : Pid} {w : Width} {a : Word} {h : Handler} {q : RegRow} (env : Env) (v cyc : Word)
    (ha : alignDown w a = a) (hr : ReachesRegister s p w .wr a h q) :
    busWrite env p w a v cyc s = handlerWrite env p h a v w cyc s := by
  obtain ⟨h1, h2, h3⟩ := hr
  unfold busWrite
  rw [alignAccess_of_aligned ha]
  cases w
  · simp only [narrowWrite, h1]
  · simp only [narrowWrite, h1]
  · simp only [wideWrite, h1, h3 rfl]; rfl

/-! ## Reads -/

/-- A read of a register: the observation, the value, the detector, and no stop of its own. -/
theorem exec_read_register {s : State} {p : Pid} {w : Width} {a cyc : Word} {h : Handler} {q : RegRow} (hs : s.Ready)
    (ha : alignDown w a = a) (hr : ReachesRegister s p w .rd a h q) :
    exec (readCmd w p a cyc) s =
      settle (respond { value := regRead (observeClass commandEnv p q.reg.cls cyc s) q a w
                        cycles := s.cfg.accessCycles p (.hnd h) w, irq := false }
        (pollRead p q.reg.cls a cyc (observeClass commandEnv p q.reg.cls cyc s))) := by
  rw [exec_readCmd, perform_of_ready hs, busRead_register _ _ ha hr]
  unfold handlerRead
  rw [hr.2.1]
  have : (observeClass commandEnv p q.reg.cls cyc s).cfg = s.cfg :=
    (pri_chain_fixed ((within_command p).observeClass q.reg.cls cyc s)).cfg
  simp only [answer, this]

/-! ## Writes -/

/-- The steps of R125 after the register's rule: what they change of the state `s` the rule leaves. -/
theorem afterWrite_effect (p : Pid) (r : Reg) (old : Word) (mark : Bool) (s : State) :
    let t := (afterWrite p r old mark s).1
    (∀ x y, detectorOf t x y = if wakes s.cfg p r old (regLoad s r) mark x y then Detector.clear else detectorOf s x y) ∧
    (∀ x y, spinOf t x y = (spinOf s x y && !wakes s.cfg p r old (regLoad s r) mark x y)) ∧
    (∀ x y, dirtyOf t x y =
      (dirtyOf s x y || (mark && r.cls.shared && decide (x = r.cls) && decide (y = p.side.other)))) ∧
    t.calls = s.calls ++ (s.cfg.irqRaise p r old (regLoad s r)).map (fun q => HostCall.raise q.target q.level q.vector) ∧
    (∀ x, t.endSlice.get x = (s.endSlice.get x || (decide (x = p) && s.cfg.irqLikely p r old (regLoad s r)))) ∧
    (afterWrite p r old mark s).2 = s.cfg.irqLikely p r old (regLoad s r) ∧
    t = { s with pd := t.pd, spin := t.spin, dirty := t.dirty, calls := t.calls, endSlice := t.endSlice } := by
  -- the state after cross marking
  let s1 := if r.cls.shared && mark then crossMark p r.cls s else s
  have hx : (∀ x y, detectorOf s1 x y =
        if mark && r.cls.shared && decide (y = r.cls) && decide (x ≠ p) && s.cfg.polled x y then Detector.clear
        else detectorOf s x y) ∧
      (∀ x y, spinOf s1 x y =
        (spinOf s x y && !(mark && r.cls.shared && decide (y = r.cls) && decide (x ≠ p) && s.cfg.polled x y))) ∧
      (∀ x y, dirtyOf s1 x y =
        (dirtyOf s x y || (mark && r.cls.shared && decide (x = r.cls) && decide (y = p.side.other)))) ∧
      s1 = { s with pd := s1.pd, spin := s1.spin, dirty := s1.dirty } := by
    by_cases hm : (r.cls.shared && mark) = true
    · have he : s1 = crossMark p r.cls s := if_pos hm
      have hu := crossMark_undetects p r.cls s
      simp only [Bool.and_eq_true] at hm
      rw [he]
      unfold crossMark
      generalize Pid.all.foldl (fun s q => if q = p then s else pollUndetect q r.cls s) s = u at hu
      refine ⟨fun x y => ?_, fun x y => ?_, fun x y => ?_, ?_⟩
      · change detectorOf u x y = _
        rw [hu.detector]
        simp only [hm.1, hm.2, Bool.true_and]
        rw [Bool.and_comm (decide (x ≠ p))]
      · change spinOf u x y = _
        rw [hu.spin]
        simp only [hm.1, hm.2, Bool.true_and]
        rw [Bool.and_comm (decide (x ≠ p))]
      · rw [dirtyOf_setDirty]
        have hd : dirtyOf u x y = dirtyOf s x y := by unfold dirtyOf; rw [hu.eq]
        rw [hd]
        by_cases hxy : x = r.cls ∧ y = p.side.other
        · simp [hxy, hm]
        · rw [if_neg hxy]
          have : (decide (x = r.cls) && decide (y = p.side.other)) = false := by simp; tauto
          simp [hm, this]
      · exact congrArg (fun z : State => { z with dirty := (setDirty r.cls p.side.other true u).dirty }) hu.eq
    · have he : s1 = s := if_neg hm
      rw [he]
      have hmm : (mark && r.cls.shared) = false := by rw [Bool.and_comm]; simpa using hm
      simp [hmm]
  obtain ⟨h1, h2, h3, h4⟩ := hx
  have hcfg : s1.cfg = s.cfg := by rw [h4]
  have hreg : regLoad s1 r = regLoad s r := by
    rw [h4]; rcases r with i | i | ⟨k, i⟩ | i | i | d | ⟨k, d⟩ <;> rfl
  have hcalls : s1.calls = s.calls := by rw [h4]
  have hend : s1.endSlice = s.endSlice := by rw [h4]
  obtain ⟨i1, i2, i3⟩ := raiseIrqs_effect (s.cfg.irqRaise p r old (regLoad s r)) s1
  have i4 := raiseIrqs_calls (s.cfg.irqRaise p r old (regLoad s r)) s1
  have hdef : afterWrite p r old mark s =
      (if s.cfg.irqLikely p r old (regLoad s r) then
        setEndSlice p true ((s.cfg.irqRaise p r old (regLoad s r)).foldl (fun s q => raiseIrq q s) s1)
        else (s.cfg.irqRaise p r old (regLoad s r)).foldl (fun s q => raiseIrq q s) s1,
        s.cfg.irqLikely p r old (regLoad s r)) := by
    unfold afterWrite
    simp only
    rw [show (if r.cls.shared && mark then crossMark p r.cls s else s) = s1 from rfl, hcfg, hreg]
  rw [hdef]
  generalize (s.cfg.irqRaise p r old (regLoad s r)).foldl (fun s q => raiseIrq q s) s1 = u at i1 i2 i3 i4
  have hu : u = { s with pd := u.pd, spin := u.spin, dirty := u.dirty, calls := u.calls } := by
    have hd : u.dirty = s1.dirty := by rw [i3]
    have := congrArg (fun z : State => { z with pd := u.pd, spin := u.spin, calls := u.calls }) h4
    rw [hd]
    exact i3.trans this
  have hue : u.endSlice = s.endSlice := by rw [hu]
  have hud : ∀ x y, dirtyOf u x y = dirtyOf s1 x y := fun x y => by unfold dirtyOf; rw [i3]
  have hany : ∀ x y, ((s.cfg.irqRaise p r old (regLoad s r)).any (·.target = x) && s.cfg.polled x y ||
      (mark && r.cls.shared && decide (y = r.cls) && decide (x ≠ p) && s.cfg.polled x y)) =
      wakes s.cfg p r old (regLoad s r) mark x y := by
    intro x y
    unfold wakes
    generalize (s.cfg.irqRaise p r old (regLoad s r)).any (·.target = x) = b
    generalize (mark && r.cls.shared && decide (y = r.cls) && decide (x ≠ p)) = m
    cases s.cfg.polled x y <;> cases b <;> cases m <;> rfl
  have hdet : ∀ x y, detectorOf u x y =
      if wakes s.cfg p r old (regLoad s r) mark x y then Detector.clear else detectorOf s x y := by
    intro x y
    rw [i1, h1, hcfg, ← hany]
    generalize (s.cfg.irqRaise p r old (regLoad s r)).any (·.target = x) = b
    generalize (mark && r.cls.shared && decide (y = r.cls) && decide (x ≠ p)) = m
    cases b <;> cases m <;> cases s.cfg.polled x y <;> rfl
  have hspin : ∀ x y, spinOf u x y = (spinOf s x y && !wakes s.cfg p r old (regLoad s r) mark x y) := by
    intro x y
    rw [i2, h2, hcfg, ← hany]
    generalize (s.cfg.irqRaise p r old (regLoad s r)).any (·.target = x) = b
    generalize (mark && r.cls.shared && decide (y = r.cls) && decide (x ≠ p)) = m
    cases b <;> cases m <;> cases s.cfg.polled x y <;> cases spinOf s x y <;> rfl
  cases hl : s.cfg.irqLikely p r old (regLoad s r)
  · refine ⟨hdet, hspin, fun x y => (hud x y).trans (h3 x y), by rw [← hcalls]; exact i4, fun x => ?_, rfl, ?_⟩
    · simp [hue]
    · change u = { s with pd := u.pd, spin := u.spin, dirty := u.dirty, calls := u.calls, endSlice := u.endSlice }
      rw [hue]; exact hu
  · refine ⟨hdet, hspin, fun x y => (hud x y).trans (h3 x y), by rw [← hcalls]; exact i4, fun x => ?_, rfl, ?_⟩
    · change (u.endSlice.set p true).get x = _
      rw [hue, PerPid.get_set]
      by_cases hxp : x = p <;> simp [hxp]
    · exact congrArg (fun z : State => { z with endSlice := u.endSlice.set p true }) hu

/-- A write of a register whose gate runs nothing is the register's rule and the steps after it. -/
theorem exec_write_register {s : State} {p : Pid} {w : Width} {a v cyc : Word} {h : Handler} {q : RegRow}
    (W : WritesRegister s p w a cyc h q) :
    let x := regWrite dmaTrigger p a q.reg (regLoad s q.reg) (presented s q a v w) cyc s
    let y := afterWrite p q.reg (regLoad s q.reg) x.2 x.1
    exec (writeCmd w p a v cyc) s =
      settle (respond { value := 0, cycles := x.1.cfg.accessCycles p (.hnd h) w, irq := y.2 } y.1) := by
  intro x y
  rw [exec_writeCmd, perform_of_ready W.ready, busWrite_register _ _ _ W.aligned W.reaches]
  unfold handlerWrite
  rw [W.reaches.2.1]
  have hg : (if q.reg.cls.shared ∧ p = .pri then commandEnv.gate q.reg.cls cyc s else s) = s := by
    by_cases hp : q.reg.cls.shared = true ∧ p = .pri
    · rw [if_pos hp]
      have hshut : gapOpen q.reg.cls cyc s = false := by
        rcases W.shut with h | h | h
        · exact absurd hp.2 h
        · rw [hp.1] at h; exact absurd h (by decide)
        · exact h
      change gapSync q.reg.cls cyc s = s
      unfold gapSync; rw [hshut]; rfl
    · rw [if_neg hp]
  have hc : y.1.cfg = x.1.cfg := by
    have := (afterWrite_effect p q.reg (regLoad s q.reg) x.2 x.1).2.2.2.2.2.2
    rw [show y.1 = (afterWrite p q.reg (regLoad s q.reg) x.2 x.1).1 from rfl, this]
  simp only [hg, laneMerge_lowBits]
  rw [← hc]
  rfl

/-- Where the register's rule keeps the flags, the whole write ends as R125 says. -/
theorem writeEnds_of_rule {s s' : State} {p : Pid} {w : Width} {h : Handler} {r : Reg} {old : Word} {mark : Bool}
    (hcfg : s'.cfg = s.cfg) (hdet : ∀ x y, detectorOf s' x y = detectorOf s x y) (hspin : ∀ x y, spinOf s' x y = spinOf s x y)
    (hdirty : ∀ x y, dirtyOf s' x y = dirtyOf s x y) (hcalls : s'.calls = s.calls) (hend : s'.endSlice = s.endSlice) :
    let y := afterWrite p r old mark s'
    let t := respond { value := 0, cycles := s'.cfg.accessCycles p (.hnd h) w, irq := y.2 } y.1
    WriteEnds s t p w h r old mark ∧ regLoad t r = regLoad s' r := by
  intro y t
  obtain ⟨e1, e2, e3, e4, e5, e6, e7⟩ := afterWrite_effect p r old mark s'
  have hr : regLoad t r = regLoad s' r := by
    change regLoad y.1 r = _
    rw [show y.1 = (afterWrite p r old mark s').1 from rfl, e7]
    rcases r with i | i | ⟨k, i⟩ | i | i | d | ⟨k, d⟩ <;> rfl
  refine ⟨⟨?_, ?_, ?_, ?_, ?_, ?_⟩, hr⟩
  · intro x z; rw [hr, ← hcfg, ← hdet]; exact e1 x z
  · intro x z; rw [hr, ← hcfg, ← hspin]; exact e2 x z
  · intro x z; rw [← hdirty]; exact e3 x z
  · rw [hr, ← hcfg, ← hcalls]; exact e4
  · intro x; rw [hr, ← hcfg, ← hend]; exact e5 x
  · rw [hr, ← hcfg, ← e6]; rfl

end Sys2Proof.Machine
end

