-- ==== Sys2Proof/Laws/Registers.lean ====
section
/-! SUPPORT. The register bank: what a store leaves in every register, and what the generic write stores (R25, R210). -/

namespace Sys2Proof.Machine

/-- A value of at most the register's width. -/
def Fits (r : Reg) (v : Word) : Prop := v &&& lowMask (8 * r.bytes) = v

theorem and_lowMask16 (v : Word) : v &&& lowMask 16 = (v.setWidth 16).setWidth 32 := by
  ext i hi; simp [lowMask]; interval_cases i <;> simp

theorem and_lowMask32 (v : Word) : v &&& lowMask 32 = v := by
  ext i hi; simp [lowMask]; interval_cases i <;> simp

theorem fits_half (h : Half) : h.setWidth 32 &&& lowMask 16 = h.setWidth 32 := by
  rw [and_lowMask16]; simp

theorem fits_16 {v : Word} (h : v &&& lowMask 16 = v) : (v.setWidth 16).setWidth 32 = v := by
  rw [← and_lowMask16]; exact h

/-- Every register holds a value of its width. -/
theorem regLoad_fits (s : State) (r : Reg) : Fits r (regLoad s r) := by
  unfold Fits
  rcases r with i | i | ⟨k, i⟩ | i | i | d | ⟨k, d⟩
  · exact fits_half _
  · exact fits_half _
  · exact fits_half _
  · exact fits_half _
  · exact fits_half _
  · cases d
    case len => exact fits_half _
    case stat => exact fits_half _
    case fifoData => exact fits_half _
    all_goals exact and_lowMask32 _
  · exact and_lowMask32 _

theorem regMask_fits (g : Config) (r : Reg) (v : Word) : Fits r (v &&& g.regMask r) := by
  unfold Fits
  by_cases h : r = .dma .tcr
  · subst h; exact and_lowMask32 _
  · have : g.regMask r = lowMask (8 * r.bytes) := by
      unfold Config.regMask
      split
      · exact absurd rfl h
      · rfl
    rw [this, BitVec.and_assoc, BitVec.and_self]

/-- The value a generic write stores has the register's width. -/
theorem merge_fits {r : Reg} {old new m : Word} (ho : Fits r old) (hn : Fits r new) :
    Fits r ((old &&& ~~~m) ||| (new &&& m)) := by
  unfold Fits at *
  generalize lowMask (8 * r.bytes) = k at *
  rw [← ho, ← hn]
  ext i hi
  simp only [BitVec.getElem_and, BitVec.getElem_or, BitVec.getElem_not]
  cases old[i] <;> cases new[i] <;> cases m[i] <;> cases k[i] <;> rfl

theorem storedValue_fits (s : State) (q : RegRow) (a v : Word) (w : Width) :
    Fits q.reg (storedValue s q.reg (presented s q a v w)) :=
  merge_fits (regLoad_fits s q.reg) (regMask_fits _ _ _)

theorem wordAt_set_same {l : List Half} {i : Nat} (h : Half) (hi : i < l.length) : wordAt (l.set i h) i = h.setWidth 32 := by
  unfold wordAt; simp [List.getD, hi]

theorem wordAt_set_other (l : List Half) {i j : Nat} (h : Half) (hij : j ≠ i) : wordAt (l.set i h) j = wordAt l j := by
  unfold wordAt; simp [List.getD, List.getElem?_set_ne (Ne.symm hij)]

/-- A store puts the value in its register. -/
theorem regLoad_regStore_same {s : State} {r : Reg} {v : Word} (hs : s.Sized) (hr : s.cfg.holds r = true) (hv : Fits r v) :
    regLoad (regStore r v s) r = v := by
  obtain ⟨h1, h2, h3, h4, h5, h6⟩ := hs
  unfold Fits at hv
  rcases r with i | i | ⟨k, i⟩ | i | i | d | ⟨k, d⟩
  · simp only [Config.holds, decide_eq_true_eq] at hr
    exact (wordAt_set_same _ (by omega)).trans (fits_16 hv)
  · simp only [Config.holds, decide_eq_true_eq] at hr
    exact (wordAt_set_same _ (by omega)).trans (fits_16 hv)
  · simp only [Config.holds, decide_eq_true_eq] at hr
    have hl : i < (s.loc.get k).length := by cases k <;> simp only [PerCop.get] <;> omega
    change wordAt ((s.loc.set k _).get k) i = v
    rw [PerCop.get_set_same]
    exact (wordAt_set_same _ hl).trans (fits_16 hv)
  · simp only [Config.holds, decide_eq_true_eq] at hr
    exact (wordAt_set_same _ (by omega)).trans (fits_16 hv)
  · simp only [Config.holds, decide_eq_true_eq] at hr
    exact (wordAt_set_same _ (by omega)).trans (fits_16 hv)
  · cases d
    case len => exact fits_16 hv
    case stat => exact fits_16 hv
    case fifoData => exact fits_16 hv
    all_goals rfl
  · change divLoad ((s.divu.set k _).get k) d = v
    rw [PerCop.get_set_same]
    cases d <;> rfl

/-- A store changes no other register. -/
theorem regLoad_regStore_other {s : State} {r r' : Reg} (v : Word) (h : r' ≠ r) :
    regLoad (regStore r v s) r' = regLoad s r' := by
  rcases r with i | i | ⟨k, i⟩ | i | i | d | ⟨k, d⟩ <;> rcases r' with j | j | ⟨l, j⟩ | j | j | e | ⟨l, e⟩ <;> try rfl
  · exact wordAt_set_other _ _ (by rintro rfl; exact h rfl)
  · exact wordAt_set_other _ _ (by rintro rfl; exact h rfl)
  · change wordAt ((s.loc.set k _).get l) j = wordAt (s.loc.get l) j
    rw [PerCop.get_set]
    split_ifs with hl
    · subst hl; exact wordAt_set_other _ _ (by rintro rfl; exact h rfl)
    · rfl
  · exact wordAt_set_other _ _ (by rintro rfl; exact h rfl)
  · exact wordAt_set_other _ _ (by rintro rfl; exact h rfl)
  · cases d <;> cases e <;> first | rfl | exact absurd rfl h
  · change divLoad ((s.divu.set k _).get l) e = divLoad (s.divu.get l) e
    rw [PerCop.get_set]
    split_ifs with hl
    · subst hl
      cases d <;> cases e <;> first | rfl | exact absurd rfl h
    · rfl

/-- What the register map answers: a line of p's own, whose register the bank holds and p may reach (R6, R26; log 18). -/
theorem regAt_spec {g : Config} {p : Pid} {h : Handler} {a : Word} {q : RegRow} (hq : regAt g p h a = some q) :
    q.pid = p ∧ q.handler = h ∧ (a - q.base).toNat < q.reg.bytes ∧ g.holds q.reg = true ∧ Config.reaches p q.reg = true ∧
    q.base.toNat % q.reg.bytes = 0 := by
  have := List.find?_some hq
  simp only [Bool.and_eq_true, decide_eq_true_eq, Config.covers, beq_iff_eq] at this
  obtain ⟨⟨⟨rfl, h2⟩, h3⟩, ⟨h4, h5⟩, h6⟩ := this
  exact ⟨rfl, h2, h3, h4, h5, h6⟩

theorem holds_of_regAt {g : Config} {p : Pid} {h : Handler} {a : Word} {q : RegRow} (hq : regAt g p h a = some q) :
    g.holds q.reg = true := (regAt_spec hq).2.2.2.1

/-- A store changes only the register's own array or record. -/
theorem regStore_eq (r : Reg) (v : Word) (s : State) :
    regStore r v s = { s with
      sys := (regStore r v s).sys, vdp := (regStore r v s).vdp, loc := (regStore r v s).loc, comm := (regStore r v s).comm
      pwm := (regStore r v s).pwm, dma := (regStore r v s).dma, divu := (regStore r v s).divu } := by
  rcases r with i | i | ⟨k, i⟩ | i | i | d | ⟨k, d⟩ <;> rfl

theorem regStore_staging (r : Reg) (v : Word) (s : State) : SameStaging s (regStore r v s) := by
  rcases r with i | i | ⟨k, i⟩ | i | i | d | ⟨k, d⟩ <;> try exact ⟨rfl, rfl, rfl⟩
  cases d <;> exact ⟨rfl, rfl, rfl⟩

/-- Registers, apart from the flags of a state. -/
theorem regLoad_congr {s t : State} (h1 : t.sys = s.sys) (h2 : t.vdp = s.vdp) (h3 : t.loc = s.loc) (h4 : t.comm = s.comm)
    (h5 : t.pwm = s.pwm) (h6 : t.dma = s.dma) (h7 : t.divu = s.divu) (r : Reg) : regLoad t r = regLoad s r := by
  rcases r with i | i | ⟨k, i⟩ | i | i | d | ⟨k, d⟩ <;> simp only [regLoad, h1, h2, h3, h4, h5, h6, h7]

/-- The log of a generic write in terms of the model's own test. -/
theorem lockedLog_eq (s : State) (p : Pid) (a : Word) (r : Reg) (old new : Word) :
    lockedLog s p a r old new =
      if lockedChange s.cfg r old new then [{ code := .a3, pid := pidBits p, addr := a }] else [] := by
  unfold lockedLog lockedChange
  by_cases hx : (old ^^^ new) &&& ~~~s.cfg.writable r = 0
  · rw [if_pos hx, if_neg (by simp [hx])]
  · rw [if_neg hx, if_pos (by simpa using hx)]
    rfl

/-- What the generic write leaves (R210): the store, and A3 when a locked bit would change. -/
theorem genericWrite_eq (p : Pid) (a : Word) (r : Reg) (new : Word) (s : State) :
    genericWrite p a r (regLoad s r) new s =
      { regStore r (storedValue s r new) s with anom := s.anom ++ lockedLog s p a r (regLoad s r) new } := by
  have h : (regStore r (storedValue s r new) s).anom = s.anom := by rw [regStore_eq]
  have hc : (regStore r (storedValue s r new) s).cfg = s.cfg := by rw [regStore_eq]
  have hd : genericWrite p a r (regLoad s r) new s =
      if lockedChange (regStore r (storedValue s r new) s).cfg r (regLoad s r) new then
        logAnomaly .a3 (pidBits p) a (regStore r (storedValue s r new) s) else regStore r (storedValue s r new) s := rfl
  rw [hd]
  generalize regStore r (storedValue s r new) s = u at h hc
  unfold lockedLog lockedChange
  rw [hc]
  by_cases hx : (regLoad s r ^^^ new) &&& ~~~s.cfg.writable r = 0
  · rw [if_neg (by simp [hx]), if_pos hx, List.append_nil, ← h]
  · rw [if_pos (by simpa using hx), if_neg hx, ← h]
    rfl

/-- A write whose rule leaves `s'` and keeps the flags completes, and ends as R125 says. -/
theorem exec_write_ends {s s' : State} {p : Pid} {w : Width} {a v cyc : Word} {h : Handler} {q : RegRow} {mark : Bool}
    (W : WritesRegister s p w a cyc h q)
    (hx : regWrite dmaTrigger p a q.reg (regLoad s q.reg) (presented s q a v w) cyc s = (s', mark))
    (hcfg : s'.cfg = s.cfg) (hpd : s'.pd = s.pd) (hspin : s'.spin = s.spin)
    (hdirty : s'.dirty = s.dirty) (hcalls : s'.calls = s.calls) (hend : s'.endSlice = s.endSlice) (hstop : s'.stop = none) :
    ∃ t, exec (writeCmd w p a v cyc) s = .next t ∧ WriteEnds s t p w h q.reg (regLoad s q.reg) mark ∧
      regLoad t q.reg = regLoad s' q.reg ∧
      t = { s' with pd := t.pd, spin := t.spin, dirty := t.dirty, calls := t.calls, endSlice := t.endSlice, resp := t.resp } := by
  have he := exec_write_register (v := v) W
  rw [hx] at he
  simp only at he
  obtain ⟨e1, e2⟩ := writeEnds_of_rule (s := s) (s' := s') (p := p) (w := w) (h := h) (r := q.reg) (old := regLoad s q.reg) (mark := mark)
    hcfg (fun x y => by unfold detectorOf; rw [hpd]) (fun x y => by unfold spinOf; rw [hspin]) (fun x y => by unfold dirtyOf; rw [hdirty]) hcalls hend
  have e7 := (afterWrite_effect p q.reg (regLoad s q.reg) mark s').2.2.2.2.2.2
  refine ⟨_, ?_, e1, e2, ?_⟩
  · rw [he]; refine settle_of_stop_none ?_
    change (afterWrite p q.reg (regLoad s q.reg) mark s').1.stop = none
    rw [e7]; exact hstop
  · exact congrArg (fun z : State => { z with resp := (respond { value := 0, cycles := s'.cfg.accessCycles p (.hnd h) w, irq := (afterWrite p q.reg (regLoad s q.reg) mark s').2 } (afterWrite p q.reg (regLoad s q.reg) mark s').1).resp }) e7

/-- A write whose rule stores a generic value and at most logs completes as R210 and R125 say. -/
theorem exec_write_generic {s s' : State} {p : Pid} {w : Width} {a v cyc : Word} {h : Handler} {q : RegRow} {mark : Bool} {new : Word}
    (W : WritesRegister s p w a cyc h q) (hn : Fits q.reg new)
    (hs' : s' = { regStore q.reg (storedValue s q.reg new) s with anom := s'.anom })
    (hx : regWrite dmaTrigger p a q.reg (regLoad s q.reg) (presented s q a v w) cyc s = (s', mark)) :
    ∃ t, exec (writeCmd w p a v cyc) s = .next t ∧ WriteEnds s t p w h q.reg (regLoad s q.reg) mark ∧
      regLoad t q.reg = storedValue s q.reg new ∧ OtherRegistersKept s t q.reg ∧ t.anom = s'.anom ∧ SameOutside s t ∧ SameStaging s t := by
  have hrs := regStore_eq q.reg (storedValue s q.reg new) s
  have hst := regStore_staging q.reg (storedValue s q.reg new) s
  have hsame := regLoad_regStore_same (v := storedValue s q.reg new) W.sized (holds_of_regAt W.reaches.2.1) (merge_fits (regLoad_fits s q.reg) hn)
  have hoth : ∀ r', r' ≠ q.reg → regLoad (regStore q.reg (storedValue s q.reg new) s) r' = regLoad s r' := fun r' hr => regLoad_regStore_other _ hr
  generalize regStore q.reg (storedValue s q.reg new) s = u at *
  obtain ⟨t, t1, t2, t3, t4⟩ := exec_write_ends (v := v) W hx (by rw [hs', hrs]) (by rw [hs', hrs]) (by rw [hs', hrs]) (by rw [hs', hrs]) (by rw [hs', hrs]) (by rw [hs', hrs]) (by rw [hs', hrs]; exact W.ready.2.2)
  have hl : ∀ r, regLoad t r = regLoad u r := by
    intro r; rw [t4, hs']; rcases r with i | i | ⟨k, i⟩ | i | i | d | ⟨k, d⟩ <;> rfl
  refine ⟨t, t1, t2, ?_, ?_, by rw [t4], ?_, ?_⟩
  · rw [hl, hsame]
  · intro r' hr; rw [hl, hoth r' hr]
  · refine ⟨⟨?_,?_,?_,?_,?_,?_,?_,?_,?_,?_⟩, ⟨?_,?_,?_⟩, ?_⟩ <;> rw [t4, hs', hrs]
  · obtain ⟨a1,a2,a3⟩ := hst
    refine ⟨?_,?_,?_⟩
    · rw [t4, hs']; exact a1
    · rw [t4, hs']; exact a2
    · rw [t4, hs']; exact a3

end Sys2Proof.Machine
end

