-- ==== Sys2Proof/Laws/Units.lean ====
section
/-! SUPPORT. What the units leave: coprocessor reset (R216), bank switcher (R221), framebuffer swap (R231). -/

namespace Sys2Proof.Machine

/-! ## Coprocessor reset -/

/-- Clearing the COP-side dirty flags of the SHARED classes of a list. -/
theorem clearCopDirty_effect (l : List RegClass) (s : State) :
    (∀ c d, dirtyOf (l.foldl (fun s c => if c.shared then setDirty c .cop false s else s) s) c d =
      if c ∈ l ∧ c.shared = true ∧ d = .cop then false else dirtyOf s c d) ∧
    l.foldl (fun s c => if c.shared then setDirty c .cop false s else s) s =
      { s with dirty := (l.foldl (fun s c => if c.shared then setDirty c .cop false s else s) s).dirty } := by
  induction l generalizing s with
  | nil => simp
  | cons x rest ih =>
    rw [List.foldl_cons]
    by_cases hx : x.shared = true
    · rw [if_pos hx]
      obtain ⟨i1, i2⟩ := ih (setDirty x .cop false s)
      refine ⟨fun c d => ?_, i2⟩
      rw [i1, dirtyOf_setDirty]
      by_cases hc : c = x ∧ d = .cop
      · obtain ⟨rfl, rfl⟩ := hc; simp [hx]
      · by_cases hr : c ∈ rest ∧ c.shared = true ∧ d = .cop
        · rw [if_pos hr, if_pos ⟨List.mem_cons_of_mem _ hr.1, hr.2⟩]
        · rw [if_neg hr, if_neg hc, if_neg]
          rintro ⟨hm, hs, hd⟩
          rcases List.mem_cons.1 hm with h | h
          · exact hc ⟨h, hd⟩
          · exact hr ⟨h, hs, hd⟩
    · rw [if_neg hx]
      obtain ⟨i1, i2⟩ := ih s
      refine ⟨fun c d => ?_, i2⟩
      rw [i1]
      by_cases hr : c ∈ rest ∧ c.shared = true ∧ d = .cop
      · rw [if_pos hr, if_pos ⟨List.mem_cons_of_mem _ hr.1, hr.2⟩]
      · rw [if_neg hr, if_neg]
        rintro ⟨hm, hs, hd⟩
        rcases List.mem_cons.1 hm with h | h
        · exact hx (h ▸ hs)
        · exact hr ⟨h, hs, hd⟩

/-- Everything COP_RESET does to `s` (R216). -/
structure CopResets (p : Pid) (cyc : Word) (s t : State) : Prop where
  calls : t.calls = s.calls ++ [.resetCop .mcp, .resetCop .scp]
  vt : ∀ k, t.vt.get k = if p = .pri then cyc else s.vt.get k
  detectors : ∀ x c, detectorOf t x c = if x ≠ .pri ∧ s.cfg.polled x c = true then Detector.clear else detectorOf s x c
  spins : ∀ x c, spinOf t x c = if x ≠ .pri ∧ s.cfg.polled x c = true then false else spinOf s x c
  dirty : ∀ c d, dirtyOf t c d = if d = .cop ∧ c.shared = true then false else dirtyOf s c d
  endSlice : ∀ x, t.endSlice.get x = if x = .pri then s.endSlice.get x else false
  eq : t = { s with
    calls := t.calls, vt := t.vt, pd := t.pd, spin := t.spin, dirty := t.dirty, endSlice := t.endSlice }

theorem copReset_spec (p : Pid) (cyc : Word) (s : State) : CopResets p cyc s (copReset p cyc s) := by
  let s1 := recordCall (.resetCop .scp) (recordCall (.resetCop .mcp) s)
  let s2 := if p = .pri then setVt .scp cyc (setVt .mcp cyc s1) else s1
  let s3 := undetectAll .scp (undetectAll .mcp s2)
  let s4 := RegClass.all.foldl (fun s c => if c.shared then setDirty c .cop false s else s) s3
  have hdef : copReset p cyc s = setEndSlice .scp false (setEndSlice .mcp false s4) := rfl
  have h1 : s1 = { s with calls := s1.calls } := rfl
  have h2 : s2 = { s1 with vt := s2.vt } := by
    simp only [s2]; split_ifs <;> rfl
  have hu : Undetects _ s2 s3 := (undetectAll_undetects .mcp s2).trans (undetectAll_undetects .scp _)
  have d1 : ∀ c d, dirtyOf s4 c d = if c ∈ RegClass.all ∧ c.shared = true ∧ d = .cop then false else dirtyOf s3 c d :=
    (clearCopDirty_effect RegClass.all s3).1
  have h4 : s4 = { s3 with dirty := s4.dirty } := (clearCopDirty_effect RegClass.all s3).2
  have hvt : ∀ k, s2.vt.get k = if p = .pri then cyc else s.vt.get k := by
    intro k; simp only [s2]; split_ifs <;> cases k <;> rfl
  have hcalls : s1.calls = s.calls ++ [.resetCop .mcp, .resetCop .scp] := by simp [s1]
  rw [hdef]
  clear_value s4 s3 s2 s1
  have e2 : s2 = { s with calls := s1.calls, vt := s2.vt } := h2.trans (by rw [h1])
  have e3 : s3 = { s with calls := s1.calls, vt := s2.vt, pd := s3.pd, spin := s3.spin } :=
    hu.eq.trans (congrArg (fun z : State => { z with pd := s3.pd, spin := s3.spin }) e2)
  have e4 : s4 = { s with calls := s1.calls, vt := s2.vt, pd := s3.pd, spin := s3.spin, dirty := s4.dirty } :=
    h4.trans (congrArg (fun z : State => { z with dirty := s4.dirty }) e3)
  have hcfg : s2.cfg = s.cfg := by rw [e2]
  have hdet2 : ∀ x c, detectorOf s2 x c = detectorOf s x c := fun x c => by unfold detectorOf; rw [e2]
  have hspin2 : ∀ x c, spinOf s2 x c = spinOf s x c := fun x c => by unfold spinOf; rw [e2]
  have hdirty3 : ∀ c d, dirtyOf s3 c d = dirtyOf s c d := fun c d => by unfold dirtyOf; rw [e3]
  refine ⟨?_, fun k => ?_, fun x c => ?_, fun x c => ?_, fun c d => ?_, fun x => ?_, ?_⟩
  · change s4.calls = _; rw [e4, hcalls]
  · change s4.vt.get k = _; rw [e4]; exact hvt k
  · change detectorOf s4 x c = _
    rw [show detectorOf s4 x c = detectorOf s3 x c by unfold detectorOf; rw [h4], hu.detector, hcfg, hdet2]
    cases x <;> cases s.cfg.polled _ c <;> rfl
  · change spinOf s4 x c = _
    rw [show spinOf s4 x c = spinOf s3 x c by unfold spinOf; rw [h4], hu.spin, hcfg, hspin2]
    cases x <;> cases s.cfg.polled _ c <;> cases spinOf s _ c <;> rfl
  · change dirtyOf s4 c d = _
    rw [d1, hdirty3]
    cases c <;> cases d <;> rfl
  · change ((s4.endSlice.set .mcp false).set .scp false).get x = _
    rw [show s4.endSlice = s.endSlice by rw [e4]]
    cases x <;> rfl
  · have e5 : s4 = { s with calls := s4.calls, vt := s4.vt, pd := s4.pd, spin := s4.spin, dirty := s4.dirty } := by
      have a1 : s4.calls = s1.calls := by rw [e4]
      have a2 : s4.vt = s2.vt := by rw [e4]
      have a3 : s4.pd = s3.pd := by rw [e4]
      have a4 : s4.spin = s3.spin := by rw [e4]
      rw [a1, a2, a3, a4]; exact e4
    exact congrArg (fun z : State => { z with endSlice := (s4.endSlice.set .mcp false).set .scp false }) e5

/-! ## Bank switcher -/

/-- BANK_SELECT refused (R221). -/
theorem bankSelect_refused {n : Word} {s : State} (h : s.cfg.cartSize ≤ n.toNat * s.cfg.bankSize) :
    bankSelect n s = { s with anom := s.anom ++ [{ code := .a7, pid := some 0, addr := n }] } := by
  unfold bankSelect; rw [if_pos h]; rfl

/-- BANK_SELECT accepted (R221). -/
theorem bankSelect_accepted {n : Word} {s : State} (h : n.toNat * s.cfg.bankSize < s.cfg.cartSize) :
    bankSelect n s = { s with
      bankOff := BitVec.ofNat 32 (n.toNat * s.cfg.bankSize)
      view := bankViews s.cfg (n.toNat * s.cfg.bankSize) s.view } := by
  unfold bankSelect; rw [if_neg (by omega)]

/-- BANK_SELECT changes the mapping and the log only. -/
theorem bankSelect_eq (n : Word) (s : State) : bankSelect n s = { s with
    bankOff := (bankSelect n s).bankOff, view := (bankSelect n s).view, anom := (bankSelect n s).anom } := by
  by_cases h : s.cfg.cartSize ≤ n.toNat * s.cfg.bankSize
  · rw [bankSelect_refused h]
  · rw [bankSelect_accepted (by omega)]

/-! ## Rewriting a slot of a view -/

/-- The slot rewritten reads as the new entry, every other slot of every view is kept. -/
theorem Views.get_put {vs : Views} {p q : Pid} {w x : Width} {d e : Dir} {slot k : Nat} {en : Entry}
    (h : Table.wf Entry.stub (((vs.get p).get w).get d) = true) :
    Table.get Entry.stub ((((Views.put vs p w d slot en).get q).get x).get e) k =
      if q = p ∧ x = w ∧ e = d ∧ k = slot then en else Table.get Entry.stub (((vs.get q).get x).get e) k := by
  unfold Views.put
  simp only
  rw [PerPid.get_set]
  by_cases hq : q = p
  · subst hq
    rw [if_pos rfl, PerWidth.get_set]
    by_cases hx : x = w
    · subst hx
      rw [if_pos rfl, PerDir.get_set]
      by_cases he : e = d
      · subst he
        rw [if_pos rfl, Table.get_set h]
        simp
      · rw [if_neg he, if_neg (by tauto)]
    · rw [if_neg hx, if_neg (by tauto)]
  · rw [if_neg hq, if_neg (by tauto)]

/-- A view keeps its canonical form. -/
theorem Views.wf_put {vs : Views} {p q : Pid} {w x : Width} {d e : Dir} {slot : Nat} {en : Entry}
    (h : ∀ q x e, Table.wf Entry.stub (((vs.get q).get x).get e) = true) :
    Table.wf Entry.stub ((((Views.put vs p w d slot en).get q).get x).get e) = true := by
  unfold Views.put
  simp only
  rw [PerPid.get_set]
  split_ifs
  · rw [PerWidth.get_set]
    split_ifs
    · rw [PerDir.get_set]
      split_ifs
      · exact Table.wf_set (h p w d)
      · exact h p w e
    · exact h p x e
  · exact h q x e

/-- A list of slot rewrites. -/
theorem Views.foldl_put {α : Type} {f : α → Pid × Width × Dir × Nat × Entry} (l : List α) {vs : Views}
    (h : ∀ q x e, Table.wf Entry.stub (((vs.get q).get x).get e) = true) :
    let out := l.foldl (fun vs a => Views.put vs (f a).1 (f a).2.1 (f a).2.2.1 (f a).2.2.2.1 (f a).2.2.2.2) vs
    (∀ q x e, Table.wf Entry.stub (((out.get q).get x).get e) = true) ∧
    (∀ q x e k, (∀ a ∈ l, ¬ (q = (f a).1 ∧ x = (f a).2.1 ∧ e = (f a).2.2.1 ∧ k = (f a).2.2.2.1)) →
      Table.get Entry.stub (((out.get q).get x).get e) k = Table.get Entry.stub (((vs.get q).get x).get e) k) ∧
    (∀ q x e k en, (∃ a ∈ l, q = (f a).1 ∧ x = (f a).2.1 ∧ e = (f a).2.2.1 ∧ k = (f a).2.2.2.1) →
      (∀ a ∈ l, q = (f a).1 ∧ x = (f a).2.1 ∧ e = (f a).2.2.1 ∧ k = (f a).2.2.2.1 → (f a).2.2.2.2 = en) →
      Table.get Entry.stub (((out.get q).get x).get e) k = en) := by
  induction l generalizing vs with
  | nil => exact ⟨h, fun _ _ _ _ _ => rfl, fun _ _ _ _ _ ⟨a, ha, _⟩ => absurd ha (by simp)⟩
  | cons b rest ih =>
    obtain ⟨i1, i2, i3⟩ := ih (vs := Views.put vs (f b).1 (f b).2.1 (f b).2.2.1 (f b).2.2.2.1 (f b).2.2.2.2)
      (fun q x e => Views.wf_put h)
    refine ⟨i1, fun q x e k hn => ?_, fun q x e k en hex hall => ?_⟩
    · refine (i2 q x e k fun a ha => hn a (List.mem_cons_of_mem _ ha)).trans ?_
      rw [Views.get_put (h _ _ _), if_neg (hn b (List.mem_cons_self ..))]
    · by_cases hr : ∃ a ∈ rest, q = (f a).1 ∧ x = (f a).2.1 ∧ e = (f a).2.2.1 ∧ k = (f a).2.2.2.1
      · exact i3 q x e k en hr fun a ha => hall a (List.mem_cons_of_mem _ ha)
      · obtain ⟨a, ha, hk⟩ := hex
        have hab : a = b := by
          rcases List.mem_cons.1 ha with h | h
          · exact h
          · exact absurd ⟨a, h, hk⟩ hr
        subst hab
        refine (i2 q x e k fun c hc hkc => hr ⟨c, hc, hkc⟩).trans ?_
        rw [Views.get_put (h _ _ _), if_pos hk]
        exact hall a (List.mem_cons_self ..) hk

/-- Well-formed views are canonical. -/
theorem wf_of_viewsOk {g : Config} {vs : Views} (h : g.viewsOk vs = true) (p : Pid) (w : Width) (d : Dir) :
    Table.wf Entry.stub (((vs.get p).get w).get d) = true := by
  unfold Config.viewsOk at h
  have h1 := List.all_eq_true.1 h p (by cases p <;> simp [Pid.all])
  have h2 := List.all_eq_true.1 h1 w (by cases w <;> simp [Width.all])
  have h3 := List.all_eq_true.1 h2 d (by cases d <;> simp)
  unfold Config.viewOk at h3
  rw [Bool.and_eq_true] at h3
  exact h3.1

end Sys2Proof.Machine
end

