-- ==== Sys2Proof/Laws/Dma.lean ====
section
/-! SUPPORT. The transfer loop turn by turn (R185, R187): a destination write is a 16-bit write of DMA_OWNER that starts no
transfer, it stages at most one word, the loop's fuel is enough for every state, and what completion leaves (R188). -/

namespace Sys2Proof.Machine

/-! ## A write while BUSY starts no transfer (R182) -/

theorem dmaTrigger_busy {s : State} (h : s.dma.busy = true) (p : Pid) (cyc : Word) : dmaTrigger p cyc s = s := by
  unfold dmaTrigger; simp [h]

theorem genericWrite_staging (p : Pid) (a : Word) (r : Reg) (old new : Word) (s : State) :
    SameStaging s (genericWrite p a r old new s) := by
  have h := regStore_staging r (mergeWritable s.cfg r old new) s
  unfold genericWrite
  simp only
  split_ifs <;> exact h

theorem regWrite_busy {s : State} (h : s.dma.busy = true) (p : Pid) (a : Word) (r : Reg) (old new cyc : Word) :
    regWrite dmaTrigger p a r old new cyc s = regWrite destinationEnv.trigger p a r old new cyc s := by
  have hg := (genericWrite_staging p a (.dma .chcr) old new s).2.2.trans h
  rcases r with i | i | ⟨k, i⟩ | i | i | d | ⟨k, d⟩ <;> try rfl
  swap; · cases d <;> rfl
  cases d <;> try rfl
  · simp only [regWrite, chcrWrite, dmaTrigger_busy hg]; rfl
  · simp only [regWrite, fifoWrite]
    split_ifs
    · rfl
    · rw [dmaTrigger_busy (by exact h)]; rfl
    · rfl

/-- While BUSY, a coprocessor's 8-bit or 16-bit write is a destination write. -/
theorem narrowWrite_busy {s : State} (h : s.dma.busy = true) {p : Pid} (hp : p ≠ .pri) (w : Width) (a v cyc : Word) :
    narrowWrite commandEnv p w a v cyc s = narrowWrite destinationEnv p w a v cyc s := by
  unfold narrowWrite handlerWrite
  simp only [hp, and_false, if_false]
  rw [show commandEnv.trigger = dmaTrigger from rfl]
  simp only [regWrite_busy h]

/-- DMA_OWNER is a coprocessor (R5). -/
theorem owner_ne_pri (g : Config) : g.owner ≠ .pri := g.dmaOwner.pid_ne_pri

theorem busWrite_busy {s : State} (h : s.dma.busy = true) {p : Pid} (hp : p ≠ .pri) (a v cyc : Word) :
    busWrite commandEnv p .w16 a v cyc s = busWrite destinationEnv p .w16 a v cyc s := by
  unfold busWrite
  simp only [narrowWrite_busy h hp]

/-! ## A destination write stages at most one word -/

/-- BUSY is kept, and the FIFO too, or it holds one word more and LEN is kept. -/
def StagesOne (s t : State) : Prop :=
  t.dma.busy = s.dma.busy ∧
  (t.dma.fifo.length = s.dma.fifo.length ∨ (t.dma.fifo.length = s.dma.fifo.length + 1 ∧ t.dma.len = s.dma.len))

theorem SameStaging.stagesOne {s t : State} (h : SameStaging s t) : StagesOne s t := ⟨h.2.2, .inl (by rw [h.1])⟩

theorem SameStaging.of_dma {s t : State} (h : t.dma = s.dma) : SameStaging s t := by simp [SameStaging, h]

theorem SameStaging.trans {s t u : State} (h : SameStaging s t) (k : SameStaging t u) : SameStaging s u :=
  ⟨k.1.trans h.1, k.2.1.trans h.2.1, k.2.2.trans h.2.2⟩

theorem StagesOne.of_dma {s t u : State} (h : StagesOne s t) (k : u.dma = t.dma) : StagesOne s u := by
  unfold StagesOne at *; rw [k]; exact h

theorem sysWrite_staging (p : Pid) (a : Word) (i : Nat) (old new cyc : Word) (s : State) :
    SameStaging s (sysWrite p a i old new cyc s) := by
  unfold sysWrite
  refine (genericWrite_staging p a (.sys i) old new s).trans ?_
  generalize genericWrite p a (.sys i) old new s = t
  refine SameStaging.trans (t := resetEdge p i old cyc t) ?_ ?_
  · unfold resetEdge
    split_ifs
    · exact .of_dma (by rw [(copReset_spec p cyc t).eq])
    · exact .of_dma rfl
  · generalize resetEdge p i old cyc t = u
    unfold bankChange
    split_ifs
    · exact .of_dma (by rw [bankSelect_eq])
    · exact .of_dma rfl

theorem vdpWrite_staging (p : Pid) (a : Word) (i : Nat) (old new : Word) (s : State) :
    SameStaging s (vdpWrite p a i old new s) := by
  have hfs : ∀ u : State, SameStaging u (fsWrite p a i old new u) := fun u => by
    unfold fsWrite
    simp only
    split_ifs
    · exact (genericWrite_staging ..).trans (.of_dma rfl)
    · exact genericWrite_staging ..
    · exact genericWrite_staging ..
  have hfill : ∀ u : State, (fill u).dma = u.dma := fun u =>
    foldl_within (R := fun s t => t.dma = s.dma)
      (f := fun s i => memWrite (.fb s.fbHalf) (fillByte (s.cfg.regionSize (.fb s.fbHalf)) (wordAt u.vdp u.cfg.fillAddr) i) 2
        (wordAt u.vdp u.cfg.fillData) s) (fun _ => rfl) (fun h k => k.trans h) (fun _ _ => rfl) _ u
  have hw : SameStaging s (if i = s.cfg.fsReg then fsWrite p a i old new s else genericWrite p a (.vdp i) old new s) :=
    ite_within (R := SameStaging) (hfs s) (genericWrite_staging ..)
  unfold vdpWrite
  exact ite_within (R := SameStaging) (hw.trans (.of_dma (hfill _))) hw

theorem div32_dma (k : Cop) (s : State) : (div32 k s).dma = s.dma := by
  unfold div32; simp only; split_ifs <;> first | rfl | (cases s.cfg.div0 <;> rfl)

theorem div64_dma (k : Cop) (s : State) : (div64 k s).dma = s.dma := by
  unfold div64; simp only; split_ifs <;> first | rfl | (cases s.cfg.div0 <;> rfl)

/-- A register's rule that starts no transfer stages at most one word. -/
theorem regWrite_stagesOne (p : Pid) (a : Word) (r : Reg) (old new cyc : Word) (s : State) :
    StagesOne s (regWrite destinationEnv.trigger p a r old new cyc s).1 := by
  have hg : ∀ r, SameStaging s (genericWrite p a r old new s) := fun r => genericWrite_staging p a r old new s
  rcases r with i | i | ⟨k, i⟩ | i | i | d | ⟨k, d⟩
  · exact (sysWrite_staging ..).stagesOne
  · exact (vdpWrite_staging ..).stagesOne
  · exact (hg _).stagesOne
  · refine SameStaging.stagesOne ?_
    simp only [regWrite, commWrite]
    split_ifs <;> exact ⟨rfl, rfl, rfl⟩
  · exact (hg _).stagesOne
  · cases d
    case chcr =>
      simp only [regWrite, chcrWrite]
      split_ifs <;> exact (hg _).stagesOne
    case len =>
      simp only [regWrite, lenWrite]
      split_ifs <;> exact ⟨(hg (.dma .len)).2.2, .inl (congrArg _ (hg (.dma .len)).1)⟩
    case fifoData =>
      simp only [regWrite, fifoWrite]
      split_ifs
      · exact SameStaging.stagesOne ⟨rfl, rfl, rfl⟩
      · exact ⟨rfl, .inr ⟨by simp [fifoPush, recomputeFull, setFull, regStore, dmaStore, destinationEnv], rfl⟩⟩
      · exact ⟨rfl, .inr ⟨by simp [fifoPush, recomputeFull, setFull, regStore, dmaStore], rfl⟩⟩
    all_goals exact (hg _).stagesOne
  · cases d
    case dvdnt => exact (hg _).stagesOne.of_dma (div32_dma ..)
    case dvdntl => exact (hg _).stagesOne.of_dma (div64_dma ..)
    all_goals exact (hg _).stagesOne

theorem busWrite_stagesOne (k : Cop) (a v cyc : Word) (s : State) :
    StagesOne s (busWrite destinationEnv k.pid .w16 a v cyc s).1 := by
  have h0 : StagesOne s s := ⟨rfl, .inl rfl⟩
  unfold busWrite
  cases alignAccess s.cfg .w16 a with
  | none => exact h0
  | some b =>
    simp only [narrowWrite]
    cases resolve s k.pid .w16 .wr b with
    | mem r base m => simp only [memAccessWrite]; split_ifs <;> exact h0
    | split => exact h0
    | stub => exact h0
    | hnd h =>
      simp only [handlerWrite]
      cases regAt s.cfg k.pid h b with
      | none => exact h0
      | some q =>
        simp only [k.pid_ne_pri, and_false, if_false]
        have hr := regWrite_stagesOne k.pid b q.reg (regLoad s q.reg)
          (laneMerge (regLoad s q.reg) v q.reg.bytes (laneOf q b) .w16 &&& s.cfg.regMask q.reg) cyc s
        refine hr.of_dma ?_
        rw [(afterWrite_effect _ _ _ _ _).2.2.2.2.2.2]

/-! ## Completion (R188) -/

/-- Everything DmaComplete() does to `s` (R188). -/
structure Completes (s t : State) : Prop where
  dma : t.dma = { s.dma with
    stat := setHalfBit s.dma.stat s.cfg.statFullBit false, chcr := setWordBit s.dma.chcr s.cfg.dmaDoneBit true }
  anom : t.anom = s.anom ++ (if (s.dma.tcr = 0 ↔ s.dma.len = 0) then []
    else [{ code := .a6, pid := some s.cfg.owner.code, addr := s.dma.dar }])
  detectors : ∀ x c, detectorOf t x c =
    if x = s.cfg.owner ∧ s.cfg.polled x c = true then Detector.clear else detectorOf s x c
  spins : ∀ x c, spinOf t x c = if x = s.cfg.owner ∧ s.cfg.polled x c = true then false else spinOf s x c
  eq : t = { s with dma := t.dma, anom := t.anom, pd := t.pd, spin := t.spin }

theorem dmaComplete_spec (s : State) : Completes s (dmaComplete s) := by
  let u : State := { s with
    dma := { s.dma with
      stat := setHalfBit s.dma.stat s.cfg.statFullBit false, chcr := setWordBit s.dma.chcr s.cfg.dmaDoneBit true }
    anom := s.anom ++ (if (s.dma.tcr = 0 ↔ s.dma.len = 0) then []
      else [{ code := .a6, pid := some s.cfg.owner.code, addr := s.dma.dar }]) }
  have hu : dmaComplete s = undetectAll s.cfg.owner u := by
    unfold dmaComplete
    simp only [ne_eq, eq_iff_iff]
    by_cases h : s.dma.tcr = 0 ↔ s.dma.len = 0
    · simp only [u, h, not_true, if_false, if_true, List.append_nil]; rfl
    · simp only [u, h, not_false_iff, if_true, if_false]; rfl
  have U := undetectAll_undetects s.cfg.owner u
  have hd : (undetectAll s.cfg.owner u).dma = u.dma := by rw [U.eq]
  have ha : (undetectAll s.cfg.owner u).anom = u.anom := by rw [U.eq]
  rw [hu]
  refine ⟨hd, ha, fun x c => ?_, fun x c => ?_, by rw [hd, ha]; exact U.eq⟩
  · rw [U.detector]
    change (if (decide (x = s.cfg.owner) && s.cfg.polled x c) = true then _ else detectorOf s x c) = _
    simp only [Bool.and_eq_true, decide_eq_true_eq]
  · rw [U.spin]
    change (spinOf s x c && !(decide (x = s.cfg.owner) && s.cfg.polled x c)) = _
    by_cases h : x = s.cfg.owner <;> cases s.cfg.polled x c <;> simp [h]

/-! ## The loop ends (R185, R309) -/

theorem dmaMove_busy (cyc : Word) (w : Half) (rest : List Half) (s : State) :
    (dmaMove cyc w rest s).dma.busy = s.dma.busy := (busWrite_stagesOne _ _ _ cyc _).1

/-- Each turn lowers what bounds the turns. -/
theorem dmaMove_fuel (cyc : Word) {w : Half} {rest : List Half} {s : State} (hf : s.dma.fifo = w :: rest)
    (hl : s.dma.len ≠ 0) : dmaFuel (dmaMove cyc w rest s) < dmaFuel s := by
  let u := recomputeFull { s with dma := { s.dma with fifo := rest } }
  have h := (busWrite_stagesOne u.cfg.dmaOwner u.dma.dar (w.setWidth 32) cyc u).2
  have h1 : u.dma.fifo = rest := rfl
  have h2 : u.dma.len = s.dma.len := rfl
  have e1 : (dmaMove cyc w rest s).dma.fifo =
    (busWrite destinationEnv u.cfg.dmaOwner.pid .w16 u.dma.dar (w.setWidth 32) cyc u).1.dma.fifo := rfl
  have e2 : (dmaMove cyc w rest s).dma.len =
    (busWrite destinationEnv u.cfg.dmaOwner.pid .w16 u.dma.dar (w.setWidth 32) cyc u).1.dma.len - 1 := rfl
  generalize (busWrite destinationEnv u.cfg.dmaOwner.pid .w16 u.dma.dar (w.setWidth 32) cyc u).1.dma = d at *
  have b1 := (d.len - 1).isLt
  have b2 : s.dma.len.toNat ≠ 0 := fun hz => hl (BitVec.eq_of_toNat_eq hz)
  have b3 := s.dma.len.isLt
  unfold dmaFuel
  rw [e1, e2, hf]
  simp only [List.length_cons]
  rcases h with h | ⟨h, h'⟩
  · rw [h1] at h; rw [h]; omega
  · rw [h1] at h; rw [h, h', h2, BitVec.toNat_sub]
    have : (1 : Half).toNat = 1 := rfl
    rw [this]; omega

/-- Fuel beyond `dmaFuel` changes nothing. -/
theorem dmaLoop_fuel (cyc : Word) (n m : Nat) {s : State} (b : Bool) (hn : dmaFuel s ≤ n) (hm : dmaFuel s ≤ m) :
    dmaLoop n cyc s b = dmaLoop m cyc s b := by
  induction n generalizing m s b with
  | zero => unfold dmaFuel at hn; omega
  | succ n ih =>
    obtain ⟨m, rfl⟩ : ∃ k, m = k + 1 := ⟨m - 1, by unfold dmaFuel at hm; omega⟩
    unfold dmaLoop
    split_ifs with hc
    · rfl
    · cases hf : s.dma.fifo with
      | nil => rfl
      | cons w rest =>
        have := dmaMove_fuel cyc hf (fun h => hc (.inr h))
        exact ih m true (by omega) (by omega)

/-- Nothing to move: DMA_RUN changes nothing (R185). -/
theorem dmaRun_idle (cyc : Word) {s : State} (hb : s.dma.busy = false)
    (h : s.dma.tcr = 0 ∨ s.dma.len = 0 ∨ s.dma.fifo = []) : dmaRun cyc s = s := by
  have hl : dmaLoop (dmaFuel (setBusy true s)) cyc (setBusy true s) false = (setBusy true s, false) := by
    unfold dmaFuel dmaLoop
    by_cases hc : s.dma.tcr = 0 ∨ s.dma.len = 0
    · exact if_pos hc
    · have hf : s.dma.fifo = [] := by tauto
      refine (if_neg hc).trans ?_
      simp only [setBusy, hf]
  unfold dmaRun
  simp only [hl]
  change setBusy false (setBusy true s) = s
  simp only [setBusy, ← hb]

/-- A transfer with a word to move is its first turn and the transfer from there, which has moved a word (R185). -/
theorem dmaRun_turn (cyc : Word) {s : State} {w : Half} {rest : List Half} (ht : s.dma.tcr ≠ 0) (hl : s.dma.len ≠ 0)
    (hf : s.dma.fifo = w :: rest) :
    let u := dmaMove cyc w rest (setBusy true s)
    let x := dmaLoop (dmaFuel u) cyc u true
    dmaRun cyc s = setBusy false (dmaFinish x.2 x.1) := by
  intro u x
  have hx : dmaLoop (dmaFuel (setBusy true s)) cyc (setBusy true s) false = x := by
    obtain ⟨k, hk⟩ : ∃ k, dmaFuel (setBusy true s) = k + 1 := ⟨dmaFuel (setBusy true s) - 1, by unfold dmaFuel; omega⟩
    have hlt := dmaMove_fuel cyc (s := setBusy true s) hf hl
    rw [hk]
    unfold dmaLoop
    rw [if_neg (by rintro (h | h) <;> contradiction)]
    have hf' : (setBusy true s).dma.fifo = w :: rest := hf
    rw [hf']
    exact dmaLoop_fuel cyc _ _ true (by omega) (le_refl _)
  unfold dmaRun
  simp only [hx]

/-- Where both counts are left after a turn, the rest of the transfer is a transfer of its own. -/
theorem dmaRun_rest (cyc : Word) {u : State} (hb : u.dma.busy = true) (ht : u.dma.tcr ≠ 0) (hl : u.dma.len ≠ 0) :
    let x := dmaLoop (dmaFuel u) cyc u true
    setBusy false (dmaFinish x.2 x.1) = dmaRun cyc (setBusy false u) := by
  intro x
  have hu : setBusy true (setBusy false u) = u := by simp only [setBusy, ← hb]
  cases hf : u.dma.fifo with
  | nil =>
    rw [dmaRun_idle cyc (s := setBusy false u) rfl (.inr (.inr hf))]
    have hx : x = (u, true) := by
      simp only [x]
      unfold dmaFuel dmaLoop
      rw [if_neg (by tauto), hf]
    rw [hx]
    unfold dmaFinish
    rw [if_neg (by simp; tauto)]
  | cons w rest =>
    have hr := dmaRun_turn cyc (s := setBusy false u) ht hl hf
    rw [hu] at hr
    have hx : x = dmaLoop (dmaFuel (dmaMove cyc w rest u)) cyc (dmaMove cyc w rest u) true := by
      obtain ⟨k, hk⟩ : ∃ k, dmaFuel u = k + 1 := ⟨dmaFuel u - 1, by unfold dmaFuel; omega⟩
      have hlt := dmaMove_fuel cyc hf hl
      simp only [x]
      rw [hk]
      unfold dmaLoop
      rw [if_neg (by tauto), hf]
      exact dmaLoop_fuel cyc _ _ true (by omega) (le_refl _)
    rw [hr, hx]

/-- Where a count is 0 after a turn, the transfer completes there (R185, R188). -/
theorem dmaRun_last (cyc : Word) {u : State} (h : u.dma.tcr = 0 ∨ u.dma.len = 0) :
    let x := dmaLoop (dmaFuel u) cyc u true
    setBusy false (dmaFinish x.2 x.1) = setBusy false (dmaComplete u) := by
  intro x
  have hx : x = (u, true) := by
    simp only [x]
    unfold dmaFuel dmaLoop
    rw [if_pos h]
  rw [hx]
  unfold dmaFinish
  rw [if_pos (by simpa using h)]

end Sys2Proof.Machine
end

