-- ==== Sys2Proof/Laws/Encoding.lean ====
section
/-! SUPPORT. The fields of a packet built from fields, and the reverse (R90). -/

namespace Sys2Proof

@[simp] theorem fieldOp_mk (op : BitVec 4) (w pid : BitVec 2) (a d c : Word) :
    fieldOp (mkPacket op w pid a d c) = op := by
  unfold fieldOp mkPacket
  ext i hi
  simp only [BitVec.getElem_extractLsb', BitVec.getLsbD_append]
  grind

@[simp] theorem fieldW_mk (op : BitVec 4) (w pid : BitVec 2) (a d c : Word) : fieldW (mkPacket op w pid a d c) = w := by
  unfold fieldW mkPacket
  ext i hi
  simp only [BitVec.getElem_extractLsb', BitVec.getLsbD_append]
  grind

@[simp] theorem fieldPid_mk (op : BitVec 4) (w pid : BitVec 2) (a d c : Word) :
    fieldPid (mkPacket op w pid a d c) = pid := by
  unfold fieldPid mkPacket
  ext i hi
  simp only [BitVec.getElem_extractLsb', BitVec.getLsbD_append]
  grind

@[simp] theorem fieldAddr_mk (op : BitVec 4) (w pid : BitVec 2) (a d c : Word) :
    fieldAddr (mkPacket op w pid a d c) = a := by
  unfold fieldAddr mkPacket
  ext i hi
  simp only [BitVec.getElem_extractLsb', BitVec.getLsbD_append]
  grind

@[simp] theorem fieldData_mk (op : BitVec 4) (w pid : BitVec 2) (a d c : Word) :
    fieldData (mkPacket op w pid a d c) = d := by
  unfold fieldData mkPacket
  ext i hi
  simp only [BitVec.getElem_extractLsb', BitVec.getLsbD_append]
  grind

@[simp] theorem fieldCyc_mk (op : BitVec 4) (w pid : BitVec 2) (a d c : Word) :
    fieldCyc (mkPacket op w pid a d c) = c := by
  unfold fieldCyc mkPacket
  ext i hi
  simp only [BitVec.getElem_extractLsb', BitVec.getLsbD_append]
  grind

/-- A packet is its six fields. -/
theorem mkPacket_fields (k : Packet) :
    mkPacket (fieldOp k) (fieldW k) (fieldPid k) (fieldAddr k) (fieldData k) (fieldCyc k) = k := by
  unfold fieldOp fieldW fieldPid fieldAddr fieldData fieldCyc mkPacket
  ext i hi
  simp only [BitVec.getElem_append, BitVec.getElem_extractLsb']
  grind

/-- Masking a packet masks its fields. -/
theorem mkPacket_and (op op' : BitVec 4) (w pid w' pid' : BitVec 2) (a d c a' d' c' : Word) :
    mkPacket op w pid a d c &&& mkPacket op' w' pid' a' d' c' =
      mkPacket (op &&& op') (w &&& w') (pid &&& pid') (a &&& a') (d &&& d') (c &&& c') := by
  unfold mkPacket
  ext i hi
  simp only [BitVec.getElem_and, BitVec.getElem_append]
  grind

end Sys2Proof
end

