-- ==== Sys2Proof/Laws/Reset.lean ====
section
/-! SUPPORT. What a reset and a restore leave (R285, R287). -/

namespace Sys2Proof.Machine

/-- Everything `clearTracking` does: detectors, SPIN, DIRTY, END_SLICE, LAST_SYNC and VT, and nothing else. -/
structure Tracks (cyc : Word) (s t : State) : Prop where
  detectors : ∀ p c, detectorOf t p c = if s.cfg.polled p c then Detector.clear else detectorOf s p c
  spins : ∀ p c, spinOf t p c = (spinOf s p c && !s.cfg.polled p c)
  dirty : ∀ c d, dirtyOf t c d = false
  endSlice : ∀ p, t.endSlice.get p = false
  lastSync : t.lastSync = cyc
  vt : ∀ k, t.vt.get k = cyc
  eq : t = { s with
    pd := t.pd, spin := t.spin, dirty := t.dirty, endSlice := t.endSlice, lastSync := t.lastSync, vt := t.vt }

theorem clearTracking_spec (cyc : Word) (s : State) : Tracks cyc s (clearTracking cyc s) := by
  have h := Undetects.foldl (fun s p => undetectAll_undetects p s) Pid.all s
  unfold clearTracking
  generalize Pid.all.foldl (fun s p => undetectAll p s) s = u at h
  have hall : ∀ x : Pid, Pid.all.any (fun a => decide (x = a)) = true := by intro x; cases x <;> rfl
  refine ⟨fun p c => ?_, fun p c => ?_, fun c d => ?_, fun p => ?_, rfl, fun k => ?_, ?_⟩
  · refine (h.detector p c).trans ?_
    simp only [hall, Bool.true_and]
  · refine (h.spin p c).trans ?_
    simp only [hall, Bool.true_and]
  · cases c <;> cases d <;> rfl
  · cases p <;> rfl
  · cases k <;> rfl
  · let off : PerSide Bool := { pri := false, cop := false }
    exact congrArg (fun z : State => { z with
      dirty := { sys := off, vdp := off, loc := off, comm := off, pwm := off, dma := off }
      endSlice := { pri := false, mcp := false, scp := false }
      lastSync := cyc
      vt := { mcp := cyc, scp := cyc } }) h.eq

/-- The views after a bank selection of `n` (R221). -/
def selectedViews (g : Config) (n : Word) (vs : Views) : Views :=
  if g.cartSize ≤ n.toNat * g.bankSize then vs else bankViews g (n.toNat * g.bankSize) vs

theorem bankSelect_view (n : Word) (s : State) : (bankSelect n s).view = selectedViews s.cfg n s.view := by
  unfold bankSelect selectedViews
  simp only
  split_ifs <;> rfl

/-- The anomalies of a bank selection of `n`. -/
def selectLog (g : Config) (n : Word) : List Anomaly :=
  if g.cartSize ≤ n.toNat * g.bankSize then [{ code := .a7, pid := some 0, addr := n }] else []

theorem bankSelect_anom (n : Word) (s : State) : (bankSelect n s).anom = s.anom ++ selectLog s.cfg n := by
  unfold bankSelect selectLog
  simp only
  split_ifs
  · rfl
  · exact (List.append_nil _).symm

/-- Selecting bank 0 leaves BANK_OFF at 0 when it was 0. -/
theorem bankSelect_zero_bankOff {s : State} (h : s.bankOff = 0) : (bankSelect 0 s).bankOff = 0 := by
  unfold bankSelect
  simp only
  split_ifs
  · exact h
  · simp

/-- Everything RESET_ALL does (R43, R285). -/
structure Resets (cyc : Word) (s t : State) : Prop where
  view : t.view = fbViews s.cfg true s.cfg.fbVis (fbViews s.cfg false s.cfg.fbDraw (selectedViews s.cfg 0 s.cfg.view0))
  fbHalf : t.fbHalf = false
  bankOff : t.bankOff = 0
  anom : t.anom = s.anom ++ selectLog s.cfg 0
  tracks : Tracks cyc s { s with
    pd := t.pd, spin := t.spin, dirty := t.dirty, endSlice := t.endSlice, lastSync := t.lastSync, vt := t.vt }
  eq : t = { resetRegisters s with
    view := t.view, fbHalf := t.fbHalf, bankOff := t.bankOff, anom := t.anom, pd := t.pd, spin := t.spin, dirty := t.dirty
    endSlice := t.endSlice, lastSync := t.lastSync, vt := t.vt }

theorem resetAll_spec (cyc : Word) (s : State) : Resets cyc s (resetAll cyc s) := by
  let s0 := resetRegisters { s with view := s.cfg.view0 }
  let u := clearTracking cyc s0
  let v : State := { u with bankOff := 0 }
  have hdef : resetAll cyc s = fbSwap false (bankSelect 0 v) := rfl
  have hu : Tracks cyc s0 u := clearTracking_spec cyc s0
  have hb := bankSelect_eq 0 v
  have hbv := bankSelect_view 0 v
  have hba := bankSelect_anom 0 v
  have hbo : (bankSelect 0 v).bankOff = 0 := bankSelect_zero_bankOff rfl
  rw [hdef]
  generalize bankSelect 0 v = x at hb hbv hba hbo
  have e0 : s0 = { resetRegisters s with view := s.cfg.view0 } := rfl
  have ev : v = { u with bankOff := 0 } := rfl
  clear_value v u s0
  have eu : u = { resetRegisters s with
      view := s.cfg.view0, pd := u.pd, spin := u.spin, dirty := u.dirty, endSlice := u.endSlice, lastSync := u.lastSync
      vt := u.vt } := hu.eq.trans (congrArg (fun z : State => { z with
        pd := u.pd, spin := u.spin, dirty := u.dirty, endSlice := u.endSlice, lastSync := u.lastSync, vt := u.vt }) e0)
  have hxc : x.cfg = s.cfg := by rw [hb, ev, eu]; rfl
  have hvc : v.cfg = s.cfg := by rw [ev, eu]; rfl
  have e : x = { resetRegisters s with
      view := x.view, bankOff := x.bankOff, anom := x.anom, pd := x.pd, spin := x.spin, dirty := x.dirty
      endSlice := x.endSlice, lastSync := x.lastSync, vt := x.vt } := by
    have h1 : x.pd = u.pd := by rw [hb, ev]
    have h2 : x.spin = u.spin := by rw [hb, ev]
    have h3 : x.dirty = u.dirty := by rw [hb, ev]
    have h4 : x.endSlice = u.endSlice := by rw [hb, ev]
    have h5 : x.lastSync = u.lastSync := by rw [hb, ev]
    have h6 : x.vt = u.vt := by rw [hb, ev]
    rw [h1, h2, h3, h4, h5, h6]
    exact hb.trans (congrArg (fun z : State => { z with bankOff := x.bankOff, view := x.view, anom := x.anom })
      (ev.trans (congrArg (fun z : State => { z with bankOff := 0 }) eu)))
  have h1 : x.pd = u.pd := by rw [hb, ev]
  have h2 : x.spin = u.spin := by rw [hb, ev]
  have h3 : x.dirty = u.dirty := by rw [hb, ev]
  have h4 : x.endSlice = u.endSlice := by rw [hb, ev]
  have h5 : x.lastSync = u.lastSync := by rw [hb, ev]
  have h6 : x.vt = u.vt := by rw [hb, ev]
  have d0 : ∀ p c, detectorOf s0 p c = detectorOf s p c := fun p c => by rw [e0]; rfl
  have p0 : ∀ p c, spinOf s0 p c = spinOf s p c := fun p c => by rw [e0]; rfl
  have c0 : s0.cfg = s.cfg := by rw [e0]; rfl
  refine ⟨?_, rfl, hbo, ?_, ⟨fun p c => ?_, fun p c => ?_, fun c d => ?_, fun p => ?_, ?_, fun k => ?_, rfl⟩, ?_⟩
  · change fbViews x.cfg true x.cfg.fbVis (fbViews x.cfg false x.cfg.fbDraw x.view) = _
    rw [hbv, hxc, hvc, ev, eu]
  · change x.anom = _
    rw [hba, hvc, ev, eu]; rfl
  · change (x.pd.get p).get c = _
    rw [h1, ← c0, ← d0]; exact hu.detectors p c
  · change (x.spin.get p).get c = _
    rw [h2, ← c0, ← p0]; exact hu.spins p c
  · change (x.dirty.get c).get d = _
    rw [h3]; exact hu.dirty c d
  · change x.endSlice.get p = _
    rw [h4]; exact hu.endSlice p
  · change x.lastSync = _
    rw [h5]; exact hu.lastSync
  · change x.vt.get k = _
    rw [h6]; exact hu.vt k
  · exact congrArg (fun z : State => { z with
      fbHalf := false, view := fbViews x.cfg true x.cfg.fbVis (fbViews x.cfg false x.cfg.fbDraw x.view) }) e

/-- The bank mapping a restore leaves: views, BANK_OFF and anomalies (R287). -/
theorem restoreBank_spec (s : State) :
    let n := s.cfg.bankField (wordAt s.sys s.cfg.bankReg)
    let off := n.toNat * s.cfg.bankSize
    (restoreBank s).view = (if off < s.cfg.cartSize then bankViews s.cfg off s.view
      else selectedViews s.cfg 0 s.view) ∧
    (restoreBank s).bankOff = (if off < s.cfg.cartSize then BitVec.ofNat 32 off
      else if s.cfg.cartSize = 0 then s.bankOff else 0) ∧
    (restoreBank s).anom = s.anom ++ (if off < s.cfg.cartSize then []
      else { code := .a7, pid := some 0, addr := n } :: selectLog s.cfg 0) ∧
    restoreBank s = { s with
      view := (restoreBank s).view, bankOff := (restoreBank s).bankOff, anom := (restoreBank s).anom } := by
  intro n off
  by_cases h : off < s.cfg.cartSize
  · have e : restoreBank s = bankSelect n s := if_pos h
    rw [e, if_pos h, if_pos h, if_pos h, bankSelect_accepted h]
    exact ⟨rfl, rfl, (List.append_nil _).symm, rfl⟩
  · have e : restoreBank s = bankSelect 0 (logAnomaly .a7 (pidBits .pri) n s) := if_neg h
    rw [e, if_neg h, if_neg h, if_neg h]
    refine ⟨bankSelect_view _ _, ?_, ?_, ?_⟩
    · unfold bankSelect
      simp only
      have h0 : (0 : Word).toNat * (logAnomaly .a7 (pidBits .pri) n s).cfg.bankSize = 0 := by simp
      rw [h0]
      by_cases hc : s.cfg.cartSize = 0
      · rw [if_pos (show (logAnomaly .a7 (pidBits .pri) n s).cfg.cartSize ≤ 0 from Nat.le_of_eq hc), if_pos hc]; rfl
      · rw [if_neg (show ¬ (logAnomaly .a7 (pidBits .pri) n s).cfg.cartSize ≤ 0 from by
          change ¬ s.cfg.cartSize ≤ 0; omega), if_neg hc]; rfl
    · rw [bankSelect_anom]
      exact List.append_assoc _ _ _
    · exact bankSelect_eq _ _

/-- Everything STATE_RESTORED does (R287, R288). -/
structure Restores (cyc : Word) (s t : State) : Prop where
  fbHalf : t.fbHalf = (wordAt s.vdp s.cfg.fsReg).getLsbD s.cfg.fsBit
  view : t.view = fbViews s.cfg (!t.fbHalf) s.cfg.fbVis (fbViews s.cfg t.fbHalf s.cfg.fbDraw
    (restoreBank { s with view := s.cfg.view0 }).view)
  bankOff : t.bankOff = (restoreBank { s with view := s.cfg.view0 }).bankOff
  anom : t.anom = (restoreBank { s with view := s.cfg.view0 }).anom
  dma : t.dma = { s.dma with
    busy := false, stat := setHalfBit s.dma.stat s.cfg.statFullBit (s.dma.fifo.length == s.cfg.fifoCap) }
  tracks : Tracks cyc s { s with
    pd := t.pd, spin := t.spin, dirty := t.dirty, endSlice := t.endSlice, lastSync := t.lastSync, vt := t.vt }
  eq : t = { s with
    view := t.view, fbHalf := t.fbHalf, bankOff := t.bankOff, anom := t.anom, dma := t.dma, pd := t.pd, spin := t.spin
    dirty := t.dirty, endSlice := t.endSlice, lastSync := t.lastSync, vt := t.vt }

theorem stateRestored_spec (cyc : Word) (s : State) : Restores cyc s (stateRestored cyc s) := by
  let v := restoreBank (setBusy false { s with view := s.cfg.view0 })
  let b := (wordAt v.vdp v.cfg.fsReg).getLsbD v.cfg.fsBit
  let x := fbSwap b v
  let u := clearTracking cyc x
  have hdef : stateRestored cyc s = recomputeFull u := rfl
  have hu : Tracks cyc x u := clearTracking_spec cyc x
  obtain ⟨q1, q2, q3, q4⟩ := restoreBank_spec (setBusy false { s with view := s.cfg.view0 })
  obtain ⟨r1, r2, r3, _⟩ := restoreBank_spec { s with view := s.cfg.view0 }
  have k1 : v.view = (restoreBank { s with view := s.cfg.view0 }).view := q1.trans r1.symm
  have k2 : v.bankOff = (restoreBank { s with view := s.cfg.view0 }).bankOff := q2.trans r2.symm
  have k3 : v.anom = (restoreBank { s with view := s.cfg.view0 }).anom := q3.trans r3.symm
  have k4 : v = { s with
      view := v.view, bankOff := v.bankOff, anom := v.anom, dma := { s.dma with busy := false } } := q4
  have eb : b = (wordAt v.vdp v.cfg.fsReg).getLsbD v.cfg.fsBit := rfl
  have ex : x = fbSwap b v := rfl
  rw [hdef]
  clear_value u x b v
  have eb' : b = (wordAt s.vdp s.cfg.fsReg).getLsbD s.cfg.fsBit := by rw [eb, k4]
  have exx : x = { s with
      fbHalf := b, view := x.view, bankOff := v.bankOff, anom := v.anom, dma := { s.dma with busy := false } } := by
    have h0 : x = { v with fbHalf := b, view := x.view } := by rw [ex]; rfl
    exact h0.trans (congrArg (fun z : State => { z with fbHalf := b, view := x.view }) k4)
  have hxv : x.view = fbViews s.cfg (!b) s.cfg.fbVis (fbViews s.cfg b s.cfg.fbDraw v.view) := by
    rw [ex, fbSwap_view, show v.cfg = s.cfg by rw [k4]]
  have eu : u = { s with
      fbHalf := b, view := x.view, bankOff := v.bankOff, anom := v.anom, dma := { s.dma with busy := false }, pd := u.pd
      spin := u.spin, dirty := u.dirty, endSlice := u.endSlice, lastSync := u.lastSync, vt := u.vt } :=
    hu.eq.trans (congrArg (fun z : State => { z with
      pd := u.pd, spin := u.spin, dirty := u.dirty, endSlice := u.endSlice, lastSync := u.lastSync, vt := u.vt }) exx)
  have uf : u.fbHalf = b := by rw [eu]
  have uv : u.view = x.view := by rw [eu]
  have ub : u.bankOff = v.bankOff := by rw [eu]
  have ua : u.anom = v.anom := by rw [eu]
  have ud : u.dma = { s.dma with busy := false } := by rw [eu]
  have uc : u.cfg = s.cfg := by rw [eu]
  have xc : x.cfg = s.cfg := by rw [exx]
  have xp : x.pd = s.pd := by rw [exx]
  have xs : x.spin = s.spin := by rw [exx]
  have rd : (recomputeFull u).dma = { s.dma with
      busy := false, stat := setHalfBit s.dma.stat s.cfg.statFullBit (s.dma.fifo.length == s.cfg.fifoCap) } := by
    change ({ u.dma with stat := setHalfBit u.dma.stat u.cfg.statFullBit (u.dma.fifo.length == u.cfg.fifoCap) } : Dma) = _
    rw [ud, uc]
  refine ⟨uf.trans eb', ?_, ub.trans k2, ua.trans k3, rd,
    ⟨fun p c => ?_, fun p c => ?_, hu.dirty, hu.endSlice, hu.lastSync, hu.vt, rfl⟩, ?_⟩
  · change u.view = fbViews s.cfg (!u.fbHalf) s.cfg.fbVis (fbViews s.cfg u.fbHalf s.cfg.fbDraw _)
    rw [uv, uf, hxv, k1]
  · change (u.pd.get p).get c = _
    rw [show detectorOf s p c = detectorOf x p c by unfold detectorOf; rw [xp], ← xc]; exact hu.detectors p c
  · change (u.spin.get p).get c = _
    rw [show spinOf s p c = spinOf x p c by unfold spinOf; rw [xs], ← xc]; exact hu.spins p c
  · have h0 : recomputeFull u = { u with dma := (recomputeFull u).dma } := rfl
    refine h0.trans ((congrArg (fun z : State => { z with dma := (recomputeFull u).dma }) eu).trans ?_)
    change _ = ({ s with
      view := u.view, fbHalf := u.fbHalf, bankOff := u.bankOff, anom := u.anom, dma := (recomputeFull u).dma, pd := u.pd
      spin := u.spin, dirty := u.dirty, endSlice := u.endSlice, lastSync := u.lastSync, vt := u.vt } : State)
    rw [uf, uv, ub, ua]

end Sys2Proof.Machine
end

