-- ==== Sys2Proof/Laws/Invariant.lean ====
section
/-! SUPPORT. What every elementary change keeps of the invariant, so that any command keeps it: views, sizes, detectors, the FIFO's
bound and the canonical memory (R20, R23, R30, R32, R33, R34, R62). -/

namespace Sys2Proof.Machine

/-! ## Well-formed views -/

theorem viewsOk_iff {g : Config} {vs : Views} :
    g.viewsOk vs = true ↔ ∀ p w d, g.viewOk p w (((vs.get p).get w).get d) = true := by
  unfold Config.viewsOk
  simp only [List.all_eq_true]
  constructor
  · intro h p w d
    exact h p (by cases p <;> simp [Pid.all]) w (by cases w <;> simp [Width.all]) d (by cases d <;> simp)
  · intro h p _ w _ d _; exact h p w d

/-- A well-formed entry in a slot of its processor keeps a view well formed. -/
theorem viewOk_set {g : Config} {p : Pid} {w : Width} {v : View} {slot : Nat} {e : Entry} (h : g.viewOk p w v = true)
    (hs : slot < g.nslot.get p) (he : g.entryOk w e = true) : g.viewOk p w (Table.set Entry.stub v slot e) = true := by
  unfold Config.viewOk at h ⊢
  simp only [Bool.and_eq_true, List.all_eq_true, decide_eq_true_eq] at h ⊢
  refine ⟨Table.wf_set h.1, fun x hx => ?_⟩
  rcases Table.mem_set hx with rfl | hx
  · exact ⟨hs, he⟩
  · exact h.2 x hx

theorem viewsOk_put {g : Config} {vs : Views} {p : Pid} {w : Width} {d : Dir} {slot : Nat} {e : Entry}
    (h : g.viewsOk vs = true) (hs : slot < g.nslot.get p) (he : g.entryOk w e = true) :
    g.viewsOk (Views.put vs p w d slot e) = true := by
  rw [viewsOk_iff] at h ⊢
  intro q x y
  unfold Views.put
  simp only
  rw [PerPid.get_set]
  by_cases hq : q = p
  · subst hq
    rw [if_pos rfl, PerWidth.get_set]
    by_cases hx : x = w
    · subst hx
      rw [if_pos rfl, PerDir.get_set]
      by_cases hy : y = d
      · subst hy; rw [if_pos rfl]; exact viewOk_set (h q x y) hs he
      · rw [if_neg hy]; exact h q x y
    · rw [if_neg hx]; exact h q x y
  · rw [if_neg hq]; exact h q x y

theorem viewsOk_foldl {α : Type} {g : Config} {f : Views → α → Views} (l : List α)
    (hf : ∀ vs a, a ∈ l → g.viewsOk vs = true → g.viewsOk (f vs a) = true) {vs : Views} (h : g.viewsOk vs = true) :
    g.viewsOk (l.foldl f vs) = true := by
  induction l generalizing vs with
  | nil => exact h
  | cons a rest ih =>
    exact ih (fun vs b hb => hf vs b (List.mem_cons_of_mem _ hb)) (hf vs a (List.mem_cons_self ..) h)

/-- The entry of any address may stand in its view. -/
theorem entryOk_resolve {s : State} (h : s.cfg.viewsOk s.view = true) (p : Pid) (w : Width) (d : Dir) (a : Word) :
    s.cfg.entryOk w (resolve s p w d a) = true := by
  have hv := viewsOk_iff.1 h p w d
  unfold resolve viewOf
  rcases Table.get_mem (d := Entry.stub) (t := ((s.view.get p).get w).get d) (s.cfg.slotOf p a) with e | e
  · rw [e]; rfl
  · unfold Config.viewOk at hv
    simp only [Bool.and_eq_true, List.all_eq_true] at hv
    exact (hv.2 _ e).2

/-- A framebuffer swap keeps the views well formed (R231). -/
theorem viewsOk_fbViews {g : Config} {l : List FbSlot} (hb : Bool) (hfb : g.fbOk = true)
    (hl : ∀ f ∈ l, f ∈ g.fbDraw ++ g.fbVis) {vs : Views} (h : g.viewsOk vs = true) :
    g.viewsOk (fbViews g hb l vs) = true := by
  unfold Config.fbOk at hfb
  rw [Bool.and_eq_true, List.all_eq_true] at hfb
  refine viewsOk_foldl l (fun vs f hf hvs => ?_) h
  have := hfb.1 f (hl f hf)
  simp only [Bool.and_eq_true, decide_eq_true_eq] at this
  refine viewsOk_put hvs this.1.1 ?_
  cases hb
  · exact this.1.2
  · exact this.2

/-- The mask of a slot of 2^k bytes, k at least 2: a MEM entry may have it (R62). -/
theorem lowMask_entry {k : Nat} (hk : 2 ≤ k) :
    3 ≤ (lowMask k).toNat ∧ (lowMask k).toNat ≤ 2 ^ k - 1 ∧ lowMask k &&& (lowMask k + 1) = 0 := by
  have h4 : 4 ≤ 2 ^ k := Nat.pow_le_pow_right (n := 2) (by omega) hk
  by_cases h32 : k < 32
  · have hlt : 2 ^ k < 2 ^ 32 := Nat.pow_lt_pow_right (by omega) h32
    have hm : (lowMask k).toNat = 2 ^ k - 1 := by
      unfold lowMask; rw [BitVec.toNat_ofNat]; exact Nat.mod_eq_of_lt (by omega)
    refine ⟨by omega, by omega, ?_⟩
    apply BitVec.eq_of_toNat_eq
    rw [BitVec.toNat_and, BitVec.toNat_add, hm, show (1 : Word).toNat = 1 from rfl, Nat.sub_add_cancel (by omega),
      Nat.mod_eq_of_lt hlt, Nat.and_comm, Nat.and_two_pow_sub_one_eq_mod]
    simp
  · have e : lowMask k = 0xFFFFFFFF := by
      obtain ⟨j, rfl⟩ := Nat.exists_eq_add_of_le (Nat.le_of_not_lt h32)
      unfold lowMask
      apply BitVec.eq_of_toNat_eq
      have hp : 0 < 2 ^ j := Nat.two_pow_pos j
      rw [BitVec.toNat_ofNat, Nat.pow_add]
      change (2 ^ 32 * 2 ^ j - 1) % 2 ^ 32 = 2 ^ 32 - 1
      omega
    have : (2 : Nat) ^ 32 ≤ 2 ^ k := Nat.pow_le_pow_right (by omega) (by omega)
    rw [e]
    refine ⟨by decide, ?_, by decide⟩
    change 2 ^ 32 - 1 ≤ 2 ^ k - 1
    omega

/-- A window entry inside the cartridge is well formed (R62, R221). -/
theorem memOk_bankEntry {g : Config} {off slot : Nat} (hb : g.bankOk = true)
    (hoff : off < g.cartSize) (hmul : ∃ n, off = n * g.bankSize) (hs : slot ∈ g.bankSlots) :
    slot < g.nslot.pri ∧
    g.memOk .cart (off + (slot - g.bankFirst) * 2 ^ g.shift.pri) (lowMask g.shift.pri) = true := by
  unfold Config.bankOk at hb
  simp only [Bool.and_eq_true, Bool.or_eq_true, beq_iff_eq, decide_eq_true_eq] at hb
  obtain ⟨⟨⟨h1, h2⟩, h3⟩, h4⟩ := hb
  unfold Config.bankSlots at hs
  simp only [List.mem_map, List.mem_range] at hs
  obtain ⟨i, hi, rfl⟩ := hs
  have hk : 2 ≤ g.shift.pri := by
    rcases h4 with h | h
    · omega
    · exact h
  refine ⟨by omega, ?_⟩
  generalize g.shift.pri = k at *
  obtain ⟨n, hn⟩ := hmul
  have h4k : 4 ∣ 2 ^ k := by
    obtain ⟨j, rfl⟩ := Nat.exists_eq_add_of_le hk
    exact ⟨2 ^ j, by rw [Nat.pow_add]⟩
  have hpos : 0 < 2 ^ k := Nat.two_pow_pos k
  have h4le : 4 ≤ 2 ^ k := Nat.le_of_dvd hpos h4k
  obtain ⟨hm3, hmle, hand⟩ := lowMask_entry hk
  have hbank : (i + 1) * 2 ^ k ≤ g.bankSize := by rw [← h1]; exact Nat.mul_le_mul_right _ (by omega)
  have hdvd : g.bankSize ∣ g.cartSize := Nat.dvd_of_mod_eq_zero h2
  have hfit : off + g.bankSize ≤ g.cartSize := by
    obtain ⟨m, hm⟩ := hdvd
    rw [hn, hm] at hoff ⊢
    have : n < m := by
      rw [Nat.mul_comm g.bankSize] at hoff
      exact Nat.lt_of_mul_lt_mul_right hoff
    have : (n + 1) * g.bankSize ≤ m * g.bankSize := Nat.mul_le_mul_right _ (by omega)
    rw [Nat.mul_comm g.bankSize m]
    rw [Nat.add_mul, Nat.one_mul] at this
    exact this
  have hb4 : 4 ∣ g.bankSize := by rw [← h1]; exact Dvd.dvd.mul_left h4k _
  rw [Nat.add_mul, Nat.one_mul] at hbank
  unfold Config.memOk
  simp only [Bool.and_eq_true, decide_eq_true_eq, beq_iff_eq, Nat.add_sub_cancel_left]
  refine ⟨⟨⟨?_, hand⟩, hm3⟩, ?_⟩
  · change _ < g.cartSize
    omega
  · have : 4 ∣ off + i * 2 ^ k := Nat.dvd_add (hn ▸ Dvd.dvd.mul_left hb4 n) (Dvd.dvd.mul_left h4k i)
    omega

/-- A bank selection keeps the views well formed (R221). -/
theorem viewsOk_selected {g : Config} (n : Word) (hb : g.bankOk = true) {vs : Views}
    (h : g.viewsOk vs = true) : g.viewsOk (selectedViews g n vs) = true := by
  unfold selectedViews
  split_ifs with hc
  · exact h
  · refine viewsOk_foldl _ (fun vs w _ hvs => viewsOk_foldl _ (fun vs i hi hvs => ?_) hvs) h
    obtain ⟨h1, h2⟩ := memOk_bankEntry hb (by omega) ⟨n.toNat, rfl⟩ hi
    exact viewsOk_put hvs h1 h2

/-! ## What every elementary change keeps -/

/-- The invariant but for BUSY and the reason a command is stuck. -/
structure Sound (s : State) : Prop where
  cfg : s.cfg.wf = true
  mem : Memory.wf s.mem = true
  views : s.cfg.viewsOk s.view = true
  sized : s.Sized
  fifo : s.dma.fifo.length ≤ s.cfg.fifoCap
  hits : ∀ p c, (detectorOf s p c).cnt ≤ if spinOf s p c then 6 else 5
  spins : ∀ p c, s.cfg.polled p c = false → spinOf s p c = false
  dirty : s.dirty.loc = { pri := false, cop := false }

theorem sound_of_inv {s : State} (h : s.Inv) : Sound s :=
  ⟨h.cfg, h.mem, h.views, h.sized, h.fifo, h.hits, h.spins, h.dirty⟩

theorem inv_of_sound {s : State} (h : Sound s) (hb : s.dma.busy = false) (hs : s.stop = none) : s.Inv :=
  ⟨h.cfg, h.mem, h.views, h.sized, h.fifo, hb, h.hits, h.spins, h.dirty, hs⟩

/-- A change of other fields. -/
theorem Sound.congr {s t : State} (h : Sound s) (h1 : t.cfg = s.cfg) (h2 : t.mem = s.mem) (h3 : t.view = s.view)
    (h4 : t.sys = s.sys) (h5 : t.vdp = s.vdp) (h6 : t.loc = s.loc) (h7 : t.comm = s.comm) (h8 : t.pwm = s.pwm)
    (h9 : t.dma.fifo = s.dma.fifo) (h10 : t.pd = s.pd) (h11 : t.spin = s.spin) (h12 : t.dirty = s.dirty) : Sound t := by
  refine ⟨?_, ?_, ?_, ?_, ?_, ?_, ?_, ?_⟩
  · rw [h1]; exact h.cfg
  · rw [h2]; exact h.mem
  · rw [h1, h3]; exact h.views
  · unfold State.Sized; rw [h1, h4, h5, h6, h7, h8]; exact h.sized
  · rw [h1, h9]; exact h.fifo
  · intro p c; unfold detectorOf spinOf; rw [h10, h11]; exact h.hits p c
  · intro p c; unfold spinOf; rw [h1, h11]; exact h.spins p c
  · rw [h12]; exact h.dirty

theorem wf_parts {g : Config} (h : g.wf = true) :
    g.viewsOk g.view0 = true ∧ g.decodeOk = true ∧ g.bankOk = true ∧ g.fbOk = true ∧ g.resetsOk = true ∧ 4 ≤ g.fifoCap := by
  unfold Config.wf at h
  simp only [Bool.and_eq_true, decide_eq_true_eq] at h
  obtain ⟨⟨⟨⟨⟨a, b⟩, c⟩, d⟩, e⟩, f⟩ := h
  exact ⟨a, b, c, d, e, f⟩

theorem regStore_sized {r : Reg} {v : Word} {s : State} (h : s.Sized) : (regStore r v s).Sized := by
  unfold State.Sized at *
  rcases r with i | i | ⟨k, i⟩ | i | i | d | ⟨k, d⟩ <;> try simpa [regStore] using h
  cases k <;> simpa [regStore, PerCop.set, PerCop.get] using h

theorem regStore_sound {r : Reg} {v : Word} {s : State} (h : Sound s) : Sound (regStore r v s) := by
  have hs := regStore_sized (r := r) (v := v) h.sized
  have he := regStore_eq r v s
  have hf := (regStore_staging r v s).1
  generalize regStore r v s = t at *
  refine ⟨?_, ?_, ?_, hs, ?_, ?_, ?_, ?_⟩
  · rw [he]; exact h.cfg
  · rw [he]; exact h.mem
  · rw [he]; exact h.views
  · rw [hf, show t.cfg = s.cfg by rw [he]]; exact h.fifo
  · intro p c; unfold detectorOf spinOf; rw [he]; exact h.hits p c
  · intro p c; unfold spinOf; rw [he]; exact h.spins p c
  · rw [he]; exact h.dirty

theorem undetects_sound {f : Pid → RegClass → Bool} {s t : State} (u : Undetects f s t) (h : Sound s) : Sound t := by
  refine ⟨?_, ?_, ?_, ?_, ?_, ?_, ?_, ?_⟩
  · rw [u.eq]; exact h.cfg
  · rw [u.eq]; exact h.mem
  · rw [u.eq]; exact h.views
  · rw [u.eq]; exact h.sized
  · rw [u.eq]; exact h.fifo
  · intro p c
    rw [u.detector, u.spin]
    cases hb : (f p c && s.cfg.polled p c)
    · simpa using h.hits p c
    · simp [Detector.clear]
  · intro p c hp
    rw [u.spin, h.spins p c (by rw [← u.cfg]; exact hp)]; rfl
  · rw [u.eq]; exact h.dirty

theorem pollDetect_sound {p : Pid} {c : RegClass} {a cyc : Word} {s : State} (h : Sound s) :
    Sound (pollDetect p c a cyc s).1 := by
  unfold pollDetect
  simp only
  by_cases hc : (!s.cfg.polled p c || spinOf s p c) = true
  · rw [if_pos hc]; exact h
  rw [if_neg hc]
  have hpol : s.cfg.polled p c = true := by revert hc; cases s.cfg.polled p c <;> simp
  have hsp : spinOf s p c = false := by revert hc; cases s.cfg.polled p c <;> cases spinOf s p c <;> simp
  have hcnt : (observe (s.cfg.pollMaxgap.get c) (detectorOf s p c) a cyc).cnt ≤ 6 := by
    have := h.hits p c
    rw [hsp] at this
    unfold observe
    split_ifs
    · change (detectorOf s p c).cnt + 1 ≤ 6
      simp only [Bool.false_eq_true, if_false] at this
      omega
    · exact Nat.zero_le _
  generalize observe (s.cfg.pollMaxgap.get c) (detectorOf s p c) a cyc = d at hcnt
  split_ifs with h6
  · refine ⟨h.cfg, h.mem, h.views, h.sized, h.fifo, fun q x => ?_, fun q x hq => ?_, h.dirty⟩
    · rw [show detectorOf (setSpin p c true (setDetector p c d s)) q x = detectorOf (setDetector p c d s) q x from rfl,
        detectorOf_setDetector, spinOf_setSpin]
      by_cases e : q = p ∧ x = c
      · rw [if_pos e, if_pos e]; simpa using hcnt
      · rw [if_neg e, if_neg e]; exact h.hits q x
    · rw [spinOf_setSpin]
      by_cases e : q = p ∧ x = c
      · obtain ⟨rfl, rfl⟩ := e; exact absurd (hpol.symm.trans hq) (by simp)
      · rw [if_neg e]; exact h.spins q x hq
  · refine ⟨h.cfg, h.mem, h.views, h.sized, h.fifo, fun q x => ?_, h.spins, h.dirty⟩
    rw [detectorOf_setDetector]
    change _ ≤ if spinOf s q x then 6 else 5
    by_cases e : q = p ∧ x = c
    · obtain ⟨rfl, rfl⟩ := e
      rw [if_pos ⟨rfl, rfl⟩, hsp]
      unfold pollHits at h6
      simp only [Bool.false_eq_true, if_false]
      omega
    · rw [if_neg e]; exact h.hits q x

theorem bankSelect_sound {n : Word} {s : State} (h : Sound s) : Sound (bankSelect n s) := by
  have he := bankSelect_eq n s
  have hv := bankSelect_view n s
  generalize bankSelect n s = t at *
  have hc : t.cfg = s.cfg := by rw [he]
  refine ⟨?_, ?_, ?_, ?_, ?_, ?_, ?_, ?_⟩
  · rw [hc]; exact h.cfg
  · rw [he]; exact h.mem
  · rw [hc, hv]; exact viewsOk_selected n (wf_parts h.cfg).2.2.1 h.views
  · rw [he]; exact h.sized
  · rw [he]; exact h.fifo
  · intro p c; unfold detectorOf spinOf; rw [he]; exact h.hits p c
  · intro p c; unfold spinOf; rw [he]; exact h.spins p c
  · rw [he]; exact h.dirty

theorem fbSwap_sound {b : Bool} {s : State} (h : Sound s) : Sound (fbSwap b s) := by
  have hfb := (wf_parts h.cfg).2.2.2.1
  refine ⟨h.cfg, h.mem, ?_, h.sized, h.fifo, h.hits, h.spins, h.dirty⟩
  exact viewsOk_fbViews _ hfb (fun f hf => List.mem_append_right _ hf)
    (viewsOk_fbViews _ hfb (fun f hf => List.mem_append_left _ hf) h.views)

/-- The elementary changes of a write keep the invariant, and BUSY. -/
theorem Base.sound {s t : State} (b : Base s t) (h : Sound s) : Sound t ∧ t.dma.busy = s.dma.busy := by
  cases b with
  | log c p a => exact ⟨h.congr rfl rfl rfl rfl rfl rfl rfl rfl rfl rfl rfl rfl, rfl⟩
  | call c _ => exact ⟨h.congr rfl rfl rfl rfl rfl rfl rfl rfl rfl rfl rfl rfl, rfl⟩
  | misaligned w a hn => exact ⟨h.congr rfl rfl rfl rfl rfl rfl rfl rfl rfl rfl rfl rfl, rfl⟩
  | illFormed p w d a hn => exact ⟨h.congr rfl rfl rfl rfl rfl rfl rfl rfl rfl rfl rfl rfl, rfl⟩
  | store r v => exact ⟨regStore_sound h, (regStore_staging r v s).2.2⟩
  | write r off n v => exact ⟨⟨h.cfg, memWrite_wf r off n v h.mem, h.views, h.sized, h.fifo, h.hits, h.spins, h.dirty⟩, rfl⟩
  | dirty c d b hb =>
    refine ⟨⟨h.cfg, h.mem, h.views, h.sized, h.fifo, h.hits, h.spins, ?_⟩, rfl⟩
    have hd := h.dirty
    change (s.dirty.set c ((s.dirty.get c).set d b)).loc = _
    cases c <;> try exact hd
    have hb : b = false := by rcases hb with hb | hb; exact absurd hb (by decide); exact hb
    subst hb
    change s.dirty.loc.set d false = _
    rw [hd]; cases d <;> rfl
  | undetect p c => exact ⟨undetects_sound (Undetects.one p c s) h, by rw [(Undetects.one p c s).eq]⟩
  | endSlice p b => exact ⟨h.congr rfl rfl rfl rfl rfl rfl rfl rfl rfl rfl rfl rfl, rfl⟩
  | bank n => exact ⟨bankSelect_sound h, by rw [bankSelect_eq]⟩
  | fb b => exact ⟨fbSwap_sound h, rfl⟩
  | divu k u => exact ⟨h.congr rfl rfl rfl rfl rfl rfl rfl rfl rfl rfl rfl rfl, rfl⟩
  | draw => exact ⟨h.congr rfl rfl rfl rfl rfl rfl rfl rfl rfl rfl rfl rfl, rfl⟩
  | push w hf =>
    refine ⟨⟨h.cfg, h.mem, h.views, h.sized, ?_, h.hits, h.spins, h.dirty⟩, rfl⟩
    change (s.dma.fifo ++ [w]).length ≤ s.cfg.fifoCap
    have := h.fifo
    unfold fifoFull at hf
    simp only [beq_eq_false_iff_ne, ne_eq] at hf
    rw [List.length_append, List.length_singleton]; omega
  | restartRx => exact ⟨h.congr rfl rfl rfl rfl rfl rfl rfl rfl rfl rfl rfl rfl, rfl⟩

theorem DmaMicro.sound {s t : State} (b : DmaMicro s t) (h : Sound s) : Sound t ∧ t.dma.busy = s.dma.busy := by
  cases b with
  | base b => exact b.sound h
  | pop w rest e =>
    refine ⟨⟨h.cfg, h.mem, h.views, h.sized, ?_, h.hits, h.spins, h.dirty⟩, rfl⟩
    change rest.length ≤ s.cfg.fifoCap
    have := h.fifo
    rw [e, List.length_cons] at this; omega
  | count dar tcr len => exact ⟨h.congr rfl rfl rfl rfl rfl rfl rfl rfl rfl rfl rfl rfl, rfl⟩
  | full b => exact ⟨h.congr rfl rfl rfl rfl rfl rfl rfl rfl rfl rfl rfl rfl, rfl⟩
  | done v => exact ⟨h.congr rfl rfl rfl rfl rfl rfl rfl rfl rfl rfl rfl rfl, rfl⟩

theorem dma_chain_sound {s t : State} (c : Relation.ReflTransGen DmaMicro s t) (h : Sound s) :
    Sound t ∧ t.dma.busy = s.dma.busy := by
  induction c with
  | refl => exact ⟨h, rfl⟩
  | tail _ b ih => exact ⟨(b.sound ih.1).1, ((b.sound ih.1).2).trans ih.2⟩

/-- The elementary changes of a coprocessor's access keep the invariant; BUSY stays, or is cleared by the end of a transfer. -/
theorem CopMicro.sound {s t : State} (b : CopMicro s t) (h : Sound s) :
    Sound t ∧ (s.dma.busy = false → t.dma.busy = false) := by
  cases b with
  | base b => exact ⟨(b.sound h).1, fun hb => (b.sound h).2.trans hb⟩
  | detect p c a cyc =>
    refine ⟨pollDetect_sound h, fun hb => ?_⟩
    unfold pollDetect; simp only; split_ifs <;> exact hb
  | run c =>
    have h1 : Sound (setBusy true s) := h.congr rfl rfl rfl rfl rfl rfl rfl rfl rfl rfl rfl rfl
    have h2 := (dma_chain_sound c h1).1
    exact ⟨h2.congr rfl rfl rfl rfl rfl rfl rfl rfl rfl rfl rfl rfl, fun _ => rfl⟩

theorem cop_chain_sound {s t : State} (c : Relation.ReflTransGen CopMicro s t) (h : Sound s) :
    Sound t ∧ (s.dma.busy = false → t.dma.busy = false) := by
  induction c with
  | refl => exact ⟨h, id⟩
  | tail _ b ih => exact ⟨(b.sound ih.1).1, fun hb => (b.sound ih.1).2 (ih.2 hb)⟩

theorem PriMicro.sound {s t : State} (b : PriMicro s t) (h : Sound s) :
    Sound t ∧ (s.dma.busy = false → t.dma.busy = false) := by
  cases b with
  | cop b => exact b.sound h
  | asks k n => exact ⟨h.congr rfl rfl rfl rfl rfl rfl rfl rfl rfl rfl rfl rfl, id⟩
  | vt k v => exact ⟨h.congr rfl rfl rfl rfl rfl rfl rfl rfl rfl rfl rfl rfl, id⟩
  | lastSync now => exact ⟨h.congr rfl rfl rfl rfl rfl rfl rfl rfl rfl rfl rfl rfl, id⟩
  | takeRun r rest e => exact ⟨h.congr rfl rfl rfl rfl rfl rfl rfl rfl rfl rfl rfl rfl, id⟩
  | hang k r rest e hr c =>
    have h1 : Sound { s with runs := rest } := h.congr rfl rfl rfl rfl rfl rfl rfl rfl rfl rfl rfl rfl
    obtain ⟨h2, h3⟩ := cop_chain_sound c h1
    exact ⟨h2.congr rfl rfl rfl rfl rfl rfl rfl rfl rfl rfl rfl rfl, h3⟩

/-- Every access keeps the invariant. -/
theorem pri_chain_sound {s t : State} (c : Relation.ReflTransGen PriMicro s t) (h : Sound s) :
    Sound t ∧ (s.dma.busy = false → t.dma.busy = false) := by
  induction c with
  | refl => exact ⟨h, id⟩
  | tail _ b ih => exact ⟨(b.sound ih.1).1, fun hb => (b.sound ih.1).2 (ih.2 hb)⟩

/-! ## Nothing stops an access -/

/-- With well-formed views and addresses aligned down, no elementary change of a write stops the command (R250). -/
theorem Base.runs_on {s t : State} (b : Base s t) (h : Sound s) (ha : s.cfg.misalign = .alignDown) (hs : s.stop = none) :
    t.stop = none := by
  cases b with
  | misaligned w a hn => simp [alignAccess, ha] at hn
  | illFormed p w d a hn => rw [entryOk_resolve h.views p w d a] at hn; exact absurd hn (by decide)
  | store r v => rw [regStore_eq]; exact hs
  | undetect p c => rw [pollUndetect_eq]; exact hs
  | bank n => rw [bankSelect_eq]; exact hs
  | _ => exact hs

theorem DmaMicro.runs_on {s t : State} (b : DmaMicro s t) (h : Sound s) (ha : s.cfg.misalign = .alignDown)
    (hs : s.stop = none) : t.stop = none := by
  cases b with
  | base b => exact b.runs_on h ha hs
  | _ => exact hs

theorem dma_chain_runs_on {s t : State} (c : Relation.ReflTransGen DmaMicro s t) (h : Sound s)
    (ha : s.cfg.misalign = .alignDown) (hs : s.stop = none) : t.stop = none := by
  induction c with
  | refl => exact hs
  | tail c b ih =>
    exact b.runs_on (dma_chain_sound c h).1 (by rw [(dma_chain_fixed c).1.cfg]; exact ha) ih

theorem CopMicro.runs_on {s t : State} (b : CopMicro s t) (h : Sound s) (ha : s.cfg.misalign = .alignDown)
    (hs : s.stop = none) : t.stop = none := by
  cases b with
  | base b => exact b.runs_on h ha hs
  | detect p c a cyc => unfold pollDetect; simp only; split_ifs <;> exact hs
  | run c =>
    have h1 : Sound (setBusy true s) := h.congr rfl rfl rfl rfl rfl rfl rfl rfl rfl rfl rfl rfl
    have := dma_chain_runs_on c h1 ha hs
    exact this

theorem cop_chain_runs_on {s t : State} (c : Relation.ReflTransGen CopMicro s t) (h : Sound s)
    (ha : s.cfg.misalign = .alignDown) (hs : s.stop = none) : t.stop = none := by
  induction c with
  | refl => exact hs
  | tail c b ih =>
    exact b.runs_on (cop_chain_sound c h).1 (by rw [(cop_chain_fixed c).1.cfg]; exact ha) ih

theorem PriMicro.runs_on {s t : State} (b : PriMicro s t) (h : Sound s) (ha : s.cfg.misalign = .alignDown)
    (hr : s.RunsReturn) (hs : s.stop = none) : t.stop = none ∧ t.RunsReturn := by
  cases b with
  | cop b => exact ⟨b.runs_on h ha hs, by unfold State.RunsReturn; rw [b.fixed.2.runs]; exact hr⟩
  | asks k n => exact ⟨hs, hr⟩
  | vt k v => exact ⟨hs, hr⟩
  | lastSync now => exact ⟨hs, hr⟩
  | takeRun r rest e => exact ⟨hs, fun x hx => hr x (by rw [e]; exact List.mem_cons_of_mem _ hx)⟩
  | hang k r rest e hn c => exact absurd hn (hr r (by rw [e]; exact List.mem_cons_self ..))

/-- No access stops, when the runs it asks for return (R250). -/
theorem pri_chain_runs_on {s t : State} (c : Relation.ReflTransGen PriMicro s t) (h : Sound s)
    (ha : s.cfg.misalign = .alignDown) (hr : s.RunsReturn) (hs : s.stop = none) : t.stop = none ∧ t.RunsReturn := by
  induction c with
  | refl => exact ⟨hs, hr⟩
  | tail c b ih =>
    exact b.runs_on (pri_chain_sound c h).1 (by rw [(pri_chain_fixed c).cfg]; exact ha) ih.2 ih.1

end Sys2Proof.Machine
end

