-- ==== Sys2Proof/Laws/Gate.lean ====
section
/-! SUPPORT. The nested coprocessor runs of the gate: a command of a run is the bus command it names, performed whole, `runTo` takes
one turn as R143 says, and an access at LAST_SYNC runs no coprocessor (R148). -/

namespace Sys2Proof.Machine

/-! ## An access uses only the low bits of its data (R68) -/

theorem storedByte_lowBits (w : Width) (v : Word) (i : Nat) (hi : i < w.bytes) :
    storedByte w.bytes (lowBits w v) i = storedByte w.bytes v i := by
  unfold storedByte
  cases w <;> simp only [Width.bytes] at hi ⊢ <;> interval_cases i <;> ext j hj <;>
    (interval_cases j <;> simp [lowBits])

theorem putBytes_lowBits (m : List Host.Cell) (r : Region) (size off : Nat) (w : Width) (v : Word) :
    putBytes m r size off w.bytes (lowBits w v) = putBytes m r size off w.bytes v := by
  unfold putBytes
  refine List.foldl_ext _ _ _ fun m i hi => ?_
  rw [storedByte_lowBits w v i (List.mem_range.1 hi)]

theorem handlerWrite_lowBits (env : Env) (p : Pid) (h : Handler) (a v : Word) (w : Width) (cyc : Word) (s : State) :
    handlerWrite env p h a (lowBits w v) w cyc s = handlerWrite env p h a v w cyc s := by
  unfold handlerWrite; simp only [laneMerge_lowBits]

theorem narrowWrite_lowBits (env : Env) (p : Pid) (w : Width) (a v cyc : Word) (s : State) :
    narrowWrite env p w a (lowBits w v) cyc s = narrowWrite env p w a v cyc s := by
  unfold narrowWrite
  cases resolve s p w .wr a with
  | mem r b m => simp only [memAccessWrite, memWrite, putBytes_lowBits]
  | hnd h => exact handlerWrite_lowBits ..
  | split => rfl
  | stub => rfl

theorem busWrite_lowBits (env : Env) (p : Pid) (w : Width) (a v cyc : Word) (s : State) :
    busWrite env p w a (lowBits w v) cyc s = busWrite env p w a v cyc s := by
  unfold busWrite
  cases alignAccess s.cfg w a with
  | none => rfl
  | some a => cases w <;> first | exact narrowWrite_lowBits env p _ a v cyc s | rfl

/-! ## An access of a coprocessor never meets the gate (R291) -/

theorem handlerRead_coprocessor {p : Pid} (hp : p ≠ .pri) (env env' : Env) (h : Handler) (a : Word) (w : Width) (cyc : Word)
    (s : State) : handlerRead env p h a w cyc s = handlerRead env' p h a w cyc s := by
  unfold handlerRead observeClass; simp [hp]

theorem handlerWrite_coprocessor {p : Pid} (hp : p ≠ .pri) {env env' : Env} (he : env.trigger = env'.trigger) (h : Handler)
    (a v : Word) (w : Width) (cyc : Word) (s : State) : handlerWrite env p h a v w cyc s = handlerWrite env' p h a v w cyc s := by
  unfold handlerWrite; simp [hp, he]

theorem narrowRead_coprocessor {p : Pid} (hp : p ≠ .pri) (env env' : Env) (w : Width) (a cyc : Word) (s : State) :
    narrowRead env p w a cyc s = narrowRead env' p w a cyc s := by
  unfold narrowRead; simp only [handlerRead_coprocessor hp env env']

theorem narrowWrite_coprocessor {p : Pid} (hp : p ≠ .pri) {env env' : Env} (he : env.trigger = env'.trigger) (w : Width)
    (a v cyc : Word) (s : State) : narrowWrite env p w a v cyc s = narrowWrite env' p w a v cyc s := by
  unfold narrowWrite; simp only [handlerWrite_coprocessor hp he]

/-- A coprocessor's split read is its two halves. -/
theorem splitRead_coprocessor {p : Pid} (hp : p ≠ .pri) (env env' : Env) (a cyc : Word) (s : State) :
    splitRead env p a cyc s = splitRead env' p a cyc s := by
  unfold splitRead
  simp only [narrowRead_coprocessor hp env env']

theorem splitWrite_coprocessor {p : Pid} (hp : p ≠ .pri) {env env' : Env} (he : env.trigger = env'.trigger) (a v cyc : Word)
    (s : State) : splitWrite env p a v cyc s = splitWrite env' p a v cyc s := by
  unfold splitWrite
  simp only [narrowWrite_coprocessor hp he]

theorem busRead_coprocessor {p : Pid} (hp : p ≠ .pri) (w : Width) (a cyc : Word) (s : State) :
    busRead coprocessorEnv p w a cyc s = busRead commandEnv p w a cyc s := by
  unfold busRead wideRead
  simp only [narrowRead_coprocessor hp coprocessorEnv commandEnv, handlerRead_coprocessor hp coprocessorEnv commandEnv,
    splitRead_coprocessor hp coprocessorEnv commandEnv]

theorem busWrite_coprocessor {p : Pid} (hp : p ≠ .pri) (w : Width) (a v cyc : Word) (s : State) :
    busWrite coprocessorEnv p w a v cyc s = busWrite commandEnv p w a v cyc s := by
  have he : coprocessorEnv.trigger = commandEnv.trigger := rfl
  unfold busWrite wideWrite
  simp only [narrowWrite_coprocessor hp he, handlerWrite_coprocessor hp he, splitWrite_coprocessor hp he]

/-- A coprocessor's access is the bus command it names, its response given to the coprocessor (R75, R143). -/
theorem copAccess_command (k : Cop) (c : CopCmd) {u : State} (hu : u.Ready) (hs : (copAccess k c u).stop = none) :
    ∃ t, exec (c.command k) u = .next t ∧ copAccess k c u = { t with resp := u.resp, calls := t.calls ++ [.answer k t.resp] } := by
  cases c with
  | read w a cyc =>
    unfold CopCmd.command
    simp only [copAccess, busRead_coprocessor k.pid_ne_pri] at hs ⊢
    refine ⟨answer (busRead commandEnv k.pid w a cyc u), ?_, ?_⟩
    · rw [exec_readCmd, perform_next hu]; exact hs
    · rw [← (busRead_fixed k.pid w a cyc u).resp]; rfl
  | write w a v cyc =>
    unfold CopCmd.command
    simp only [copAccess, busWrite_coprocessor k.pid_ne_pri] at hs ⊢
    refine ⟨answer (busWrite commandEnv k.pid w a v cyc u), ?_, ?_⟩
    · rw [exec_writeCmd, perform_next hu] <;> simp only [busWrite_lowBits]; exact hs
    · rw [← (busWrite_fixed k.pid w a v cyc u).resp]; rfl

/-! ## What runs no coprocessor -/

/-- No coprocessor runs between the two states, and the gate is not passed. -/
structure Quiet (s t : State) : Prop where
  lastSync : t.lastSync = s.lastSync
  runs : t.runs = s.runs
  calls : ∃ l, t.calls = s.calls ++ l ∧ ∀ k n, HostCall.run k n ∉ l

theorem Quiet.refl (s : State) : Quiet s s := ⟨rfl, rfl, [], by simp, by simp⟩

theorem Quiet.trans {s t u : State} (h : Quiet s t) (k : Quiet t u) : Quiet s u := by
  obtain ⟨l, hl, hn⟩ := h.calls
  obtain ⟨m, hm, hk⟩ := k.calls
  refine ⟨k.lastSync.trans h.lastSync, k.runs.trans h.runs, l ++ m, by rw [hm, hl, List.append_assoc], fun j n hj => ?_⟩
  rcases List.mem_append.1 hj with hj | hj
  · exact hn j n hj
  · exact hk j n hj

/-- A change that keeps time and records no call. -/
theorem Quiet.of_timeless {s t : State} (h : Timeless s t) (hc : t.calls = s.calls) : Quiet s t :=
  ⟨h.lastSync, h.runs, [], by simp [hc], by simp⟩

/-- No elementary change of a write asks for a run of a coprocessor. -/
theorem Base.quiet {s t : State} (h : Base s t) : Quiet s t := by
  have hf := h.fixed.2
  cases h with
  | call c h => exact ⟨rfl, rfl, [c], rfl, fun k n hk => h k n (List.mem_singleton.1 hk).symm⟩
  | store r v => exact .of_timeless hf (by rw [regStore_eq])
  | undetect p c => exact .of_timeless hf (by rw [pollUndetect_eq])
  | bank n => exact .of_timeless hf (by rw [bankSelect_eq])
  | _ => exact .of_timeless hf rfl

theorem DmaMicro.quiet {s t : State} (h : DmaMicro s t) : Quiet s t := by
  cases h with
  | base h => exact h.quiet
  | _ => exact ⟨rfl, rfl, [], by simp [recomputeFull, setFull], by simp⟩

theorem CopMicro.quiet {s t : State} (h : CopMicro s t) : Quiet s t := by
  cases h with
  | base h => exact h.quiet
  | detect p c a cyc => exact .of_timeless (pollDetect_fixed p c a cyc s).2 (by unfold pollDetect; simp only; split_ifs <;> rfl)
  | run h =>
    have h0 : Quiet s (setBusy true s) := ⟨rfl, rfl, [], by simp [setBusy], by simp⟩
    have h1 := chain_induct (R := Quiet) Quiet.refl Quiet.trans DmaMicro.quiet h
    exact (h0.trans h1).trans ⟨rfl, rfl, [], by simp [setBusy], by simp⟩

/-- An access of a coprocessor asks for no run of a coprocessor. -/
theorem cop_chain_quiet {s t : State} (h : Relation.ReflTransGen CopMicro s t) : Quiet s t :=
  chain_induct (R := Quiet) Quiet.refl Quiet.trans CopMicro.quiet h

/-- An access without a gate runs no coprocessor. -/
theorem within_quiet (p : Pid) : Within Quiet p coprocessorEnv where
  refl := Quiet.refl
  trans := Quiet.trans
  base h := h.quiet
  trigger q cyc s := cop_chain_quiet (dmaTrigger_micros q cyc s)
  gate _ _ _ s := Quiet.refl s
  vt _ k v s := ⟨rfl, rfl, [], by simp [setVt], by simp⟩
  detect q c a cyc s := (CopMicro.detect s q c a cyc).quiet

/-! ## An access at LAST_SYNC runs no coprocessor (R148) -/

theorem gapSync_synced {c : RegClass} {now : Word} {s : State} (h : s.lastSync = now) : gapSync c now s = s := by
  unfold gapSync gapOpen after; rw [h]; simp

theorem narrowRead_synced (p : Pid) (w : Width) (a : Word) {cyc : Word} {s : State} (h : s.lastSync = cyc) :
    narrowRead commandEnv p w a cyc s = narrowRead coprocessorEnv p w a cyc s := by
  have hg : ∀ c, observeClass commandEnv p c cyc s = observeClass coprocessorEnv p c cyc s := fun c => by
    simp only [observeClass, syncRead, commandEnv, coprocessorEnv, gapSync_synced h]
  unfold narrowRead; simp only [handlerRead, hg]

theorem narrowWrite_synced (p : Pid) (w : Width) (a v : Word) {cyc : Word} {s : State} (h : s.lastSync = cyc) :
    narrowWrite commandEnv p w a v cyc s = narrowWrite coprocessorEnv p w a v cyc s := by
  unfold narrowWrite; simp only [handlerWrite, commandEnv, coprocessorEnv, gapSync_synced h]

theorem after_iff (a b : Word) : after a b = true ↔ 0 < (a - b).toInt := by
  unfold after; rw [BitVec.slt_iff_toInt_lt]; rfl

/-! ## A turn of the gate -/

/-- A block whose accesses run on: it accepts commands, its views are well formed and addresses are aligned down. -/
structure RunsOn (u : State) : Prop where
  sound : Sound u
  align : u.cfg.misalign = .alignDown
  ready : u.Ready

theorem RunsOn.cop_chain {s t : State} (c : Relation.ReflTransGen CopMicro s t) (h : RunsOn s) : RunsOn t :=
  ⟨(cop_chain_sound c h.sound).1, by rw [(cop_chain_fixed c).1.cfg]; exact h.align,
    by rw [(cop_chain_fixed c).1.initialised]; exact h.ready.1, by rw [(cop_chain_fixed c).1.initFailed]; exact h.ready.2.1,
    cop_chain_runs_on c h.sound h.align h.ready.2.2⟩

theorem RunsOn.pri_chain {s t : State} (c : Relation.ReflTransGen PriMicro s t) (hr : s.RunsReturn) (h : RunsOn s) :
    RunsOn t ∧ t.RunsReturn := by
  have hro := pri_chain_runs_on c h.sound h.align hr h.ready.2.2
  exact ⟨⟨(pri_chain_sound c h.sound).1, by rw [(pri_chain_fixed c).cfg]; exact h.align,
    by rw [(pri_chain_fixed c).initialised]; exact h.ready.1, by rw [(pri_chain_fixed c).initFailed]; exact h.ready.2.1,
    hro.1⟩, hro.2⟩

/-- The commands of a run, performed one after the other. -/
theorem performed_foldl (k : Cop) (l : List CopCmd) {u : State} (h : RunsOn u) :
    Performed k l u (l.foldl (fun s c => copAccess k c s) u) := by
  induction l generalizing u with
  | nil => rfl
  | cons c cs ih =>
    have g := h.cop_chain (copAccess_micros k c u)
    obtain ⟨t, h1, h2⟩ := copAccess_command k c h.ready g.ready.2.2
    refine ⟨t, h1, ?_⟩
    rw [← h2]; exact ih g

theorem runLength_eq_max (n m : Word) : runLength n m = BitVec.ofNat 32 (max n.toNat m.toNat) := by
  unfold runLength
  by_cases h : n.ult m
  · rw [if_pos h]
    have : n.toNat < m.toNat := by simpa [BitVec.ult] using h
    rw [Nat.max_eq_right this.le]; simp
  · rw [if_neg h]
    have : m.toNat ≤ n.toNat := by simpa [BitVec.ult] using h
    rw [Nat.max_eq_left this]; simp

/-- The turn of the gate for coprocessor k asks for a run that never returns (R149). -/
def Hangs (k : Cop) (now : Word) (u : State) : Prop :=
  0 < (now - u.vt.get k).toInt ∧ ∃ cmds later, u.runs = ⟨cmds, none⟩ :: later

/-- What a turn of the gate for coprocessor k leaves, when the run it asks for returns (R143): the run is performed, VT[k] has moved,
its answer is taken and the block runs on. -/
structure Turned (k : Cop) (now : Word) (u v : State) : Prop where
  performed : RunsUpTo k now u v
  runsOn : RunsOn v
  vt : v.vt = if 0 < (now - u.vt.get k).toInt then u.vt.set k (u.vt.get k +
    BitVec.ofNat 32 (max (now - u.vt.get k).toNat (usedBy u.runs (now - u.vt.get k)).toNat)) else u.vt
  runs : v.runs = if 0 < (now - u.vt.get k).toInt then u.runs.tail else u.runs

theorem runTo_turned (k : Cop) (now : Word) {u : State} (h : RunsOn u) (hr : ¬ Hangs k now u) :
    Turned k now u (runTo k now u) := by
  by_cases hb : 0 < (now - u.vt.get k).toInt
  swap
  · have e : runTo k now u = u := by unfold runTo; simp only [after_iff, if_neg hb]
    rw [e]
    exact ⟨by unfold RunsUpTo; rw [if_neg hb], h, by rw [if_neg hb], by rw [if_neg hb]⟩
  rcases hostRun_cases k (now - u.vt.get k) u with ⟨hn, e⟩ | ⟨r, rest, hrr, e⟩
  · have hv : runTo k now u = setVt k (u.vt.get k + runLength (now - u.vt.get k) (now - u.vt.get k))
        (recordCall (.run k (now - u.vt.get k)) u) := by
      unfold runTo; simp only [after_iff, if_pos hb, e]; rfl
    rw [hv, runLength_eq_max]
    refine ⟨?_, ⟨h.sound.congr rfl rfl rfl rfl rfl rfl rfl rfl rfl rfl rfl rfl, h.align, h.ready⟩, ?_, ?_⟩
    · unfold RunsUpTo
      rw [if_pos hb]
      refine ⟨recordCall (.run k (now - u.vt.get k)) u, ?_, ?_⟩
      · rw [hn]; simp [nextCmds, Performed, recordCall]; rw [hn]
      · rw [hn]; rfl
    · rw [if_pos hb, hn]; rfl
    · rw [if_pos hb, hn]; exact hn
  · obtain ⟨cmds, used⟩ := r
    cases used with
    | none => exact absurd ⟨hb, cmds, rest, hrr⟩ hr
    | some used =>
      let u0 : State := { recordCall (.run k (now - u.vt.get k)) u with runs := rest }
      let x := cmds.foldl (fun s c => copAccess k c s) u0
      have h0 : RunsOn u0 := ⟨h.sound.congr rfl rfl rfl rfl rfl rfl rfl rfl rfl rfl rfl rfl, h.align, h.ready⟩
      have hx : RunsOn x := h0.cop_chain (copAccesses_micros k cmds u0)
      have ht := (cop_chain_fixed (copAccesses_micros k cmds u0)).2
      have hused : usedBy u.runs (now - u.vt.get k) = used := by rw [hrr]; rfl
      have hvt : x.vt = u.vt := ht.vt
      have hv : runTo k now u = setVt k (u.vt.get k + runLength (now - u.vt.get k) used) x := by
        unfold runTo; simp only [after_iff, if_pos hb, e]
        change setVt k (x.vt.get k + _) x = _
        rw [hvt]
      rw [hv, runLength_eq_max]
      refine ⟨?_, ⟨hx.sound.congr rfl rfl rfl rfl rfl rfl rfl rfl rfl rfl rfl rfl, hx.align, hx.ready⟩, ?_, ?_⟩
      · unfold RunsUpTo
        rw [if_pos hb, hused]
        refine ⟨x, ?_, ?_⟩
        · rw [hrr]; exact performed_foldl k cmds h0
        · simp only [setVt, hvt]
      · rw [if_pos hb, hused]; simp only [setVt, hvt]
      · rw [if_pos hb, hrr]; exact ht.runs

/-- A turn that hangs keeps the hang as the reason why the command cannot be completed (R149; log 6). -/
theorem runTo_hangs (k : Cop) (now : Word) {u : State} (h : RunsOn u) (hr : Hangs k now u) :
    (runTo k now u).stop = some (.hung k) := by
  obtain ⟨hb, cmds, rest, hrr⟩ := hr
  have h0 : RunsOn { recordCall (.run k (now - u.vt.get k)) u with runs := rest } :=
    ⟨h.sound.congr rfl rfl rfl rfl rfl rfl rfl rfl rfl rfl rfl rfl, h.align, h.ready⟩
  have hx := (h0.cop_chain (copAccesses_micros k cmds _)).ready.2.2
  rcases hostRun_cases k (now - u.vt.get k) u with ⟨hn, e⟩ | ⟨r, rest', hrr', e⟩
  · rw [hn] at hrr; cases hrr
  · rw [hrr] at hrr'
    cases hrr'
    unfold runTo
    simp only [after_iff, if_pos hb, e, halt, hx]
    rfl

end Sys2Proof.Machine
end

