-- ==== Sys2Proof/Laws/PerInstr.lean ====
section
/-! SUPPORT. What is stated of every command as syntax: its packet has the match and mask bits of its row in
spec/opcode_table.json (R95), one lemma for each constructor. -/

namespace Sys2Proof.Laws.Row

/-- The header byte of a row: op, w, pid. -/
def header (i : Instr) : BitVec 8 :=
  match i with
  | .busRd8 .. => 0x10
  | .busRd16 .. => 0x14
  | .busRd32 .. => 0x18
  | .busWr8 .. => 0x20
  | .busWr16 .. => 0x24
  | .busWr32 .. => 0x28
  | .ackSlice .. => 0x30
  | .advance .. => 0x40
  | .status => 0x50
  | .pollDetect .. => 0x80
  | .pollUndetect .. => 0x90
  | .syncRd .. => 0xA0
  | .syncWr .. => 0xA4
  | .dmaRun .. => 0xB0
  | .bankSelect .. => 0xC0
  | .fill => 0xD0
  | .div32 .. => 0xE0
  | .div64 .. => 0xE4
  | .resetAll .. => 0xF0
  | .stateRestored .. => 0xF1
  | .copReset .. => 0xF2
  | .fbSwap .. => 0xF4
  | .init .. => 0xF8

/-- The header bits the row fixes: all of them, or op and w where the row carries a pid. -/
def fixedBits (i : Instr) : BitVec 8 :=
  match i with
  | .busRd8 .. | .busRd16 .. | .busRd32 .. | .busWr8 .. | .busWr16 .. | .busWr32 .. | .ackSlice .. | .advance ..
  | .pollDetect .. | .pollUndetect .. | .div32 .. | .div64 .. => 0xFC
  | .status | .syncRd .. | .syncWr .. | .dmaRun .. | .bankSelect .. | .fill | .resetAll .. | .stateRestored ..
  | .copReset .. | .fbSwap .. | .init .. => 0xFF

/-- The command's header byte has the row's bits. -/
def Statement (i : Instr) : Prop := (encode i).extractLsb' 96 8 &&& fixedBits i = header i

/-- The header byte of a packet built from its fields. -/
theorem header_mkPacket (op : BitVec 4) (w pid : BitVec 2) (addr data cyc : Word) :
    (mkPacket op w pid addr data cyc).extractLsb' 96 8 = (op ++ w ++ pid : BitVec (4 + 2 + 2)) := by
  unfold mkPacket
  ext i hi
  simp only [BitVec.getElem_extractLsb', BitVec.getLsbD_append]
  grind

theorem busRd8 (p : Pid) (a t : Word) : Statement (.busRd8 p a t) := by
  simp only [Statement, encode, header_mkPacket, fixedBits, header]; cases p <;> decide

theorem busRd16 (p : Pid) (a t : Word) : Statement (.busRd16 p a t) := by
  simp only [Statement, encode, header_mkPacket, fixedBits, header]; cases p <;> decide

theorem busRd32 (p : Pid) (a t : Word) : Statement (.busRd32 p a t) := by
  simp only [Statement, encode, header_mkPacket, fixedBits, header]; cases p <;> decide

theorem busWr8 (p : Pid) (a : Word) (d : Byte) (t : Word) : Statement (.busWr8 p a d t) := by
  simp only [Statement, encode, header_mkPacket, fixedBits, header]; cases p <;> decide

theorem busWr16 (p : Pid) (a : Word) (d : Half) (t : Word) : Statement (.busWr16 p a d t) := by
  simp only [Statement, encode, header_mkPacket, fixedBits, header]; cases p <;> decide

theorem busWr32 (p : Pid) (a d t : Word) : Statement (.busWr32 p a d t) := by
  simp only [Statement, encode, header_mkPacket, fixedBits, header]; cases p <;> decide

theorem ackSlice (p : Pid) : Statement (.ackSlice p) := by
  simp only [Statement, encode, header_mkPacket, fixedBits, header]; cases p <;> decide

theorem advance (k : Cop) (n : Word) : Statement (.advance k n) := by
  simp only [Statement, encode, header_mkPacket, fixedBits, header]; cases k <;> decide

theorem status : Statement .status := by
  simp only [Statement, encode, header_mkPacket, fixedBits, header]; decide

theorem pollDetect (p : Pid) (c : RegClass) (a t : Word) : Statement (.pollDetect p c a t) := by
  simp only [Statement, encode, header_mkPacket, fixedBits, header]; cases p <;> decide

theorem pollUndetect (p : Pid) (c : RegClass) : Statement (.pollUndetect p c) := by
  simp only [Statement, encode, header_mkPacket, fixedBits, header]; cases p <;> decide

theorem syncRd (c : RegClass) (t : Word) : Statement (.syncRd c t) := by
  simp only [Statement, encode, header_mkPacket, fixedBits, header]; decide

theorem syncWr (c : RegClass) (t : Word) : Statement (.syncWr c t) := by
  simp only [Statement, encode, header_mkPacket, fixedBits, header]; decide

theorem dmaRun (t : Word) : Statement (.dmaRun t) := by
  simp only [Statement, encode, header_mkPacket, fixedBits, header]; decide

theorem bankSelect (n : Word) : Statement (.bankSelect n) := by
  simp only [Statement, encode, header_mkPacket, fixedBits, header]; decide

theorem fill : Statement .fill := by
  simp only [Statement, encode, header_mkPacket, fixedBits, header]; decide

theorem div32 (k : Cop) : Statement (.div32 k) := by
  simp only [Statement, encode, header_mkPacket, fixedBits, header]; cases k <;> decide

theorem div64 (k : Cop) : Statement (.div64 k) := by
  simp only [Statement, encode, header_mkPacket, fixedBits, header]; cases k <;> decide

theorem resetAll (t : Word) : Statement (.resetAll t) := by
  simp only [Statement, encode, header_mkPacket, fixedBits, header]; decide

theorem stateRestored (t : Word) : Statement (.stateRestored t) := by
  simp only [Statement, encode, header_mkPacket, fixedBits, header]; decide

theorem copReset (t : Word) : Statement (.copReset t) := by
  simp only [Statement, encode, header_mkPacket, fixedBits, header]; decide

theorem fbSwap (h : Bool) : Statement (.fbSwap h) := by
  simp only [Statement, encode, header_mkPacket, fixedBits, header]; decide

theorem init (f : Bool) (t : Word) : Statement (.init f t) := by
  simp only [Statement, encode, header_mkPacket, fixedBits, header]; decide

end Sys2Proof.Laws.Row
end

