-- ==== Sys2Proof/Tests/Slice0.lean ====
section
/-! SUPPORT. The model's own tests: ill-formed terms the checks refuse, words of spec/95_test_vectors.md and what they decode to,
and one or two of its vectors for each command. Expected values are the spec's, named beside each test. -/

namespace Sys2Proof.Tests

set_option Elab.async false

open Sys2Proof.Machine

/-- A result is a next state of which `f` holds. -/
def leads (o : Result) (f : State → Bool) : Bool :=
  match o with
  | .next s => f s
  | _ => false

/-- `b` bytes of RAM from offset `off` hold the bytes of `v`, in the state after reset. -/
def withRam (off b : Nat) (v : Word) : State := memWrite (.ram 0) off b v State.reset

/-- COMM[i] holds `v`. -/
def withComm (i : Nat) (v : Word) (s : State) : State := regStore (.comm i) v s

/-! ## Well-formedness -/

/-- R141: LOCAL is not in SHARED. -/
theorem test_wf_refuses_syncRd_local : (Instr.syncRd .loc 0).wf = false := by decide
theorem test_wf_refuses_syncWr_local : (Instr.syncWr .loc 0).wf = false := by decide

/-- EX satisfies R282. -/
theorem test_wf_accepts_ex : Config.ex.wf = true := by decide +kernel

/-- R62: a MEM entry that runs past its region. -/
theorem test_wf_refuses_view : ({ Config.ex with ramSizes := [0x3FFFF] } : Config).wf = false := by decide +kernel

/-- R5: every parameter is OPEN, so a framebuffer half of an odd number of bytes is a configuration (log 31). -/
theorem test_wf_accepts_odd_half : ({ Config.ex with fb1Size := 0x20001 } : Config).wf = true := by decide +kernel

/-- R61: a processor without slots. -/
theorem test_wf_refuses_decode : ({ Config.ex with nslot := ⟨65536, 65536, 0⟩, fbDraw := [], view0 :=
    { Config.exView0 with scp := Config.everyWidth { rd := [], wr := [] } } } : Config).wf = false := by decide +kernel

/-- R282: CART_SIZE is no multiple of BANK_SIZE; BANK_SLOTS does not cover BANK_SIZE. -/
theorem test_wf_refuses_bank_size : ({ Config.ex with cartSize := 0x210000 } : Config).wf = false := by decide +kernel
theorem test_wf_refuses_bank_slots : ({ Config.ex with bankCount := 7 } : Config).wf = false := by decide +kernel

/-- A framebuffer slot past the half. -/
theorem test_wf_refuses_fb : ({ Config.ex with fbVis := [⟨.pri, .w8, .rd, 0x42, 0x20000⟩] } : Config).wf = false := by
  decide +kernel

/-- R5: a slot that stands in both lists, so that FB_SLOTS has no partition. -/
theorem test_wf_refuses_partition : ({ Config.ex with
    fbDraw := [⟨.pri, .w8, .rd, 0x42, 0⟩], fbVis := [⟨.pri, .w8, .rd, 0x42, 0x10000⟩] } : Config).wf = false := by decide +kernel

/-- R282: RESET_VALUE gives the FS bit 1. -/
theorem test_wf_refuses_resets : ({ Config.ex with resetValue := [(.vdp 3, 1)] } : Config).wf = false := by decide +kernel

/-- R6: a LOCAL register is reached by its own coprocessor only. R26: a 16-bit register at an odd address is none. -/
theorem test_regmap_covers :
    let g : Config := { Config.ex with regmap := [⟨.pri, .loc, 0x50020, .loc .mcp 0⟩, ⟨.scp, .loc, 0x50020, .loc .mcp 0⟩,
      ⟨.mcp, .loc, 0x50020, .loc .mcp 0⟩, ⟨.pri, .sys, 0x10001, .sys 0⟩] }
    regAt g .pri .loc 0x50020 = none ∧ regAt g .scp .loc 0x50020 = none ∧ regAt g .pri .sys 0x10001 = none ∧
    regAt g .mcp .loc 0x50020 = some ⟨.mcp, .loc, 0x50020, .loc .mcp 0⟩ := by decide +kernel

/-- R282: FIFO_CAP below DMA_CHUNK. -/
theorem test_wf_refuses_fifo : ({ Config.ex with fifoCap := 3 } : Config).wf = false := by decide +kernel

/-- Byte lists that are not in canonical form: a key listed twice, and keys that fall. -/
theorem test_wf_refuses_memory : Memory.wf [(5, 1), (5, 1)] = false ∧ Memory.wf [(5, 1), (4, 1)] = false := by decide

/-- R280, I15: a byte that nothing has written reads as its power-on draw, whatever that is; a written zero is listed. -/
theorem test_power_on_memory : State.reset.mem = [] ∧
    readByte State.reset (.ram 0) 5 = Config.powerOnByte (cellKey (.ram 0) 5) ∧
    readByte (memWrite (.ram 0) 5 1 0 State.reset) (.ram 0) 5 = 0 := ⟨rfl, rfl, rfl⟩

/-! ## Decoding, words of 95_test_vectors.md sections 3 and 10 -/

theorem test_decode_reads :
    decode 0x10_00600001_00000000_00000000 = .ok (.busRd8 .pri 0x00600001 0) ∧
    decode 0x15_00020000_00000000_0000000A = .ok (.busRd16 .mcp 0x00020000 10) ∧
    decode 0x1A_00600000_00000000_00000020 = .ok (.busRd32 .scp 0x00600000 0x20) := ⟨rfl, rfl, rfl⟩

theorem test_decode_writes :
    decode 0x20_00020001_000000CD_00000005 = .ok (.busWr8 .pri 0x00020001 0xCD 5) ∧
    decode 0x25_00020002_000000AA_0000005A = .ok (.busWr16 .mcp 0x00020002 0xAA 90) ∧
    decode 0x29_00060004_00600100_00000005 = .ok (.busWr32 .mcp 0x00060004 0x00600100 5) := ⟨rfl, rfl, rfl⟩

theorem test_decode_host :
    decode 0x32_00000000_00000000_00000000 = .ok (.ackSlice .scp) ∧
    decode 0x42_00000000_00000020_00000000 = .ok (.advance .scp 0x20) ∧
    decode 0x50_00000000_00000000_00000000 = .ok .status := ⟨rfl, rfl, rfl⟩

theorem test_decode_poll :
    decode 0x81_00020000_00000003_00000046 = .ok (.pollDetect .mcp .comm 0x00020000 70) ∧
    decode 0x91_00000000_00000003_00000000 = .ok (.pollUndetect .mcp .comm) := ⟨rfl, rfl⟩

theorem test_decode_sync :
    decode 0xA0_00000000_00000003_00000014 = .ok (.syncRd .comm 20) ∧
    decode 0xA4_00000000_00000005_00000064 = .ok (.syncWr .dma 100) := ⟨rfl, rfl⟩

theorem test_decode_units :
    decode 0xB0_00000000_00000000_00000078 = .ok (.dmaRun 120) ∧
    decode 0xC0_00000000_00000003_00000000 = .ok (.bankSelect 3) ∧
    decode 0xD0_00000000_00000000_00000000 = .ok .fill ∧
    decode 0xE1_00000000_00000000_00000000 = .ok (.div32 .mcp) ∧
    decode 0xE6_00000000_00000000_00000000 = .ok (.div64 .scp) := ⟨rfl, rfl, rfl, rfl, rfl⟩

theorem test_decode_control :
    decode 0xF0_00000000_00000000_00000050 = .ok (.resetAll 80) ∧
    decode 0xF1_00000000_00000000_000000C8 = .ok (.stateRestored 200) ∧
    decode 0xF2_00000000_00000000_00000032 = .ok (.copReset 50) ∧
    decode 0xF4_00000000_00000001_00000000 = .ok (.fbSwap true) ∧
    decode 0xF8_00000000_00000001_00000000 = .ok (.init true 0) := ⟨rfl, rfl, rfl, rfl, rfl⟩

/-- The illegal packets of section 3, by name. -/
theorem test_decode_illegal :
    decode 0x00_00001234_00000000_00000000 = .error .reservedOp ∧
    decode 0x1C_00000000_00000000_00000000 = .error .reservedWidth ∧
    decode 0x17_00000000_00000000_00000000 = .error .reservedPid ∧
    decode 0x40_00000000_00000010_00000000 = .error .unlistedPid ∧
    decode 0xF3_00000000_00000000_00000000 = .error .reservedSubcode ∧
    decode 0x81_00020000_00000006_00000046 = .error .reservedClass := ⟨rfl, rfl, rfl, rfl, rfl, rfl⟩

/-- E-6, and an INTERNAL row at the host interface: one A10 and a zero response. -/
theorem test_step_illegal : leads (step { State.reset with queue := [⟨.host, 0x00_00001234_00000000_00000000⟩] })
    (fun t => t.anom == [⟨.a10, some 0, 0x1234⟩] && t.queue == []) = true ∧
    leads (step { State.reset with queue := [⟨.host, 0xB0_00000000_00000000_00000000⟩] })
    (fun t => t.anom == [⟨.a10, some 0, 0⟩]) = true := by decide +kernel

/-! ## Commands, vectors of 95_test_vectors.md sections 4 to 9 -/

/-- B-1 and B-12. -/
theorem test_busRd8 : leads (exec (.busRd8 .mcp 0x00600001 0) (withRam 0 4 0x12345678)) (fun t => t.resp.value == 0x34) = true ∧
    leads (exec (.busRd8 .mcp 0x00020001 0) (withComm 0 0x12AB State.reset))
      (fun t => t.resp.value == 0xAB && (detectorOf t .mcp .comm).anchor == 0x00020001) = true := by decide +kernel

/-- B-2 and S-4. -/
theorem test_busRd16 :
    leads (exec (.busRd16 .mcp 0x00600001 0) (withRam 0 4 0x12345678)) (fun t => t.resp.value == 0x1234) = true ∧
    leads (exec (.busRd16 .pri 0x00020000 1000) (setDirty .comm .pri true State.reset))
      (fun t => !dirtyOf t .comm .pri && t.lastSync == 0 && t.calls == []) = true := by decide +kernel

/-- B-3 and B-15. -/
theorem test_busRd32 :
    leads (exec (.busRd32 .mcp 0x00600002 0) (withRam 0 4 0x12345678)) (fun t => t.resp.value == 0x12345678) = true ∧
    leads (exec (.busRd32 .pri 0x00020000 5) (withComm 1 0x2222 (withComm 0 0x1111 State.reset)))
      (fun t => t.resp == ⟨0x11112222, 2, false⟩ && (detectorOf t .pri .comm).cnt == 1) = true := by decide +kernel

/-- R111, R119: the registers of H_COMM are 16 bits wide, so its entry splits in a slot without registers as well, into two stubs;
H_DIV's are 32 bits wide. -/
theorem test_uniform_handlers_split : handlerSplits Config.ex .mcp .div 0x00770000 = false ∧
    leads (exec (.busRd32 .pri 0x00770000 0) { State.reset with view := Views.put State.reset.view .pri .w32 .rd 0x77 (.hnd .comm) })
      (fun t => t.resp == ⟨0, 2, false⟩ && t.anom == [⟨.a1, some 0, 0x00770000⟩, ⟨.a1, some 0, 0x00770002⟩]) = true := by
  decide +kernel

/-- R117, R141, R143: COMM is dirty, so the high half runs nothing and clears the flag; the low half's gate runs MCP, which writes
both words, before the low word is read. -/
theorem test_split_gates :
    let s : State := setDirty .comm .pri true (withComm 1 0x2222 (withComm 0 0x1111 { State.reset with
      runs := [⟨[.write .w16 0x00020000 0xAAAA 50, .write .w16 0x00020002 0xBBBB 60], some 100⟩] }))
    leads (exec (.busRd32 .pri 0x00020000 100) s)
      (fun t => t.resp.value == 0x1111BBBB && t.lastSync == 100 && dirtyOf t .comm .pri) = true := by decide +kernel

/-- B-5 (the byte operand is DATA[7:0]) and B-14. -/
theorem test_busWr8 : leads (exec (.busWr8 .mcp 0x00600000 0xFF 0) (withRam 0 4 0x12345678))
      (fun t => readByte t (.ram 0) 0 == 0xFF && readByte t (.ram 0) 1 == 0x34) = true ∧
    leads (exec (.busWr8 .pri 0x00020001 0xCD 5) (withComm 0 0x12AB State.reset))
      (fun t => regLoad t (.comm 0) == 0x12CD && dirtyOf t .comm .cop && !dirtyOf t .comm .pri) = true := by decide +kernel

/-- B-4 and G-5. -/
theorem test_busWr16 : leads (exec (.busWr16 .mcp 0x00600003 0xABCD 0) (withRam 0 4 0x12345678))
      (fun t => memRead t (.ram 0) 0 4 == 0x1234ABCD) = true ∧
    leads (exec (.busWr16 .pri 0x00010000 3 50) State.reset)
      (fun t => t.vt == ⟨50, 50⟩ && dirtyOf t .sys .cop &&
        t.calls == [.run .mcp 50, .run .scp 50, .resetCop .mcp, .resetCop .scp]) = true := by decide +kernel

/-- B-6 and B-16. -/
theorem test_busWr32 : leads (exec (.busWr32 .scp 0x00600000 0xDEADBEEF 0) State.reset)
      (fun t => memRead t (.ram 0) 0 4 == 0xDEADBEEF) = true ∧
    leads (exec (.busWr32 .pri 0x00020000 0xAAAABBBB 5) State.reset)
      (fun t => t.resp == ⟨0, 2, false⟩ && regLoad t (.comm 0) == 0xAAAA && regLoad t (.comm 1) == 0xBBBB) = true := by
  decide +kernel

/-- P-14: SPIN stays. -/
theorem test_ackSlice : leads (exec (.ackSlice .mcp) (setSpin .mcp .comm true (setEndSlice .mcp true State.reset)))
    (fun t => !t.endSlice.get .mcp && spinOf t .mcp .comm) = true := by decide +kernel

/-- S-15: virtual time wraps. -/
theorem test_advance : leads (exec (.advance .scp 0x20) (setVt .scp 0xFFFFFFF0 State.reset))
    (fun t => t.vt == ⟨0, 0x10⟩) = true := by decide +kernel

/-- E-4 and E-5. -/
theorem test_status :
    leads (exec .status (setSpin .mcp .comm true (setEndSlice .mcp true State.reset))) (fun t => t.resp.value == 0x02000800)
      = true ∧
    leads (exec .status (setSpin .pri .sys true (setSpin .scp .pwm true (setEndSlice .pri true State.reset))))
      (fun t => t.resp.value == 0x01100001) = true := by decide +kernel

/-- P-8 (a wrapping distance of 2) and P-6 (gap 65). -/
theorem test_pollDetect :
    leads (exec (.pollDetect .mcp .comm 0x00000001 11) (setDetector .mcp .comm ⟨0xFFFFFFFF, 10, 2, true⟩ State.reset))
      (fun t => (detectorOf t .mcp .comm).cnt == 3 && t.resp.value == 0) = true ∧
    leads (exec (.pollDetect .mcp .comm 0x00020000 75) (setDetector .mcp .comm ⟨0x00020000, 10, 2, true⟩ State.reset))
      (fun t => detectorOf t .mcp .comm == ⟨0x00020000, 75, 0, true⟩) = true := by decide +kernel

/-- P-9. -/
theorem test_pollUndetect :
    leads (exec (.pollUndetect .mcp .comm) (setDetector .mcp .comm ⟨0x00020000, 50, 4, true⟩ State.reset))
      (fun t => detectorOf t .mcp .comm == ⟨0, 0, 0, false⟩) = true := by decide +kernel

/-- S-2 (a gap of 32 opens nothing) and S-9 (time never moves back). -/
theorem test_syncRd : leads (exec (.syncRd .comm 32) State.reset) (fun t => t.lastSync == 0 && t.calls == []) = true ∧
    leads (exec (.syncRd .comm 50) (setVt .mcp 100 (setVt .scp 100 (setLastSync 100 State.reset))))
      (fun t => t.lastSync == 100 && t.calls == []) = true := by decide +kernel

/-- S-6 (SCP is ahead) and S-8 (an overshoot is kept). -/
theorem test_syncWr : leads (exec (.syncWr .comm 1100) (setVt .mcp 1000 (setVt .scp 1200 (setLastSync 1000 State.reset))))
      (fun t => t.vt == ⟨1100, 1200⟩ && t.lastSync == 1100 && t.calls == [.run .mcp 100]) = true ∧
    leads (exec (.syncWr .comm 100) { State.reset with runs := [⟨[], some 130⟩] })
      (fun t => t.vt == ⟨130, 100⟩ && t.lastSync == 100) = true := by decide +kernel

/-- R149: a run of SCP that never returns leaves the gate waiting in RUN_SCP. -/
theorem test_gate_waits : (gateStep^[4] (gateStart false .comm 133
      { State.reset with runs := [⟨[], some 133⟩, ⟨[], none⟩] })).phase = .runScp := by decide +kernel

/-- A channel with words w1, w2, ... staged. -/
def staged (tcr : Word) (len : Half) : State :=
  { State.reset with dma := { State.reset.dma with
      dar := 0x00600100, tcr := tcr, len := len, chcr := 1, fifo := [0x1111, 0x2222, 0x3333, 0x4444], rx := 4 } }

/-- D-6 and D-7. -/
theorem test_dmaRun : leads (exec (.dmaRun 120) (staged 4 8))
      (fun t => memRead t (.ram 0) 0x100 4 == 0x11112222 && memRead t (.ram 0) 0x104 4 == 0x33334444 && t.dma.tcr == 0 &&
        t.dma.len == 4 && t.dma.dar == 0x00600108 && t.dma.chcr == 3 && t.anom == [⟨.a6, some 1, 0x00600108⟩]) = true ∧
    leads (exec (.dmaRun 120) (staged 0 8)) (fun t => t.dma == (staged 0 8).dma && t.mem == []) = true := by decide +kernel

/-- R185: TCR - 1 wraps modulo 2^TCR_W; R186: the done bit (bit 1 in EX) takes no part in DMA_EN. -/
theorem test_dma_parameters : ({ Config.ex with tcrW := 16 } : Config).tcrDown 0 = 0xFFFF ∧ Config.ex.tcrDown 0 = 0xFFFFFFFF ∧
    Config.ex.tcrDown 4 = 3 ∧
    ({ Config.ex with dmaEn := [⟨3, 1⟩] } : Config).dmaEnabled 3 = true ∧ Config.ex.dmaEnabled 2 = false := by decide +kernel

/-- P3 steps 11 and 13 (G-8). -/
theorem test_bankSelect : leads (exec (.bankSelect 3) State.reset)
      (fun t => t.bankOff == 0x180000 && resolve t .pri .w8 .rd 0x00900000 == .mem .cart 0x180000 0xFFFF) = true ∧
    leads (exec (.bankSelect 4) State.reset)
      (fun t => t.bankOff == 0 && t.view == State.reset.view && t.anom == [⟨.a7, some 0, 4⟩]) = true := by decide +kernel

/-- G-10: words 0x12FA to 0x12FF, 0x1200, 0x1201. -/
theorem test_fill : leads (exec .fill { State.reset with vdp := [7, 0x12FA, 0x5555, 0] })
    (fun t => memRead t (.fb false) 0x25F4 2 == 0x5555 && memRead t (.fb false) 0x25FE 2 == 0x5555 &&
      memRead t (.fb false) 0x2400 4 == 0x55555555 && t.mem.length == 16) = true := by
  decide +kernel

/-- A state whose MCP division unit has these operands. -/
def dividing (dvsr dvdnt dvdnth dvdntl : Word) : State :=
  setDivu .mcp ⟨dvsr, dvdnt, dvdnth, dvdntl, 3, 1, 3, 1⟩ State.reset

/-- G-13: -7 / 2; G-14: a division by zero with DIV0 = STALE. -/
theorem test_div32 : leads (exec (.div32 .mcp) (dividing 2 0xFFFFFFF9 0 0))
      (fun t => t.divu.mcp == ⟨2, 0xFFFFFFF9, 0, 0, 0xFFFFFFFD, 0xFFFFFFFF, 3, 1⟩) = true ∧
    leads (exec (.div32 .mcp) (dividing 0 100 0 0)) (fun t => t.divu == (dividing 0 100 0 0).divu) = true := by decide +kernel

/-- G-15b: -7 / 2 with a 64-bit dividend; G-15a: -2^32 / 1 clamps, with a free remainder. -/
theorem test_div64 : leads (exec (.div64 .mcp) (dividing 2 0 0xFFFFFFFF 0xFFFFFFF9))
      (fun t => t.divu.mcp == ⟨2, 0, 0xFFFFFFFF, 0xFFFFFFF9, 0xFFFFFFFD, 0xFFFFFFFF, 0xFFFFFFFD, 0xFFFFFFFF⟩) = true ∧
    leads (exec (.div64 .mcp) (dividing 1 0 0xFFFFFFFF 0))
      (fun t => t.divu.mcp.quot == 0x80000000 && t.divu.mcp.quotM == 0x80000000 && t.draws == 1) = true := by decide +kernel

/-- E-7: registers, times and flags; memory and ANOM are kept. -/
theorem test_resetAll : leads (exec (.resetAll 80) (setSpin .mcp .comm true (withComm 0 5
      (regStore (.sys 1) 2 { withRam 0 1 7 with anom := [⟨.a10, some 0, 0x1234⟩], bankOff := 0x100000, fbHalf := true }))))
    (fun t => regLoad t (.sys 0) == 2 && regLoad t (.sys 1) == 0 && regLoad t (.comm 0) == 0 && t.bankOff == 0 && !t.fbHalf &&
      t.vt == ⟨80, 80⟩ && t.lastSync == 80 && !spinOf t .mcp .comm && readByte t (.ram 0) 0 == 7 &&
      t.anom == [⟨.a10, some 0, 0x1234⟩]) = true := by decide +kernel

/-- E-8 and E-9. -/
theorem test_stateRestored :
    leads (exec (.stateRestored 200) { State.reset with
        sys := [2, 3], vdp := [0, 0, 0, 1], dma := { State.reset.dma with fifo := [0x1111], rx := 5, stat := 1 } })
      (fun t => t.bankOff == 0x180000 && t.fbHalf && resolve t .mcp .w16 .wr 0x00400000 == .mem (.fb true) 0 0xFFFF &&
        t.vt == ⟨200, 200⟩ && t.dma.fifo == [0x1111] && t.dma.rx == 5 && t.dma.stat == 0) = true ∧
    leads (exec (.stateRestored 200) { State.reset with sys := [2, 5] })
      (fun t => t.anom == [⟨.a7, some 0, 5⟩] && t.bankOff == 0 && regLoad t (.sys 1) == 5) = true := by decide +kernel

/-- G-7: a coprocessor writer leaves VT; R216: PRI's sets it. -/
theorem test_copReset :
    leads (exec (.copReset 9) { setVt .mcp 40 (setVt .scp 40 State.reset) with writer := .mcp }) (fun t => t.vt == ⟨40, 40⟩)
      = true ∧
    leads (exec (.copReset 50) (setDirty .comm .cop true State.reset))
      (fun t => t.vt == ⟨50, 50⟩ && !dirtyOf t .comm .cop && t.calls == [.resetCop .mcp, .resetCop .scp]) = true := by
  decide +kernel

/-- G-12a. -/
theorem test_fbSwap : leads (exec (.fbSwap true) State.reset)
    (fun t => t.fbHalf && resolve t .pri .w16 .rd 0x00400000 == .mem (.fb true) 0 0xFFFF &&
      resolve t .pri .w16 .rd 0x00420000 == .mem (.fb false) 0 0xFFFF && t.vdp == State.reset.vdp) = true := by decide +kernel

/-- E-2 and E-3. -/
theorem test_init : leads (exec (.init true 0) State.powerOn) (fun t => t.initFailed && t.anom == [⟨.a9, none, 0⟩]) = true ∧
    leads (exec (.init false 0) { State.powerOn with initFailed := true, initialised := true, anom := [⟨.a9, none, 0⟩] })
      (fun t => t == { State.reset with anom := [⟨.a9, none, 0⟩] }) = true := by decide +kernel

/-- E-1: refused before the first INIT. -/
theorem test_refused : exec (.busRd16 .pri 0x00020000 0) State.powerOn = .refused .uninitialised := rfl

/-! ## Witnesses: the hypotheses of every statement can be met together -/

/-- An outcome is a next state. -/
theorem exists_of_leads {o : Result} {f : State → Bool} (h : leads o f = true) : ∃ t, o = .next t ∧ f t = true := by
  cases o with
  | next t => exact ⟨t, rfl, h⟩
  | fault _ => exact absurd h (by simp [leads])
  | refused _ => exact absurd h (by simp [leads])

/-- An outcome is the hang of coprocessor k. -/
def hangs (o : Result) (k : Cop) : Bool :=
  match o with
  | .fault (.coprocessorRunHung j) => j == k
  | _ => false

theorem eq_of_hangs {o : Result} {k : Cop} (h : hangs o k = true) : o = .fault (.coprocessorRunHung k) := by
  cases o with
  | fault e => cases e with | coprocessorRunHung j => simp only [hangs, beq_iff_eq] at h; rw [h]
  | next _ => exact absurd h (by simp [hangs])
  | refused _ => exact absurd h (by simp [hangs])

def sizedB (s : State) : Bool :=
  s.sys.length == s.cfg.nSys && s.vdp.length == s.cfg.nVdp && s.loc.mcp.length == s.cfg.nLoc &&
  s.loc.scp.length == s.cfg.nLoc && s.comm.length == s.cfg.nComm && s.pwm.length == s.cfg.nPwm

theorem sized_of {s : State} (h : sizedB s = true) : s.Sized := by
  simp only [sizedB, Bool.and_eq_true, beq_iff_eq] at h
  obtain ⟨⟨⟨⟨⟨a, b⟩, c⟩, d⟩, e⟩, f⟩ := h
  exact ⟨a, b, c, d, e, f⟩

def readyB (s : State) : Bool := s.initialised && !s.initFailed && s.stop == none

theorem ready_of {s : State} (h : readyB s = true) : s.Ready := by
  simp only [readyB, Bool.and_eq_true, Bool.not_eq_true', beq_iff_eq] at h
  exact ⟨h.1.1, h.1.2, h.2⟩

def invB (s : State) : Bool :=
  s.cfg.wf && Memory.wf s.mem && s.cfg.viewsOk s.view && sizedB s && decide (s.dma.fifo.length ≤ s.cfg.fifoCap) && !s.dma.busy &&
  (Pid.all.all fun p => RegClass.all.all fun c =>
    decide ((detectorOf s p c).cnt ≤ if spinOf s p c then 6 else 5) && (s.cfg.polled p c || !spinOf s p c)) &&
  s.dirty.loc == { pri := false, cop := false } && s.stop == none

theorem inv_of {s : State} (h : invB s = true) : s.Inv := by
  simp only [invB, Bool.and_eq_true, beq_iff_eq, decide_eq_true_eq, Bool.not_eq_true', List.all_eq_true] at h
  obtain ⟨⟨⟨⟨⟨⟨⟨⟨h1, h2⟩, h3⟩, h4⟩, h5⟩, h6⟩, h7⟩, h8⟩, h9⟩ := h
  have key : ∀ p c, (detectorOf s p c).cnt ≤ (if spinOf s p c then 6 else 5) ∧ (s.cfg.polled p c || !spinOf s p c) = true :=
    fun p c => h7 p (by cases p <;> simp [Pid.all]) c (by cases c <;> simp [RegClass.all])
  refine ⟨h1, h2, h3, sized_of h4, h5, h6, fun p c => (key p c).1, fun p c hp => ?_, h8, h9⟩
  have := (key p c).2
  rw [hp] at this; simpa using this

def reachesB (s : State) (p : Pid) (w : Width) (d : Dir) (a : Word) (h : Handler) (q : RegRow) : Bool :=
  resolve s p w d a == .hnd h && regAt s.cfg p h a == some q && (w != .w32 || !handlerSplits s.cfg p h a)

theorem reaches_of {s : State} {p : Pid} {w : Width} {d : Dir} {a : Word} {h : Handler} {q : RegRow}
    (e : reachesB s p w d a h q = true) : ReachesRegister s p w d a h q := by
  simp only [reachesB, Bool.and_eq_true, beq_iff_eq, Bool.or_eq_true, bne_iff_ne, ne_eq, Bool.not_eq_true'] at e
  refine ⟨e.1.1, e.1.2, fun hw => ?_⟩
  rcases e.2 with h | h
  · exact absurd hw h
  · exact h

def writesB (s : State) (p : Pid) (w : Width) (a cyc : Word) (h : Handler) (q : RegRow) : Bool :=
  readyB s && sizedB s && alignDown w a == a && reachesB s p w .wr a h q &&
  (p != .pri || !q.reg.cls.shared || !gapOpen q.reg.cls cyc s)

theorem writes_of {s : State} {p : Pid} {w : Width} {a cyc : Word} {h : Handler} {q : RegRow}
    (e : writesB s p w a cyc h q = true) : WritesRegister s p w a cyc h q := by
  simp only [writesB, Bool.and_eq_true, beq_iff_eq, Bool.or_eq_true, bne_iff_ne, ne_eq, Bool.not_eq_true'] at e
  obtain ⟨⟨⟨⟨a1, a2⟩, a3⟩, a4⟩, a5⟩ := e
  refine ⟨ready_of a1, sized_of a2, a3, reaches_of a4, ?_⟩
  rcases a5 with (h | h) | h
  · exact .inl h
  · exact .inr (.inl h)
  · exact .inr (.inr h)

def readsB (s : State) (p : Pid) (w : Width) (a cyc : Word) (h : Handler) (q : RegRow) : Bool :=
  readyB s && alignDown w a == a && reachesB s p w .rd a h q &&
  (p != .pri || !q.reg.cls.shared || dirtyOf s q.reg.cls .pri || !gapOpen q.reg.cls cyc s)

theorem reads_of {s : State} {p : Pid} {w : Width} {a cyc : Word} {h : Handler} {q : RegRow}
    (e : readsB s p w a cyc h q = true) : ReadsRegister s p w a cyc h q := by
  simp only [readsB, Bool.and_eq_true, beq_iff_eq, Bool.or_eq_true, bne_iff_ne, ne_eq, Bool.not_eq_true'] at e
  obtain ⟨⟨⟨a1, a3⟩, a4⟩, a5⟩ := e
  refine ⟨ready_of a1, a3, reaches_of a4, ?_⟩
  rcases a5 with ((h | h) | h) | h
  · exact .inl h
  · exact .inr (.inl h)
  · exact .inr (.inr (.inl h))
  · exact .inr (.inr (.inr h))

/-- A state in the middle of a program: some RAM, a spinning pair, the times at 100, and one answer of the host to come. -/
def sample : State :=
  { setSpin .mcp .comm true (setDetector .mcp .comm ⟨0x00020000, 70, 6, true⟩ (withRam 0 4 0x12345678)) with
    lastSync := 100, vt := ⟨100, 100⟩, endSlice := ⟨true, false, false⟩, runs := [⟨[.read .w16 0x00020000 90], some 130⟩] }

theorem sample_inv : sample.Inv := inv_of (by decide +kernel)
theorem sample_ready : sample.Ready := ready_of (by decide +kernel)
theorem sample_runs : sample.RunsReturn := by
  intro r hr
  simp only [sample, List.mem_singleton] at hr
  rw [hr]; simp

/-- `sample` with a DMA channel enabled and four words staged for RAM. -/
def sampleDma : State := { sample with dma := (staged 8 8).dma }

theorem sampleDma_inv : sampleDma.Inv := inv_of (by decide +kernel)

/-- `sample` with runs that never return. -/
def sampleHung (k : Cop) : State :=
  { sample with runs := [⟨[], none⟩], vt := match k with | .mcp => ⟨100, 100⟩ | .scp => ⟨1000, 100⟩ }

/-- `sample` whose second run never returns. -/
def sampleHungLate : State := { sample with runs := [⟨[], some 40⟩, ⟨[], none⟩] }

/-! ### Encoding and the step -/

theorem witness_EncodedCommandsDecodeBack : (Instr.syncWr .dma 0xFFFFFFFF).wf = true ∧ (Instr.syncRd .sys 0).wf = true := by decide

theorem witness_PacketBytesAreFramed : (List.replicate 12 (0x10 : Byte)).length < 13 := by decide

theorem witness_DecodedCommandsUseTheirBits :
    decode 0x20_00020001_FFFFFFCD_00000005 = .ok (.busWr8 .pri 0x00020001 0xCD 5) := rfl

theorem witness_StepPerformsTheDecodedCommand : sample.queue = [] ∧
    (decode 0x31_00000000_00000000_00000000 = .ok (.ackSlice .mcp) ∧ (Instr.ackSlice .mcp).internal = false) ∧
    decode 0xF2_00000000_00000000_00000032 = .ok (.copReset 50) := ⟨rfl, ⟨rfl, rfl⟩, rfl⟩

theorem witness_IllegalPacketLogsA10 : sample.Ready ∧ ReservedEncoding 0x1C_00000000_00000000_00000000 ∧
    (InternalRow 0xF4_00000000_00000001_00000000 ∧ Origin.host = .host) := by
  refine ⟨sample_ready, ?_, ?_, rfl⟩
  · unfold ReservedEncoding; decide
  · unfold InternalRow; decide

/-! ### Initialisation, reset and restore -/

theorem witness_CommandsRefusedUntilInit : (∀ f cyc, Instr.status ≠ .init f cyc) ∧ State.powerOn.initialised = false ∧
    ({ State.reset with initFailed := true } : State).initialised = true := ⟨by simp, rfl, rfl⟩

theorem witness_InitFailsOrResets : State.powerOn.cfg.wf = true ∧ State.powerOn.stop = none := ⟨test_wf_accepts_ex, rfl⟩

theorem witness_ResetAllGivesTheResetTable : sample.Ready ∧ sample.cfg.holds (.comm 7) = true ∧ Reg.comm 7 ≠ .dma .stat ∧
    sample.cfg.polled .mcp .comm = true := ⟨sample_ready, by decide +kernel, by decide, by decide +kernel⟩

theorem witness_ResetTwiceIsResetOnce : sample.Ready := sample_ready

/-- Field 3 is the last bank, field 4 starts at CART_SIZE. -/
theorem witness_RestoreRederivesTheBlock : ({ sample with sys := [2, 4] } : State).Ready ∧
    sample.cfg.bankField 3 * 0x80000 = 0x180000 ∧ ¬ (sample.cfg.bankField 4).toNat * sample.cfg.bankSize < sample.cfg.cartSize ∧
    (sample.cfg.bankField 3).toNat * sample.cfg.bankSize < sample.cfg.cartSize :=
  ⟨ready_of (by decide +kernel), by decide +kernel, by decide +kernel, by decide +kernel⟩

theorem witness_RestoreForgetsTheRest : ∃ s s' : State, s.Ready ∧ s'.Ready ∧ s.Inv ∧ s'.Inv ∧ SameSaved s s' ∧ s ≠ s' := by
  refine ⟨sample, { sample with pd := State.reset.pd, spin := State.reset.spin, fbHalf := true }, sample_ready, ready_of (by decide +kernel),
    sample_inv, inv_of (by decide +kernel), ⟨rfl, rfl⟩, ?_⟩
  intro h
  exact absurd (congrArg State.fbHalf h) (by decide)

/-! ### Host commands -/

theorem witness_StatusReturnsTheFlags : sample.Ready := sample_ready
theorem witness_AckClearsEndSlice : sample.Ready := sample_ready
theorem witness_AdvanceMovesVirtualTime : sample.Ready := sample_ready

/-! ### Memory -/

/-- The last word, halfword and byte of RAM slot 0x60. -/
theorem witness_MemoryReadIsBigEndian : sample.Ready ∧ alignDown .w32 0x0060FFFC = 0x0060FFFC ∧
    resolve sample .mcp .w32 .rd 0x0060FFFC = .mem (.ram 0) 0 0xFFFF ∧
    resolve sample .mcp .w16 .rd 0x0060FFFE = .mem (.ram 0) 0 0xFFFF ∧
    resolve sample .scp .w8 .rd 0x0063FFFF = .mem (.ram 0) 0x30000 0xFFFF ∧
    sample.cfg.memOk (.ram 0) 0 0xFFFF = true ∧ sample.cfg.memOk (.ram 0) 0x30000 0xFFFF = true :=
  ⟨sample_ready, by decide, by decide +kernel, by decide +kernel, by decide +kernel, by decide +kernel, by decide +kernel⟩

theorem witness_MemoryWriteStoresBytes : sample.Ready ∧
    alignDown .w16 0x0041FFFE = 0x0041FFFE ∧ resolve sample .pri .w16 .wr 0x0041FFFE = .mem (.fb false) 0x10000 0xFFFF ∧
    sample.cfg.memOk (.fb false) 0x10000 0xFFFF = true :=
  ⟨sample_ready, by decide, by decide +kernel, by decide +kernel⟩

/-- A STUB slot, and the first address past the eight COMM words (B-17). -/
theorem witness_StubAccessesAreLogged : sample.Ready ∧ ReachesStub sample .pri .w32 .wr 0x00700000 ∧
    ReachesStub sample .pri .w16 .rd 0x00020010 := by
  refine ⟨sample_ready, .inl (by decide +kernel), .inr ⟨.comm, by decide +kernel, by decide +kernel, by decide⟩⟩

theorem witness_MisalignedAccesses : (sample.Ready ∧ sample.cfg.misalign = .alignDown) ∧
    (let s : State := { sample with cfg := { Config.ex with misalign := .refuse } }
     s.Ready ∧ s.cfg.misalign = .refuse ∧ (0x00600003 : Word) &&& ~~~1 ≠ 0x00600003) :=
  ⟨⟨sample_ready, rfl⟩, ready_of (by decide +kernel), rfl, by decide⟩

theorem witness_AccessesStayInTheirEntry :
    (sample.cfg.memOk (.ram 0) 0x10000 0xFFFF = true ∧ alignDown .w32 0x0061FFFC = 0x0061FFFC) ∧
    (let g : Config := { Config.ex with nslot := ⟨256, 256, 256⟩ }
     (0x00600000 : Word).toNat % (2 ^ g.shift.get .mcp * g.nslot.get .mcp) =
       (0x01600000 : Word).toNat % (2 ^ g.shift.get .mcp * g.nslot.get .mcp)) := by decide +kernel

/-- COMM word i in PRI's register map. -/
def commRow (i : Nat) (a : Word) : RegRow := ⟨.pri, .comm, a, .comm i⟩

/-- `sample` on a platform where PRI does not see COMM word 0: the high half of its split access reaches no register. -/
def sampleLow : State := { sample with cfg := { Config.ex with regmap := Config.ex.regmap.filter (· != commRow 0 0x00020000) } }

/-- A half of the witness. -/
def halfCmd (d : Dir) (a : Word) : Instr :=
  match d with
  | .rd => .busRd16 .pri a 500
  | .wr => .busWr16 .pri a 1 500

/-- PRI's gate opens in the low half alone where the high half reaches no register, else in the high half, which leaves LAST_SYNC =
CYC; both halves complete. -/
theorem witness_SplitAccessGates (d : Dir) : alignDown .w32 0x00020000 = 0x00020000 ∧
    (sampleLow.Ready ∧ ReachesSplit sampleLow .pri d 0x00020000 ∧ ∃ x y, exec (halfCmd d 0x00020000) sampleLow = .next x ∧
      exec (halfCmd d (0x00020000 + 2)) { x with resp := sampleLow.resp } = .next y ∧ x.lastSync ≠ 500 ∧ y.lastSync = 500) ∧
    (sample.Ready ∧ ReachesSplit sample .pri d 0x00020000 ∧ ∃ x y, exec (halfCmd d 0x00020000) sample = .next x ∧
      exec (halfCmd d (0x00020000 + 2)) { x with resp := sample.resp } = .next y ∧ x.lastSync = 500) := by
  refine ⟨by decide, ⟨ready_of (by decide +kernel), .inr ⟨.comm, by cases d <;> decide +kernel, by decide +kernel⟩, ?_⟩,
    sample_ready, .inr ⟨.comm, by cases d <;> decide +kernel, by decide +kernel⟩, ?_⟩
  · obtain ⟨x, h1, h2⟩ := exists_of_leads (o := exec (halfCmd d 0x00020000) sampleLow)
      (f := fun x => x.lastSync != 500 &&
        leads (exec (halfCmd d (0x00020000 + 2)) { x with resp := sampleLow.resp }) (fun y => y.lastSync == 500))
      (by cases d <;> decide +kernel)
    simp only [Bool.and_eq_true, bne_iff_ne] at h2
    obtain ⟨y, h3, h4⟩ := exists_of_leads h2.2
    exact ⟨x, y, h1, h3, h2.1, by simpa using h4⟩
  · obtain ⟨x, h1, h2⟩ := exists_of_leads (o := exec (halfCmd d 0x00020000) sample)
      (f := fun x => x.lastSync == 500 &&
        leads (exec (halfCmd d (0x00020000 + 2)) { x with resp := sample.resp }) (fun _ => true))
      (by cases d <;> decide +kernel)
    simp only [Bool.and_eq_true, beq_iff_eq] at h2
    obtain ⟨y, h3, _⟩ := exists_of_leads h2.2
    exact ⟨x, y, h1, h3, h2.1⟩

/-- A block whose next run never returns. -/
def hanging (s : State) : State := { s with runs := [⟨[], none⟩] }

/-- A run that hangs in the high half. -/
theorem witness_SplitAccessHangsHigh (d : Dir) : (hanging sample).Ready ∧ ReachesSplit (hanging sample) .pri d 0x00020000 ∧
    exec (halfCmd d 0x00020000) (hanging sample) = .fault (.coprocessorRunHung .mcp) :=
  ⟨ready_of (by decide +kernel), .inr ⟨.comm, by cases d <;> decide +kernel, by decide +kernel⟩,
    eq_of_hangs (by cases d <;> decide +kernel)⟩

/-- One that hangs in the low half. -/
theorem witness_SplitAccessHangsLow (d : Dir) : (hanging sampleLow).Ready ∧ ReachesSplit (hanging sampleLow) .pri d 0x00020000 ∧
    ∃ x, exec (halfCmd d 0x00020000) (hanging sampleLow) = .next x ∧
      exec (halfCmd d (0x00020000 + 2)) { x with resp := sampleLow.resp } = .fault (.coprocessorRunHung .mcp) := by
  refine ⟨ready_of (by decide +kernel), .inr ⟨.comm, by cases d <;> decide +kernel, by decide +kernel⟩, ?_⟩
  obtain ⟨x, h1, h2⟩ := exists_of_leads (o := exec (halfCmd d 0x00020000) (hanging sampleLow))
    (f := fun x => hangs (exec (halfCmd d (0x00020000 + 2)) { x with resp := sampleLow.resp }) .mcp)
    (by cases d <;> decide +kernel)
  exact ⟨x, h1, eq_of_hangs h2⟩

/-- H_COMM has registers of one width, 16 bits, for every processor. -/
theorem witness_HandlerOfOneWidth : alignDown .w32 0x00770000 = 0x00770000 ∧
    (∃ q ∈ Config.ex.regmap, q.handler = .comm ∧ Config.ex.covers q = true ∧ q.pid = .pri) ∧
    ∀ q ∈ Config.ex.regmap, q.handler = .comm → Config.ex.covers q = true → q.reg.bytes = 2 := by
  refine ⟨by decide, ⟨commRow 0 0x00020000, by decide +kernel⟩, by decide +kernel⟩

/-- B-15 and B-16: both halves complete. -/
theorem witness_SplitAccessIsTwoHalves : sample.Ready ∧ alignDown .w32 0x00020000 = 0x00020000 ∧
    ReachesSplit sample .mcp .rd 0x00020000 ∧ ReachesSplit sample .mcp .wr 0x00020000 ∧
    (∃ t u, exec (.busRd16 .mcp 0x00020000 5) sample = .next t ∧
      exec (.busRd16 .mcp (0x00020000 + 2) 5) { t with resp := sample.resp } = .next u) ∧
    (∃ t u, exec (.busWr16 .mcp 0x00020000 0xAAAA 5) sample = .next t ∧
      exec (.busWr16 .mcp (0x00020000 + 2) 0xBBBB 5) { t with resp := sample.resp } = .next u) := by
  refine ⟨sample_ready, by decide, .inr ⟨.comm, by decide +kernel, by decide +kernel⟩,
    .inr ⟨.comm, by decide +kernel, by decide +kernel⟩, ?_, ?_⟩
  · obtain ⟨t, h1, h2⟩ := exists_of_leads (o := exec (.busRd16 .mcp 0x00020000 5) sample)
      (f := fun t => leads (exec (.busRd16 .mcp (0x00020000 + 2) 5) { t with resp := sample.resp }) fun _ => true)
      (by decide +kernel)
    obtain ⟨u, h3, _⟩ := exists_of_leads h2
    exact ⟨t, u, h1, h3⟩
  · obtain ⟨t, h1, h2⟩ := exists_of_leads (o := exec (.busWr16 .mcp 0x00020000 0xAAAA 5) sample)
      (f := fun t => leads (exec (.busWr16 .mcp (0x00020000 + 2) 0xBBBB 5) { t with resp := sample.resp }) fun _ => true)
      (by decide +kernel)
    obtain ⟨u, h3, _⟩ := exists_of_leads h2
    exact ⟨t, u, h1, h3⟩

theorem witness_RegisterLanesAreBigEndian : (1 < 2 ∧ 3 < 4) ∧ ((4 = 2 ∨ 4 = 4) ∧ 2 % Width.w16.bytes = 0 ∧ 2 + Width.w16.bytes ≤ 4 ∧
    (1 < 4 ∧ (1 < 2 ∨ 2 + Width.w16.bytes ≤ 1))) := by decide

/-! ### Registers -/

/-- A coprocessor's read, PRI's reads inside the window and behind the dirty flag, and a 32-bit register. -/
theorem witness_HandlerReadEffects :
    ReadsRegister sample .mcp .w16 0x00020000 90 .comm ⟨.mcp, .comm, 0x00020000, .comm 0⟩ ∧
    ReadsRegister sample .pri .w8 0x0002000F 132 .comm ⟨.pri, .comm, 0x0002000E, .comm 7⟩ ∧
    ReadsRegister (setDirty .sys .pri true sample) .pri .w16 0x00010002 1000 .sys ⟨.pri, .sys, 0x00010002, .sys 1⟩ ∧
    ReadsRegister sample .mcp .w32 0x0006000C 0 .dma ⟨.mcp, .dma, 0x0006000C, .dma .chcr⟩ :=
  ⟨reads_of (by decide +kernel), reads_of (by decide +kernel), reads_of (by decide +kernel), reads_of (by decide +kernel)⟩

/-- An open gate: MCP and SCP run before the read. -/
theorem witness_PrimaryReadSyncsFirst : ∃ t, sample.Ready ∧ alignDown .w16 0x00020000 = 0x00020000 ∧
    ReachesRegister sample .pri .w16 .rd 0x00020000 .comm ⟨.pri, .comm, 0x00020000, .comm 0⟩ ∧ RegClass.comm.shared = true ∧
    exec (.syncRd .comm 133) sample = .next t := by
  obtain ⟨t, h, _⟩ := exists_of_leads (o := exec (.syncRd .comm 133) sample) (f := fun _ => true) (by decide +kernel)
  exact ⟨t, sample_ready, by decide, reaches_of (by decide +kernel), rfl, h⟩

theorem witness_PrimaryWriteSyncsFirst : ∃ t, sample.Ready ∧ alignDown .w16 0x00020000 = 0x00020000 ∧
    ReachesRegister sample .pri .w16 .wr 0x00020000 .comm ⟨.pri, .comm, 0x00020000, .comm 0⟩ ∧
    ReachesRegister t .pri .w16 .wr 0x00020000 .comm ⟨.pri, .comm, 0x00020000, .comm 0⟩ ∧ RegClass.comm.shared = true ∧
    exec (.syncWr .comm 133) sample = .next t := by
  obtain ⟨t, h, h2⟩ := exists_of_leads (o := exec (.syncWr .comm 133) sample)
    (f := fun t => reachesB t .pri .w16 .wr 0x00020000 .comm ⟨.pri, .comm, 0x00020000, .comm 0⟩) (by decide +kernel)
  exact ⟨t, sample_ready, by decide, reaches_of (by decide +kernel), reaches_of h2, rfl, h⟩

/-- A 16-bit word by PRI inside the window, a byte lane by a coprocessor, a 32-bit register and a read-only one. -/
theorem witness_PlainWriteEffects :
    (WritesRegister sample .pri .w16 0x00040000 132 .vdp ⟨.pri, .vdp, 0x00040000, .vdp 0⟩ ∧
      plainReg sample.cfg (.vdp 0) = true) ∧
    (WritesRegister sample .scp .w8 0x00040003 0 .vdp ⟨.scp, .vdp, 0x00040002, .vdp 1⟩ ∧ plainReg sample.cfg (.vdp 1) = true) ∧
    (WritesRegister sample .mcp .w32 0x00060004 0 .dma ⟨.mcp, .dma, 0x00060004, .dma .dar⟩ ∧
      plainReg sample.cfg (.dma .dar) = true) ∧
    (WritesRegister sample .scp .w16 0x0005001A 0 .div ⟨.scp, .div, 0x00050018, .div .scp .quot⟩ ∧
      plainReg sample.cfg (.div .scp .quot) = true) :=
  ⟨⟨writes_of (by decide +kernel), by decide +kernel⟩, ⟨writes_of (by decide +kernel), by decide +kernel⟩,
    ⟨writes_of (by decide +kernel), by decide +kernel⟩, ⟨writes_of (by decide +kernel), by decide +kernel⟩⟩

theorem witness_CommWriteEffects :
    WritesRegister sample .mcp .w16 0x0002000E 90 .comm ⟨.mcp, .comm, 0x0002000E, .comm 7⟩ := writes_of (by decide +kernel)

/-- A COMM write that changes the value, and a VDP write behind an open gate. -/
theorem witness_MarkedWriteWakesTheOthers : sample.Inv ∧
    (∃ t, WritesRegister sample .pri .w16 0x00020000 120 .comm ⟨.pri, .comm, 0x00020000, .comm 0⟩ ∧
      storedValue sample (.comm 0) (presented sample ⟨.pri, .comm, 0x00020000, .comm 0⟩ 0x00020000 1 .w16) ≠
        regLoad sample (.comm 0) ∧ exec (writeCmd .w16 .pri 0x00020000 1 120) sample = .next t) ∧
    (∃ t, (∀ i, Reg.vdp 0 ≠ .comm i) ∧
      ReachesRegister sample .pri .w16 .wr 0x00040000 .vdp ⟨.pri, .vdp, 0x00040000, .vdp 0⟩ ∧
      exec (writeCmd .w16 .pri 0x00040000 1 500) sample = .next t) := by
  refine ⟨sample_inv, ?_, ?_⟩
  · obtain ⟨t, h, _⟩ := exists_of_leads (o := exec (writeCmd .w16 .pri 0x00020000 1 120) sample) (f := fun _ => true)
      (by decide +kernel)
    exact ⟨t, writes_of (by decide +kernel), by decide +kernel, h⟩
  · obtain ⟨t, h, _⟩ := exists_of_leads (o := exec (writeCmd .w16 .pri 0x00040000 1 500) sample) (f := fun _ => true)
      (by decide +kernel)
    exact ⟨t, by simp, reaches_of (by decide +kernel), h⟩

/-! ### Units -/

theorem witness_CopResetEffects : sample.Ready := sample_ready

/-- Writing 3 raises RES_BIT, writing 2 does not. -/
theorem witness_ResetEnableEdge :
    let q : RegRow := ⟨.pri, .sys, 0x00010000, .sys 0⟩
    WritesRegister sample .pri .w16 0x00010000 110 .sys q ∧ q.reg = .sys sample.cfg.resReg ∧
    (storedValue sample q.reg (presented sample q 0x00010000 3 .w16)).getLsbD sample.cfg.resBit = true ∧
    (storedValue sample q.reg (presented sample q 0x00010000 2 .w16)).getLsbD sample.cfg.resBit = false ∧
    (regLoad sample q.reg).getLsbD sample.cfg.resBit = false ∧ sample.cfg.resReg ≠ sample.cfg.bankReg ∧
    sample.cfg.polled .mcp .comm = true :=
  ⟨writes_of (by decide +kernel), rfl, by decide +kernel, by decide +kernel, by decide +kernel, by decide +kernel, by decide +kernel⟩

/-- Fields 0 (unchanged), 3 (the last bank) and 4 (refused). -/
theorem witness_BankFieldWrite :
    let q : RegRow := ⟨.mcp, .sys, 0x00010002, .sys 1⟩
    let n := fun v => sample.cfg.bankField (storedValue sample q.reg (presented sample q 0x00010002 v .w16))
    WritesRegister sample .mcp .w16 0x00010002 0 .sys q ∧ q.reg = .sys sample.cfg.bankReg ∧
    n 0 = sample.cfg.bankField (regLoad sample q.reg) ∧ n 3 = 3 ∧ n 4 = 4 ∧
    sample.cfg.cartSize = 4 * sample.cfg.bankSize :=
  ⟨writes_of (by decide +kernel), rfl, by decide +kernel, by decide +kernel, by decide +kernel, by decide +kernel⟩

theorem witness_BankSelectMapsTheWindow : sample.Ready ∧ sample.cfg.viewsOk sample.view = true ∧
    sample.cfg.cartSize ≤ (4 : Word).toNat * sample.cfg.bankSize ∧ (3 : Word).toNat * sample.cfg.bankSize < sample.cfg.cartSize :=
  ⟨sample_ready, sample_inv.views, by decide +kernel, by decide +kernel⟩

/-- A half of EX holds every row; in a half of 7 bytes the word at offset 3 lies at byte 6 and its second byte past the end. -/
theorem witness_FillWrapsInItsRow : sample.Ready ∧ sample.cfg.regionSize (.fb sample.fbHalf) % 2 = 0 ∧
    fillByte 7 3 0 = 6 ∧ ¬ fillByte 7 3 0 + 1 < 7 ∧ fillByte 7 4 0 = 0 := ⟨sample_ready, by decide +kernel, by decide, by decide, by decide⟩

theorem witness_FillDataWriteFills :
    WritesRegister sample .scp .w16 0x00040004 0 .vdp ⟨.scp, .vdp, 0x00040004, .vdp 2⟩ ∧
    Reg.vdp 2 = .vdp sample.cfg.fillData ∧ sample.cfg.fillData ≠ sample.cfg.fsReg :=
  ⟨writes_of (by decide +kernel), rfl, by decide +kernel⟩

/-- A slot of no list, a visible slot and a drawn one, each listed once. -/
theorem witness_FbSwapRemapsTheSlots : sample.Ready ∧ sample.cfg.viewsOk sample.view = true ∧
    (∀ f ∈ sample.cfg.fbDraw ++ sample.cfg.fbVis, ¬ (f.pid = .pri ∧ f.width = .w8 ∧ f.dir = .rd ∧ f.slot = 0x44)) ∧
    (let f : FbSlot := ⟨.pri, .w8, .rd, 0x43, 0x10000⟩
     f ∈ sample.cfg.fbVis ∧ ∀ f' ∈ sample.cfg.fbVis,
       (f'.pid = f.pid ∧ f'.width = f.width ∧ f'.dir = f.dir ∧ f'.slot = f.slot) → f'.base = f.base) ∧
    (let f : FbSlot := ⟨.scp, .w32, .wr, 0x41, 0x10000⟩
     f ∈ sample.cfg.fbDraw ∧
     (∀ f' ∈ sample.cfg.fbVis, ¬ (f'.pid = f.pid ∧ f'.width = f.width ∧ f'.dir = f.dir ∧ f'.slot = f.slot)) ∧
     ∀ f' ∈ sample.cfg.fbDraw, (f'.pid = f.pid ∧ f'.width = f.width ∧ f'.dir = f.dir ∧ f'.slot = f.slot) → f'.base = f.base) :=
  ⟨sample_ready, sample_inv.views, by decide +kernel, by decide +kernel, by decide +kernel⟩

/-- The gate of EX is open; without a test list it is closed. -/
theorem witness_SwapIsGated :
    let q : RegRow := ⟨.mcp, .vdp, 0x00040006, .vdp 3⟩
    let closed : State := { sample with cfg := { Config.ex with fbGate := [] } }
    (WritesRegister sample .mcp .w16 0x00040006 0 .vdp q ∧ q.reg = .vdp sample.cfg.fsReg ∧
      sample.cfg.gateOpen sample.vdp = true) ∧
    (WritesRegister closed .mcp .w16 0x00040006 0 .vdp q ∧ closed.cfg.gateOpen closed.vdp = false) ∧
    sample.cfg.fillData ≠ sample.cfg.fsReg :=
  ⟨⟨writes_of (by decide +kernel), rfl, by decide +kernel⟩, ⟨writes_of (by decide +kernel), by decide +kernel⟩, by decide +kernel⟩

/-- The overflow, its neighbours, and the two settings of DIV0. -/
theorem witness_Div32Results : sample.Ready ∧ (0x80000000 : Word).toInt = -2147483648 ∧ (0xFFFFFFFF : Word).toInt = -1 ∧
    (0x80000001 : Word).toInt ≠ -2147483648 ∧ sample.cfg.div0 = .stale ∧
    ({ Config.ex with div0 := .zero } : Config).div0 = .zero :=
  ⟨sample_ready, by decide, by decide, by decide, rfl, rfl⟩

/-- 2^31 - 1 and 2^31, -2^31 and -2^31 - 1, over 1 (G-15c, G-15d). -/
theorem witness_Div64Results : sample.Ready ∧ ((0 : Word) ++ (0x7FFFFFFF : Word) : BitVec (32 + 32)).toInt.tdiv 1 ≤ 2147483647 ∧
    2147483647 < ((0 : Word) ++ (0x80000000 : Word) : BitVec (32 + 32)).toInt.tdiv 1 ∧
    -2147483648 ≤ ((0xFFFFFFFF : Word) ++ (0x80000000 : Word) : BitVec (32 + 32)).toInt.tdiv 1 ∧
    ((0xFFFFFFFF : Word) ++ (0x7FFFFFFF : Word) : BitVec (32 + 32)).toInt.tdiv 1 < -2147483648 :=
  ⟨sample_ready, by decide, by decide, by decide, by decide⟩

theorem witness_DividendWriteDivides :
    WritesRegister sample .mcp .w32 0x00050004 0 .div ⟨.mcp, .div, 0x00050004, .div .mcp .dvdnt⟩ ∧
    WritesRegister sample .scp .w16 0x00050016 0 .div ⟨.scp, .div, 0x00050014, .div .scp .dvdntl⟩ :=
  ⟨writes_of (by decide +kernel), writes_of (by decide +kernel)⟩

/-! ### The gate -/

/-- A gap of 32 is inside the tolerance, 33 is not (S-2, S-3). -/
theorem witness_SyncReadBranches : sample.Ready ∧ RegClass.comm.shared = true ∧
    dirtyOf (setDirty .comm .pri true sample) .comm .pri = true ∧ dirtyOf sample .comm .pri = false ∧
    ¬ (0 < ((132 : Word) - sample.lastSync).toInt ∧
      (sample.cfg.syncGap.get .comm).toNat < ((132 : Word) - sample.lastSync).toNat) :=
  ⟨sample_ready, rfl, by decide +kernel, by decide +kernel, by decide +kernel⟩

theorem witness_OpenGateRunsTheCoprocessors : (sample.Ready ∧ sample.Inv ∧ sample.cfg.misalign = .alignDown ∧ sample.RunsReturn) ∧
    (0 < ((133 : Word) - sample.lastSync).toInt ∧ (sample.cfg.syncGap.get .comm).toNat < ((133 : Word) - sample.lastSync).toNat) ∧
    (0 < ((133 : Word) - sample.vt.mcp).toInt ∧ 0 < ((133 : Word) - sample.vt.scp).toInt ∧
      nextCmds sample.runs = [.read .w16 0x00020000 90] ∧ nextCmds sample.runs.tail = []) ∧
    ((sampleHung .mcp).Ready ∧ (sampleHung .mcp).Inv ∧ (sampleHung .mcp).runs = [⟨[], none⟩] ∧
      0 < ((133 : Word) - (sampleHung .mcp).vt.get .mcp).toInt) ∧
    ((sampleHung .scp).Ready ∧ (sampleHung .scp).Inv ∧ ¬ 0 < ((133 : Word) - (sampleHung .scp).vt.get .mcp).toInt ∧
      0 < ((133 : Word) - (sampleHung .scp).vt.get .scp).toInt) ∧
    (sampleHungLate.Ready ∧ sampleHungLate.Inv ∧ 0 < ((133 : Word) - sampleHungLate.vt.get .mcp).toInt ∧
      0 < ((133 : Word) - sampleHungLate.vt.get .scp).toInt ∧ sampleHungLate.runs.tail = [⟨[], none⟩]) ∧
    ¬ (∃ cmds later, sample.runs = ⟨cmds, none⟩ :: later) ∧ ¬ (∃ cmds later, sample.runs.tail = ⟨cmds, none⟩ :: later) ∧
    ¬ (∃ cmds later, sampleHungLate.runs = ⟨cmds, none⟩ :: later) :=
  ⟨⟨sample_ready, sample_inv, rfl, sample_runs⟩, by decide +kernel, ⟨by decide, by decide, rfl, rfl⟩,
    ⟨ready_of (by decide +kernel), inv_of (by decide +kernel), rfl, by decide +kernel⟩,
    ⟨ready_of (by decide +kernel), inv_of (by decide +kernel), by decide +kernel, by decide +kernel⟩,
    ⟨ready_of (by decide +kernel), inv_of (by decide +kernel), by decide +kernel, by decide +kernel, rfl⟩,
    by simp [sample], by simp [sample], by simp [sampleHungLate]⟩

theorem witness_GateNeverMovesTimeBack : (∃ t, RegClass.dma.shared = true ∧ exec (.syncWr .dma 133) sample = .next t) ∧
    ∀ r ∈ sample.runs, ∀ used, r.used = some used → used.toNat < 2 ^ 31 := by
  refine ⟨?_, ?_⟩
  · obtain ⟨t, h, _⟩ := exists_of_leads (o := exec (.syncWr .dma 133) sample) (f := fun _ => true) (by decide +kernel)
    exact ⟨t, rfl, h⟩
  · intro r hr used hu
    simp only [sample, List.mem_singleton] at hr
    rw [hr] at hu
    cases hu; decide

/-- A gate that opened, and another class whose own tolerance the same NOW exceeds. -/
theorem witness_GateIsIdempotent : (∃ t, RegClass.comm.shared = true ∧ exec (.syncWr .comm 133) sample = .next t) ∧
    RegClass.dma.shared = true ∧ 0 < ((133 : Word) - sample.lastSync).toInt ∧
    (sample.cfg.syncGap.get .comm).toNat < ((133 : Word) - sample.lastSync).toNat := by
  obtain ⟨t, h, _⟩ := exists_of_leads (o := exec (.syncWr .comm 133) sample) (f := fun _ => true) (by decide +kernel)
  exact ⟨⟨t, rfl, h⟩, rfl, by decide +kernel, by decide +kernel⟩

theorem witness_GateFsmRefinesTheCommands : (sample.Ready ∧ ∃ t, exec (.syncRd .comm 133) sample = .next t) ∧
    ((sampleHung .mcp).Ready ∧ exec (.syncWr .comm 133) (sampleHung .mcp) = .fault (.coprocessorRunHung .mcp)) := by
  refine ⟨⟨sample_ready, ?_⟩, ready_of (by decide +kernel), eq_of_hangs (by decide +kernel)⟩
  obtain ⟨t, h, _⟩ := exists_of_leads (o := exec (.syncRd .comm 133) sample) (f := fun _ => true) (by decide +kernel)
  exact ⟨t, h⟩

/-! ### Poll detectors -/

theorem witness_PollDetectObserves : sample.Ready ∧ (sample.cfg.polled .mcp .comm = true ∧ spinOf sample .mcp .comm = true) ∧
    (sample.cfg.polled .pri .pwm = true ∧ spinOf sample .pri .pwm = false) :=
  ⟨sample_ready, by decide +kernel, by decide +kernel⟩

/-- P-1, with a gap of exactly POLL_MAXGAP at the end. -/
theorem witness_PollFiresOnTheSeventhCall : State.reset.Ready ∧ State.reset.cfg.polled .mcp .comm = true ∧
    spinOf State.reset .mcp .comm = false ∧ (detectorOf State.reset .mcp .comm).valid = false ∧
    ∀ i, (h : i + 1 < ([10, 20, 30, 40, 50, 60, 70, 134] : List Word).length) →
      (([10, 20, 30, 40, 50, 60, 70, 134] : List Word)[i + 1] - ([10, 20, 30, 40, 50, 60, 70, 134] : List Word)[i]).toNat ≤
        (State.reset.cfg.pollMaxgap.get .comm).toNat := by
  refine ⟨ready_of (by decide +kernel), by decide +kernel, by decide +kernel, by decide +kernel, ?_⟩
  intro i h
  have hi : i < 7 := by simp at h; omega
  have hg : (State.reset.cfg.pollMaxgap.get .comm).toNat = 64 := by decide +kernel
  rw [hg]
  interval_cases i <;> simp

theorem witness_PollUndetectClears : sample.Ready ∧ sample.cfg.polled .mcp .dma = false ∧ sample.cfg.polled .mcp .comm = true :=
  ⟨sample_ready, by decide +kernel, by decide +kernel⟩

theorem witness_OnlyReadsSetSpin : ∃ t, NeverDetects (.dmaRun 120) ∧ exec (.dmaRun 120) sampleDma = .next t ∧
    spinOf sampleDma .pri .comm = false := by
  obtain ⟨t, h, _⟩ := exists_of_leads (o := exec (.dmaRun 120) sampleDma) (f := fun _ => true) (by decide +kernel)
  exact ⟨t, trivial, h, by decide +kernel⟩

/-! ### DMA -/

/-- A full FIFO, a push that triggers nothing, the fourth push, and the fourth push by a transfer's own write. -/
theorem witness_FifoPushAndTrigger :
    let q : RegRow := ⟨.scp, .dma, 0x00030000, .dma .fifoData⟩
    let full : State := { sample with dma := { sample.dma with fifo := [1, 2, 3, 4, 5, 6, 7, 8] } }
    let third : State := { sample with dma := { sample.dma with chcr := 1, fifo := [1, 2, 3], rx := 3 } }
    (WritesRegister full .scp .w16 0x00030000 0 .dma q ∧ full.dma.fifo.length = full.cfg.fifoCap) ∧
    (WritesRegister sample .scp .w16 0x00030000 0 .dma q ∧
      sample.dma.fifo.length ≠ sample.cfg.fifoCap ∧ (sample.dma.rx + 1).toNat % 4 ≠ 0) ∧
    (WritesRegister third .scp .w16 0x00030000 0 .dma q ∧ third.dma.fifo.length ≠ third.cfg.fifoCap ∧
      (third.dma.rx + 1).toNat % 4 = 0 ∧ third.cfg.dmaEnabled third.dma.chcr = true ∧ third.dma.busy = false) ∧
    (WritesRegister (setBusy true third) .scp .w16 0x00030000 0 .dma q ∧ (setBusy true third).dma.busy ≠ false) ∧
    ∃ u, exec (.dmaRun 0) { third with dma := { third.dma with
      fifoData := 4, fifo := [1, 2, 3, 4], rx := 4, stat := setHalfBit third.dma.stat third.cfg.statFullBit false } } = .next u := by
  intro q full third
  refine ⟨⟨writes_of (by decide +kernel), by decide +kernel⟩,
    ⟨writes_of (by decide +kernel), by decide +kernel, by decide +kernel⟩,
    ⟨writes_of (by decide +kernel), by decide +kernel, by decide +kernel, by decide +kernel, rfl⟩,
    ⟨writes_of (by decide +kernel), by decide +kernel⟩, ?_⟩
  obtain ⟨t, h, _⟩ := exists_of_leads (o := exec (.dmaRun 0) { third with dma := { third.dma with
      fifoData := 4, fifo := [1, 2, 3, 4], rx := 4, stat := setHalfBit third.dma.stat third.cfg.statFullBit false } })
    (f := fun _ => true) (by decide +kernel)
  exact ⟨t, h⟩

/-- D-4a: a channel enabled with words staged; one with none; and one that is BUSY. -/
theorem witness_ChcrWriteStartsStagedWords :
    let q : RegRow := ⟨.mcp, .dma, 0x0006000C, .dma .chcr⟩
    let stored := storedValue sampleDma q.reg (presented sampleDma q 0x0006000C 1 .w32)
    (WritesRegister sample .mcp .w32 0x0006000C 0 .dma q ∧ sample.dma.fifo = []) ∧
    (WritesRegister (setBusy true sampleDma) .mcp .w32 0x0006000C 0 .dma q ∧ (setBusy true sampleDma).dma.busy = true) ∧
    (WritesRegister sampleDma .mcp .w32 0x0006000C 0 .dma q ∧ sampleDma.dma.busy = false ∧ sampleDma.dma.fifo ≠ [] ∧
      sampleDma.cfg.dmaEnabled stored = true ∧
      ∃ u, exec (.dmaRun 0) { sampleDma with
        dma := { sampleDma.dma with chcr := stored }
        anom := sampleDma.anom ++ lockedLog sampleDma .mcp 0x0006000C q.reg (regLoad sampleDma q.reg) (presented sampleDma q 0x0006000C 1 .w32) } =
        .next u) := by
  intro q stored
  refine ⟨⟨writes_of (by decide +kernel), rfl⟩, ⟨writes_of (by decide +kernel), rfl⟩,
    writes_of (by decide +kernel), rfl, by decide +kernel, by decide +kernel, ?_⟩
  obtain ⟨t, h, _⟩ := exists_of_leads (o := exec (.dmaRun 0) { sampleDma with
      dma := { sampleDma.dma with chcr := stored }
      anom := sampleDma.anom ++ lockedLog sampleDma .mcp 0x0006000C q.reg (regLoad sampleDma q.reg) (presented sampleDma q 0x0006000C 1 .w32) })
    (f := fun _ => true) (by decide +kernel)
  exact ⟨t, h⟩

theorem witness_LenWriteRestartsTheCount :
    WritesRegister sampleDma .pri .w16 0x00030002 100 .dma ⟨.pri, .dma, 0x00030002, .dma .len⟩ := writes_of (by decide +kernel)

theorem witness_DmaRunEnds : sampleDma.Ready ∧ sampleDma.Inv ∧ sampleDma.cfg.misalign = .alignDown :=
  ⟨ready_of (by decide +kernel), sampleDma_inv, rfl⟩

/-- D-2: four words to RAM from 0x100 on. -/
theorem witness_DmaRunMovesExactlyTheWords : sampleDma.Ready ∧ sampleDma.Inv ∧
    alignAccess sampleDma.cfg .w16 sampleDma.dma.dar ≠ none ∧ movedWords sampleDma = 4 ∧
    (∀ i, i < movedWords sampleDma → GoesTo sampleDma i (.ram 0) (0x100 + 2 * i)) ∧
    ∀ i j, i < movedWords sampleDma → j < movedWords sampleDma → 0x100 + 2 * i = 0x100 + 2 * j → i = j := by
  have hn : movedWords sampleDma = 4 := by decide +kernel
  refine ⟨ready_of (by decide +kernel), sampleDma_inv, by decide +kernel, hn, fun i hi => ?_, fun i j _ _ h => by omega⟩
  rw [hn] at hi
  refine ⟨0, 0xFFFF, ?_, by decide +kernel, ?_⟩ <;> interval_cases i <;> decide +kernel

/-- `sampleDma` with `n` words to move to `dar`. -/
def sampleTo (dar : Word) (n : Nat) : State :=
  { sampleDma with dma := { sampleDma.dma with dar := dar, tcr := BitVec.ofNat 32 n } }

/-- `s` with the first word popped and BUSY set. -/
def poppedOf (s : State) : State :=
  let rest := s.dma.fifo.tail
  { s with dma := { s.dma with
    busy := true, fifo := rest, stat := setHalfBit s.dma.stat s.cfg.statFullBit (rest.length == s.cfg.fifoCap) } }

/-- R187: one word of a transfer to a STUB logs one A2 of the owner and is dropped; to a COMM register it is a write of the owner,
with its cross marking. -/
theorem test_dma_destinations :
    leads (exec (.dmaRun 7) (sampleTo 0x00F00000 1)) (fun t =>
      t.anom.head? == some ⟨.a2, some 1, 0x00F00000⟩ && t.mem == sampleDma.mem) = true ∧
    leads (exec (.dmaRun 7) (sampleTo 0x00020000 1)) (fun t =>
      some (t.comm.getD 0 0) == sampleDma.dma.fifo.head? && dirtyOf t .comm .pri) = true := by decide +kernel

/-- A transfer goes on after its first word, completes after it, has nothing to move, goes to a STUB, to a COMM register and to
FIFO_DATA, and is refused at an odd DAR with MISALIGN = REFUSE. -/
theorem witness_DestinationWriteIsABusWrite : (setBusy true sampleDma).Ready ∧ (setBusy true sampleDma).dma.busy = true ∧
    (sampleDma.dma.busy = false ∧ ∃ w rest, sampleDma.dma.fifo = w :: rest) ∧ (sampleTo 0 0).dma.tcr = 0 ∧
    (∀ dar ∈ ([0x00600100, 0x00F00000, 0x00020000, 0x00030000] : List Word), ∀ n ∈ [1, 8],
      (sampleTo dar n).Ready ∧ (sampleTo dar n).dma.tcr ≠ 0 ∧ (sampleTo dar n).dma.len ≠ 0 ∧
      ∃ t, exec (.busWr16 .mcp dar (sampleDma.dma.fifo.headD 0) 7) (poppedOf (sampleTo dar n)) = .next t ∧
        (t.cfg.tcrDown t.dma.tcr = 0 ↔ n = 1) ∧ t.dma.len - 1 ≠ 0) ∧
    let odd : State := { sampleTo 0x00600101 8 with cfg := { Config.ex with misalign := .refuse } }
    odd.Ready ∧ exec (.busWr16 .mcp 0x00600101 (sampleDma.dma.fifo.headD 0) 7) (poppedOf odd) = .refused .misalignedAccess := by
  refine ⟨ready_of (by decide +kernel), rfl, ⟨rfl, _, _, rfl⟩, rfl, fun dar hd n hn => ?_, ready_of (by decide +kernel), ?_⟩
  · simp only [List.mem_cons, List.not_mem_nil, or_false] at hd hn
    have key : ∀ {s : State}, leads (exec (.busWr16 .mcp dar (sampleDma.dma.fifo.headD 0) 7) s) (fun t =>
        decide ((t.cfg.tcrDown t.dma.tcr = 0 ↔ n = 1) ∧ t.dma.len - 1 ≠ 0)) = true →
        ∃ t, exec (.busWr16 .mcp dar (sampleDma.dma.fifo.headD 0) 7) s = .next t ∧
          (t.cfg.tcrDown t.dma.tcr = 0 ↔ n = 1) ∧ t.dma.len - 1 ≠ 0 := fun h => by
      obtain ⟨t, h1, h2⟩ := exists_of_leads h
      exact ⟨t, h1, of_decide_eq_true h2⟩
    rcases hd with rfl | rfl | rfl | rfl <;> rcases hn with rfl | rfl <;>
      exact ⟨ready_of (by decide +kernel), by decide +kernel, by decide +kernel, key (by decide +kernel)⟩
  · rfl

/-! ### The whole machine -/

/-- A step that writes a COMM word. -/
theorem witness_StepKeepsTheInvariant :
    let s : State := { sample with queue := [⟨.host, 0x25_00020000_00000001_00000005⟩] }
    ∃ t, s.Inv ∧ step s = .next t ∧ wordAt t.comm 0 = 1 := by
  intro s
  obtain ⟨t, h, ht⟩ := exists_of_leads (o := step s) (f := fun t => wordAt t.comm 0 == 1) (by decide +kernel)
  exact ⟨t, inv_of (by decide +kernel), h, by simpa using ht⟩

theorem witness_NoCommandFails : sample.Inv ∧ sample.Ready ∧ sample.RunsReturn ∧ sample.cfg.misalign = .alignDown ∧
    ∀ cyc, Instr.init false 0 ≠ .init true cyc := ⟨sample_inv, sample_ready, sample_runs, rfl, by simp⟩

theorem witness_HistoryIsAppendOnly : ∃ t, exec (.bankSelect 4) sample = .next t := by
  obtain ⟨t, h, _⟩ := exists_of_leads (o := exec (.bankSelect 4) sample) (f := fun _ => true) (by decide +kernel)
  exact ⟨t, h⟩

theorem witness_CoprocessorAccessesOpenNoGate :
    (∃ t, CoprocessorAccess (.busWr16 .mcp 0x00010000 3 500) ∧ exec (.busWr16 .mcp 0x00010000 3 500) sample = .next t) ∧
    ∃ t, Pid.scp ≠ .pri ∧ exec (readCmd .w16 .scp 0x00020000 500) sample = .next t := by
  refine ⟨?_, ?_⟩
  · obtain ⟨t, h, _⟩ := exists_of_leads (o := exec (.busWr16 .mcp 0x00010000 3 500) sample) (f := fun _ => true)
      (by decide +kernel)
    exact ⟨t, by simp [CoprocessorAccess], h⟩
  · obtain ⟨t, h, _⟩ := exists_of_leads (o := exec (readCmd .w16 .scp 0x00020000 500) sample) (f := fun _ => true)
      (by decide +kernel)
    exact ⟨t, by decide, h⟩

end Sys2Proof.Tests
end

section
/-! PROOF. What every command is, said once, and the statements of 10_state.md: the invariant (R20, R23, R29, R30, R32 to R34,
R62), the reset table (R43, R285) and the records that only grow (R39). -/

namespace Sys2Proof.Machine

/-! ## What a command does, response apart -/

/-- Where the effects of a command lead before the response is given: through an access, or through one of the operations that
rebuild the block as a whole. -/
inductive Effect (s : State) : State → Prop
  | access {u : State} (h : Relation.ReflTransGen PriMicro s u) : Effect s u
  | reset (cyc : Word) : Effect s (resetAll cyc s)
  | restore (cyc : Word) : Effect s (stateRestored cyc s)
  | initFails : Effect s (initFailure s)
  | initSucceeds (cyc : Word) : Effect s (initSuccess cyc s)

theorem Effect.of_base {s u : State} (h : Base s u) : Effect s u := .access (.single (.cop (.base h)))

/-- The effects of a command are an access or a rebuilding of the block, and a response (`effectOf` leaves INIT to `execInit`). -/
theorem effectOf_eq_respond (i : Instr) (s : State) : ∃ u r, Effect s u ∧ effectOf i s = respond r u := by
  cases i with
  | busRd8 p a cyc => exact ⟨_, _, .access ((within_command p).busRead .w8 a cyc s), rfl⟩
  | busRd16 p a cyc => exact ⟨_, _, .access ((within_command p).busRead .w16 a cyc s), rfl⟩
  | busRd32 p a cyc => exact ⟨_, _, .access ((within_command p).busRead .w32 a cyc s), rfl⟩
  | busWr8 p a v cyc => exact ⟨_, _, .access ((within_command p).busWrite .w8 a _ cyc s), rfl⟩
  | busWr16 p a v cyc => exact ⟨_, _, .access ((within_command p).busWrite .w16 a _ cyc s), rfl⟩
  | busWr32 p a v cyc => exact ⟨_, _, .access ((within_command p).busWrite .w32 a v cyc s), rfl⟩
  | ackSlice p => exact ⟨_, _, .of_base (.endSlice s p false), rfl⟩
  | advance k n => exact ⟨_, _, .access (.single (.vt s k _)), rfl⟩
  | status => exact ⟨s, _, .access .refl, rfl⟩
  | pollDetect p c a cyc => exact ⟨_, _, .access (.single (.cop (.detect s p c a cyc))), rfl⟩
  | pollUndetect p c => exact ⟨_, _, .of_base (.undetect s p c), rfl⟩
  | syncRd c now => exact ⟨_, _, .access ((within_command .pri).syncRead rfl c now s), rfl⟩
  | syncWr c now => exact ⟨_, _, .access (gapSync_micros c now s), rfl⟩
  | dmaRun cyc => exact ⟨_, _, .access (.single (.cop (dmaRun_micro cyc s))), rfl⟩
  | bankSelect n => exact ⟨_, _, .of_base (.bank s n), rfl⟩
  | fill => exact ⟨_, _, .access ((within_command .pri).toWrites.fill s), rfl⟩
  | div32 k => exact ⟨_, _, .access ((within_command .pri).toWrites.div32 k s), rfl⟩
  | div64 k => exact ⟨_, _, .access ((within_command .pri).toWrites.div64 k s), rfl⟩
  | resetAll cyc => exact ⟨_, _, .reset cyc, rfl⟩
  | stateRestored cyc => exact ⟨_, _, .restore cyc, rfl⟩
  | copReset cyc => exact ⟨_, _, .access ((within_command s.writer).toWrites.copReset cyc s), rfl⟩
  | fbSwap h => exact ⟨_, _, .of_base (.fb s h), rfl⟩
  | init f cyc => exact ⟨s, s.resp, .access .refl, rfl⟩

/-- INIT that answers a next state has failed or has reset the block (R255). -/
theorem execInit_next {f : Bool} {cyc : Word} {s t : State} (h : execInit f cyc s = .next t) :
    ∃ u, Effect s u ∧ u.stop = none ∧ t = respond Response.zero u := by
  unfold execInit at h
  split_ifs at h with _ hf
  · obtain ⟨hs, rfl⟩ := settle_eq_next.1 h
    exact ⟨_, .initFails, hs, rfl⟩
  · obtain ⟨hs, rfl⟩ := settle_eq_next.1 h
    exact ⟨_, .initSucceeds cyc, hs, rfl⟩

/-- A command that answers a next state: its effects, which nothing stopped, and a response. -/
theorem exec_next_effect {i : Instr} {s t : State} (h : exec i s = .next t) :
    ∃ u r, Effect s u ∧ u.stop = none ∧ t = respond r u := by
  by_cases hi : ∃ f cyc, i = .init f cyc
  · obtain ⟨f, cyc, rfl⟩ := hi
    obtain ⟨u, hu⟩ := execInit_next h
    exact ⟨u, _, hu⟩
  · rw [exec_eq_perform i s fun f cyc e => hi ⟨f, cyc, e⟩] at h
    obtain ⟨_, _, hs, rfl⟩ := perform_eq_next.1 h
    obtain ⟨u, r, hu, e⟩ := effectOf_eq_respond i s
    rw [e] at hs ⊢
    exact ⟨u, r, hu, hs, rfl⟩

/-! ## The records only grow (R39, R263) -/

/-- The configuration and the commands to come are kept, ANOM and the collaborator calls extended. -/
structure Grows (s t : State) : Prop where
  anom : ∃ l, t.anom = s.anom ++ l
  calls : ∃ l, t.calls = s.calls ++ l
  cfg : t.cfg = s.cfg
  queue : t.queue = s.queue

theorem Fixed.grows {s t : State} (h : Fixed s t) : Grows s t := ⟨h.anom, h.calls, h.cfg, h.queue⟩

theorem Resets.grows {cyc : Word} {s t : State} (h : Resets cyc s t) : Grows s t :=
  ⟨⟨_, h.anom⟩, ⟨[], by rw [h.eq]; exact (List.append_nil _).symm⟩, by rw [h.eq]; rfl, by rw [h.eq]; rfl⟩

theorem restoreBank_anom (s : State) : ∃ l, (restoreBank s).anom = s.anom ++ l := by
  obtain ⟨_, _, ha, _⟩ := restoreBank_spec s
  exact ⟨_, ha⟩

theorem Restores.grows {cyc : Word} {s t : State} (h : Restores cyc s t) : Grows s t := by
  obtain ⟨l, hl⟩ := restoreBank_anom { s with view := s.cfg.view0 }
  exact ⟨⟨l, h.anom.trans hl⟩, ⟨[], by rw [h.eq]; exact (List.append_nil _).symm⟩, by rw [h.eq], by rw [h.eq]⟩

theorem Effect.grows {s u : State} (h : Effect s u) : Grows s u := by
  cases h with
  | access h => exact (pri_chain_fixed h).grows
  | reset cyc => exact (resetAll_spec cyc s).grows
  | restore cyc => exact (stateRestored_spec cyc s).grows
  | initFails => exact ⟨⟨_, rfl⟩, ⟨[], (List.append_nil _).symm⟩, rfl, rfl⟩
  | initSucceeds cyc =>
    -- the flags INIT sets first are none of these fields
    obtain ⟨ha, hc, hg, hq⟩ := (resetAll_spec cyc { s with initFailed := false, initialised := true }).grows
    exact ⟨ha, hc, hg, hq⟩

/-- Settles O59: every command is an effect that only extends the records, and a response. -/
theorem historyIsAppendOnly : Obligations.HistoryIsAppendOnly := by
  intro i s t h
  obtain ⟨u, r, hu, _, rfl⟩ := exec_next_effect h
  obtain ⟨ha, hc, hg, hq⟩ := hu.grows
  exact ⟨ha, hc, hg, hq⟩

/-! ## Reset and restore keep the invariant (R285, R287) -/

theorem sound_view0 {s : State} (h : Sound s) : Sound { s with view := s.cfg.view0 } := by
  obtain ⟨hview0, _⟩ := wf_parts h.cfg
  exact ⟨h.cfg, h.mem, hview0, h.sized, h.fifo, h.hits, h.spins, h.dirty⟩

theorem sound_bankOff (b : Word) {s : State} (h : Sound s) : Sound { s with bankOff := b } :=
  h.congr rfl rfl rfl rfl rfl rfl rfl rfl rfl rfl rfl rfl

theorem setBusy_sound (b : Bool) {s : State} (h : Sound s) : Sound (setBusy b s) :=
  h.congr rfl rfl rfl rfl rfl rfl rfl rfl rfl rfl rfl rfl

theorem recomputeFull_sound {s : State} (h : Sound s) : Sound (recomputeFull s) :=
  h.congr rfl rfl rfl rfl rfl rfl rfl rfl rfl rfl rfl rfl

theorem resetRegisters_sized (s : State) : (resetRegisters s).Sized := by
  simp [State.Sized, resetRegisters, resetArray]

theorem resetRegisters_sound {s : State} (h : Sound s) : Sound (resetRegisters s) :=
  ⟨h.cfg, h.mem, h.views, resetRegisters_sized s, Nat.zero_le _, h.hits, h.spins, h.dirty⟩

/-- Detectors cleared where POLL_SET has them, and every dirty flag cleared. -/
theorem Tracks.sound {cyc : Word} {s t : State} (u : Tracks cyc s t) (h : Sound s) : Sound t := by
  have hc : t.cfg = s.cfg := by rw [u.eq]
  refine ⟨?_, ?_, ?_, ?_, ?_, fun p c => ?_, fun p c hp => ?_, PerSide.ext_get fun d => ?_⟩
  · rw [hc]; exact h.cfg
  · rw [u.eq]; exact h.mem
  · rw [u.eq]; exact h.views
  · rw [u.eq]; exact h.sized
  · rw [u.eq]; exact h.fifo
  · rw [u.detectors, u.spins]
    cases s.cfg.polled p c
    · simpa using h.hits p c
    · simp [Detector.clear]
  · rw [u.spins, h.spins p c (by rw [← hc]; exact hp)]; rfl
  · exact (u.dirty .loc d).trans (by cases d <;> rfl)

theorem resetAll_sound (cyc : Word) {s : State} (h : Sound s) : Sound (resetAll cyc s) := by
  have ht := (clearTracking_spec cyc _).sound (resetRegisters_sound (sound_view0 h))
  exact fbSwap_sound (bankSelect_sound (sound_bankOff 0 ht))

theorem restoreBank_sound {s : State} (h : Sound s) : Sound (restoreBank s) := by
  unfold restoreBank
  simp only
  split_ifs
  · exact bankSelect_sound h
  · exact bankSelect_sound (h.congr rfl rfl rfl rfl rfl rfl rfl rfl rfl rfl rfl rfl)

theorem stateRestored_sound (cyc : Word) {s : State} (h : Sound s) : Sound (stateRestored cyc s) := by
  have hb := restoreBank_sound (setBusy_sound false (sound_view0 h))
  exact recomputeFull_sound ((clearTracking_spec cyc _).sound (fbSwap_sound hb))

theorem resetAll_busy (cyc : Word) (s : State) : (resetAll cyc s).dma.busy = false := by
  rw [(resetAll_spec cyc s).eq]; rfl

theorem stateRestored_busy (cyc : Word) (s : State) : (stateRestored cyc s).dma.busy = false := by
  rw [(stateRestored_spec cyc s).dma]

/-! ## Every step keeps the invariant -/

theorem Effect.sound {s u : State} (e : Effect s u) (h : Sound s) :
    Sound u ∧ (s.dma.busy = false → u.dma.busy = false) := by
  cases e with
  | access e => exact pri_chain_sound e h
  | reset cyc => exact ⟨resetAll_sound cyc h, fun _ => resetAll_busy cyc s⟩
  | restore cyc => exact ⟨stateRestored_sound cyc h, fun _ => stateRestored_busy cyc s⟩
  | initFails => exact ⟨h.congr rfl rfl rfl rfl rfl rfl rfl rfl rfl rfl rfl rfl, id⟩
  | initSucceeds cyc =>
    exact ⟨resetAll_sound cyc (h.congr rfl rfl rfl rfl rfl rfl rfl rfl rfl rfl rfl rfl), fun _ => resetAll_busy cyc _⟩

/-- An effect that nothing stops leads from a state of the invariant to another, whatever the response. -/
theorem Effect.inv {s u : State} (e : Effect s u) (h : s.Inv) (hs : u.stop = none) (r : Response) : (respond r u).Inv := by
  obtain ⟨hu, hb⟩ := e.sound (sound_of_inv h)
  exact inv_of_sound (hu.congr rfl rfl rfl rfl rfl rfl rfl rfl rfl rfl rfl rfl) (hb h.busy) hs

theorem exec_inv {i : Instr} {s t : State} (h : s.Inv) (e : exec i s = .next t) : t.Inv := by
  obtain ⟨u, r, hu, hs, rfl⟩ := exec_next_effect e
  exact hu.inv h hs r

/-- An illegal packet only logs A10 (R96). -/
theorem illegalPacket_inv {k : Packet} {s t : State} (h : s.Inv) (e : illegalPacket k s = .next t) : t.Inv := by
  obtain ⟨_, _, hs, rfl⟩ := perform_eq_next.1 e
  exact (Effect.of_base (.log s .a10 _ _)).inv h hs _

theorem take_inv (q : Request) (rest : List Request) {s : State} (h : s.Inv) : (take q rest s).Inv :=
  inv_of_sound ((sound_of_inv h).congr rfl rfl rfl rfl rfl rfl rfl rfl rfl rfl rfl rfl) h.busy h.stop

/-- Settles O57: taking a packet, performing its command and answering an illegal one each keep the invariant. -/
theorem stepKeepsTheInvariant : Obligations.StepKeepsTheInvariant := by
  intro s t h e
  unfold step at e
  split at e
  next => cases e; exact h
  next q rest _ =>
    split at e
    next => exact exec_inv (take_inv q rest h) e
    next => exact illegalPacket_inv (take_inv q rest h) e

/-! ## The state after reset -/

theorem reset_cfg_wf : State.reset.cfg.wf = true := by decide +kernel

theorem reset_detectorOf (p : Pid) (c : RegClass) : detectorOf State.reset p c = Detector.clear := by
  cases p <;> cases c <;> rfl

theorem reset_spinOf (p : Pid) (c : RegClass) : spinOf State.reset p c = false := by
  cases p <;> cases c <;> rfl

/-- The views after reset are EX's VIEW0, which its configuration check covers (R282). -/
theorem reset_inv : State.reset.Inv where
  cfg := reset_cfg_wf
  mem := rfl
  views := (wf_parts reset_cfg_wf).1
  sized := ⟨rfl, rfl, rfl, rfl, rfl, rfl⟩
  fifo := Nat.zero_le _
  busy := rfl
  hits p c := by rw [reset_detectorOf]; exact Nat.zero_le _
  spins p c _ := reset_spinOf p c
  dirty := rfl
  stop := rfl

/-- Settles O56: the fields of the state after reset, read off one by one. -/
theorem resetMeetsTheInvariant : Obligations.ResetMeetsTheInvariant :=
  ⟨reset_inv, ⟨rfl, rfl, rfl⟩, List.forall_mem_nil _⟩

/-! ## The reset table (R43) -/

theorem resetOf_fits (g : Config) (r : Reg) : Fits r (g.resetOf r) := regMask_fits g r _

/-- A word of a reset array holds its register's RESET_VALUE. -/
theorem wordAt_resetArray (g : Config) {n i : Nat} {reg : Nat → Reg} (hi : i < n) (hb : (reg i).bytes = 2) :
    wordAt (resetArray g n reg) i = g.resetOf (reg i) := by
  have hf := resetOf_fits g (reg i)
  unfold Fits at hf
  rw [hb] at hf
  have hw : wordAt (resetArray g n reg) i = (resetHalf g (reg i)).setWidth 32 := by
    simp [wordAt, resetArray, List.getD, hi]
  exact hw.trans (fits_16 hf)

theorem dmaLoad_resetDma (g : Config) {d : DmaReg} (hd : d ≠ .stat) : dmaLoad (resetDma g) d = g.resetOf (.dma d) := by
  cases d with
  | sar | dar | tcr | chcr => rfl
  | len | fifoData => exact fits_16 (resetOf_fits g _)
  | stat => exact absurd rfl hd

theorem divLoad_resetDivu (g : Config) (k : Cop) (d : DivReg) : divLoad (resetDivu g k) d = g.resetOf (.div k d) := by
  cases d <;> rfl

/-- Every register but STAT is at RESET_VALUE after a reset (R285). -/
theorem regLoad_resetRegisters {s : State} {r : Reg} (hr : s.cfg.holds r = true) (hs : r ≠ .dma .stat) :
    regLoad (resetRegisters s) r = s.cfg.resetOf r := by
  cases r with
  | sys i => exact wordAt_resetArray s.cfg (of_decide_eq_true hr) rfl
  | vdp i => exact wordAt_resetArray s.cfg (of_decide_eq_true hr) rfl
  | loc k i => cases k <;> exact wordAt_resetArray s.cfg (of_decide_eq_true hr) rfl
  | comm i => exact wordAt_resetArray s.cfg (of_decide_eq_true hr) rfl
  | pwm i => exact wordAt_resetArray s.cfg (of_decide_eq_true hr) rfl
  | dma d => exact dmaLoad_resetDma s.cfg fun h => hs (h ▸ rfl)
  | div k d => cases k <;> exact divLoad_resetDivu s.cfg _ d

/-- Clearing a bit of a halfword, seen in 32 bits. -/
theorem setWidth_setHalfBit_false (v : Half) (i : Nat) :
    (setHalfBit v i false).setWidth 32 = v.setWidth 32 &&& ~~~((1 : Word) <<< i) := by
  unfold setHalfBit
  ext j hj
  simp only [Bool.false_eq_true, if_false, BitVec.getElem_and, BitVec.getElem_not, BitVec.getElem_setWidth,
    BitVec.getLsbD_and, BitVec.getLsbD_not, BitVec.getLsbD_shiftLeft, BitVec.getElem_shiftLeft]
  grind

/-- STAT after a reset: RESET_VALUE with FULL 0 (R43, R190). -/
theorem regLoad_resetRegisters_stat (s : State) :
    regLoad (resetRegisters s) (.dma .stat) = s.cfg.resetOf (.dma .stat) &&& ~~~s.cfg.fullBit := by
  refine (setWidth_setHalfBit_false _ _).trans ?_
  rw [show (resetHalf s.cfg (.dma .stat)).setWidth 32 = s.cfg.resetOf (.dma .stat) from fits_16 (resetOf_fits s.cfg _)]
  rfl

theorem selectedViews_zero (g : Config) (vs : Views) :
    selectedViews g 0 vs = if g.cartSize = 0 then vs else bankViews g 0 vs := by
  simp [selectedViews]

theorem selectLog_zero (g : Config) :
    selectLog g 0 = if g.cartSize = 0 then [{ code := .a7, pid := some 0, addr := 0 }] else [] := by
  simp [selectLog]

/-- RESET_ALL leaves the register bank as `resetRegisters` does. -/
theorem Resets.regLoad {cyc : Word} {s t : State} (h : Resets cyc s t) (r : Reg) :
    regLoad t r = regLoad (resetRegisters s) r := by
  rw [h.eq]
  exact regLoad_congr rfl rfl rfl rfl rfl rfl rfl r

theorem exec_resetAll {s : State} (hs : s.Ready) (cyc : Word) :
    exec (.resetAll cyc) s = .next (respond Response.zero (resetAll cyc s)) := by
  have ⟨_, _, hstop⟩ := hs
  refine exec_next nofun hs ?_
  change (resetAll cyc s).stop = none
  rw [(resetAll_spec cyc s).eq]
  exact hstop

/-- Settles O10: what RESET_ALL leaves (`Resets`), field by field. -/
theorem resetAllGivesTheResetTable : Obligations.ResetAllGivesTheResetTable := by
  intro s cyc hs
  refine ⟨_, exec_resetAll hs cyc, ?_⟩
  have h := resetAll_spec cyc s
  generalize resetAll cyc s = u at h ⊢
  have hdma : u.dma = resetDma s.cfg := by rw [h.eq]; rfl
  refine ⟨?view, ?registers, ?stat, congrArg Dma.fifo hdma, congrArg Dma.rx hdma, congrArg Dma.busy hdma, ?detectors,
    h.tracks.dirty, h.tracks.endSlice, h.tracks.lastSync, h.tracks.vt, h.fbHalf, h.bankOff, ?anom, ?frame⟩
  case view => rw [← selectedViews_zero]; exact h.view
  case registers => exact fun r hr hne => (h.regLoad r).trans (regLoad_resetRegisters hr hne)
  case stat => exact (h.regLoad _).trans (regLoad_resetRegisters_stat s)
  case detectors =>
    intro p c hp
    have hspin : (spinOf s p c && !s.cfg.polled p c) = false := by rw [hp, Bool.not_true, Bool.and_false]
    exact ⟨(h.tracks.detectors p c).trans (if_pos hp), (h.tracks.spins p c).trans hspin⟩
  case anom => rw [← selectLog_zero]; exact h.anom
  case frame => rw [h.eq]; rfl

end Sys2Proof.Machine
end

section
/-! PROOF. The statements of 20_memory.md: the command a step performs (R75), alignment (R67), the bounds and mirrors of view
entries (R61, R62, R66) and the byte lanes of registers (R64, R65, R123). -/

namespace Sys2Proof.Machine

/-! ## The command at the head of the queue (R21, R75, R93) -/

theorem commandOf_of_decode {q : Request} {i : Instr} (h : decode q.packet = .ok i) (ha : admitted q.origin i = true) :
    commandOf q = some i := by
  unfold commandOf
  rw [h]
  exact if_pos ha

theorem step_of_empty {s : State} (hq : s.queue = []) : step s = .next s := by
  unfold step
  rw [hq]

/-- A step takes the request at the head of the queue and performs the command it stands for. -/
theorem step_of_commandOf {s : State} {q : Request} {rest : List Request} {i : Instr} (hq : s.queue = q :: rest)
    (hi : commandOf q = some i) : step s = exec i (take q rest s) := by
  unfold step
  rw [hq]
  dsimp only
  rw [hi]

/-- Settles O6: the packet is admitted under its origin, and what `take` leaves is written out by the statement. -/
theorem stepPerformsTheDecodedCommand : Obligations.StepPerformsTheDecodedCommand := by
  refine ⟨fun s hq => step_of_empty hq, fun s k rest i hq hk hi => ?host, fun s k p rest i hq hk => ?internal⟩
  case host =>
    have ha : admitted .host i = true := by rw [admitted, hi, Bool.not_false]
    exact step_of_commandOf hq (commandOf_of_decode hk ha)
  case internal => exact step_of_commandOf hq (commandOf_of_decode hk rfl)

/-! ## Alignment (R67) -/

@[simp] theorem alignDown_alignDown (w : Width) (a : Word) : alignDown w (alignDown w a) = alignDown w a := by
  unfold alignDown
  rw [BitVec.and_assoc, BitVec.and_self]

@[simp] theorem alignDown_w8 (a : Word) : alignDown .w8 a = a := BitVec.and_allOnes

theorem alignAccess_of_alignDown {g : Config} (hg : g.misalign = .alignDown) (w : Width) (a : Word) :
    alignAccess g w a = some (alignDown w a) := by
  unfold alignAccess
  exact if_neg fun h => by simp [hg] at h

theorem alignAccess_of_refuse {g : Config} {w : Width} {a : Word} (hg : g.misalign = .refuse) (ha : alignDown w a ≠ a) :
    alignAccess g w a = none := if_pos ⟨hg, ha⟩

/-- Where MISALIGN aligns, a read is the read at the aligned address. -/
theorem busRead_alignDown (env : Env) (p : Pid) (w : Width) (a cyc : Word) {s : State} (hs : s.cfg.misalign = .alignDown) :
    busRead env p w (alignDown w a) cyc s = busRead env p w a cyc s := by
  unfold busRead
  rw [alignAccess_of_alignDown hs, alignAccess_of_alignDown hs, alignDown_alignDown]

/-- Where MISALIGN aligns, a write is the write at the aligned address. -/
theorem busWrite_alignDown (env : Env) (p : Pid) (w : Width) (a v cyc : Word) {s : State} (hs : s.cfg.misalign = .alignDown) :
    busWrite env p w (alignDown w a) v cyc s = busWrite env p w a v cyc s := by
  unfold busWrite
  rw [alignAccess_of_alignDown hs, alignAccess_of_alignDown hs, alignDown_alignDown]

theorem busRead_refused (env : Env) (p : Pid) {w : Width} {a : Word} (cyc : Word) {s : State}
    (h : alignAccess s.cfg w a = none) : busRead env p w a cyc s = (halt .misaligned s, Response.zero) := by
  unfold busRead
  rw [h]

theorem busWrite_refused (env : Env) (p : Pid) {w : Width} {a : Word} (v cyc : Word) {s : State}
    (h : alignAccess s.cfg w a = none) : busWrite env p w a v cyc s = (halt .misaligned s, Response.zero) := by
  unfold busWrite
  rw [h]

/-- A command that its only access stops ends in that stop's outcome. -/
theorem settle_answer_halt {s : State} (hs : s.stop = none) (r : Stop) (x : Response) :
    settle (answer (halt r s, x)) = r.outcome := by
  have hr : (answer (halt r s, x)).stop = some r := by
    change s.stop.or (some r) = some r
    rw [hs]; rfl
  unfold settle
  rw [hr]

/-- Settles O20: every command of an access is `busRead` or `busWrite`, which align first or stop. -/
theorem misalignedAccesses : Obligations.MisalignedAccesses := by
  intro s p w a v cyc hs b
  have hb : b = alignDown w a := by
    cases w with
    | w8 => exact (alignDown_w8 a).symm
    | w16 => rfl
    | w32 => rfl
  clear_value b
  subst hb
  simp only [exec_readCmd, exec_writeCmd, perform_of_ready hs]
  refine ⟨fun hg => ?aligned, fun hg ha => ?refused⟩
  case aligned => rw [busRead_alignDown _ _ _ _ _ hg, busWrite_alignDown _ _ _ _ _ _ hg]; exact ⟨rfl, rfl⟩
  case refused =>
    obtain ⟨_, _, hstop⟩ := hs
    have hn := alignAccess_of_refuse hg ha
    rw [busRead_refused _ _ _ hn, busWrite_refused _ _ _ _ hn]
    exact ⟨settle_answer_halt hstop _ _, settle_answer_halt hstop _ _⟩

/-! ## The bounds and mirrors of an entry (R61, R62, R66) -/

/-- A mask with no bit in common with its successor is 2^k - 1. -/
theorem exists_toNat_add_one_eq_two_pow {m : Word} (h : m &&& (m + 1) = 0) : ∃ k, k ≤ 32 ∧ m.toNat + 1 = 2 ^ k := by
  have hlt : m.toNat < 2 ^ 32 := m.isLt
  by_cases htop : m.toNat + 1 = 2 ^ 32
  · exact ⟨32, le_rfl, htop⟩
  · have hsucc : (m + 1).toNat = m.toNat + 1 := by
      rw [BitVec.toNat_add]; exact Nat.mod_eq_of_lt (by change m.toNat + 1 < _; omega)
    have hand : (m.toNat + 1) &&& (m.toNat + 1 - 1) = 0 := by
      rw [Nat.add_sub_cancel, Nat.and_comm, ← hsucc, ← BitVec.toNat_and, h]; rfl
    obtain ⟨k, hk⟩ := (Nat.and_sub_one_eq_zero_iff_isPowerOfTwo (Nat.succ_ne_zero _)).1 hand
    refine ⟨k, ?_, hk⟩
    exact (Nat.pow_le_pow_iff_right Nat.one_lt_two).1 (by omega)

/-- The offset of an address in an entry of 2^k bytes is its remainder. -/
theorem toNat_and_mask {m : Word} {k : Nat} (hm : m.toNat + 1 = 2 ^ k) (a : Word) : (a &&& m).toNat = a.toNat % 2 ^ k := by
  rw [BitVec.toNat_and, ← Nat.and_two_pow_sub_one_eq_mod, ← hm, Nat.add_sub_cancel]

/-- A well-formed MEM entry stays in its region and holds 2^k bytes, at least 4 (R62). -/
theorem memOk_mask {g : Config} {r : Region} {b : Nat} {m : Word} (h : g.memOk r b m = true) :
    b + m.toNat < g.regionSize r ∧ ∃ k, 2 ≤ k ∧ k ≤ 32 ∧ m.toNat + 1 = 2 ^ k := by
  unfold Config.memOk at h
  simp only [Bool.and_eq_true, decide_eq_true_eq, beq_iff_eq] at h
  obtain ⟨⟨⟨hsize, hand⟩, h3⟩, _⟩ := h
  obtain ⟨k, hk, hm⟩ := exists_toNat_add_one_eq_two_pow hand
  refine ⟨hsize, k, ?_, hk, hm⟩
  exact (Nat.pow_le_pow_iff_right Nat.one_lt_two).1 (by omega)

/-- The address of an aligned access is a multiple of its size. -/
theorem toNat_mod_bytes_of_aligned {w : Width} {a : Word} (h : alignDown w a = a) : a.toNat % w.bytes = 0 := by
  have hlow : a &&& BitVec.ofNat 32 (w.bytes - 1) = 0 := by
    rw [← h, alignDown, BitVec.and_assoc, BitVec.and_comm (~~~_), BitVec.and_not_self]
    exact BitVec.and_zero
  have hmod : ∀ k, (BitVec.ofNat 32 (w.bytes - 1)).toNat + 1 = 2 ^ k → a.toNat % 2 ^ k = 0 := fun k hk => by
    rw [← toNat_and_mask hk, hlow]; rfl
  cases w
  · exact hmod 0 rfl
  · exact hmod 1 rfl
  · exact hmod 2 rfl

theorem bytes_dvd_four (w : Width) : w.bytes ∣ 4 := by cases w <;> decide

/-- An aligned access ends within a block of 2^k bytes, k at least 2, that it starts in. -/
theorem mod_two_pow_add_bytes_le {w : Width} {x k : Nat} (hk : 2 ≤ k) (hx : x % w.bytes = 0) :
    x % 2 ^ k + w.bytes ≤ 2 ^ k := by
  have hdvd : w.bytes ∣ 2 ^ k := (bytes_dvd_four w).trans (pow_dvd_pow 2 hk)
  have hx' : w.bytes ∣ x % 2 ^ k := (Nat.dvd_mod_iff hdvd).2 (Nat.dvd_of_mod_eq_zero hx)
  have hlt : x % 2 ^ k < 2 ^ k := Nat.mod_lt _ (Nat.two_pow_pos k)
  have hle : w.bytes ≤ 2 ^ k - x % 2 ^ k := Nat.le_of_dvd (by omega) (Nat.dvd_sub hdvd hx')
  omega

/-- Addresses repeat every mask + 1 bytes (R62). -/
theorem add_mask_and_mask {m : Word} {k : Nat} (hk : k ≤ 32) (hm : m.toNat + 1 = 2 ^ k) (a : Word) :
    (a + (m + 1)) &&& m = a &&& m := by
  apply BitVec.eq_of_toNat_eq
  rw [toNat_and_mask hm, toNat_and_mask hm, BitVec.toNat_add, BitVec.toNat_add, Nat.add_mod_mod,
    Nat.mod_mod_of_dvd _ (pow_dvd_pow 2 hk)]
  change (a.toNat + (m.toNat + 1)) % 2 ^ k = _
  rw [hm, Nat.add_mod_right]

/-- The slot of an address reads its bits below SHIFT + log2 NSLOT only (R61). -/
theorem slotOf_eq_mod_div (g : Config) (p : Pid) (a : Word) :
    g.slotOf p a = a.toNat % (2 ^ g.shift.get p * g.nslot.get p) / 2 ^ g.shift.get p := by
  rw [Config.slotOf, Nat.shiftRight_eq_div_pow, Nat.mod_mul_right_div_self]

/-- Settles O21: a well-formed mask is 2^k - 1, so an entry's offsets are remainders, and so is a slot. -/
theorem accessesStayInTheirEntry : Obligations.AccessesStayInTheirEntry := by
  refine ⟨fun g w a r b m hok ha => ?entry, fun s p w d a a' h => ?slot⟩
  case entry =>
    obtain ⟨hsize, k, hk2, hk32, hm⟩ := memOk_mask hok
    have hend := mod_two_pow_add_bytes_le hk2 (toNat_mod_bytes_of_aligned ha)
    refine ⟨?_, hsize, add_mask_and_mask hk32 hm a⟩
    rw [toNat_and_mask hm]
    omega
  case slot => rw [resolve, resolve, slotOf_eq_mod_div, slotOf_eq_mod_div, h]

/-! ## Register lanes (R64, R65, R123) -/

theorem getLsbD_widthMask (w : Width) (i : Nat) : (widthMask w).getLsbD i = decide (i < 8 * w.bytes) := by
  have hw : 8 * w.bytes ≤ 32 := by cases w <;> decide
  rw [widthMask, lowMask, BitVec.getLsbD_ofNat, Nat.testBit_two_pow_sub_one, ← Bool.decide_and]
  exact decide_eq_decide.2 ⟨And.right, fun h => ⟨by omega, h⟩⟩

/-- A read's lanes are the bits from `laneShift` up, in the low bits of the value. -/
theorem getLsbD_laneRead (v : Word) (m o : Nat) (w : Width) (i : Nat) :
    (laneRead v m o w).getLsbD i = (decide (i < 8 * w.bytes) && v.getLsbD (laneShift m o w.bytes + i)) := by
  rw [laneRead, BitVec.getLsbD_and, BitVec.getLsbD_ushiftRight, getLsbD_widthMask, Bool.and_comm]

/-- The lanes a read returns, as a slice of the register. -/
theorem laneRead_eq_extractLsb' (v : Word) (m o : Nat) (w : Width) :
    laneRead v m o w = (v.extractLsb' (laneShift m o w.bytes) (8 * w.bytes)).setWidth 32 := by
  apply BitVec.eq_of_getLsbD_eq
  intro i hi
  rw [getLsbD_laneRead, BitVec.getLsbD_setWidth, BitVec.getLsbD_extractLsb', decide_eq_true hi, Bool.true_and]

/-- A merge takes the bits of the access's lanes from the data and every other bit from the old value. -/
theorem getLsbD_laneMerge (old v : Word) (m o : Nat) (w : Width) {i : Nat} (hi : i < 32) :
    (laneMerge old v m o w).getLsbD i =
      if laneShift m o w.bytes ≤ i ∧ i < laneShift m o w.bytes + 8 * w.bytes then v.getLsbD (i - laneShift m o w.bytes)
      else old.getLsbD i := by
  unfold laneMerge
  simp only [BitVec.getLsbD_or, BitVec.getLsbD_and, BitVec.getLsbD_not, BitVec.getLsbD_shiftLeft, getLsbD_widthMask,
    decide_eq_true hi, Bool.true_and]
  generalize laneShift m o w.bytes = sh
  split_ifs with h
  · have h1 : ¬ i < sh := by omega
    have h2 : i - sh < 8 * w.bytes := by omega
    simp [h1, h2]
  · by_cases h1 : i < sh
    · simp [h1]
    · have h2 : ¬ i - sh < 8 * w.bytes := by omega
      simp [h1, h2]

/-- A read of the lanes a merge wrote returns the data. -/
theorem laneRead_laneMerge_same (old v : Word) {m o : Nat} {w : Width} (hm : m ≤ 4) (ho : o + w.bytes ≤ m) :
    laneRead (laneMerge old v m o w) m o w = v &&& widthMask w := by
  apply BitVec.eq_of_getLsbD_eq
  intro i hi
  rw [getLsbD_laneRead, BitVec.getLsbD_and, getLsbD_widthMask, Bool.and_comm]
  by_cases hw : i < 8 * w.bytes
  · have hsh : laneShift m o w.bytes + i < 32 := by unfold laneShift; omega
    rw [getLsbD_laneMerge _ _ _ _ _ hsh, if_pos ⟨by omega, by omega⟩, Nat.add_sub_cancel_left]
  · rw [decide_eq_false hw, Bool.and_false, Bool.and_false]

/-- A merge keeps every byte lane outside the access. -/
theorem laneRead_laneMerge_other (old v : Word) {m o o' : Nat} {w : Width} (hm : m ≤ 4) (ho : o + w.bytes ≤ m)
    (ho' : o' < m) (hd : o' < o ∨ o + w.bytes ≤ o') :
    laneRead (laneMerge old v m o w) m o' .w8 = laneRead old m o' .w8 := by
  apply BitVec.eq_of_getLsbD_eq
  intro i hi
  rw [getLsbD_laneRead, getLsbD_laneRead]
  by_cases hw : i < 8 * Width.w8.bytes
  · have h8 : i < 8 := hw
    have hlo : laneShift m o' Width.w8.bytes = 8 * (m - o' - 1) := rfl
    have hout : ¬ (laneShift m o w.bytes ≤ laneShift m o' Width.w8.bytes + i ∧
        laneShift m o' Width.w8.bytes + i < laneShift m o w.bytes + 8 * w.bytes) := by
      rw [hlo, laneShift]; omega
    rw [getLsbD_laneMerge _ _ _ _ _ (by omega), if_neg hout]
  · rw [decide_eq_false hw, Bool.false_and, Bool.false_and]

/-- Settles O23: reads are slices of the register, and a merge replaces exactly its slice. -/
theorem registerLanesAreBigEndian : Obligations.RegisterLanesAreBigEndian := by
  refine ⟨fun v => ⟨?half, laneRead_eq_extractLsb' v 2 0 .w8, laneRead_eq_extractLsb' v 2 1 .w8, ?word⟩,
    fun v j hj => ?halfLanes, fun v i hi => ?byteLanes, fun m o w old v hm _ ho => ?merges⟩
  case half => exact congrArg (· &&& widthMask .w16) (BitVec.ushiftRight_zero v)
  case word =>
    calc laneRead v 4 0 .w32 = v >>> 0 &&& BitVec.allOnes 32 := rfl
      _ = v := by rw [BitVec.ushiftRight_zero, BitVec.and_allOnes]
  case halfLanes =>
    have hsh : laneShift 4 (2 * j) Width.w16.bytes = 16 - 16 * j := by
      change 8 * (4 - 2 * j - 2) = _; omega
    rw [laneRead_eq_extractLsb', hsh]; rfl
  case byteLanes =>
    have hsh : laneShift 4 i Width.w8.bytes = 24 - 8 * i := by
      change 8 * (4 - i - 1) = _; omega
    rw [laneRead_eq_extractLsb', hsh]; rfl
  case merges =>
    have hm4 : m ≤ 4 := by omega
    exact ⟨laneRead_laneMerge_same old v hm4 ho, fun o' ho' hd => laneRead_laneMerge_other old v hm4 ho ho' hd⟩

end Sys2Proof.Machine
end

section
/-! PROOF. The statements of 30_encoding.md: packets as bytes (R90), the decoder and the encoder (R92, R95), and what the reserved
encodings are (R96). -/

namespace Sys2Proof.Machine

/-! ## A packet as 13 bytes (R90) -/

theorem length_packetBytes (k : Packet) : (packetBytes k).length = 13 := by
  rw [packetBytes, List.length_map, List.length_range]

/-- The first `m` bytes of a packet spell its bits from `8 * (13 - m)` up. -/
theorem bytesNat_leading (k : Packet) {m : Nat} (hm : m ≤ 13) :
    bytesNat ((List.range m).map fun i => k.extractLsb' (8 * (12 - i)) 8) = k.toNat / 2 ^ (8 * (13 - m)) := by
  induction m with
  | zero => exact (Nat.div_eq_of_lt k.isLt).symm
  | succ m ih =>
    have hpow : 2 ^ (8 * (13 - m)) = 2 ^ (8 * (12 - m)) * 256 := by
      rw [show 8 * (13 - m) = 8 * (12 - m) + 8 by omega, pow_add]; rfl
    have hlast : (k.extractLsb' (8 * (12 - m)) 8).toNat = k.toNat / 2 ^ (8 * (12 - m)) % 256 := by
      rw [BitVec.extractLsb'_toNat, Nat.shiftRight_eq_div_pow]
    have hnext : bytesNat ((List.range (m + 1)).map fun i => k.extractLsb' (8 * (12 - i)) 8) =
        256 * (k.toNat / 2 ^ (8 * (13 - m))) + (k.extractLsb' (8 * (12 - m)) 8).toNat := by
      rw [← ih (by omega), List.range_succ, List.map_append, bytesNat, List.foldl_append]; rfl
    rw [hnext, hlast, hpow, ← Nat.div_div_eq_div_mul, Nat.div_add_mod, show 12 - m = 13 - (m + 1) by omega]

theorem bytesNat_packetBytes (k : Packet) : bytesNat (packetBytes k) = k.toNat :=
  (bytesNat_leading k le_rfl).trans (Nat.div_one _)

/-- The first byte of a packet is its header H. -/
theorem head?_packetBytes (k : Packet) :
    (packetBytes k).head? = some (fieldOp k ++ fieldW k ++ fieldPid k : BitVec (4 + 2 + 2)) := by
  rw [← Laws.Row.header_mkPacket (fieldOp k) (fieldW k) (fieldPid k) (fieldAddr k) (fieldData k) (fieldCyc k),
    mkPacket_fields]
  rfl

theorem takePacket_packetBytes (k : Packet) (rest : List Byte) : takePacket (packetBytes k ++ rest) = .ok (k, rest) := by
  have hlen : ¬ (packetBytes k ++ rest).length < 13 := by rw [List.length_append, length_packetBytes]; omega
  rw [takePacket, if_neg hlen, List.take_left' (length_packetBytes k), List.drop_left' (length_packetBytes k),
    bytesNat_packetBytes, BitVec.ofNat_toNat, BitVec.setWidth_eq]

/-- Settles O2: the bytes of a packet spell its number, most significant first. -/
theorem packetBytesAreFramed : Obligations.PacketBytesAreFramed :=
  ⟨fun _ h => if_pos h, fun k rest => ⟨length_packetBytes k, head?_packetBytes k, takePacket_packetBytes k rest⟩⟩

/-! ## Bits of the operands -/

/-- The low `n` bits of a word, widened again, are the word under the mask of `n` ones. -/
theorem setWidth_extractLsb'_zero (d : Word) (n : Nat) :
    (d.extractLsb' 0 n).setWidth 32 = d &&& BitVec.ofNat 32 (2 ^ n - 1) := by
  apply BitVec.eq_of_getLsbD_eq
  intro i hi
  rw [BitVec.getLsbD_setWidth, BitVec.getLsbD_extractLsb', BitVec.getLsbD_and, BitVec.getLsbD_ofNat,
    Nat.testBit_two_pow_sub_one, decide_eq_true hi, Bool.true_and, Bool.true_and, Nat.zero_add, Bool.and_comm]

theorem bitOperand_getElem_zero (d : Word) : bitOperand d[0] = d &&& 1 := by
  have hbit : ∀ b : Bool, bitOperand b = (BitVec.ofBool b).setWidth 32 := by decide
  exact (hbit _).trans BitVec.and_one_eq_setWidth_ofBool_getLsbD.symm

theorem getElem_zero_bitOperand (b : Bool) : (bitOperand b)[0] = b := by cases b <;> rfl

theorem setWidth_fieldClass (d : Word) : (fieldClass d).setWidth 32 = d &&& 7 := setWidth_extractLsb'_zero d 3

theorem setWidth_fieldClass_code (c : RegClass) : (fieldClass c.code).setWidth 32 = c.code := by cases c <;> rfl

theorem extractLsb'_setWidth {n : Nat} (hn : n ≤ 32) (v : BitVec n) : (v.setWidth 32).extractLsb' 0 n = v := by
  rw [BitVec.extractLsb'_setWidth_of_le (by omega), BitVec.extractLsb'_eq_self]

/-! ## The operand decoders (R92, R95) -/

theorem except_map_eq_ok {ε α β : Type} {f : α → β} {x : Except ε α} {b : β} :
    x.map f = .ok b ↔ ∃ a, x = .ok a ∧ f a = b := by
  cases x <;> simp [Except.map]

theorem except_bind_eq_ok {ε α β : Type} {f : α → Except ε β} {x : Except ε α} {b : β} :
    (x >>= f) = .ok b ↔ ∃ a, x = .ok a ∧ f a = .ok b := by
  cases x <;> simp [bind, Except.bind]

theorem bitVec_two_cases (b : BitVec 2) : b = 0 ∨ b = 1 ∨ b = 2 ∨ b = 3 := by revert b; decide

theorem bitVec_three_cases (b : BitVec 3) :
    b = 0 ∨ b = 1 ∨ b = 2 ∨ b = 3 ∨ b = 4 ∨ b = 5 ∨ b = 6 ∨ b = 7 := by revert b; decide

theorem decodePid_eq_ok {b : BitVec 2} {p : Pid} : decodePid b = .ok p ↔ p.code = b := by
  obtain rfl | rfl | rfl | rfl := bitVec_two_cases b
  all_goals cases p <;> simp [decodePid, Pid.code]

theorem decodeCop_eq_ok {b : BitVec 2} {k : Cop} : decodeCop b = .ok k ↔ k.code = b := by
  obtain rfl | rfl | rfl | rfl := bitVec_two_cases b
  all_goals cases k <;> simp [decodeCop, Cop.code]

theorem decodePidZero_eq_ok {b : BitVec 2} {i j : Instr} : decodePidZero b i = .ok j ↔ b = 0 ∧ i = j := by
  obtain rfl | rfl | rfl | rfl := bitVec_two_cases b
  all_goals simp [decodePidZero]

theorem decodeClass_eq_ok {b : BitVec 3} {c : RegClass} : decodeClass b = .ok c ↔ c.code = b.setWidth 32 := by
  obtain rfl | rfl | rfl | rfl | rfl | rfl | rfl | rfl := bitVec_three_cases b
  all_goals cases c <;> simp [decodeClass, RegClass.code]

theorem decodeShared_eq_ok {b : BitVec 3} {c : RegClass} :
    decodeShared b = .ok c ↔ decodeClass b = .ok c ∧ c.shared = true := by
  rw [decodeShared, except_bind_eq_ok]
  constructor
  · rintro ⟨c', hc', h⟩
    split_ifs at h with hs
    cases h; exact ⟨hc', hs⟩
  · rintro ⟨hc, hs⟩
    exact ⟨c, hc, if_pos hs⟩

theorem decodeW0_eq_ok {k : Packet} {r : Except DecodeError Instr} {i : Instr} :
    decodeW0 k r = .ok i ↔ fieldW k = 0 ∧ r = .ok i := by
  obtain h | h | h | h := bitVec_two_cases (fieldW k)
  all_goals simp [decodeW0, h]

/-! ## The groups with more than one row (R95) -/

theorem decodeRead_eq_ok {k : Packet} {i : Instr} :
    decodeRead k = .ok i ↔ ∃ p : Pid, p.code = fieldPid k ∧
      (fieldW k = 0 ∧ .busRd8 p (fieldAddr k) (fieldCyc k) = i ∨ fieldW k = 1 ∧ .busRd16 p (fieldAddr k) (fieldCyc k) = i ∨
        fieldW k = 2 ∧ .busRd32 p (fieldAddr k) (fieldCyc k) = i) := by
  obtain h | h | h | h := bitVec_two_cases (fieldW k)
  all_goals simp [decodeRead, h, except_map_eq_ok, decodePid_eq_ok]

theorem decodeWrite_eq_ok {k : Packet} {i : Instr} :
    decodeWrite k = .ok i ↔ ∃ p : Pid, p.code = fieldPid k ∧
      (fieldW k = 0 ∧ .busWr8 p (fieldAddr k) ((fieldData k).extractLsb' 0 8) (fieldCyc k) = i ∨
        fieldW k = 1 ∧ .busWr16 p (fieldAddr k) ((fieldData k).extractLsb' 0 16) (fieldCyc k) = i ∨
        fieldW k = 2 ∧ .busWr32 p (fieldAddr k) (fieldData k) (fieldCyc k) = i) := by
  obtain h | h | h | h := bitVec_two_cases (fieldW k)
  all_goals simp [decodeWrite, h, except_map_eq_ok, decodePid_eq_ok]

theorem decodeSync_eq_ok {k : Packet} {i : Instr} :
    decodeSync k = .ok i ↔ ∃ c, decodeShared (fieldClass (fieldData k)) = .ok c ∧ fieldPid k = 0 ∧
      (fieldW k = 0 ∧ .syncRd c (fieldCyc k) = i ∨ fieldW k = 1 ∧ .syncWr c (fieldCyc k) = i) := by
  obtain h | h | h | h := bitVec_two_cases (fieldW k)
  all_goals simp [decodeSync, h, except_bind_eq_ok, decodePidZero_eq_ok]

theorem decodeDiv_eq_ok {k : Packet} {i : Instr} :
    decodeDiv k = .ok i ↔ ∃ c : Cop, c.code = fieldPid k ∧ (fieldW k = 0 ∧ .div32 c = i ∨ fieldW k = 1 ∧ .div64 c = i) := by
  obtain h | h | h | h := bitVec_two_cases (fieldW k)
  all_goals simp [decodeDiv, h, except_map_eq_ok, decodeCop_eq_ok]

theorem decodeSubop_eq_ok {k : Packet} {i : Instr} :
    decodeSubop k = .ok i ↔
      (fieldW k = 0 ∧ fieldPid k = 0 ∧ .resetAll (fieldCyc k) = i) ∨
      (fieldW k = 0 ∧ fieldPid k = 1 ∧ .stateRestored (fieldCyc k) = i) ∨
      (fieldW k = 0 ∧ fieldPid k = 2 ∧ .copReset (fieldCyc k) = i) ∨
      (fieldW k = 1 ∧ fieldPid k = 0 ∧ .fbSwap ((fieldData k).getLsbD 0) = i) ∨
      (fieldW k = 2 ∧ fieldPid k = 0 ∧ .init ((fieldData k).getLsbD 0) (fieldCyc k) = i) := by
  obtain h | h | h | h := bitVec_two_cases (fieldW k)
  all_goals
    obtain h' | h' | h' | h' := bitVec_two_cases (fieldPid k)
    all_goals simp [decodeSubop, h, h']

/-! ## Encoding, then decoding -/

/-- Settles O1: the fields of a built packet are those it was built from, and each operand decoder reads its operand's code. -/
theorem encodedCommandsDecodeBack : Obligations.EncodedCommandsDecodeBack := by
  intro i hi
  cases i with
  | busRd8 | busRd16 | busRd32 => simp [encode, decode, decodeRead_eq_ok]
  | busWr8 | busWr16 | busWr32 => simp [encode, decode, decodeWrite_eq_ok, extractLsb'_setWidth]
  | ackSlice => simp [encode, decode, decodeW0_eq_ok, except_map_eq_ok, decodePid_eq_ok]
  | advance => simp [encode, decode, decodeW0_eq_ok, except_map_eq_ok, decodeCop_eq_ok]
  | pollDetect | pollUndetect =>
    simp [encode, decode, decodeW0_eq_ok, except_bind_eq_ok, decodePid_eq_ok, decodeClass_eq_ok, setWidth_fieldClass_code]
  | syncRd c | syncWr c =>
    have hc : c.shared = true := hi
    simp [encode, decode, decodeSync_eq_ok, decodeShared_eq_ok, decodeClass_eq_ok, setWidth_fieldClass_code, hc]
  | status | dmaRun | bankSelect | fill => simp [encode, decode, decodeW0_eq_ok, decodePidZero_eq_ok]
  | div32 | div64 => simp [encode, decode, decodeDiv_eq_ok]
  | resetAll | stateRestored | copReset => simp [encode, decode, decodeSubop_eq_ok]
  | fbSwap | init => simp [encode, decode, decodeSubop_eq_ok, getElem_zero_bitOperand]

/-! ## Decoding, then encoding -/

/-- Under the mask of a row a packet keeps its header and the masked operands. -/
@[simp] theorem and_rowMask (k : Packet) (a d c : Word) :
    k &&& mkPacket 15#4 3#2 3#2 a d c =
      mkPacket (fieldOp k) (fieldW k) (fieldPid k) (fieldAddr k &&& a) (fieldData k &&& d) (fieldCyc k &&& c) := by
  conv_lhs => rw [← mkPacket_fields k]
  rw [mkPacket_and]
  congr 1
  · exact BitVec.and_allOnes
  · exact BitVec.and_allOnes
  · exact BitVec.and_allOnes

@[simp] theorem and_wordOnes (d : Word) : d &&& 0xFFFFFFFF#32 = d := BitVec.and_allOnes

theorem fieldOp_eq {k : Packet} {n : Nat} (h : (fieldOp k).toNat = n) : fieldOp k = BitVec.ofNat 4 n := by
  rw [← h, BitVec.ofNat_toNat, BitVec.setWidth_eq]

/-- The command is well formed, and its packet is `k` in the bits its row uses. -/
def UsesItsBits (k : Packet) (i : Instr) : Prop := i.wf = true ∧ encode i = k &&& usedBits i

theorem decodeRead_usesItsBits {k : Packet} {i : Instr} (hop : fieldOp k = 1) (h : decodeRead k = .ok i) :
    UsesItsBits k i := by
  obtain ⟨p, hp, ⟨hw, rfl⟩ | ⟨hw, rfl⟩ | ⟨hw, rfl⟩⟩ := decodeRead_eq_ok.1 h
  all_goals simp [UsesItsBits, Instr.wf, encode, usedBits, hop, hw, hp]

theorem decodeWrite_usesItsBits {k : Packet} {i : Instr} (hop : fieldOp k = 2) (h : decodeWrite k = .ok i) :
    UsesItsBits k i := by
  obtain ⟨p, hp, ⟨hw, rfl⟩ | ⟨hw, rfl⟩ | ⟨hw, rfl⟩⟩ := decodeWrite_eq_ok.1 h
  all_goals simp [UsesItsBits, Instr.wf, encode, usedBits, hop, hw, hp, setWidth_extractLsb'_zero]

theorem decodeSync_usesItsBits {k : Packet} {i : Instr} (hop : fieldOp k = 10) (h : decodeSync k = .ok i) :
    UsesItsBits k i := by
  obtain ⟨c, hshared, hp, hrow⟩ := decodeSync_eq_ok.1 h
  obtain ⟨hc, hs⟩ := decodeShared_eq_ok.1 hshared
  rw [decodeClass_eq_ok, setWidth_fieldClass] at hc
  obtain ⟨hw, rfl⟩ | ⟨hw, rfl⟩ := hrow
  all_goals simp [UsesItsBits, Instr.wf, encode, usedBits, hop, hw, hp, hc, hs]

theorem decodeDiv_usesItsBits {k : Packet} {i : Instr} (hop : fieldOp k = 14) (h : decodeDiv k = .ok i) :
    UsesItsBits k i := by
  obtain ⟨c, hp, ⟨hw, rfl⟩ | ⟨hw, rfl⟩⟩ := decodeDiv_eq_ok.1 h
  all_goals simp [UsesItsBits, Instr.wf, encode, usedBits, hop, hw, hp]

theorem decodeSubop_usesItsBits {k : Packet} {i : Instr} (hop : fieldOp k = 15) (h : decodeSubop k = .ok i) :
    UsesItsBits k i := by
  obtain ⟨hw, hp, rfl⟩ | ⟨hw, hp, rfl⟩ | ⟨hw, hp, rfl⟩ | ⟨hw, hp, rfl⟩ | ⟨hw, hp, rfl⟩ := decodeSubop_eq_ok.1 h
  all_goals simp [UsesItsBits, Instr.wf, encode, usedBits, hop, hw, hp, bitOperand_getElem_zero]

/-- What a packet decodes to uses the packet's bits: a group with one row read off its decoder, the others by their lemmas
(case `h_n` is the n-th line of `decode`). -/
theorem decode_usesItsBits {k : Packet} {i : Instr} (h : decode k = .ok i) : UsesItsBits k i := by
  unfold decode at h
  split at h
  -- BUS_RD
  case h_1 e => exact decodeRead_usesItsBits (fieldOp_eq e) h
  -- BUS_WR
  case h_2 e => exact decodeWrite_usesItsBits (fieldOp_eq e) h
  -- ACK_SLICE
  case h_3 e =>
    simp only [decodeW0_eq_ok, except_map_eq_ok, decodePid_eq_ok] at h
    obtain ⟨hw, p, hp, rfl⟩ := h
    simp [UsesItsBits, Instr.wf, encode, usedBits, fieldOp_eq e, hw, hp]
  -- ADVANCE
  case h_4 e =>
    simp only [decodeW0_eq_ok, except_map_eq_ok, decodeCop_eq_ok] at h
    obtain ⟨hw, c, hp, rfl⟩ := h
    simp [UsesItsBits, Instr.wf, encode, usedBits, fieldOp_eq e, hw, hp]
  -- POLL_DETECT, POLL_UNDETECT
  case h_6 e | h_7 e =>
    simp only [decodeW0_eq_ok, except_bind_eq_ok, decodePid_eq_ok, decodeClass_eq_ok, setWidth_fieldClass] at h
    obtain ⟨hw, p, hp, c, hc, h⟩ := h
    cases h
    simp [UsesItsBits, Instr.wf, encode, usedBits, fieldOp_eq e, hw, hp, hc]
  -- the sync gate
  case h_8 e => exact decodeSync_usesItsBits (fieldOp_eq e) h
  -- STATUS, DMA_RUN, BANK_SELECT, FILL
  case h_5 e | h_9 e | h_10 e | h_11 e =>
    simp only [decodeW0_eq_ok, decodePidZero_eq_ok] at h
    obtain ⟨hw, hp, rfl⟩ := h
    simp [UsesItsBits, Instr.wf, encode, usedBits, fieldOp_eq e, hw, hp]
  -- the division units
  case h_12 e => exact decodeDiv_usesItsBits (fieldOp_eq e) h
  -- op 1111
  case h_13 e => exact decodeSubop_usesItsBits (fieldOp_eq e) h
  -- reserved ops
  case h_14 => cases h

/-- Settles O3, group by group of the opcode map. -/
theorem decodedCommandsUseTheirBits : Obligations.DecodedCommandsUseTheirBits := fun _ _ h => decode_usesItsBits h

/-! ## Exactly the packets outside the reserved encodings decode (R96) -/

theorem exists_except_map_eq_ok {ε α β : Type} {f : α → β} {x : Except ε α} : (∃ b, x.map f = .ok b) ↔ ∃ a, x = .ok a := by
  cases x <;> simp [Except.map]

theorem exists_except_bind_eq_ok {ε α β : Type} {f : α → Except ε β} {x : Except ε α} :
    (∃ b, (x >>= f) = .ok b) ↔ ∃ a, x = .ok a ∧ ∃ b, f a = .ok b := by
  cases x <;> simp [bind, Except.bind]

theorem exists_decodePid_eq_ok {b : BitVec 2} : (∃ p, decodePid b = .ok p) ↔ b.toNat ≠ 3 := by
  obtain rfl | rfl | rfl | rfl := bitVec_two_cases b
  all_goals simp [decodePid]

theorem exists_decodeCop_eq_ok {b : BitVec 2} : (∃ p, decodeCop b = .ok p) ↔ b.toNat ≠ 0 ∧ b.toNat ≠ 3 := by
  obtain rfl | rfl | rfl | rfl := bitVec_two_cases b
  all_goals simp [decodeCop]

theorem exists_decodePidZero_eq_ok {b : BitVec 2} {i : Instr} : (∃ j, decodePidZero b i = .ok j) ↔ b.toNat = 0 := by
  obtain rfl | rfl | rfl | rfl := bitVec_two_cases b
  all_goals simp [decodePidZero]

theorem exists_decodeClass_eq_ok {b : BitVec 3} : (∃ c, decodeClass b = .ok c) ↔ b.toNat < 6 := by
  obtain rfl | rfl | rfl | rfl | rfl | rfl | rfl | rfl := bitVec_three_cases b
  all_goals simp [decodeClass]

theorem exists_decodeShared_eq_ok {b : BitVec 3} : (∃ c, decodeShared b = .ok c) ↔ b.toNat < 6 ∧ b.toNat ≠ 2 := by
  obtain rfl | rfl | rfl | rfl | rfl | rfl | rfl | rfl := bitVec_three_cases b
  all_goals simp [decodeShared, decodeClass, except_bind_eq_ok, RegClass.shared]

theorem exists_decodeW0_eq_ok {k : Packet} {r : Except DecodeError Instr} :
    (∃ i, decodeW0 k r = .ok i) ↔ (fieldW k).toNat = 0 ∧ ∃ i, r = .ok i := by
  obtain h | h | h | h := bitVec_two_cases (fieldW k)
  all_goals simp [decodeW0, h]

theorem exists_decodeRead_eq_ok {k : Packet} :
    (∃ i, decodeRead k = .ok i) ↔ (fieldW k).toNat ≠ 3 ∧ (fieldPid k).toNat ≠ 3 := by
  obtain h | h | h | h := bitVec_two_cases (fieldW k)
  all_goals simp [decodeRead, h, exists_except_map_eq_ok, exists_decodePid_eq_ok]

theorem exists_decodeWrite_eq_ok {k : Packet} :
    (∃ i, decodeWrite k = .ok i) ↔ (fieldW k).toNat ≠ 3 ∧ (fieldPid k).toNat ≠ 3 := by
  obtain h | h | h | h := bitVec_two_cases (fieldW k)
  all_goals simp [decodeWrite, h, exists_except_map_eq_ok, exists_decodePid_eq_ok]

theorem exists_decodeSync_eq_ok {k : Packet} :
    (∃ i, decodeSync k = .ok i) ↔ (fieldW k).toNat < 2 ∧ (fieldPid k).toNat = 0 ∧
      (fieldClass (fieldData k)).toNat < 6 ∧ (fieldClass (fieldData k)).toNat ≠ 2 := by
  obtain h | h | h | h := bitVec_two_cases (fieldW k)
  all_goals simp [decodeSync, h, exists_except_bind_eq_ok, exists_decodePidZero_eq_ok, exists_decodeShared_eq_ok, and_comm]

theorem exists_decodeDiv_eq_ok {k : Packet} :
    (∃ i, decodeDiv k = .ok i) ↔ (fieldW k).toNat < 2 ∧ (fieldPid k).toNat ≠ 0 ∧ (fieldPid k).toNat ≠ 3 := by
  obtain h | h | h | h := bitVec_two_cases (fieldW k)
  all_goals simp [decodeDiv, h, exists_except_map_eq_ok, exists_decodeCop_eq_ok]

theorem exists_decodeSubop_eq_ok {k : Packet} : (∃ i, decodeSubop k = .ok i) ↔ subcode k ∈ [0, 1, 2, 4, 8] := by
  obtain h | h | h | h := bitVec_two_cases (fieldW k)
  all_goals
    obtain h' | h' | h' | h' := bitVec_two_cases (fieldPid k)
    all_goals simp [decodeSubop, subcode, h, h']

/-- Settles O4, group by group of the opcode map: what the group's decoder asks for is what R96's list leaves of it
(case `h_n` is the n-th line of `decode`). -/
theorem legalPacketsDecode : Obligations.LegalPacketsDecode := by
  intro k
  unfold decode
  split
  case h_1 e => simp [exists_decodeRead_eq_ok, ReservedEncoding, e]
  case h_2 e => simp [exists_decodeWrite_eq_ok, ReservedEncoding, e]
  case h_3 e =>
    simp [exists_decodeW0_eq_ok, exists_except_map_eq_ok, exists_decodePid_eq_ok, ReservedEncoding, e]
  case h_4 e =>
    simp [exists_decodeW0_eq_ok, exists_except_map_eq_ok, exists_decodeCop_eq_ok, ReservedEncoding, e, and_comm]
  case h_6 e | h_7 e =>
    simp [exists_decodeW0_eq_ok, exists_except_bind_eq_ok, exists_decodePid_eq_ok, exists_decodeClass_eq_ok, ReservedEncoding,
      e]
  case h_8 e => simp +contextual [exists_decodeSync_eq_ok, ReservedEncoding, e, and_assoc]
  case h_5 e | h_9 e | h_10 e | h_11 e =>
    simp +contextual [exists_decodeW0_eq_ok, exists_decodePidZero_eq_ok, ReservedEncoding, e]
  case h_12 e => simp [exists_decodeDiv_eq_ok, ReservedEncoding, e, and_comm]
  case h_13 e => simp [exists_decodeSubop_eq_ok, ReservedEncoding, e, or_iff_not_imp_left]
  case h_14 =>
    have hop := (fieldOp k).isLt
    have hmem : (fieldOp k).toNat ∈ [0, 6, 7] := by
      simp only [imp_false, List.mem_cons, List.not_mem_nil, or_false] at *
      omega
    exact ⟨nofun, fun ⟨hlegal, _⟩ => absurd (.inl hmem) hlegal⟩

/-! ## Words of the test vectors -/

/-- Settles O5: the decoder, run on each word. -/
theorem specWordsDecode : Obligations.SpecWordsDecode := ⟨rfl, rfl, rfl, rfl, rfl, rfl, rfl, rfl, rfl⟩

/-! ## Illegal packets (R93, R96) -/

theorem exists_usedBits_eq (i : Instr) : ∃ a d c, usedBits i = mkPacket 15#4 3#2 3#2 a d c := by
  cases i <;> exact ⟨_, _, _, rfl⟩

/-- A packet has the header of the packet of the command it decodes to. -/
theorem header_of_decode {k : Packet} {i : Instr} (h : decode k = .ok i) :
    fieldOp k = fieldOp (encode i) ∧ fieldW k = fieldW (encode i) ∧ fieldPid k = fieldPid (encode i) := by
  obtain ⟨_, hbits⟩ := decode_usesItsBits h
  obtain ⟨a, d, c, hmask⟩ := exists_usedBits_eq i
  rw [hbits, hmask, and_rowMask, fieldOp_mk, fieldW_mk, fieldPid_mk]
  exact ⟨rfl, rfl, rfl⟩

theorem internal_of_internalRow {k : Packet} {i : Instr} (h : decode k = .ok i) (hk : InternalRow k) : i.internal = true := by
  obtain ⟨hop, hw, hp⟩ := header_of_decode h
  rw [InternalRow, subcode, hop, hw, hp] at hk
  cases i with
  | pollDetect | pollUndetect | syncRd | syncWr | dmaRun | bankSelect | fill | div32 | div64 | copReset | fbSwap => rfl
  | busRd8 | busRd16 | busRd32 | busWr8 | busWr16 | busWr32 | ackSlice | advance | status | resetAll | stateRestored | init =>
    simp [encode] at hk

theorem commandOf_eq_none {o : Origin} {k : Packet} (h : ReservedEncoding k ∨ (InternalRow k ∧ o = .host)) :
    commandOf ⟨o, k⟩ = none := by
  unfold commandOf
  split
  next i hi =>
    obtain hr | ⟨hrow, rfl⟩ := h
    · exact absurd hr ((legalPacketsDecode k).1 ⟨i, hi⟩).1
    · refine if_neg ?_
      rw [admitted, internal_of_internalRow hi hrow]
      decide
  next => rfl

theorem step_of_commandOf_eq_none {s : State} {q : Request} {rest : List Request} (hq : s.queue = q :: rest)
    (hi : commandOf q = none) : step s = illegalPacket q.packet (take q rest s) := by
  unfold step
  rw [hq]
  dsimp only
  rw [hi]

theorem illegalPacket_of_ready {s : State} (hs : s.Ready) (k : Packet) :
    illegalPacket k s = .next (respond Response.zero (logAnomaly .a10 (some (fieldPid k)) (fieldAddr k) s)) := by
  have ⟨_, _, hstop⟩ := hs
  exact perform_next hs hstop

/-- Settles O7: such a packet stands for no command, and the answer to it is written out. -/
theorem illegalPacketLogsA10 : Obligations.IllegalPacketLogsA10 := by
  intro s o k rest hs hq h
  have hready : (take ⟨o, k⟩ rest s).Ready := hs
  exact ⟨_, (step_of_commandOf_eq_none hq (commandOf_eq_none h)).trans (illegalPacket_of_ready hready k), rfl, rfl, rfl⟩

end Sys2Proof.Machine
end

section
/-! PROOF. The statements of 40_bus_dispatch.md: accesses to memory (R120) and to the stub (R119), reads and writes of
registers (R122 to R126) and split accesses (R111, R117). -/

namespace Sys2Proof.Machine

/-! ## A command of one access -/

/-- A read command of a block that accepts commands is its access and the response. -/
theorem exec_readCmd_of_ready {s : State} (hs : s.Ready) (w : Width) (p : Pid) (a cyc : Word) :
    exec (readCmd w p a cyc) s = settle (answer (busRead commandEnv p w a cyc s)) := by
  rw [exec_readCmd, perform_of_ready hs]

/-- A write command of a block that accepts commands is its access and the response. -/
theorem exec_writeCmd_of_ready {s : State} (hs : s.Ready) (w : Width) (p : Pid) (a v cyc : Word) :
    exec (writeCmd w p a v cyc) s = settle (answer (busWrite commandEnv p w a v cyc s)) := by
  rw [exec_writeCmd, perform_of_ready hs, busWrite_lowBits]

/-- An access that leaves no reason to stop ends in the state it led to, with its response. -/
theorem settle_answer_next {x : State × Response} (h : x.1.stop = none) : settle (answer x) = .next (respond x.2 x.1) :=
  settle_of_stop_none h

theorem settle_answer_eq_next {x : State × Response} {t : State} :
    settle (answer x) = .next t ↔ x.1.stop = none ∧ t = respond x.2 x.1 := settle_eq_next

/-! ## Accesses to backing memory (R120) -/

theorem busRead_memory {s : State} {p : Pid} {w : Width} {a : Word} {r : Region} {b : Nat} {m : Word} (env : Env)
    (cyc : Word) (ha : alignDown w a = a) (hr : resolve s p w .rd a = .mem r b m) :
    busRead env p w a cyc s = memAccessRead p w r b m a s := by
  unfold busRead
  rw [alignAccess_of_aligned ha]
  cases w with
  | w8 | w16 => simp only [narrowRead, hr]
  | w32 => simp only [wideRead, hr]

theorem busWrite_memory {s : State} {p : Pid} {w : Width} {a : Word} {r : Region} {b : Nat} {m : Word} (env : Env)
    (v cyc : Word) (ha : alignDown w a = a) (hr : resolve s p w .wr a = .mem r b m) :
    busWrite env p w a v cyc s = memAccessWrite p w r b m a v s := by
  unfold busWrite
  rw [alignAccess_of_aligned ha]
  cases w with
  | w8 | w16 => simp only [narrowWrite, hr]
  | w32 => simp only [wideWrite, hr]

/-- A byte put below a value of at most 24 bits. -/
theorem shiftLeft_or_byte {n : Nat} (x : BitVec n) (b : Byte) :
    (x.setWidth 32 <<< 8) ||| b.setWidth 32 = (x ++ b).setWidth 32 := by
  apply BitVec.eq_of_getLsbD_eq
  intro i hi
  simp only [BitVec.getLsbD_or, BitVec.getLsbD_shiftLeft, BitVec.getLsbD_setWidth, BitVec.getLsbD_append]
  by_cases h8 : i < 8
  · simp [h8, hi]
  · have hb : b.getLsbD i = false := BitVec.getLsbD_of_ge b i (by omega)
    have hi8 : i - 8 < 32 := by omega
    simp [h8, hi, hi8, hb]

theorem memRead_one (s : State) (r : Region) (off : Nat) : memRead s r off 1 = (readByte s r off).setWidth 32 :=
  BitVec.zero_or

theorem memRead_two (s : State) (r : Region) (off : Nat) :
    memRead s r off 2 = (readByte s r off ++ readByte s r (off + 1)).setWidth 32 := by
  rw [memRead, memRead_one, shiftLeft_or_byte]

theorem memRead_four (s : State) (r : Region) (off : Nat) :
    memRead s r off 4 =
      readByte s r off ++ readByte s r (off + 1) ++ readByte s r (off + 2) ++ readByte s r (off + 3) := by
  rw [memRead, memRead, memRead_two, shiftLeft_or_byte, shiftLeft_or_byte]
  exact BitVec.setWidth_eq _

/-- Settles O17: the access is MemRead at the entry's offset, which spells the bytes from there on. -/
theorem memoryReadIsBigEndian : Obligations.MemoryReadIsBigEndian := by
  intro s p w a cyc r b m hs ha hr hok off
  have ⟨_, _, hstop⟩ := hs
  have hread : busRead commandEnv p w a cyc s =
      (s, { value := memRead s r off w.bytes, cycles := s.cfg.accessCycles p .mem w, irq := false }) := by
    rw [busRead_memory _ _ ha hr]
    exact if_pos hok
  rw [exec_readCmd_of_ready hs, hread, settle_answer_next hstop]
  cases w with
  | w8 => rw [← memRead_one]; rfl
  | w16 => rw [← memRead_two]; rfl
  | w32 => rw [← memRead_four]; rfl

/-- The bits of a value that one of its bytes stores (R66). -/
theorem storedByte_eq_extractLsb' (n : Nat) (v : Word) (i : Nat) : storedByte n v i = v.extractLsb' (8 * (n - i) - 8) 8 := by
  have hbit : 8 * (n - 1 - i) = 8 * (n - i) - 8 := by omega
  rw [storedByte, hbit]
  rfl

/-- Settles O18: the access is MemWrite at the entry's offset, and its bytes lie in the region (R62). -/
theorem memoryWriteStoresBytes : Obligations.MemoryWriteStoresBytes := by
  intro s p w a v cyc r b m hs ha hr hok off
  have ⟨_, _, hstop⟩ := hs
  have hwrite : busWrite commandEnv p w a v cyc s =
      (memWrite r off w.bytes v s, { value := 0, cycles := s.cfg.accessCycles p .mem w, irq := false }) := by
    rw [busWrite_memory _ _ _ ha hr]
    exact if_pos hok
  obtain ⟨hend, hsize, _⟩ := accessesStayInTheirEntry.1 s.cfg w a r b m hok ha
  rw [exec_writeCmd_of_ready hs, hwrite]
  refine ⟨_, settle_answer_next hstop, fun i hi => ?stored, fun q j hj => ?kept, rfl⟩
  case stored =>
    refine (readByte_memWrite s r r off w.bytes (off + i) v).trans ?_
    rw [if_pos ⟨rfl, by omega, by omega, by omega⟩, Nat.add_sub_cancel_left, storedByte_eq_extractLsb']
  case kept =>
    refine (readByte_memWrite s r q off w.bytes j v).trans (if_neg ?_)
    exact fun ⟨hq, hlo, hhi, _⟩ => hj ⟨hq, hlo, hhi⟩

/-! ## Accesses to the stub (R119) -/

theorem handlerRead_stub {s : State} {p : Pid} {h : Handler} {a : Word} (env : Env) (w : Width) (cyc : Word)
    (hn : regAt s.cfg p h a = none) : handlerRead env p h a w cyc s = stubRead p w a s := by
  unfold handlerRead
  rw [hn]

theorem handlerWrite_stub {s : State} {p : Pid} {h : Handler} {a : Word} (env : Env) (v : Word) (w : Width) (cyc : Word)
    (hn : regAt s.cfg p h a = none) : handlerWrite env p h a v w cyc s = stubWrite p w a s := by
  unfold handlerWrite
  rw [hn]

theorem busRead_stub {s : State} {p : Pid} {w : Width} {a : Word} (env : Env) (cyc : Word) (ha : alignDown w a = a)
    (hr : ReachesStub s p w .rd a) : busRead env p w a cyc s = stubRead p w a s := by
  unfold busRead
  rw [alignAccess_of_aligned ha]
  obtain hr | ⟨h, hr, hn, hwhole⟩ := hr
  · cases w with
    | w8 | w16 => simp only [narrowRead, hr]
    | w32 => simp only [wideRead, hr]
  · cases w with
    | w8 | w16 => simp only [narrowRead, hr, handlerRead_stub env _ cyc hn]
    | w32 => simp [wideRead, hr, hwhole rfl, handlerRead_stub env _ cyc hn]

theorem busWrite_stub {s : State} {p : Pid} {w : Width} {a : Word} (env : Env) (v cyc : Word) (ha : alignDown w a = a)
    (hr : ReachesStub s p w .wr a) : busWrite env p w a v cyc s = stubWrite p w a s := by
  unfold busWrite
  rw [alignAccess_of_aligned ha]
  obtain hr | ⟨h, hr, hn, hwhole⟩ := hr
  · cases w with
    | w8 | w16 => simp only [narrowWrite, hr]
    | w32 => simp only [wideWrite, hr]
  · cases w with
    | w8 | w16 => simp only [narrowWrite, hr, handlerWrite_stub env v _ cyc hn]
    | w32 => simp [wideWrite, hr, hwhole rfl, handlerWrite_stub env v _ cyc hn]

/-- Settles O19: the access is the stub's, which logs and answers zeros. -/
theorem stubAccessesAreLogged : Obligations.StubAccessesAreLogged := by
  intro s p w a v cyc hs ha
  have ⟨_, _, hstop⟩ := hs
  refine ⟨fun hr => ?read, fun hr => ?write⟩
  case read => rw [exec_readCmd_of_ready hs, busRead_stub _ _ ha hr]; exact settle_answer_next hstop
  case write => rw [exec_writeCmd_of_ready hs, busWrite_stub _ _ _ ha hr]; exact settle_answer_next hstop

/-! ## Reads of registers (R122 to R124) -/

/-- A read by p counts as an observation of its detector of class c: the pair is of POLL_SET and does not spin (R161). -/
def counts (s : State) (p : Pid) (c : RegClass) : Bool := s.cfg.polled p c && !spinOf s p c

/-- The detector after a read that counts. -/
def observed (s : State) (p : Pid) (c : RegClass) (a cyc : Word) : Detector :=
  observe (s.cfg.pollMaxgap.get c) (detectorOf s p c) a cyc

/-- The read is the sixth hit in a row (R163). -/
def fires (s : State) (p : Pid) (c : RegClass) (a cyc : Word) : Bool :=
  counts s p c && decide ((observed s p c a cyc).cnt = 6)

theorem pollRead_of_not_counts {s : State} {p : Pid} {c : RegClass} (a cyc : Word) (h : counts s p c = false) :
    pollRead p c a cyc s = s := by
  unfold counts at h
  unfold pollRead pollDetect
  cases hp : s.cfg.polled p c
  · rfl
  · have hspin : spinOf s p c = true := by simpa [hp] using h
    simp [hspin]

/-- An observation that counts advances the detector, and sets SPIN when it is the sixth hit (R161, R163). -/
theorem pollDetect_of_counts {s : State} {p : Pid} {c : RegClass} (a cyc : Word) (h : counts s p c = true) :
    pollDetect p c a cyc s =
      if (observed s p c a cyc).cnt = 6 then (setSpin p c true (setDetector p c (observed s p c a cyc) s), true)
      else (setDetector p c (observed s p c a cyc) s, false) := by
  simp only [counts, Bool.and_eq_true, Bool.not_eq_true'] at h
  obtain ⟨hp, hspin⟩ := h
  have hno : (!s.cfg.polled p c || spinOf s p c) = false := by rw [hp, hspin]; rfl
  unfold pollDetect
  rw [hno]
  rfl

theorem pollRead_of_counts {s : State} {p : Pid} {c : RegClass} (a cyc : Word) (h : counts s p c = true) :
    pollRead p c a cyc s =
      if (observed s p c a cyc).cnt = 6 then
        setEndSlice p true (setSpin p c true (setDetector p c (observed s p c a cyc) s))
      else setDetector p c (observed s p c a cyc) s := by
  have ⟨hp, _⟩ := Bool.and_eq_true_iff.1 h
  unfold pollRead
  rw [if_pos hp, pollDetect_of_counts a cyc h]
  split_ifs <;> rfl

/-- Everything a read does after the register is read (R122, R124): the detector of a polled class, SPIN and END_SLICE. -/
structure Polls (p : Pid) (c : RegClass) (a cyc : Word) (s t : State) : Prop where
  detectors : ∀ x y, detectorOf t x y =
    if counts s p c = true ∧ x = p ∧ y = c then observed s p c a cyc else detectorOf s x y
  spins : ∀ x y, spinOf t x y = (spinOf s x y || (fires s p c a cyc && decide (x = p) && decide (y = c)))
  endSlice : ∀ x, t.endSlice.get x = (s.endSlice.get x || (fires s p c a cyc && decide (x = p)))
  eq : t = { s with pd := t.pd, spin := t.spin, endSlice := t.endSlice }

theorem pollRead_polls (p : Pid) (c : RegClass) (a cyc : Word) (s : State) : Polls p c a cyc s (pollRead p c a cyc s) := by
  cases hc : counts s p c with
  | false =>
    have hf : fires s p c a cyc = false := by rw [fires, hc, Bool.false_and]
    rw [pollRead_of_not_counts a cyc hc]
    exact ⟨by simp [hc], by simp [hf], by simp [hf], rfl⟩
  | true =>
    rw [pollRead_of_counts a cyc hc]
    by_cases hd : (observed s p c a cyc).cnt = 6
    · have hf : fires s p c a cyc = true := by rw [fires, hc, decide_eq_true hd, Bool.true_and]
      rw [if_pos hd]
      refine ⟨fun x y => ?detector, fun x y => ?spin, fun x => ?endSlice, rfl⟩
      case detector =>
        refine (detectorOf_setDetector s p x c y _).trans ?_
        simp only [hc, true_and]
      case spin =>
        refine (spinOf_setSpin _ p x c y true).trans ?_
        change (if x = p ∧ y = c then true else spinOf s x y) = _
        by_cases hx : x = p <;> by_cases hy : y = c <;> simp [hf, hx, hy]
      case endSlice =>
        refine (PerPid.get_set s.endSlice p x true).trans ?_
        by_cases hx : x = p <;> simp [hf, hx]
    · have hf : fires s p c a cyc = false := by rw [fires, decide_eq_false hd, Bool.and_false]
      rw [if_neg hd]
      refine ⟨fun x y => ?_, fun x y => ?_, fun x => ?_, rfl⟩
      · rw [detectorOf_setDetector]
        simp only [hc, true_and]
      · rw [hf, Bool.false_and, Bool.false_and, Bool.or_false]
        rfl
      · rw [hf, Bool.false_and, Bool.or_false]
        rfl

/-- What a read that runs no coprocessor does before the register is read (R142): the dirty flag of the reader's side is
cleared when the class is SHARED. -/
structure ClearsDirty (p : Pid) (c : RegClass) (s t : State) : Prop where
  dirty : ∀ x y, dirtyOf t x y = (dirtyOf s x y && !(c.shared && decide (x = c) && decide (y = p.side)))
  eq : t = { s with dirty := t.dirty }

theorem clearsDirty_setDirty {p : Pid} {c : RegClass} (hc : c.shared = true) (s : State) :
    ClearsDirty p c s (setDirty c p.side false s) := by
  refine ⟨fun x y => ?_, rfl⟩
  rw [dirtyOf_setDirty]
  by_cases hx : x = c <;> by_cases hy : y = p.side <;> simp [hc, hx, hy]

/-- There is no flag to clear. -/
theorem clearsDirty_refl {p : Pid} {c : RegClass} {s : State} (h : c.shared = true → dirtyOf s c p.side = false) :
    ClearsDirty p c s s := by
  refine ⟨fun x y => ?_, rfl⟩
  by_cases hxy : c.shared = true ∧ x = c ∧ y = p.side
  · obtain ⟨hc, rfl, rfl⟩ := hxy
    rw [h hc, Bool.false_and]
  · have hno : (c.shared && decide (x = c) && decide (y = p.side)) = false := by simpa [and_assoc] using hxy
    rw [hno, Bool.not_false, Bool.and_true]

/-- An observation whose gate does nothing only clears a dirty flag. -/
theorem observeClass_clearsDirty {env : Env} {p : Pid} {c : RegClass} {cyc : Word} {s : State}
    (h : p ≠ .pri ∨ c.shared = false ∨ dirtyOf s c .pri = true ∨ env.gate c cyc s = s) :
    ClearsDirty p c s (observeClass env p c cyc s) := by
  unfold observeClass
  cases hc : c.shared with
  | false => exact clearsDirty_refl fun h => absurd (hc.symm.trans h) (by decide)
  | true =>
    simp only [if_true]
    cases p with
    | mcp => exact clearsDirty_setDirty (p := .mcp) hc s
    | scp => exact clearsDirty_setDirty (p := .scp) hc s
    | pri =>
      simp only [if_true, syncRead]
      cases hd : dirtyOf s c .pri with
      | true => exact clearsDirty_setDirty (p := .pri) hc s
      | false =>
        have hg : env.gate c cyc s = s := by simpa [hc, hd] using h
        simp only [Bool.false_eq_true, if_false, hg]
        exact clearsDirty_refl fun _ => hd

theorem gapSync_of_shut {c : RegClass} {now : Word} {s : State} (h : gapOpen c now s = false) : gapSync c now s = s := by
  unfold gapSync
  rw [h]
  rfl

theorem regRead_congr {s t : State} (h : ∀ r, regLoad t r = regLoad s r) (q : RegRow) (a : Word) (w : Width) :
    regRead t q a w = regRead s q a w := by
  rw [regRead, regRead, h]

/-- Settles O24: a read with the gate shut clears the dirty flag, reads the register and polls. -/
theorem handlerReadEffects : Obligations.HandlerReadEffects := by
  intro s p w a cyc h q ⟨hs, ha, hr, hshut⟩
  have ⟨_, _, hstop⟩ := hs
  have hobs : ClearsDirty p q.reg.cls s (observeClass commandEnv p q.reg.cls cyc s) :=
    observeClass_clearsDirty (hshut.imp_right (Or.imp_right (Or.imp_right gapSync_of_shut)))
  have hexec := exec_read_register (cyc := cyc) hs ha hr
  generalize observeClass commandEnv p q.reg.cls cyc s = u at hobs hexec
  have hpoll := pollRead_polls p q.reg.cls a cyc u
  generalize pollRead p q.reg.cls a cyc u = t at hpoll hexec
  obtain ⟨hdirty, hu⟩ := hobs
  obtain ⟨flags, rfl⟩ : ∃ flags, u = { s with dirty := flags } := ⟨_, hu⟩
  obtain ⟨hdet, hspin, hend, ht⟩ := hpoll
  have hread : regRead { s with dirty := flags } q a w = regRead s q a w :=
    regRead_congr (regLoad_congr rfl rfl rfl rfl rfl rfl rfl) q a w
  rw [hread] at hexec
  have htd : t.dirty = flags := by rw [ht]
  have hts : t.stop = none := by rw [ht]; exact hstop
  refine ⟨_, hexec.trans (settle_of_stop_none hts), rfl, fun x y => ?dirty, hdet, hspin, hend, ?frame⟩
  case dirty =>
    rw [← hdirty]
    change (t.dirty.get x).get y = _
    rw [htd]
    rfl
  case frame =>
    change respond _ t = ({ s with dirty := t.dirty, pd := t.pd, spin := t.spin, endSlice := t.endSlice, resp := _ } : State)
    rw [htd]
    exact congrArg (respond _) ht

theorem observeClass_pri {c : RegClass} (hc : c.shared = true) (env : Env) (cyc : Word) (s : State) :
    observeClass env .pri c cyc s = syncRead env c cyc s := by
  unfold observeClass
  rw [hc]
  rfl

theorem exec_syncRd_of_ready {s : State} (hs : s.Ready) (c : RegClass) (now : Word) :
    exec (.syncRd c now) s = settle (respond Response.zero (syncRead commandEnv c now s)) :=
  (exec_eq_perform (.syncRd c now) s nofun).trans (perform_of_ready hs _)

/-- Settles O25: a PRI read observes a SHARED class by SYNC_RD, and what follows is the polling read. -/
theorem primaryReadSyncsFirst : Obligations.PrimaryReadSyncsFirst := by
  intro s t w a cyc h q hs ha hr hc hsync
  have hexec := exec_read_register (cyc := cyc) hs ha hr
  rw [observeClass_pri hc] at hexec
  rw [exec_syncRd_of_ready hs] at hsync
  obtain ⟨hstop, ht⟩ := settle_eq_next.1 hsync
  have hcfg := (syncRead_fixed q.reg.cls cyc s).cfg
  generalize syncRead commandEnv q.reg.cls cyc s = u at hexec hstop ht hcfg ⊢
  subst ht
  obtain ⟨hdet, hspin, hend, hu⟩ := pollRead_polls .pri q.reg.cls a cyc u
  generalize pollRead .pri q.reg.cls a cyc u = x at hexec hdet hspin hend hu
  have hread : regRead (respond Response.zero u) q a w = regRead u q a w :=
    regRead_congr (regLoad_congr rfl rfl rfl rfl rfl rfl rfl) q a w
  have hxs : x.stop = none := by rw [hu]; exact hstop
  rw [← hcfg, ← hread] at hexec
  exact ⟨_, hexec.trans (settle_of_stop_none hxs), rfl, hdet, hspin, hend, congrArg (respond _) hu⟩

/-! ## Writes of registers (R125, R126) -/

/-- The gate a write passes: PRI's, when the class is SHARED (R125). -/
def gated (env : Env) (p : Pid) (c : RegClass) (cyc : Word) (s : State) : State :=
  if c.shared ∧ p = .pri then env.gate c cyc s else s

/-- A write of a register: the gate, the register's rule and the steps after it. -/
theorem handlerWrite_register {env : Env} {s : State} {p : Pid} {h : Handler} {a : Word} {q : RegRow} (v : Word) (w : Width)
    (cyc : Word) (hq : regAt s.cfg p h a = some q) :
    let u := gated env p q.reg.cls cyc s
    let x := regWrite env.trigger p a q.reg (regLoad u q.reg) (presented u q a v w) cyc u
    let y := afterWrite p q.reg (regLoad u q.reg) x.2 x.1
    handlerWrite env p h a v w cyc s = (y.1, { value := 0, cycles := y.1.cfg.accessCycles p (.hnd h) w, irq := y.2 }) := by
  unfold handlerWrite
  rw [hq]
  rfl

theorem gated_pri {c : RegClass} (hc : c.shared = true) (cyc : Word) (s : State) :
    gated commandEnv .pri c cyc s = gapSync c cyc s := if_pos ⟨hc, rfl⟩

/-- A gate that stays shut is passed at once. -/
theorem gated_of_shut {p : Pid} {c : RegClass} {cyc : Word} {s : State} (h : GateStaysShut s p c cyc) :
    gated commandEnv p c cyc s = s := by
  unfold gated
  split_ifs with hp
  · obtain ⟨hc, rfl⟩ := hp
    have hshut : gapOpen c cyc s = false := by simpa [GateStaysShut, hc] using h
    exact gapSync_of_shut hshut
  · rfl

theorem gated_micros (p : Pid) (c : RegClass) (cyc : Word) (s : State) :
    Relation.ReflTransGen PriMicro s (gated commandEnv p c cyc s) :=
  ite_within (R := Relation.ReflTransGen PriMicro) (gapSync_micros c cyc s) .refl

/-- Right after LAST_SYNC the gap test fails (R148). -/
theorem gapOpen_synced {c : RegClass} {now : Word} {s : State} (h : s.lastSync = now) : gapOpen c now s = false := by
  unfold gapOpen after
  rw [h]
  simp

/-- The gate leaves itself shut: it ran up to NOW, or it did nothing (R148). -/
theorem gapOpen_gapSync (c : RegClass) (now : Word) (s : State) : gapOpen c now (gapSync c now s) = false := by
  cases ho : gapOpen c now s with
  | false => rw [gapSync_of_shut ho, ho]
  | true =>
    have hsync : gapSync c now s = setLastSync now (runTo .scp now (runTo .mcp now s)) := if_pos ho
    rw [hsync]
    exact gapOpen_synced rfl

theorem exec_syncWr_of_ready {s : State} (hs : s.Ready) (c : RegClass) (now : Word) :
    exec (.syncWr c now) s = settle (respond Response.zero (gapSync c now s)) :=
  (exec_eq_perform (.syncWr c now) s nofun).trans (perform_of_ready hs _)

/-- Settles O26: the gate keeps the response and leaves itself shut, so the write from there passes it at once. -/
theorem primaryWriteSyncsFirst : Obligations.PrimaryWriteSyncsFirst := by
  intro s t w a v cyc h q hs ha hrs hrt hc hsync
  have ⟨hinit, hfail, _⟩ := hs
  rw [exec_syncWr_of_ready hs] at hsync
  obtain ⟨hstop, rfl⟩ := settle_eq_next.1 hsync
  have hshut := gapOpen_gapSync q.reg.cls cyc s
  have hfix := gapSync_fixed q.reg.cls cyc s
  have hgate := gated_pri hc cyc s
  generalize gapSync q.reg.cls cyc s = u at hshut hfix hgate hstop hrt ⊢
  have hu : ({ respond Response.zero u with resp := s.resp } : State) = u := by rw [← hfix.resp]; rfl
  have hready : u.Ready := ⟨hfix.initialised.trans hinit, hfix.initFailed.trans hfail, hstop⟩
  have hru : ReachesRegister u .pri w .wr a h q := hrt
  have ⟨_, hats, _⟩ := hrs
  have ⟨_, hatu, _⟩ := hru
  have hgateu : gated commandEnv .pri q.reg.cls cyc u = u := gated_of_shut (.inr (.inr hshut))
  refine ⟨hshut, ?_⟩
  rw [hu, exec_writeCmd_of_ready hs, exec_writeCmd_of_ready hready, busWrite_register _ _ _ ha hrs,
    busWrite_register _ _ _ ha hru, handlerWrite_register _ _ _ hats, handlerWrite_register _ _ _ hatu, hgate, hgateu]

/-- A COMM write marks when the stored value changes (R211). -/
theorem commWrite_marks (p : Pid) (a : Word) {r : Reg} {new : Word} {s : State} (h : storedValue s r new ≠ regLoad s r) :
    (commWrite p a r (regLoad s r) new s).2 = true := by
  unfold commWrite
  simp only
  have hports : (if s.cfg.commOn s.sys = true then s else logAnomaly .a4 (pidBits p) a s).cfg = s.cfg := by split_ifs <;> rfl
  generalize (if s.cfg.commOn s.sys = true then s else logAnomaly .a4 (pidBits p) a s) = u at hports
  have hlocked : (if (u.cfg.commA3 && lockedChange u.cfg r (regLoad s r) new) = true then logAnomaly .a3 (pidBits p) a u
      else u).cfg = s.cfg := by rw [← hports]; split_ifs <;> rfl
  have hne : mergeWritable s.cfg r (regLoad s r) new ≠ regLoad s r := h
  rw [hlocked, if_neg hne]

/-- Every rule but an equal-value COMM write marks (R125, R211). -/
theorem regWrite_marks {r : Reg} {new : Word} {s : State}
    (h : (∀ i, r ≠ .comm i) ∨ storedValue s r new ≠ regLoad s r) (trig : Trigger) (p : Pid) (a cyc : Word) :
    (regWrite trig p a r (regLoad s r) new cyc s).2 = true := by
  cases r with
  | comm i => exact commWrite_marks p a (h.resolve_left fun hn => hn i rfl)
  | sys | vdp | loc | pwm => rfl
  | dma d => cases d <;> rfl
  | div k d => cases d <;> rfl

/-- The steps after a marked write to a SHARED register: the other processors are undetected and the class is dirty for the
other side (R126), and no pair outside POLL_SET spins (R33). -/
theorem afterWrite_marked {s : State} (hs : Sound s) {r : Reg} (hc : r.cls.shared = true) {mark : Bool} (hm : mark = true)
    (p : Pid) (old : Word) :
    let t := (afterWrite p r old mark s).1
    (∀ x, x ≠ p → spinOf t x r.cls = false) ∧
    (∀ x, x ≠ p → s.cfg.polled x r.cls = true → detectorOf t x r.cls = Detector.clear) ∧
    dirtyOf t r.cls p.side.other = true := by
  subst hm
  obtain ⟨hdet, hspin, hdirty, _⟩ := afterWrite_effect p r old true s
  have hwakes : ∀ x, x ≠ p → s.cfg.polled x r.cls = true → wakes s.cfg p r old (regLoad s r) true x r.cls = true :=
    fun x hx hp => by simp [wakes, hp, hc, hx]
  refine ⟨fun x hx => ?spin, fun x hx hp => (hdet x r.cls).trans (if_pos (hwakes x hx hp)), ?dirty⟩
  case spin =>
    rw [hspin]
    cases hp : s.cfg.polled x r.cls with
    | false => rw [hs.spins x r.cls hp, Bool.false_and]
    | true => rw [hwakes x hx hp, Bool.not_true, Bool.and_false]
  case dirty => rw [hdirty]; simp [hc]

/-- Settles O29: whatever the gate and the register's rule did, they kept the invariant, and the steps after a marked write
follow. -/
theorem markedWriteWakesTheOthers : Obligations.MarkedWriteWakesTheOthers := by
  intro s t p w a v cyc h q hinv ha hr hc hmark hexec
  rw [exec_writeCmd] at hexec
  obtain ⟨_, _, _, ht⟩ := perform_eq_next.1 hexec
  change t = answer (busWrite commandEnv p w a (lowBits w v) cyc s) at ht
  have ⟨_, hat, _⟩ := hr
  rw [busWrite_lowBits, busWrite_register _ _ _ ha hr, handlerWrite_register _ _ _ hat] at ht
  have hmarks : (∀ i, q.reg ≠ .comm i) ∨ storedValue (gated commandEnv p q.reg.cls cyc s) q.reg
      (presented (gated commandEnv p q.reg.cls cyc s) q a v w) ≠ regLoad (gated commandEnv p q.reg.cls cyc s) q.reg :=
    hmark.imp_right fun ⟨W, hne⟩ => by rw [gated_of_shut W.shut]; exact hne
  have hchain := gated_micros p q.reg.cls cyc s
  generalize gated commandEnv p q.reg.cls cyc s = u at ht hmarks hchain
  replace hchain := hchain.trans ((within_command p).regWrite a q.reg (regLoad u q.reg) (presented u q a v w) cyc u)
  have hx := regWrite_marks hmarks commandEnv.trigger p a cyc
  generalize regWrite commandEnv.trigger p a q.reg (regLoad u q.reg) (presented u q a v w) cyc u = x at ht hx hchain
  obtain ⟨hsound, _⟩ := pri_chain_sound hchain (sound_of_inv hinv)
  have hend := afterWrite_marked hsound hc hx p (regLoad u q.reg)
  rw [(pri_chain_fixed hchain).cfg] at hend
  rw [ht]
  exact hend

/-! ## What is split (R111) -/

/-- A line of the register map that counts for handler h (R26). -/
def HandlerRow (g : Config) (h : Handler) (q : RegRow) : Prop := q ∈ g.regmap ∧ q.handler = h ∧ g.covers q = true

theorem mem_filter_handlerRow {g : Config} {h : Handler} {q : RegRow} :
    q ∈ g.regmap.filter (fun q => q.handler = h && g.covers q) ↔ HandlerRow g h q := by
  simp [HandlerRow]

theorem handlerRow_of_regAt {g : Config} {p : Pid} {h : Handler} {a : Word} {q : RegRow} (hq : regAt g p h a = some q) :
    HandlerRow g h q ∧ q.pid = p := by
  obtain ⟨hpid, hhandler, _⟩ := regAt_spec hq
  have hcov := List.find?_some hq
  simp only [Bool.and_eq_true] at hcov
  exact ⟨⟨List.mem_of_find?_eq_some hq, hhandler, hcov.2⟩, hpid⟩

/-- The deciding registers are registers of the handler, those p sees when it sees any (log 11). -/
theorem decidingRows_spec (g : Config) (p : Pid) (h : Handler) (a : Word) :
    (∀ q ∈ decidingRows g p h a, HandlerRow g h q ∧ ((∃ q, HandlerRow g h q ∧ q.pid = p) → q.pid = p)) ∧
    ((∃ q, HandlerRow g h q) → decidingRows g p h a ≠ []) := by
  have hall : ∀ q, q ∈ g.regmap.filter (fun q => q.handler = h && g.covers q) ↔ HandlerRow g h q :=
    fun q => mem_filter_handlerRow
  unfold decidingRows
  simp only
  generalize g.regmap.filter (fun q => q.handler = h && g.covers q) = all at hall ⊢
  have hmine : ∀ q, q ∈ all.filter (·.pid = p) ↔ HandlerRow g h q ∧ q.pid = p := fun q => by simp [hall]
  generalize all.filter (·.pid = p) = mine at hmine ⊢
  split
  next =>
    cases mine with
    | nil =>
      have hnone : ¬ ∃ q, HandlerRow g h q ∧ q.pid = p := fun ⟨q, hq⟩ => List.not_mem_nil ((hmine q).2 hq)
      exact ⟨fun q hq => ⟨(hall q).1 hq, fun hex => absurd hex hnone⟩, fun ⟨q, hq⟩ => List.ne_nil_of_mem ((hall q).2 hq)⟩
    | cons q rest =>
      exact ⟨fun x hx => ⟨((hmine x).1 hx).1, fun _ => ((hmine x).1 hx).2⟩, fun _ => List.cons_ne_nil q rest⟩
  next here hne =>
    refine ⟨fun q hq => ?_, fun _ => hne⟩
    obtain ⟨hrow, hpid⟩ := (hmine q).1 (List.mem_of_mem_filter hq)
    exact ⟨hrow, fun _ => hpid⟩

theorem bytes_two_or_four (r : Reg) : r.bytes = 2 ∨ r.bytes = 4 := by
  cases r with
  | sys | vdp | loc | comm | pwm => exact .inl rfl
  | dma d =>
    cases d with
    | len | stat | fifoData => exact .inl rfl
    | sar | dar | tcr | chcr => exact .inr rfl
  | div => exact .inr rfl

/-- At an address aligned to 4 that no register covers, only a 16-bit register can cover the second half. -/
theorem regAt_second_half {g : Config} {p : Pid} {h : Handler} {a : Word} {q : RegRow} (ha : alignDown .w32 a = a)
    (hn : regAt g p h a = none) (hq : regAt g p h (a + 2) = some q) : q.reg.bytes = 2 := by
  obtain ⟨⟨hmem, hhandler, hcov⟩, hpid⟩ := handlerRow_of_regAt hq
  obtain ⟨_, _, hlane, _, _, hbase⟩ := regAt_spec hq
  have hout : ¬ (a - q.base).toNat < q.reg.bytes := by
    simpa [hpid, hhandler, hcov] using List.find?_eq_none.1 hn q hmem
  refine (bytes_two_or_four q.reg).resolve_right fun h4 => ?_
  have hmod : a.toNat % 4 = 0 := toNat_mod_bytes_of_aligned ha
  rw [h4] at hlane hout hbase
  bv_omega

theorem any_halves {l : List RegRow} {m : Nat} (hne : l ≠ []) (hm : ∀ q ∈ l, q.reg.bytes = m) :
    l.any (·.reg.bytes == 2) = decide (m = 2) := by
  cases l with
  | nil => exact absurd rfl hne
  | cons x rest =>
    by_cases h2 : m = 2
    · have hx := hm x (List.mem_cons_self ..)
      simp [hx, h2]
    · have : ∀ q ∈ x :: rest, q.reg.bytes ≠ 2 := fun q hq => by rw [hm q hq]; exact h2
      simpa [h2] using this

/-- A handler is split by width where the registers that decide, and those p sees, have one width (R111). -/
theorem handlerSplits_of_width {g : Config} {p : Pid} {h : Handler} {a : Word} {m : Nat} (ha : alignDown .w32 a = a)
    (hex : ∃ q, HandlerRow g h q) (hdec : ∀ q ∈ decidingRows g p h a, q.reg.bytes = m)
    (hmine : ∀ q, HandlerRow g h q → q.pid = p → q.reg.bytes = m) : handlerSplits g p h a = decide (m = 2) := by
  have hat : ∀ b q, regAt g p h b = some q → q.reg.bytes = m := fun b q hq =>
    hmine q (handlerRow_of_regAt hq).1 (handlerRow_of_regAt hq).2
  unfold handlerSplits
  cases hn : regAt g p h a with
  | some q => simp only [hat a q hn]; rfl
  | none =>
    cases hn2 : regAt g p h (a + 2) with
    | some q => simp [← hat _ q hn2, regAt_second_half ha hn hn2]
    | none =>
      have hne := (decidingRows_spec g p h a).2 hex
      have hany := any_halves hne hdec
      cases hl : decidingRows g p h a with
      | nil => exact absurd hl hne
      | cons x rest => rw [hl] at hany; exact hany

/-- Where the registers of the handler that p sees have one width, they decide (R111). -/
theorem handlerSplits_of_own_width {g : Config} {p : Pid} {h : Handler} {a : Word} {m : Nat} (ha : alignDown .w32 a = a)
    (hex : ∃ q, HandlerRow g h q ∧ q.pid = p) (hm : ∀ q, HandlerRow g h q → q.pid = p → q.reg.bytes = m) :
    handlerSplits g p h a = decide (m = 2) := by
  have ⟨q, hq, _⟩ := hex
  refine handlerSplits_of_width ha ⟨q, hq⟩ (fun x hx => ?_) hm
  obtain ⟨hrow, hown⟩ := (decidingRows_spec g p h a).1 x hx
  exact hm x hrow (hown hex)

/-- Where all registers of the handler have one width, they decide (R111). -/
theorem handlerSplits_of_all_width {g : Config} {p : Pid} {h : Handler} {a : Word} {m : Nat} (ha : alignDown .w32 a = a)
    (hex : ∃ q, HandlerRow g h q) (hm : ∀ q, HandlerRow g h q → q.reg.bytes = m) :
    handlerSplits g p h a = decide (m = 2) :=
  handlerSplits_of_width ha hex (fun x hx => hm x ((decidingRows_spec g p h a).1 x hx).1) fun x hx _ => hm x hx

/-! ## Split accesses (R117) -/

theorem settle_eq_hung {s : State} {k : Cop} : settle s = .fault (.coprocessorRunHung k) ↔ s.stop = some (.hung k) := by
  unfold settle
  cases s.stop with
  | none => simp
  | some r => cases r <;> simp [Stop.outcome]

theorem settle_answer_eq_hung {x : State × Response} {k : Cop} :
    settle (answer x) = .fault (.coprocessorRunHung k) ↔ x.1.stop = some (.hung k) := settle_eq_hung

theorem busRead_split {s : State} {p : Pid} {a : Word} (env : Env) (cyc : Word) (ha : alignDown .w32 a = a)
    (hr : ReachesSplit s p .rd a) : busRead env p .w32 a cyc s = splitRead env p a cyc s := by
  unfold busRead
  rw [alignAccess_of_aligned ha]
  obtain hr | ⟨h, hr, hsplit⟩ := hr
  · simp only [wideRead, hr]
  · simp [wideRead, hr, hsplit]

theorem busWrite_split {s : State} {p : Pid} {a : Word} (env : Env) (v cyc : Word) (ha : alignDown .w32 a = a)
    (hr : ReachesSplit s p .wr a) : busWrite env p .w32 a v cyc s = splitWrite env p a v cyc s := by
  unfold busWrite
  rw [alignAccess_of_aligned ha]
  obtain hr | ⟨h, hr, hsplit⟩ := hr
  · simp only [wideWrite, hr]
  · simp [wideWrite, hr, hsplit]

theorem alignDown_w16_of_even {a : Word} (h : a.toNat % 2 = 0) : alignDown .w16 a = a := by
  have h0 : a.getLsbD 0 = false := by simp [BitVec.getLsbD, Nat.testBit_zero, h]
  apply BitVec.eq_of_getLsbD_eq
  intro i hi
  cases i with
  | zero => rw [alignDown, BitVec.getLsbD_and, h0, Bool.false_and]
  | succ i =>
    have hone : (BitVec.ofNat 32 (Width.w16.bytes - 1)).getLsbD (i + 1) = false := by
      simp [Width.bytes, BitVec.getLsbD_ofNat, Nat.testBit_succ]
    rw [alignDown, BitVec.getLsbD_and, BitVec.getLsbD_not, decide_eq_true hi, hone, Bool.not_false, Bool.and_true,
      Bool.and_true]

/-- Both halves of an access aligned to 4 are aligned to 2. -/
theorem alignDown_halves {a : Word} (ha : alignDown .w32 a = a) : alignDown .w16 a = a ∧ alignDown .w16 (a + 2) = a + 2 := by
  have hmod : a.toNat % 4 = 0 := toNat_mod_bytes_of_aligned ha
  exact ⟨alignDown_w16_of_even (by omega), alignDown_w16_of_even (by bv_omega)⟩

/-- An aligned 16-bit read command is the half a split read performs. -/
theorem exec_busRd16_of_aligned {s : State} {a : Word} (hs : s.Ready) (ha : alignDown .w16 a = a) (p : Pid) (cyc : Word) :
    exec (.busRd16 p a cyc) s = settle (answer (narrowRead commandEnv p .w16 a cyc s)) := by
  refine (exec_readCmd_of_ready hs .w16 p a cyc).trans ?_
  rw [busRead, alignAccess_of_aligned ha]

/-- An aligned 16-bit write command is the half a split write performs. -/
theorem exec_busWr16_of_aligned {s : State} {a : Word} (hs : s.Ready) (ha : alignDown .w16 a = a) (p : Pid) (v : Half)
    (cyc : Word) :
    exec (.busWr16 p a v cyc) s = settle (answer (narrowWrite commandEnv p .w16 a (v.setWidth 32) cyc s)) := by
  refine (exec_eq_perform (.busWr16 p a v cyc) s nofun).trans ((perform_of_ready hs _).trans ?_)
  rw [effectOf, busWrite, alignAccess_of_aligned ha]

/-- Two accesses, the second from the state the first led to, before any response is given. -/
def inTurn (f g : State → State × Response) (join : Response → Response → Response) (s : State) : State × Response :=
  ((g (f s).1).1, join (f s).2 (g (f s).1).2)

/-- The response of a split read (R117). -/
def joinReads (hi lo : Response) : Response :=
  { value := (hi.value <<< 16) ||| (lo.value &&& 0xFFFF), cycles := hi.cycles + lo.cycles, irq := false }

/-- The response of a split write (R117). -/
def joinWrites (hi lo : Response) : Response := { value := 0, cycles := hi.cycles + lo.cycles, irq := hi.irq || lo.irq }

theorem exec_busRd32_split {s : State} {p : Pid} {a : Word} (hs : s.Ready) (cyc : Word) (ha : alignDown .w32 a = a)
    (hr : ReachesSplit s p .rd a) : exec (.busRd32 p a cyc) s = settle (answer
      (inTurn (narrowRead commandEnv p .w16 a cyc) (narrowRead commandEnv p .w16 (a + 2) cyc) joinReads s)) := by
  refine (exec_readCmd_of_ready hs .w32 p a cyc).trans ?_
  rw [busRead_split _ _ ha hr]
  rfl

theorem exec_busWr32_split {s : State} {p : Pid} {a : Word} (hs : s.Ready) (v cyc : Word) (ha : alignDown .w32 a = a)
    (hr : ReachesSplit s p .wr a) : exec (.busWr32 p a v cyc) s = settle (answer
      (inTurn (narrowWrite commandEnv p .w16 a (v >>> 16) cyc) (narrowWrite commandEnv p .w16 (a + 2) (v &&& 0xFFFF) cyc)
        joinWrites s)) := by
  refine (exec_writeCmd_of_ready hs .w32 p a v cyc).trans ?_
  rw [busWrite_split _ _ _ ha hr]
  rfl

/-- What the second access `g` does, from the state `u` the first led to with response `r`, and the pair of them, which `z`
answers. -/
structure SecondHalf (g : State → State × Response) (join : Response → Response → Response) (r : Response) (u : State)
    (z : Result) : Prop where
  ready : u.Ready
  hangs : ∀ k, settle (answer (g u)) = .fault (.coprocessorRunHung k) → z = .fault (.coprocessorRunHung k)
  next : ∀ y, settle (answer (g u)) = .next y →
    (g u).1.stop = none ∧ y = respond (g u).2 (g u).1 ∧ z = .next (respond (join r y.resp) y)

/-- Two accesses in turn: a hang of the first hangs both; otherwise the second starts where the first led, but for the
response (R69, R117, R149). -/
theorem settle_inTurn {s : State} {f g : State → State × Response} (join : Response → Response → Response) (hs : s.Ready)
    (hf : Fixed s (f s).1) (hg : ∀ u, Fixed u (g u).1) :
    (∀ k, settle (answer (f s)) = .fault (.coprocessorRunHung k) →
      settle (answer (inTurn f g join s)) = .fault (.coprocessorRunHung k)) ∧
    ∀ x, settle (answer (f s)) = .next x → ∃ u, ({ x with resp := s.resp } : State) = u ∧ x = respond x.resp u ∧
      SecondHalf g join x.resp u (settle (answer (inTurn f g join s))) := by
  have ⟨hinit, hfail, _⟩ := hs
  refine ⟨fun k hk => ?hangs, fun x hx => ?next⟩
  case hangs =>
    have hstop := settle_answer_eq_hung.1 hk
    have hkeep := (hg (f s).1).stop (by rw [hstop]; nofun)
    exact settle_answer_eq_hung.2 (hkeep.trans hstop)
  case next =>
    obtain ⟨hstop, rfl⟩ := settle_answer_eq_next.1 hx
    refine ⟨(f s).1, by rw [← hf.resp]; rfl, rfl, ⟨hf.initialised.trans hinit, hf.initFailed.trans hfail, hstop⟩,
      fun k hk => ?_, fun y hy => ?_⟩
    · have hstop' := settle_answer_eq_hung.1 hk
      exact settle_answer_eq_hung.2 hstop'
    · obtain ⟨hstop', rfl⟩ := settle_answer_eq_next.1 hy
      exact ⟨hstop', rfl, settle_of_stop_none hstop'⟩

/-- A read's frame where no coprocessor runs: flags, detectors and the log (R122, R298). -/
def ReadFrame (s t : State) : Prop :=
  t = { s with dirty := t.dirty, pd := t.pd, spin := t.spin, endSlice := t.endSlice, anom := t.anom }

/-- A 16-bit read without a gate, that nothing stops, changes only flags, detectors and the log. -/
theorem narrowRead_frame {p : Pid} {w : Width} {a cyc : Word} {s : State}
    (h : (narrowRead coprocessorEnv p w a cyc s).1.stop = none) : ReadFrame s (narrowRead coprocessorEnv p w a cyc s).1 := by
  have hhalt : (halt .illFormedView s).stop ≠ none := by
    rw [halt_stop]; cases s.stop <;> nofun
  unfold narrowRead at h ⊢
  cases hr : resolve s p w .rd a with
  | mem r b m =>
    simp only [hr, memAccessRead] at h ⊢
    split_ifs at h ⊢
    · rfl
    · exact absurd h hhalt
  | split =>
    simp only [hr] at h
    exact absurd h hhalt
  | stub => rfl
  | hnd k =>
    simp only
    unfold handlerRead
    cases regAt s.cfg p k a with
    | none => rfl
    | some q =>
      have hobs := observeClass_clearsDirty (env := coprocessorEnv) (p := p) (c := q.reg.cls) (cyc := cyc) (s := s)
        (.inr (.inr (.inr rfl)))
      simp only
      generalize observeClass coprocessorEnv p q.reg.cls cyc s = u at hobs ⊢
      obtain ⟨flags, rfl⟩ : ∃ flags, u = { s with dirty := flags } := ⟨_, hobs.eq⟩
      have hpoll := (pollRead_polls p q.reg.cls a cyc { s with dirty := flags }).eq
      generalize pollRead p q.reg.cls a cyc { s with dirty := flags } = t at hpoll ⊢
      have hd : t.dirty = flags := by rw [hpoll]
      have ha : t.anom = s.anom := by rw [hpoll]
      unfold ReadFrame
      rw [hd, ha]
      exact hpoll

/-- Two halfwords put together (R117). -/
theorem halves_append (hi lo : Word) :
    (hi <<< 16) ||| (lo &&& 0xFFFF) = (hi.extractLsb' 0 16 ++ lo.extractLsb' 0 16 : BitVec (16 + 16)) := by
  apply BitVec.eq_of_getLsbD_eq
  intro i h32
  have hmask : (0xFFFF : Word).getLsbD i = decide (i < 16) := getLsbD_widthMask .w16 i
  rw [BitVec.getLsbD_or, BitVec.getLsbD_and, BitVec.getLsbD_shiftLeft, BitVec.getLsbD_append, hmask]
  by_cases h : i < 16
  · simp [h, h32]
  · have h16 : i - 16 < 16 := by omega
    simp [h, h32, h16]

/-- The data of the high half of a split write. -/
theorem setWidth_highHalf (v : Word) : (v.extractLsb' 16 16).setWidth 32 = v >>> 16 := by
  apply BitVec.eq_of_toNat_eq
  have hlt := v.isLt
  simp only [BitVec.toNat_setWidth, BitVec.extractLsb'_toNat, BitVec.toNat_ushiftRight, Nat.shiftRight_eq_div_pow]
  omega

/-- The data of the low half of a split write. -/
theorem setWidth_lowHalf (v : Word) : (v.extractLsb' 0 16).setWidth 32 = v &&& 0xFFFF := (and_lowMask16 v).symm

/-- A read by a coprocessor, or at LAST_SYNC, meets no gate (R148, R291). -/
theorem narrowRead_gateless {p : Pid} {cyc : Word} {s : State} (h : p ≠ .pri ∨ s.lastSync = cyc) (w : Width) (a : Word) :
    narrowRead commandEnv p w a cyc s = narrowRead coprocessorEnv p w a cyc s :=
  h.elim (fun hp => narrowRead_coprocessor hp _ _ w a cyc s) (narrowRead_synced p w a)

/-- A write by a coprocessor, or at LAST_SYNC, meets no gate (R148, R291). -/
theorem narrowWrite_gateless {p : Pid} {cyc : Word} {s : State} (h : p ≠ .pri ∨ s.lastSync = cyc) (w : Width) (a v : Word) :
    narrowWrite commandEnv p w a v cyc s = narrowWrite coprocessorEnv p w a v cyc s :=
  have he : commandEnv.trigger = coprocessorEnv.trigger := rfl
  h.elim (fun hp => narrowWrite_coprocessor hp he w a v cyc s) (narrowWrite_synced p w a v)

/-- Settles O22: a handler splits by the width of the registers that decide, and a split access is two 16-bit accesses in
turn. -/
theorem splitAccessIsTwoHalves : Obligations.SplitAccessIsTwoHalves := by
  refine ⟨?width, fun s p a v cyc hs ha => ?halves⟩
  case width =>
    exact fun g p h a m ha => ⟨handlerSplits_of_own_width ha, handlerSplits_of_all_width ha⟩
  case halves =>
    obtain ⟨hhi, hlo⟩ := alignDown_halves ha
    refine ⟨fun hr => ?read, fun hr => ?write⟩
    case read =>
      rw [exec_busRd32_split hs cyc ha hr, exec_busRd16_of_aligned hs hhi]
      obtain ⟨hfirst, hthen⟩ := settle_inTurn joinReads hs (narrowRead_fixed p (w := .w16) (by decide) a cyc s)
        (narrowRead_fixed p (w := .w16) (by decide) (a + 2) cyc)
      refine ⟨hfirst, fun x hx => ?_⟩
      obtain ⟨u, hu, hxu, hready, hhangs, hnext⟩ := hthen x hx
      rw [hu, exec_busRd16_of_aligned hready hlo]
      refine ⟨hhangs, fun y hy => ?_⟩
      obtain ⟨hstop, hyu, hz⟩ := hnext y hy
      refine ⟨?_, fun hquiet => ?_⟩
      · rw [hz, ← halves_append]; rfl
      · have hsync : p ≠ .pri ∨ u.lastSync = cyc := by rw [hxu] at hquiet; exact hquiet
        rw [narrowRead_gateless hsync] at hstop hyu
        rw [hyu, hxu]
        exact congrArg (respond _) (narrowRead_frame hstop)
    case write =>
      rw [exec_busWr32_split hs v cyc ha hr, exec_busWr16_of_aligned hs hhi, setWidth_highHalf]
      obtain ⟨hfirst, hthen⟩ := settle_inTurn joinWrites hs (narrowWrite_fixed p (w := .w16) (by decide) a (v >>> 16) cyc s)
        (narrowWrite_fixed p (w := .w16) (by decide) (a + 2) (v &&& 0xFFFF) cyc)
      refine ⟨hfirst, fun x hx => ?_⟩
      obtain ⟨u, hu, hxu, hready, hhangs, hnext⟩ := hthen x hx
      rw [hu, exec_busWr16_of_aligned hready hlo, setWidth_lowHalf]
      refine ⟨hhangs, fun y hy => ?_⟩
      obtain ⟨_, hyu, hz⟩ := hnext y hy
      refine ⟨hz, fun hquiet => ?_⟩
      have hsync : p ≠ .pri ∨ u.lastSync = cyc := by rw [hxu] at hquiet; exact hquiet
      rw [narrowWrite_gateless hsync] at hyu
      obtain ⟨hlast, hruns, hcalls⟩ := (within_quiet p).narrowWrite (w := .w16) (by decide) (a + 2) (v &&& 0xFFFF) cyc u
      rw [hyu, hxu]
      exact ⟨hlast, hruns, hcalls⟩

end Sys2Proof.Machine
end

section
/-! PROOF. The statements of 41_sync.md: the commands of the gate (R141, R143, R144), ADVANCE (R146), the times a gate moves
(R147), a second gate (R148) and the gate as a state machine (R149). -/

namespace Sys2Proof.Machine

/-! ## ADVANCE (R146) -/

theorem decode_advance_pri (addr data cyc : Word) : decode (mkPacket 4 0 0 addr data cyc) = .error .unlistedPid := by
  unfold decode
  rw [fieldOp_mk]
  simp [decodeW0, decodeCop, Except.map]

/-- Settles O16: ADVANCE is one move of a virtual time, and pid 0 decodes to no coprocessor. -/
theorem advanceMovesVirtualTime : Obligations.AdvanceMovesVirtualTime := by
  refine ⟨fun s k n hs => ?_, decode_advance_pri⟩
  have ⟨_, _, hstop⟩ := hs
  exact ⟨_, exec_next (i := .advance k n) nofun hs hstop, fun j => PerCop.get_set s.vt k j _, rfl⟩

/-! ## SYNC_RD and SYNC_WR (R141, R143, R144) -/

theorem gapOpen_iff {c : RegClass} {now : Word} {s : State} : gapOpen c now s = true ↔
    0 < (now - s.lastSync).toInt ∧ (s.cfg.syncGap.get c).toNat < (now - s.lastSync).toNat := by
  rw [gapOpen, Bool.and_eq_true, after_iff, BitVec.ult_iff_lt, BitVec.lt_def]

theorem gapSync_of_open {c : RegClass} {now : Word} {s : State} (h : gapOpen c now s = true) :
    gapSync c now s = setLastSync now (runTo .scp now (runTo .mcp now s)) := if_pos h

theorem syncRead_of_dirty {c : RegClass} {s : State} (h : dirtyOf s c .pri = true) (env : Env) (now : Word) :
    syncRead env c now s = setDirty c .pri false s := if_pos h

theorem syncRead_of_clean {c : RegClass} {s : State} (h : dirtyOf s c .pri = false) (now : Word) :
    syncRead commandEnv c now s = gapSync c now s := if_neg (by simp [h])

/-- A gate that stays shut is a command that gives its response and does nothing else (R144). -/
theorem exec_syncWr_of_shut {s : State} (hs : s.Ready) {c : RegClass} {now : Word} (h : gapOpen c now s = false) :
    exec (.syncWr c now) s = .next (respond Response.zero s) := by
  have ⟨_, _, hstop⟩ := hs
  rw [exec_syncWr_of_ready hs, gapSync_of_shut h]
  exact settle_of_stop_none hstop

/-- Settles O41: the dirty flag decides between clearing it and the gate, and the gap test decides what the gate does. -/
theorem syncReadBranches : Obligations.SyncReadBranches := by
  intro s c now hs _
  have ⟨_, _, hstop⟩ := hs
  refine ⟨fun hd => ?dirty, fun hd => ?clean, fun hgap => ?shut⟩
  case dirty =>
    rw [exec_syncRd_of_ready hs, syncRead_of_dirty hd]
    exact ⟨_, settle_of_stop_none hstop, fun x y => dirtyOf_setDirty s c x .pri y false, rfl⟩
  case clean => rw [exec_syncRd_of_ready hs, exec_syncWr_of_ready hs, syncRead_of_clean hd]
  case shut => exact exec_syncWr_of_shut hs (Bool.eq_false_iff.2 fun ho => hgap (gapOpen_iff.1 ho))

/-! ## The time in a turn of the gate (R143, R149) -/

/-- A run of a coprocessor moves no virtual time and takes the host's next answer. -/
theorem hostRun_keeps_vt (k : Cop) (n : Word) (s : State) :
    (hostRun k n s).1.vt = s.vt ∧ (hostRun k n s).1.runs = s.runs.tail := by
  rcases hostRun_cases k n s with ⟨hr, e⟩ | ⟨r, rest, hr, e⟩
  · rw [e, hr]
    exact ⟨rfl, hr⟩
  · rw [e, hr]
    obtain ⟨_, _, hvt, hruns⟩ := cop_chain_fixed
      (copAccesses_micros k r.cmds { recordCall (.run k n) s with runs := rest })
    exact ⟨hvt, hruns⟩

/-- What a run reports is what a listed answer says, or n when none is listed (log 5). -/
theorem hostRun_reports {k : Cop} {n used : Word} {s : State} (h : (hostRun k n s).2 = some used) :
    used = n ∨ ∃ r ∈ s.runs, r.used = some used := by
  rcases hostRun_cases k n s with ⟨_, e⟩ | ⟨r, rest, hr, e⟩
  · rw [e] at h
    exact .inl (Option.some.inj h).symm
  · rw [e] at h
    exact .inr ⟨r, by rw [hr]; exact List.mem_cons_self, h⟩

/-- A turn of the gate: nothing for a coprocessor that is not behind; else its run, which returns and moves VT[k], or hangs. -/
theorem runTo_cases (k : Cop) (now : Word) (s : State) : runTo k now s = s ∨
    0 < (now - s.vt.get k).toInt ∧
      ((∃ used, (hostRun k (now - s.vt.get k) s).2 = some used ∧
        runTo k now s = setVt k (s.vt.get k + runLength (now - s.vt.get k) used) (hostRun k (now - s.vt.get k) s).1) ∨
      runTo k now s = halt (.hung k) (hostRun k (now - s.vt.get k) s).1) := by
  by_cases hb : 0 < (now - s.vt.get k).toInt
  · refine .inr ⟨hb, ?_⟩
    obtain ⟨hvt, _⟩ := hostRun_keeps_vt k (now - s.vt.get k) s
    unfold runTo
    simp only [if_pos ((after_iff ..).2 hb)]
    rcases hr : hostRun k (now - s.vt.get k) s with ⟨x, _ | used⟩
    · exact .inr rfl
    · have hx : x.vt = s.vt := by rw [hr] at hvt; exact hvt
      exact .inl ⟨used, rfl, by simp only [hx]⟩
  · exact .inl (if_neg fun h => hb ((after_iff ..).1 h))

theorem runTo_runs_subset (k : Cop) (now : Word) (s : State) : (runTo k now s).runs ⊆ s.runs := by
  obtain ⟨_, hruns⟩ := hostRun_keeps_vt k (now - s.vt.get k) s
  have htail : (hostRun k (now - s.vt.get k) s).1.runs ⊆ s.runs := hruns ▸ s.runs.tail_subset
  obtain e | ⟨_, ⟨_, _, e⟩ | e⟩ := runTo_cases k now s
  · rw [e]; exact List.Subset.refl _
  · rw [e]; exact htail
  · rw [e]; exact htail

theorem runTo_vt_other {j k : Cop} (hj : j ≠ k) (now : Word) (s : State) : (runTo k now s).vt.get j = s.vt.get j := by
  obtain ⟨hvt, _⟩ := hostRun_keeps_vt k (now - s.vt.get k) s
  obtain e | ⟨_, ⟨_, _, e⟩ | e⟩ := runTo_cases k now s
  · rw [e]
  · rw [e, setVt_vt, PerCop.get_set, if_neg hj, hvt]
  · rw [e]; exact congrArg (PerCop.get · j) hvt

/-! ## An open gate (R143, R149) -/

theorem runTo_fixed (k : Cop) (now : Word) (s : State) : Fixed s (runTo k now s) := pri_chain_fixed (runTo_micros k now s)

theorem Fixed.stop_eq_some {s t : State} (h : Fixed s t) {r : Stop} (hs : s.stop = some r) : t.stop = some r := by
  rw [h.stop (by simp [hs]), hs]

theorem Fixed.stop_none {s t : State} (h : Fixed s t) (ht : t.stop = none) : s.stop = none := by
  by_contra hs
  exact hs ((h.stop hs).symm.trans ht)

theorem Turned.vt_same {k : Cop} {now : Word} {u v : State} (h : Turned k now u v) :
    v.vt.get k = if 0 < (now - u.vt.get k).toInt then u.vt.get k +
      BitVec.ofNat 32 (max (now - u.vt.get k).toNat (usedBy u.runs (now - u.vt.get k)).toNat) else u.vt.get k := by
  rw [h.vt]
  split_ifs
  · exact PerCop.get_set_same ..
  · rfl

/-- Settles O42: the turn of MCP, then the turn of SCP from where it led; a hang of either stands to the end. -/
theorem openGateRunsTheCoprocessors : Obligations.OpenGateRunsTheCoprocessors := by
  intro s c now hs hi ha _ hlate hgap n behind longer rest hangs
  have hon : RunsOn s := ⟨sound_of_inv hi, ha, hs⟩
  have hexec : exec (.syncWr c now) s =
      settle (respond Response.zero (setLastSync now (runTo .scp now (runTo .mcp now s)))) := by
    rw [exec_syncWr_of_ready hs, gapSync_of_open (gapOpen_iff.2 ⟨hlate, hgap⟩)]
  have hvt : (runTo .mcp now s).vt.get .scp = s.vt.get .scp := runTo_vt_other (by decide) now s
  have hsecond : (runTo .mcp now s).runs = rest → (Hangs .scp now (runTo .mcp now s) ↔ hangs .scp rest) := fun hruns => by
    rw [Hangs, hvt, hruns]
  refine ⟨fun hmcp hscp => ?returns, fun hmcp => ?mcpHangs, fun hmcp hscp => ?scpHangs⟩
  case returns =>
    have hm := runTo_turned .mcp now hon hmcp
    have hruns : (runTo .mcp now s).runs = rest := hm.runs
    have hu := runTo_turned .scp now hm.runsOn fun h => hscp ((hsecond hruns).1 h)
    obtain ⟨_, _, hstop⟩ := hu.runsOn.ready
    refine ⟨_, _, _, hm.performed, hu.performed, hexec.trans (settle_of_stop_none hstop), rfl, ?_, ?_, ?_⟩
    · exact (runTo_vt_other (j := .mcp) (by decide) now _).trans hm.vt_same
    · have hsame := hu.vt_same
      rw [hvt, hruns] at hsame
      exact hsame
    · have htail := hu.runs
      rw [hvt, hruns] at htail
      exact htail
  case mcpHangs =>
    rw [hexec]
    exact settle_eq_hung.2 ((runTo_fixed .scp now _).stop_eq_some (runTo_hangs .mcp now hon hmcp))
  case scpHangs =>
    have hm := runTo_turned .mcp now hon hmcp
    rw [hexec]
    exact settle_eq_hung.2 (runTo_hangs .scp now hm.runsOn ((hsecond hm.runs).2 hscp))

/-! ## The times a gate moves (R147) -/

/-- A virtual time v that a gate at NOW may lead to v': it stays, or it was behind and moves by the length of a run that reports n
or what one of the answers says (R143). -/
def Moves (now : Word) (runs : List Run) (v v' : Word) : Prop :=
  v' = v ∨ 0 < (now - v).toInt ∧
    ∃ used, (used = now - v ∨ ∃ r ∈ runs, r.used = some used) ∧ v' = v + runLength (now - v) used

theorem Moves.mono {now : Word} {runs runs' : List Run} (hsub : runs ⊆ runs') {v v' : Word} (h : Moves now runs v v') :
    Moves now runs' v v' := by
  obtain h | ⟨hb, used, hu, hv⟩ := h
  · exact .inl h
  · exact .inr ⟨hb, used, hu.imp id fun ⟨r, hr, e⟩ => ⟨r, hsub hr, e⟩, hv⟩

theorem runTo_moves (k : Cop) (now : Word) (s : State) : Moves now s.runs (s.vt.get k) ((runTo k now s).vt.get k) := by
  obtain e | ⟨hb, ⟨used, hu, e⟩ | e⟩ := runTo_cases k now s
  · exact .inl (by rw [e])
  · exact .inr ⟨hb, used, hostRun_reports hu, by rw [e]; exact PerCop.get_set_same ..⟩
  · obtain ⟨hvt, _⟩ := hostRun_keeps_vt k (now - s.vt.get k) s
    exact .inl (by rw [e]; exact congrArg (PerCop.get · k) hvt)

/-- Each virtual time moves in its own turn, which finds it as the gate found it. -/
theorem gapSync_moves (c : RegClass) (now : Word) (s : State) (k : Cop) :
    Moves now s.runs (s.vt.get k) ((gapSync c now s).vt.get k) := by
  cases ho : gapOpen c now s with
  | false => exact .inl (by rw [gapSync_of_shut ho])
  | true =>
    rw [gapSync_of_open ho]
    simp only [setLastSync_keeps]
    cases k with
    | mcp =>
      rw [runTo_vt_other (by decide)]
      exact runTo_moves .mcp now s
    | scp =>
      have hmoves := runTo_moves .scp now (runTo .mcp now s)
      rw [runTo_vt_other (by decide)] at hmoves
      exact hmoves.mono (runTo_runs_subset .mcp now s)

theorem gapSync_lastSync (c : RegClass) (now : Word) (s : State) : (gapSync c now s).lastSync = s.lastSync ∨
    ((gapSync c now s).lastSync = now ∧ 0 < (now - s.lastSync).toInt) := by
  cases ho : gapOpen c now s with
  | false => exact .inl (by rw [gapSync_of_shut ho])
  | true => exact .inr ⟨by rw [gapSync_of_open ho]; rfl, (gapOpen_iff.1 ho).1⟩

theorem toNat_runLength (n used : Word) : (runLength n used).toNat = max n.toNat used.toNat := by
  rw [runLength_eq_max]
  exact (BitVec.toNat_ofNat ..).trans (Nat.mod_eq_of_lt (max_lt n.isLt used.isLt))

/-- A word is positive as a signed number when it is one of 1 to 2^31 - 1. -/
theorem toInt_pos_iff_toNat (x : Word) : 0 < x.toInt ↔ 0 < x.toNat ∧ x.toNat < 2 ^ 31 := by
  rw [BitVec.toInt_eq_toNat_cond]
  split_ifs <;> omega

/-- A time that moves by fewer than 2^31 cycles moves forward (R272). -/
theorem after_add_of_pos (v : Word) {m : Word} (h : 0 < m.toNat ∧ m.toNat < 2 ^ 31) : after (v + m) v = true := by
  rw [after_iff, add_sub_cancel_left]
  exact (toInt_pos_iff_toNat m).2 h

theorem Moves.by_at_least {now : Word} {runs : List Run} {v v' : Word} (h : Moves now runs v v') :
    v' = v ∨ 0 < (now - v).toInt ∧ ∃ m : Word, (now - v).toNat ≤ m.toNat ∧ v' = v + m := by
  obtain h | ⟨hb, used, _, hv⟩ := h
  · exact .inl h
  · exact .inr ⟨hb, _, by rw [toNat_runLength]; exact le_max_left .., hv⟩

theorem Moves.forward {now : Word} {runs : List Run} {v v' : Word} (h : Moves now runs v v')
    (hshort : ∀ r ∈ runs, ∀ used, r.used = some used → used.toNat < 2 ^ 31) : v' = v ∨ after v' v = true := by
  obtain h | ⟨hb, used, hu, hv⟩ := h
  · exact .inl h
  · obtain ⟨hpos, hlt⟩ := (toInt_pos_iff_toNat _).1 hb
    have hused : used.toNat < 2 ^ 31 := by
      obtain rfl | ⟨r, hr, e⟩ := hu
      · exact hlt
      · exact hshort r hr used e
    rw [hv]
    exact .inr (after_add_of_pos v (by rw [toNat_runLength]; exact ⟨lt_max_of_lt_left hpos, max_lt hlt hused⟩))

/-- A SYNC_WR that answers a next state: the block accepted it, and its gate did not hang. -/
theorem exec_syncWr_eq_next {c : RegClass} {now : Word} {s t : State} (h : exec (.syncWr c now) s = .next t) :
    s.initialised = true ∧ s.initFailed = false ∧ (gapSync c now s).stop = none ∧
      t = respond Response.zero (gapSync c now s) :=
  perform_eq_next.1 ((exec_eq_perform (.syncWr c now) s nofun).symm.trans h)

/-- Settles O43: LAST_SYNC moves with an open gate only, each VT[k] by the length of its run. -/
theorem gateNeverMovesTimeBack : Obligations.GateNeverMovesTimeBack := by
  intro s t c now _ h
  obtain ⟨_, _, _, rfl⟩ := exec_syncWr_eq_next h
  exact ⟨gapSync_lastSync c now s, fun k => (gapSync_moves c now s k).by_at_least,
    fun hshort k => (gapSync_moves c now s k).forward hshort⟩

/-! ## A second gate (R148) -/

/-- Settles O44: the first gate leaves the gap test of its class failing, and one that opened that of every class. -/
theorem gateIsIdempotent : Obligations.GateIsIdempotent := by
  intro s t c now _ h opened x _ hx
  obtain ⟨hinit, hfail, hstop, rfl⟩ := exec_syncWr_eq_next h
  have hfix := gapSync_fixed c now s
  have hready : (respond Response.zero (gapSync c now s)).Ready :=
    ⟨hfix.initialised.trans hinit, hfix.initFailed.trans hfail, hstop⟩
  have hshut : gapOpen x now (respond Response.zero (gapSync c now s)) = false := by
    obtain rfl | ho := hx
    · exact gapOpen_gapSync x now s
    · exact gapOpen_synced (by rw [gapSync_of_open (gapOpen_iff.2 ho)]; rfl)
  exact exec_syncWr_of_shut hready hshut

/-! ## The gate as a state machine (R149) -/

/-- What SYNC_RD or SYNC_WR does before its response. -/
def gateEffect (isRead : Bool) (c : RegClass) (now : Word) (s : State) : State :=
  if isRead then syncRead commandEnv c now s else gapSync c now s

theorem exec_gate_of_ready {s : State} (hs : s.Ready) (isRead : Bool) (c : RegClass) (now : Word) :
    exec (if isRead then .syncRd c now else .syncWr c now) s =
      settle (respond Response.zero (gateEffect isRead c now s)) := by
  cases isRead with
  | false => exact exec_syncWr_of_ready hs c now
  | true => exact exec_syncRd_of_ready hs c now

/-- Where a gate in progress leads: what its remaining phases do. -/
def gateEnd (g : GateFsm) : State :=
  match g.phase with
  | .idle => g.block
  | .check => gapSync g.cls g.now g.block
  | .runMcp => setLastSync g.now (runTo .scp g.now (runTo .mcp g.now g.block))
  | .runScp => setLastSync g.now (runTo .scp g.now g.block)
  | .commit => setLastSync g.now g.block

/-- The transitions a phase is from IDLE, at most. -/
@[simp] def GatePhase.toIdle : GatePhase → Nat
  | .idle => 0
  | .commit => 1
  | .runScp => 2
  | .runMcp => 3
  | .check => 4

/-- A gate starts on the way to what its command does. -/
theorem gateEnd_gateStart (isRead : Bool) (c : RegClass) (now : Word) (s : State) :
    gateEnd (gateStart isRead c now s) = gateEffect isRead c now s := by
  unfold gateStart gateEffect
  cases isRead with
  | false => rfl
  | true =>
    cases hd : dirtyOf s c .pri with
    | true => exact (syncRead_of_dirty hd commandEnv now).symm
    | false => exact (syncRead_of_clean hd now).symm

theorem toIdle_le_four (x : GatePhase) : x.toIdle ≤ 4 := by cases x <;> simp

theorem setLastSync_fixed (now : Word) (s : State) : Fixed s (setLastSync now s) := (PriMicro.lastSync s now).fixed

/-- The way to the end keeps what every access keeps; in particular a run that hung on it leaves no end. -/
theorem gateEnd_fixed (g : GateFsm) : Fixed g.block (gateEnd g) := by
  obtain ⟨phase, c, now, s⟩ := g
  cases phase with
  | idle => exact Fixed.refl s
  | check => exact gapSync_fixed c now s
  | runMcp => exact ((runTo_fixed .mcp now s).trans (runTo_fixed .scp now _)).trans (setLastSync_fixed now _)
  | runScp => exact (runTo_fixed .scp now s).trans (setLastSync_fixed now _)
  | commit => exact setLastSync_fixed now s

/-- A transition towards IDLE: the gate leads where it led, and nothing has stopped it. -/
structure GateAdvances (g g' : GateFsm) : Prop where
  leads : gateEnd g' = gateEnd g
  nearer : g'.phase.toIdle < g.phase.toIdle
  stop : g'.block.stop = none

/-- A transition that leaves the gate waiting: the block has stopped, in a phase that is not IDLE, and so it has at the end. -/
structure GateWaits (g g' : GateFsm) : Prop where
  phase : g'.phase ≠ .idle
  stop : g'.block.stop ≠ none
  stops : (gateEnd g).stop ≠ none

theorem gateStep_of_stop {g : GateFsm} (h : g.block.stop ≠ none) : gateStep g = g :=
  if_pos (Option.isSome_iff_ne_none.2 h)

/-- The phase of a run of coprocessor k: the run returns and the gate goes on from where it led, or the gate waits. -/
theorem gateRan_cases {g : GateFsm} (k : Cop) {x : GatePhase} (hp : g.phase ≠ .idle)
    (hlead : gateEnd g = gateEnd { g with phase := x, block := runTo k g.now g.block })
    (hx : x.toIdle < g.phase.toIdle) : GateAdvances g (gateRan k x g) ∨ GateWaits g (gateRan k x g) := by
  by_cases hs : (runTo k g.now g.block).stop = none
  · have e : gateRan k x g = { g with phase := x, block := runTo k g.now g.block } := if_neg (by simp [hs])
    rw [e]
    exact .inl ⟨hlead.symm, hx, hs⟩
  · have e : gateRan k x g = { g with block := runTo k g.now g.block } := if_pos (Option.isSome_iff_ne_none.2 hs)
    rw [e]
    refine .inr ⟨hp, hs, fun hend => hs ?_⟩
    rw [hlead] at hend
    exact (gateEnd_fixed _).stop_none hend

/-- A transition of a gate that is not in IDLE advances it or leaves it waiting (R149). -/
theorem gateStep_cases {g : GateFsm} (hp : g.phase ≠ .idle) : GateAdvances g (gateStep g) ∨ GateWaits g (gateStep g) := by
  by_cases hs : g.block.stop = none
  swap
  · rw [gateStep_of_stop hs]
    exact .inr ⟨hp, hs, fun hend => hs ((gateEnd_fixed g).stop_none hend)⟩
  obtain ⟨phase, c, now, s⟩ := g
  have hgo : ¬ s.stop.isSome = true := by simpa using hs
  unfold gateStep
  rw [if_neg hgo]
  cases phase with
  | idle => exact absurd rfl hp
  | check =>
    dsimp only
    split_ifs with ho
    · exact .inl ⟨(gapSync_of_open ho).symm, by simp, hs⟩
    · exact .inl ⟨(gapSync_of_shut (Bool.eq_false_iff.2 ho)).symm, by simp, hs⟩
  | runMcp => exact gateRan_cases .mcp (x := .runScp) hp rfl (by simp)
  | runScp => exact gateRan_cases .scp (x := .commit) hp rfl (by simp)
  | commit => exact .inl ⟨rfl, by simp, hs⟩

/-- A gate no run of which hangs is in IDLE after as many transitions as its phase is away from it, where it leads. -/
theorem gate_completes {g : GateFsm} (h : (gateEnd g).stop = none) : ∃ n, n ≤ g.phase.toIdle ∧
    (gateStep^[n] g).phase = .idle ∧ (gateStep^[n] g).block = gateEnd g := by
  induction hr : g.phase.toIdle using Nat.strong_induction_on generalizing g with
  | _ r ih =>
    by_cases hp : g.phase = .idle
    · exact ⟨0, Nat.zero_le _, hp, by rw [gateEnd, hp]; rfl⟩
    · obtain ⟨hlead, hnear, _⟩ := (gateStep_cases hp).resolve_right fun hw => hw.stops h
      obtain ⟨n, hn, hidle, hblock⟩ := ih _ (hr ▸ hnear) (by rw [hlead]; exact h) rfl
      exact ⟨n + 1, by omega, hidle, hblock.trans hlead⟩

/-- A gate on its way to a hang: it has not come to IDLE, and where it leads the command cannot be completed. -/
def OnWayToHang (g : GateFsm) : Prop := g.phase ≠ .idle ∧ (gateEnd g).stop ≠ none

theorem gateStep_onWayToHang {g : GateFsm} (h : OnWayToHang g) : OnWayToHang (gateStep g) := by
  obtain ⟨hp, hend⟩ := h
  obtain ⟨hlead, _, hstop⟩ | ⟨hphase, hstop, _⟩ := gateStep_cases hp
  · rw [← hlead] at hend
    refine ⟨fun hidle => hend ?_, hend⟩
    rw [gateEnd, hidle]
    exact hstop
  · exact ⟨hphase, fun hnone => hstop ((gateEnd_fixed _).stop_none hnone)⟩

theorem gateSteps_onWayToHang {g : GateFsm} (h : OnWayToHang g) (n : Nat) : OnWayToHang (gateStep^[n] g) := by
  induction n generalizing g with
  | zero => exact h
  | succ n ih => exact ih (gateStep_onWayToHang h)

theorem gateStart_stop (isRead : Bool) (c : RegClass) (now : Word) (s : State) :
    (gateStart isRead c now s).block.stop = s.stop := by
  unfold gateStart
  split_ifs <;> rfl

/-- Settles O45: a gate leads to what its command does; it comes to IDLE there, or it is on its way to a hang for ever. -/
theorem gateFsmRefinesTheCommands : Obligations.GateFsmRefinesTheCommands := by
  intro s isRead c now hs _ i
  have ⟨_, _, hstop⟩ := hs
  have hexec : exec i s = settle (respond Response.zero (gateEffect isRead c now s)) := exec_gate_of_ready hs isRead c now
  rw [hexec, ← gateEnd_gateStart]
  refine ⟨fun t ht => ?completes, fun k hk n => ?hangs⟩
  case completes =>
    obtain ⟨hend, rfl⟩ := settle_eq_next.1 ht
    obtain ⟨n, hn, hidle, hblock⟩ := gate_completes hend
    exact ⟨n, hn.trans (toIdle_le_four _), hidle, by rw [hblock]⟩
  case hangs =>
    have hhung : (gateEnd (gateStart isRead c now s)).stop = some (.hung k) :=
      (settle_eq_hung (s := respond Response.zero _)).1 hk
    have hstart : (gateStart isRead c now s).phase ≠ .idle := fun hidle => by
      rw [gateEnd, hidle] at hhung
      exact absurd (hhung.symm.trans ((gateStart_stop ..).trans hstop)) (by simp)
    have ⟨hidle, _⟩ := gateSteps_onWayToHang ⟨hstart, by simp [hhung]⟩ n
    exact hidle

end Sys2Proof.Machine
end

section
/-! PROOF. The statements of 42_poll.md: what sets no SPIN flag (R163), POLL_UNDETECT (R165), one observation (R161 to R164) and
the seventh call at one address (R167). -/

namespace Sys2Proof.Machine

/-! ## What sets no SPIN flag (R163) -/

/-- No SPIN flag is set on the way from `s` to `t`. -/
def SetsNoSpin (s t : State) : Prop := ∀ p c, spinOf s p c = false → spinOf t p c = false

theorem SetsNoSpin.refl (s : State) : SetsNoSpin s s := fun _ _ h => h

theorem SetsNoSpin.trans {s t u : State} (h : SetsNoSpin s t) (k : SetsNoSpin t u) : SetsNoSpin s u :=
  fun p c hs => k p c (h p c hs)

theorem SetsNoSpin.of_spin_eq {s t : State} (h : t.spin = s.spin) : SetsNoSpin s t :=
  fun p c hs => (congrArg (fun x => (x.get p).get c) h).trans hs

theorem SetsNoSpin.respond {s t : State} (h : SetsNoSpin s t) (r : Response) : SetsNoSpin s (respond r t) :=
  h.trans (.of_spin_eq (t := Machine.respond r t) rfl)

/-- Of the elementary changes only an undetect touches the flags, and it clears one. -/
theorem Base.setsNoSpin {s t : State} (h : Base s t) : SetsNoSpin s t := by
  cases h with
  | undetect p c => exact fun x y hs => by rw [(Undetects.one p c s).spin, hs, Bool.false_and]
  | store r v => exact .of_spin_eq (by rw [regStore_eq])
  | bank n => exact .of_spin_eq (by rw [bankSelect_eq])
  | _ => exact .of_spin_eq rfl

theorem DmaMicro.setsNoSpin {s t : State} (h : DmaMicro s t) : SetsNoSpin s t := by
  cases h with
  | base h => exact h.setsNoSpin
  | _ => exact .of_spin_eq rfl

theorem dma_chain_setsNoSpin {s t : State} (h : Relation.ReflTransGen DmaMicro s t) : SetsNoSpin s t :=
  chain_induct SetsNoSpin.refl SetsNoSpin.trans DmaMicro.setsNoSpin h

/-- A whole transfer, its destination writes included. -/
theorem dmaRun_setsNoSpin (cyc : Word) (s : State) : SetsNoSpin s (dmaRun cyc s) := by
  have hloop := dma_chain_setsNoSpin (dmaLoop_micros (dmaFuel (setBusy true s)) cyc (setBusy true s) false)
  have hfinish (moved : Bool) (u : State) : SetsNoSpin u (dmaFinish moved u) :=
    ite_within (dma_chain_setsNoSpin (dmaComplete_micros u)) (.refl u)
  have hbusy (b : Bool) (u : State) : SetsNoSpin u (setBusy b u) := .of_spin_eq rfl
  exact (hbusy true s).trans (hloop.trans ((hfinish _ _).trans (hbusy false _)))

theorem dmaTrigger_setsNoSpin (p : Pid) (cyc : Word) (s : State) : SetsNoSpin s (dmaTrigger p cyc s) :=
  ite_within ((dmaRun_setsNoSpin cyc s).trans (.of_spin_eq rfl)) (.refl s)

/-- Where no gate opens, no write of any processor sets a flag. -/
theorem writes_setsNoSpin (p : Pid) : Writes SetsNoSpin p coprocessorEnv where
  refl := .refl
  trans := .trans
  base := Base.setsNoSpin
  trigger q cyc s := dmaTrigger_setsNoSpin q cyc s
  gate _ _ _ s := .refl s
  vt _ _ _ _ := .of_spin_eq rfl

theorem busWrite_setsNoSpin {p : Pid} (hp : p ≠ .pri) (w : Width) (a v cyc : Word) (s : State) :
    SetsNoSpin s (busWrite commandEnv p w a v cyc s).1 :=
  busWrite_coprocessor hp w a v cyc s ▸ (writes_setsNoSpin p).busWrite w a v cyc s

theorem Tracks.setsNoSpin {cyc : Word} {s t : State} (h : Tracks cyc s t) : SetsNoSpin s t :=
  fun p c hs => by rw [h.spins, hs, Bool.false_and]

theorem resetAll_setsNoSpin (cyc : Word) (s : State) : SetsNoSpin s (resetAll cyc s) :=
  (resetAll_spec cyc s).tracks.setsNoSpin

theorem stateRestored_setsNoSpin (cyc : Word) (s : State) : SetsNoSpin s (stateRestored cyc s) :=
  (stateRestored_spec cyc s).tracks.setsNoSpin

/-- The effects of every command but INIT that reads no register and opens no gate. -/
theorem effectOf_setsNoSpin {i : Instr} (h : NeverDetects i) (s : State) : SetsNoSpin s (effectOf i s) := by
  have W (p : Pid) : Writes SetsNoSpin p coprocessorEnv := writes_setsNoSpin p
  cases i with
  | busRd8 | busRd16 | busRd32 | pollDetect | syncRd | syncWr => exact False.elim h
  | busWr8 p a v cyc => exact (busWrite_setsNoSpin h .w8 a _ cyc s).respond _
  | busWr16 p a v cyc => exact (busWrite_setsNoSpin h .w16 a _ cyc s).respond _
  | busWr32 p a v cyc => exact (busWrite_setsNoSpin h .w32 a v cyc s).respond _
  | ackSlice p => exact (Base.endSlice s p false).setsNoSpin.respond _
  | advance | status | init => exact .of_spin_eq rfl
  | pollUndetect p c => exact (Base.undetect s p c).setsNoSpin.respond _
  | dmaRun cyc => exact (dmaRun_setsNoSpin cyc s).respond _
  | bankSelect n => exact (Base.bank s n).setsNoSpin.respond _
  | fill => exact ((W .pri).fill s).respond _
  | div32 k => exact ((W .pri).div32 k s).respond _
  | div64 k => exact ((W .pri).div64 k s).respond _
  | resetAll cyc => exact (resetAll_setsNoSpin cyc s).respond _
  | stateRestored cyc => exact (stateRestored_setsNoSpin cyc s).respond _
  | copReset cyc => exact ((W s.writer).copReset cyc s).respond _
  | fbSwap b => exact (Base.fb s b).setsNoSpin.respond _

/-- INIT fails, which leaves the flags, or resets the block (R255). -/
theorem execInit_setsNoSpin {fail : Bool} {cyc : Word} {s t : State} (h : execInit fail cyc s = .next t) :
    SetsNoSpin s t := by
  unfold execInit at h
  split_ifs at h with _ hfail
  · obtain ⟨_, rfl⟩ := settle_eq_next.1 h
    exact .of_spin_eq rfl
  · obtain ⟨_, rfl⟩ := settle_eq_next.1 h
    exact resetAll_setsNoSpin cyc { s with initFailed := false, initialised := true }

/-- Settles O49: INIT apart, a command that answers a next state is its effects, and each of them sets no flag. -/
theorem onlyReadsSetSpin : Obligations.OnlyReadsSetSpin := by
  intro i s t p c hi h
  by_cases hinit : ∃ fail cyc, i = .init fail cyc
  · obtain ⟨fail, cyc, rfl⟩ := hinit
    exact execInit_setsNoSpin h p c
  · rw [exec_eq_perform i s fun fail cyc e => hinit ⟨fail, cyc, e⟩] at h
    obtain ⟨_, _, _, rfl⟩ := perform_eq_next.1 h
    exact effectOf_setsNoSpin hi s p c

/-! ## POLL_UNDETECT (R165) -/

/-- Settles O48: POLL_UNDETECT is its one undetect, which a pair outside POLL_SET does not have. -/
theorem pollUndetectClears : Obligations.PollUndetectClears := by
  intro s p c hs
  have ⟨_, _, hstop⟩ := hs
  have hexec : exec (.pollUndetect p c) s = .next (respond Response.zero (pollUndetect p c s)) :=
    exec_next (i := .pollUndetect p c) nofun hs (by
      change (pollUndetect p c s).stop = none
      rw [pollUndetect_eq, hstop])
  refine ⟨fun hp => ?unmonitored, fun hp => ⟨_, hexec, fun x y => ?spin, fun x y => ?detector, ?frame⟩⟩
  case unmonitored =>
    have hnone : pollUndetect p c s = s := if_neg (by simp [hp])
    rw [hexec, hnone]
    rfl
  case spin =>
    refine (spinOf_pollUndetect p x c y s).trans ?_
    simp only [hp, and_true]
  case detector =>
    refine (detectorOf_pollUndetect p x c y s).trans ?_
    simp only [hp, and_true, Detector.clear]
  case frame => exact congrArg (respond Response.zero) (pollUndetect_eq p c s)

/-! ## One observation (R161 to R164) -/

theorem pollDistance_toNat (a anchor : Word) :
    (pollDistance a anchor).toNat = min (a - anchor).toNat (anchor - a).toNat := by
  unfold pollDistance
  split_ifs with h <;> rw [BitVec.ult_iff_lt, BitVec.lt_def] at h
  · exact (min_eq_left (Nat.le_of_lt h)).symm
  · exact (min_eq_right (Nat.le_of_not_lt h)).symm

theorem pollHit_iff {maxgap : Word} {d : Detector} {a cyc : Word} : pollHit maxgap d a cyc = true ↔
    d.valid = true ∧ min (a - d.anchor).toNat (d.anchor - a).toNat ≤ 2 ∧ (cyc - d.last).toNat ≤ maxgap.toNat := by
  rw [pollHit, Bool.and_eq_true, Bool.and_eq_true, decide_eq_true_eq, decide_eq_true_eq, pollDistance_toNat, and_assoc]

theorem setSpin_spinOf (p : Pid) (c : RegClass) (s : State) : setSpin p c (spinOf s p c) s = s := by
  unfold setSpin spinOf
  rw [PerClass.set_get, PerPid.set_get]

/-- The observation of a pair that spins, or is not of POLL_SET, does nothing (R162; log 14). -/
theorem pollDetect_of_not_counts {s : State} {p : Pid} {c : RegClass} (a cyc : Word) (h : counts s p c = false) :
    pollDetect p c a cyc s = (s, false) :=
  if_pos (by simpa [counts, imp_iff_not_or] using h)

theorem exec_pollDetect_of_ready {s : State} (hs : s.Ready) (p : Pid) (c : RegClass) (a cyc : Word) :
    exec (.pollDetect p c a cyc) s = settle (respond
      { value := if (pollDetect p c a cyc s).2 then 1 else 0, cycles := 0, irq := false } (pollDetect p c a cyc s).1) :=
  (exec_eq_perform (.pollDetect p c a cyc) s nofun).trans (perform_of_ready hs _)

theorem exec_pollDetect_of_not_counts {s : State} (hs : s.Ready) {p : Pid} {c : RegClass} (a cyc : Word)
    (h : counts s p c = false) : exec (.pollDetect p c a cyc) s = .next (respond Response.zero s) := by
  have ⟨_, _, hstop⟩ := hs
  rw [exec_pollDetect_of_ready hs, pollDetect_of_not_counts a cyc h]
  exact settle_of_stop_none hstop

/-- The state after an observation that counts. -/
def afterObservation (p : Pid) (c : RegClass) (a cyc : Word) (s : State) : State :=
  setSpin p c (decide ((observed s p c a cyc).cnt = 6)) (setDetector p c (observed s p c a cyc) s)

/-- An observation that counts advances the detector; its answer, and SPIN after it, say whether it was the sixth hit. -/
theorem exec_pollDetect_of_counts {s : State} (hs : s.Ready) {p : Pid} {c : RegClass} (a cyc : Word)
    (h : counts s p c = true) : exec (.pollDetect p c a cyc) s =
      .next (respond { value := if (observed s p c a cyc).cnt = 6 then 1 else 0, cycles := 0, irq := false }
        (afterObservation p c a cyc s)) := by
  have ⟨_, _, hstop⟩ := hs
  have ⟨_, hspin⟩ : s.cfg.polled p c = true ∧ spinOf s p c = false := by simpa [counts] using h
  rw [exec_pollDetect_of_ready hs, pollDetect_of_counts a cyc h, afterObservation]
  by_cases hd : (observed s p c a cyc).cnt = 6
  · simp only [if_pos hd, decide_eq_true hd]
    exact settle_of_stop_none hstop
  · have hsame := setSpin_spinOf p c (setDetector p c (observed s p c a cyc) s)
    rw [show spinOf (setDetector p c (observed s p c a cyc) s) p c = false from hspin] at hsame
    simp only [if_neg hd, decide_eq_false hd, hsame]
    exact settle_of_stop_none hstop

/-- Settles O46: a pair that spins does not count; any other pair of POLL_SET makes the observation of R161. -/
theorem pollDetectObserves : Obligations.PollDetectObserves := by
  intro s p c a cyc hs hp d hit d'
  have hobserved : observed s p c a cyc = d' := if_congr pollHit_iff rfl rfl
  cases hspin : spinOf s p c with
  | true =>
    have hc : counts s p c = false := by simp [counts, hspin]
    exact ⟨_, exec_pollDetect_of_not_counts hs a cyc hc, fun _ => rfl, nofun⟩
  | false =>
    have hc : counts s p c = true := by simp [counts, hp, hspin]
    refine ⟨_, exec_pollDetect_of_counts hs a cyc hc, nofun, fun _ => ?_⟩
    rw [← hobserved]
    exact ⟨rfl, fun x y => detectorOf_setDetector s p x c y _, fun x y => spinOf_setSpin _ p x c y _, rfl⟩

/-! ## The seventh call (R167) -/

/-- Where the detector (p, c) stands after n calls at address `a`, the last of them at `last`. -/
inductive CallsMade (p : Pid) (c : RegClass) (a last : Word) (s : State) : Nat → Prop
  /-- Nothing has been observed. -/
  | none (hspin : spinOf s p c = false) (hvalid : (detectorOf s p c).valid = false) : CallsMade p c a last s 0
  /-- The first call anchored at `a`, and the n calls after it were hits. -/
  | hits {n : Nat} (hn : n ≤ 5) (hspin : spinOf s p c = false)
      (hd : detectorOf s p c = { anchor := a, last := last, cnt := n, valid := true }) : CallsMade p c a last s (n + 1)
  /-- The seventh call fired. -/
  | fired {n : Nat} (hn : 7 ≤ n) (hspin : spinOf s p c = true) : CallsMade p c a last s n

/-- A call at an address where nothing has been observed anchors there. -/
theorem observed_of_not_valid {s : State} {p : Pid} {c : RegClass} (a cyc : Word) (h : (detectorOf s p c).valid = false) :
    observed s p c a cyc = { anchor := a, last := cyc, cnt := 0, valid := true } :=
  if_neg fun hhit => by
    obtain ⟨hvalid, _⟩ := pollHit_iff.1 hhit
    exact absurd (hvalid.symm.trans h) (by decide)

/-- A call at the anchor within POLL_MAXGAP is a hit. -/
theorem observed_of_anchored {s : State} {p : Pid} {c : RegClass} {a last cyc : Word} {n : Nat}
    (h : detectorOf s p c = { anchor := a, last := last, cnt := n, valid := true })
    (hgap : (cyc - last).toNat ≤ (s.cfg.pollMaxgap.get c).toNat) :
    observed s p c a cyc = { anchor := a, last := cyc, cnt := n + 1, valid := true } := by
  unfold observed observe
  rw [h, if_pos (pollHit_iff.2 ⟨rfl, by simp, hgap⟩)]

theorem afterObservation_detector (p : Pid) (c : RegClass) (a cyc : Word) (s : State) :
    detectorOf (afterObservation p c a cyc s) p c = observed s p c a cyc :=
  (detectorOf_setDetector s p p c c _).trans (if_pos ⟨rfl, rfl⟩)

theorem afterObservation_spin (p : Pid) (c : RegClass) (a cyc : Word) (s : State) :
    spinOf (afterObservation p c a cyc s) p c = decide ((observed s p c a cyc).cnt = 6) :=
  (spinOf_setSpin _ p p c c _).trans (if_pos ⟨rfl, rfl⟩)

/-- One more call: it answers 1 when it is the seventh. -/
theorem CallsMade.call {p : Pid} {c : RegClass} {a last : Word} {s : State} {n : Nat} (h : CallsMade p c a last s n)
    (hs : s.Ready) (hp : s.cfg.polled p c = true) {cyc : Word}
    (hgap : (cyc - last).toNat ≤ (s.cfg.pollMaxgap.get c).toNat) :
    ∃ t, exec (.pollDetect p c a cyc) s = .next t ∧ t.resp.value = (if n = 6 then 1 else 0) ∧
      CallsMade p c a cyc t (n + 1) ∧ t.Ready ∧ t.cfg = s.cfg := by
  have hcounts (hspin : spinOf s p c = false) : counts s p c = true := by simp [counts, hp, hspin]
  have hdet := afterObservation_detector p c a cyc s
  have hafter := afterObservation_spin p c a cyc s
  cases h with
  | none hspin hvalid =>
    have hobs := observed_of_not_valid a cyc hvalid
    rw [hobs] at hdet hafter
    refine ⟨_, exec_pollDetect_of_counts hs a cyc (hcounts hspin), ?_, .hits (Nat.zero_le 5) hafter hdet, hs, rfl⟩
    rw [hobs]
    rfl
  | @hits n hn hspin hd =>
    have hobs := observed_of_anchored hd hgap
    rw [hobs] at hdet hafter
    refine ⟨_, exec_pollDetect_of_counts hs a cyc (hcounts hspin), ?_, ?_, hs, rfl⟩
    · rw [hobs]
      rfl
    · by_cases hlast : n = 5
      · exact .fired (by omega) (hafter.trans (by simp [hlast]))
      · exact .hits (by omega) (hafter.trans (by simp [hlast])) hdet
  | fired hn hspin =>
    refine ⟨_, exec_pollDetect_of_not_counts hs a cyc (by simp [counts, hspin]), ?_, .fired (by omega) hspin, hs, rfl⟩
    rw [if_neg (by omega)]
    rfl

/-- The answers of the calls after the first n. -/
theorem CallsMade.answers {p : Pid} {c : RegClass} {a last : Word} {s : State} {n : Nat} {times : List Word}
    (h : CallsMade p c a last s n) (hs : s.Ready) (hp : s.cfg.polled p c = true)
    (hgaps : List.IsChain (fun x y : Word => (y - x).toNat ≤ (s.cfg.pollMaxgap.get c).toNat) (last :: times)) :
    pollValues p c a times s = (List.range times.length).map fun i => if n + i = 6 then 1 else 0 := by
  induction times generalizing last s n with
  | nil => rfl
  | cons cyc rest ih =>
    obtain ⟨hgap, hrest⟩ := List.isChain_cons_cons.1 hgaps
    obtain ⟨t, hexec, hvalue, hcalls, ht, hcfg⟩ := h.call hs hp hgap
    have hlater := ih hcalls ht (by rw [hcfg, hp]) (by rw [hcfg]; exact hrest)
    rw [pollValues, hexec, List.length_cons, List.range_succ_eq_map, List.map_cons, List.map_map]
    simp only [hvalue, hlater, Nat.add_zero, Function.comp_def, Nat.succ_eq_add_one, Nat.add_right_comm n, ← Nat.add_assoc]

/-- Settles O47: the calls are made on a detector that has observed nothing. -/
theorem pollFiresOnTheSeventhCall : Obligations.PollFiresOnTheSeventhCall := by
  intro s p c a times hs hp hspin hvalid hgaps
  cases times with
  | nil => rfl
  | cons cyc rest =>
    have hchain : List.IsChain (fun x y : Word => (y - x).toNat ≤ (s.cfg.pollMaxgap.get c).toNat) (cyc :: rest) :=
      List.isChain_iff_getElem.2 hgaps
    have hnone : CallsMade p c a cyc s 0 := .none hspin hvalid
    have hvalues := hnone.answers hs hp (List.isChain_cons_cons.2 ⟨by simp, hchain⟩)
    simpa only [Nat.zero_add] using hvalues

end Sys2Proof.Machine
end

section
/-! PROOF. The statements of 43_dma.md: the writes of FIFO_DATA, CHCR and LEN (R181 to R184, R189), DMA_RUN turn by turn (R185,
R187, R188), its end (R309), and a transfer into backing memory (R192). -/

namespace Sys2Proof.Machine

/-! ## A write of a DMA register (R125) -/

/-- The steps of R125 after a rule, and the response, end a write whose rule left `u`, give or take a response. -/
theorem writeEnds_after (p : Pid) (w : Width) (h : Handler) (r : Reg) (old : Word) (mark : Bool) (u : State) (x : Response) :
    let y := afterWrite p r old mark u
    let t := respond { value := 0, cycles := u.cfg.accessCycles p (.hnd h) w, irq := y.2 } y.1
    WriteEnds (respond x u) t p w h r old mark ∧
      t = { u with pd := t.pd, spin := t.spin, dirty := t.dirty, calls := t.calls, endSlice := t.endSlice, resp := t.resp } := by
  intro y t
  obtain ⟨hends, _⟩ := writeEnds_of_rule (s := respond x u) (s' := u) (p := p) (w := w) (h := h) (r := r) (old := old)
    (mark := mark) rfl (fun _ _ => rfl) (fun _ _ => rfl) (fun _ _ => rfl) rfl rfl
  obtain ⟨_, _, _, _, _, _, heq⟩ := afterWrite_effect p r old mark u
  exact ⟨hends, congrArg (respond t.resp) heq⟩

/-- A register's rule that changes only the DMA record and logs: the write completes as R125 says. -/
theorem exec_write_dma {s : State} {p : Pid} {w : Width} {a v cyc : Word} {h : Handler} {q : RegRow}
    (W : WritesRegister s p w a cyc h q) {d : Dma} {log : List Anomaly}
    (hrule : regWrite dmaTrigger p a q.reg (regLoad s q.reg) (presented s q a v w) cyc s =
      ({ s with dma := d, anom := log }, true)) :
    ∃ t, exec (writeCmd w p a v cyc) s = .next t ∧ t.dma = d ∧ t.anom = log ∧
      WriteEnds s t p w h q.reg (regLoad s q.reg) true ∧ SameOutside s t ∧ SameBanks s t := by
  obtain ⟨_, _, hstop⟩ := W.ready
  obtain ⟨t, hexec, hends, _, ht⟩ := exec_write_ends W hrule rfl rfl rfl rfl rfl rfl hstop
  refine ⟨t, hexec, ?_⟩
  rw [ht] at hends ⊢
  exact ⟨rfl, rfl, hends, ⟨⟨rfl, rfl, rfl, rfl, rfl, rfl, rfl, rfl, rfl, rfl⟩, ⟨rfl, rfl, rfl⟩, rfl⟩,
    ⟨rfl, rfl, rfl, rfl, rfl, rfl⟩⟩

/-- DmaTrigger does nothing while the channel is not enabled or BUSY (R182). -/
theorem dmaTrigger_of_not {s : State} (h : ¬ (s.cfg.dmaEnabled s.dma.chcr = true ∧ s.dma.busy = false)) (p : Pid)
    (cyc : Word) : dmaTrigger p cyc s = s := by
  unfold dmaTrigger
  rw [if_neg (by simpa using h)]

/-- DmaTrigger of an enabled channel that is not BUSY is a transfer and END_SLICE of the writer (R182, R189). -/
theorem dmaTrigger_of_enabled {s : State} (he : s.cfg.dmaEnabled s.dma.chcr = true) (hb : s.dma.busy = false) (p : Pid)
    (cyc : Word) : dmaTrigger p cyc s = setEndSlice p true (dmaRun cyc s) := by
  unfold dmaTrigger
  rw [if_pos (by simp [he, hb])]

theorem exec_dmaRun_of_ready {s : State} (hs : s.Ready) (cyc : Word) :
    exec (.dmaRun cyc) s = settle (respond Response.zero (dmaRun cyc s)) :=
  (exec_eq_perform (.dmaRun cyc) s nofun).trans (perform_of_ready hs _)

/-- A register's rule that ends by starting a transfer in `m`: the write is that DMA_RUN, END_SLICE of the writer, and the steps
every write ends with. -/
theorem exec_write_triggers {s : State} {p : Pid} {w : Width} {a v cyc : Word} {h : Handler} {q : RegRow}
    (W : WritesRegister s p w a cyc h q) {m u : State} (hm : m.Ready) (he : m.cfg.dmaEnabled m.dma.chcr = true)
    (hb : m.dma.busy = false)
    (hrule : regWrite dmaTrigger p a q.reg (regLoad s q.reg) (presented s q a v w) cyc s = (dmaTrigger p cyc m, true))
    (hrun : exec (.dmaRun cyc) m = .next u) :
    ∃ t, exec (writeCmd w p a v cyc) s = .next t ∧ t.dma = u.dma ∧ t.mem = u.mem ∧ t.anom = u.anom ∧
      WriteEnds { u with endSlice := u.endSlice.set p true } t p w h q.reg (regLoad s q.reg) true ∧
      SameControl u t ∧ SameMapping u t ∧ SameBanks u t := by
  rw [exec_dmaRun_of_ready hm] at hrun
  obtain ⟨hstop, rfl⟩ := settle_eq_next.1 hrun
  have hexec := exec_write_register (v := v) W
  rw [hrule, dmaTrigger_of_enabled he hb] at hexec
  obtain ⟨hends, ht⟩ := writeEnds_after p w h q.reg (regLoad s q.reg) true (setEndSlice p true (dmaRun cyc m)) Response.zero
  dsimp only at hexec hends ht
  generalize respond _ (afterWrite p q.reg (regLoad s q.reg) true (setEndSlice p true (dmaRun cyc m))).1 = t
    at hexec hends ht
  refine ⟨t, hexec.trans (settle_of_stop_none (by rw [ht]; exact hstop)), ?_⟩
  rw [ht] at hends ⊢
  exact ⟨rfl, rfl, rfl, hends, ⟨rfl, rfl, rfl, rfl, rfl, rfl, rfl, rfl, rfl, rfl⟩, ⟨rfl, rfl, rfl⟩,
    ⟨rfl, rfl, rfl, rfl, rfl, rfl⟩⟩

/-! ## The rules of FIFO_DATA, CHCR and LEN (R181, R183, R184) -/

/-- The DMA record after a push of `w` (R181). -/
def pushedDma (s : State) (w : Half) : Dma :=
  { s.dma with
    fifoData := w, fifo := s.dma.fifo ++ [w], rx := s.dma.rx + 1
    stat := setHalfBit s.dma.stat s.cfg.statFullBit (s.dma.fifo.length + 1 == s.cfg.fifoCap) }

/-- A FIFO_DATA write to a full FIFO stores its word and logs A8. -/
theorem fifoWrite_full {s : State} (h : s.dma.fifo.length = s.cfg.fifoCap) (trig : Trigger) (p : Pid) (a new cyc : Word) :
    fifoWrite trig p a new cyc s =
      { s with dma := { s.dma with fifoData := new.setWidth 16 }
               anom := s.anom ++ [{ code := .a8, pid := some p.code, addr := a }] } := by
  have hfull : fifoFull (regStore (.dma .fifoData) new s) = true := beq_iff_eq.2 h
  exact if_pos hfull

/-- A FIFO_DATA write to a FIFO with room is a push, and on every fourth push a trigger. -/
theorem fifoWrite_room {s : State} (h : s.dma.fifo.length ≠ s.cfg.fifoCap) (trig : Trigger) (p : Pid) (a new cyc : Word) :
    fifoWrite trig p a new cyc s =
      if (s.dma.rx + 1).toNat % 4 = 0 then trig p cyc { s with dma := pushedDma s (new.setWidth 16) }
      else { s with dma := pushedDma s (new.setWidth 16) } := by
  have hroom : fifoFull (regStore (.dma .fifoData) new s) ≠ true := fun hf => h (beq_iff_eq.1 hf)
  have hpush : fifoPush (new.setWidth 16) (regStore (.dma .fifoData) new s) =
      { s with dma := pushedDma s (new.setWidth 16) } := by
    simp [fifoPush, recomputeFull, fifoFull, setFull, pushedDma, regStore, dmaStore]
  unfold fifoWrite
  simp only [if_neg hroom, hpush]
  rfl

/-- A CHCR write is generic, and a trigger when words are staged. -/
theorem chcrWrite_eq (trig : Trigger) (p : Pid) (a new cyc : Word) (s : State) :
    let set : State := { s with
      dma := { s.dma with chcr := storedValue s (.dma .chcr) new }
      anom := s.anom ++ lockedLog s p a (.dma .chcr) (regLoad s (.dma .chcr)) new }
    chcrWrite trig p a (regLoad s (.dma .chcr)) new cyc s = if s.dma.fifo = [] then set else trig p cyc set := by
  unfold chcrWrite
  rw [genericWrite_eq]
  rfl

/-- A LEN write is generic, restarts RX, and logs A5 for a stored length that is no multiple of 4. -/
theorem lenWrite_eq (p : Pid) (a new : Word) (s : State) :
    let stored := storedValue s (.dma .len) new
    lenWrite p a (regLoad s (.dma .len)) new s = { s with
      dma := { s.dma with len := stored.setWidth 16, rx := 0 }
      anom := s.anom ++ lockedLog s p a (.dma .len) (regLoad s (.dma .len)) new ++
        (if stored.toNat % 4 = 0 then [] else [{ code := .a5, pid := some p.code, addr := a }]) } := by
  intro stored
  have hmod : (stored.setWidth 16).toNat % 4 = stored.toNat % 4 := by rw [BitVec.toNat_setWidth]; omega
  unfold lenWrite
  rw [genericWrite_eq]
  change (if (stored.setWidth 16).toNat % 4 = 0 then _ else _) = _
  rw [hmod]
  split_ifs with h4
  · rw [List.append_nil]; rfl
  · rfl

/-- Settles O50: the rule logs A8, or pushes and triggers on every fourth push. -/
theorem fifoPushAndTrigger : Obligations.FifoPushAndTrigger := by
  intro s p w a v cyc h q W hq new full pushed triggers
  have hrule : regWrite dmaTrigger p a q.reg (regLoad s q.reg) (presented s q a v w) cyc s =
      (fifoWrite dmaTrigger p a (presented s q a v w) cyc s, true) := by rw [hq]; rfl
  refine ⟨fun hfull => ?full, fun hroom hidle => ?pushes, fun hroom ⟨h4, he, hb⟩ u hrun => ?triggers⟩
  case full => exact exec_write_dma W (by rw [hrule, fifoWrite_full hfull])
  case pushes =>
    have hpush : fifoWrite dmaTrigger p a (presented s q a v w) cyc s = { s with dma := pushed } := by
      rw [fifoWrite_room hroom]
      split_ifs with h4
      · exact dmaTrigger_of_not (s := { s with dma := pushed }) (fun hstart => hidle ⟨h4, hstart⟩) p cyc
      · rfl
    exact exec_write_dma W (by rw [hrule, hpush])
  case triggers =>
    have hpush : fifoWrite dmaTrigger p a (presented s q a v w) cyc s = dmaTrigger p cyc { s with dma := pushed } := by
      rw [fifoWrite_room hroom]
      exact if_pos h4
    exact exec_write_triggers W (m := { s with dma := pushed }) W.ready he hb (by rw [hrule, hpush]) hrun

/-- Settles O51: the rule is the generic write, and a trigger when words are staged. -/
theorem chcrWriteStartsStagedWords : Obligations.ChcrWriteStartsStagedWords := by
  intro s p w a v cyc h q W hq stored locked set
  have hset : chcrWrite dmaTrigger p a (regLoad s (.dma .chcr)) (presented s q a v w) cyc s =
      if s.dma.fifo = [] then set else dmaTrigger p cyc set := by
    simp only [set, stored, locked, hq]
    exact chcrWrite_eq dmaTrigger p a _ cyc s
  have hrule : regWrite dmaTrigger p a q.reg (regLoad s q.reg) (presented s q a v w) cyc s =
      (if s.dma.fifo = [] then set else dmaTrigger p cyc set, true) := by
    rw [← hset, hq]; rfl
  refine ⟨fun hidle => exec_write_dma W (hrule.trans (congrArg (·, true) ?idle)), fun hf he hb u hrun => ?starts⟩
  case idle =>
    split_ifs with hf
    · rfl
    · refine dmaTrigger_of_not (fun ⟨he, hb⟩ => ?_) p cyc
      rcases hidle with h | h | h
      · exact hf h
      · exact Bool.false_ne_true (h.symm.trans he)
      · exact Bool.false_ne_true (hb.symm.trans h)
  case starts => exact exec_write_triggers W (m := set) W.ready he hb (by rw [hrule, if_neg hf]) hrun

/-- Settles O52: the rule is the generic write, the restart of RX, and A5. -/
theorem lenWriteRestartsTheCount : Obligations.LenWriteRestartsTheCount := by
  intro s p w a v cyc h q W hq stored
  refine exec_write_dma W ?_
  simp only [stored, hq]
  exact congrArg (·, true) (lenWrite_eq p a _ s)

/-! ## The transfer loop, turn by turn (R185) -/

/-- No word is left to move: a count is 0 or the FIFO is empty (R185). -/
def Exhausted (s : State) : Prop := s.dma.tcr = 0 ∨ s.dma.len = 0 ∨ s.dma.fifo = []

/-- A transfer has nothing left to move, or a next word. -/
theorem exhausted_or_word (s : State) :
    Exhausted s ∨ ∃ w rest, s.dma.tcr ≠ 0 ∧ s.dma.len ≠ 0 ∧ s.dma.fifo = w :: rest := by
  unfold Exhausted
  cases s.dma.fifo with
  | nil => exact .inl (.inr (.inr rfl))
  | cons w rest =>
    by_cases h : s.dma.tcr = 0 ∨ s.dma.len = 0
    · exact .inl (h.imp_right .inl)
    · exact .inr ⟨w, rest, fun ht => h (.inl ht), fun hl => h (.inr hl), rfl⟩

theorem dmaLoop_of_exhausted (n : Nat) (cyc : Word) {s : State} (h : Exhausted s) (moved : Bool) :
    dmaLoop n cyc s moved = (s, moved) := by
  cases n with
  | zero => rfl
  | succ n =>
    rw [dmaLoop]
    split_ifs with hc
    · rfl
    · have hf : s.dma.fifo = [] := by unfold Exhausted at h; tauto
      rw [hf]

theorem dmaLoop_of_word (n : Nat) (cyc : Word) {s : State} {w : Half} {rest : List Half} (ht : s.dma.tcr ≠ 0)
    (hl : s.dma.len ≠ 0) (hf : s.dma.fifo = w :: rest) (moved : Bool) :
    dmaLoop (n + 1) cyc s moved = dmaLoop n cyc (dmaMove cyc w rest s) true := by
  rw [dmaLoop, if_neg (by tauto), hf]

/-- With fuel enough the loop goes on until nothing is left to move. -/
theorem dmaLoop_exhausted (cyc : Word) {n : Nat} {s : State} (hn : dmaFuel s ≤ n) (moved : Bool) :
    Exhausted (dmaLoop n cyc s moved).1 := by
  induction n generalizing s moved with
  | zero => unfold dmaFuel at hn; omega
  | succ n ih =>
    rcases exhausted_or_word s with h | ⟨w, rest, ht, hl, hf⟩
    · rw [dmaLoop_of_exhausted _ cyc h]; exact h
    · rw [dmaLoop_of_word n cyc ht hl hf]
      have hlt := dmaMove_fuel cyc hf hl
      exact ih (by omega) true

/-- Completion leaves the counts and the FIFO (R188). -/
theorem Exhausted.finish {s : State} (h : Exhausted s) (moved : Bool) : Exhausted (dmaFinish moved s) := by
  unfold dmaFinish
  split_ifs
  · unfold Exhausted; rw [(dmaComplete_spec s).dma]; exact h
  · exact h

theorem dmaRun_exhausted (cyc : Word) (s : State) : Exhausted (dmaRun cyc s) :=
  (dmaLoop_exhausted cyc le_rfl false).finish _

/-- Settles O53: the loop has fuel enough, so it ends with nothing left to move, and no change of a transfer stops the command. -/
theorem dmaRunEnds : Obligations.DmaRunEnds := by
  intro s cyc hs hinv halign
  have hstop : (dmaRun cyc s).stop = none := (dmaRun_micro cyc s).runs_on (sound_of_inv hinv) halign hinv.stop
  obtain ⟨_, htime⟩ := dmaRun_fixed cyc s
  rw [exec_dmaRun_of_ready hs]
  exact ⟨_, settle_of_stop_none hstop, rfl, dmaRun_exhausted cyc s, htime.lastSync, htime.vt, htime.runs, rfl⟩

/-! ## A destination write is a bus write (R187) -/

/-- While BUSY, the owner's 16-bit write command is a destination write (R182, R187). -/
theorem exec_busWr16_busy {s : State} (hs : s.Ready) (hb : s.dma.busy = true) (a cyc : Word) (v : Half) :
    exec (.busWr16 s.cfg.owner a v cyc) s =
      settle (answer (busWrite destinationEnv s.cfg.owner .w16 a (v.setWidth 32) cyc s)) := by
  rw [← busWrite_busy hb (owner_ne_pri s.cfg)]
  exact (exec_eq_perform (.busWr16 s.cfg.owner a v cyc) s nofun).trans (perform_of_ready hs _)

theorem busWrite_destination_fixed (k : Cop) (w : Width) (a v cyc : Word) (s : State) :
    Fixed s (busWrite destinationEnv k.pid w a v cyc s).1 :=
  (dma_chain_fixed (dmaMicros_of_base ((writes_destination k).busWrite w a v cyc s))).1

theorem dmaFinish_micros (moved : Bool) (s : State) : Relation.ReflTransGen DmaMicro s (dmaFinish moved s) :=
  ite_within (R := Relation.ReflTransGen DmaMicro) (dmaComplete_micros s) .refl

/-- What the rest of a transfer keeps of the state its first turn left. -/
theorem dmaRun_after_turn_fixed (cyc : Word) {s : State} {w : Half} {rest : List Half} (ht : s.dma.tcr ≠ 0)
    (hl : s.dma.len ≠ 0) (hf : s.dma.fifo = w :: rest) : Fixed (dmaMove cyc w rest (setBusy true s)) (dmaRun cyc s) := by
  rw [dmaRun_turn cyc ht hl hf]
  exact (dma_chain_fixed ((dmaLoop_micros _ _ _ _).trans (dmaFinish_micros _ _))).1.trans (setBusy_fixed false _).1

/-- A command that is stopped ends by the reason it is stopped for alone. -/
theorem settle_congr {s t : State} (h : t.stop = s.stop) (hs : s.stop ≠ none) : settle t = settle s := by
  unfold settle
  rw [h]
  cases hr : s.stop with
  | none => exact absurd hr hs
  | some r => rfl

theorem stop_of_settle_refused {s : State} {r : Refusal} (h : settle s = .refused r) : s.stop ≠ none := fun hn => by
  rw [settle_of_stop_none hn] at h
  cases h

/-- The first word has left the FIFO, and FULL is recomputed: the state a destination write starts from (R185). -/
def popped (rest : List Half) (s : State) : State := recomputeFull { s with dma := { s.dma with fifo := rest } }

/-- DAR, TCR and LEN advance in lock-step (R185). -/
def advanced (s : State) : State :=
  { s with dma := { s.dma with dar := s.dma.dar + 2, tcr := s.cfg.tcrDown s.dma.tcr, len := s.dma.len - 1 } }

/-- A turn of the loop is the destination write in the popped state, then the counts. -/
theorem dmaMove_eq (cyc : Word) (w : Half) (rest : List Half) (s : State) :
    dmaMove cyc w rest s =
      advanced (busWrite destinationEnv s.cfg.owner .w16 s.dma.dar (w.setWidth 32) cyc (popped rest s)).1 := rfl

section
variable {s t : State} {cyc : Word} {w : Half} {rest : List Half}

theorem exec_busWr16_popped (hs : s.Ready) (hb : s.dma.busy = true) :
    exec (.busWr16 s.cfg.owner s.dma.dar w cyc) (popped rest s) =
      settle (answer (busWrite destinationEnv s.cfg.owner .w16 s.dma.dar (w.setWidth 32) cyc (popped rest s))) :=
  exec_busWr16_busy (s := popped rest s) hs hb s.dma.dar cyc w

/-- A destination write that is refused refuses the transfer (R67; log 19). -/
theorem exec_dmaRun_refused (hs : s.Ready) (ht : s.dma.tcr ≠ 0) (hl : s.dma.len ≠ 0) (hf : s.dma.fifo = w :: rest)
    {r : Refusal} (hr : exec (.busWr16 s.cfg.owner s.dma.dar w cyc) (popped rest (setBusy true s)) = .refused r) :
    exec (.dmaRun cyc) s = .refused r := by
  replace hr := (exec_busWr16_popped (s := setBusy true s) hs rfl).symm.trans hr
  have hrest := dmaRun_after_turn_fixed cyc ht hl hf
  rw [dmaMove_eq] at hrest
  have hstop := stop_of_settle_refused hr
  rw [exec_dmaRun_of_ready hs, ← hr]
  exact settle_congr (hrest.stop hstop) hstop

/-- After a destination write that is not refused, the turn is that write and the counts, and the transfer is still BUSY. -/
theorem dmaMove_of_next (hs : s.Ready) (hb : s.dma.busy = true)
    (h : exec (.busWr16 s.cfg.owner s.dma.dar w cyc) (popped rest s) = .next t) :
    dmaMove cyc w rest s = advanced { t with resp := s.resp } ∧
      t.cfg = s.cfg ∧ t.Ready ∧ t.dma.busy = true := by
  rw [exec_busWr16_popped hs hb] at h
  have hfix := busWrite_destination_fixed s.cfg.dmaOwner .w16 s.dma.dar (w.setWidth 32) cyc (popped rest s)
  obtain ⟨hkept, _⟩ := busWrite_stagesOne s.cfg.dmaOwner s.dma.dar (w.setWidth 32) cyc (popped rest s)
  have hmove := dmaMove_eq cyc w rest s
  have ⟨hinit, hfail, _⟩ := hs
  unfold Config.owner at h hmove
  generalize busWrite destinationEnv s.cfg.dmaOwner.pid .w16 s.dma.dar (w.setWidth 32) cyc (popped rest s) = x
    at h hfix hkept hmove
  obtain ⟨hstop, rfl⟩ := settle_answer_eq_next.1 h
  have hresp : x.1.resp = s.resp := hfix.resp
  refine ⟨?_, hfix.cfg, ⟨hfix.initialised.trans hinit, hfix.initFailed.trans hfail, hstop⟩, hkept.trans hb⟩
  rw [hmove, ← hresp]
  rfl

/-- A transfer that ends by completing in `t` (R185, R188). -/
theorem settle_dmaComplete (hs : t.stop = none) (hlast : t.dma.tcr = 0 ∨ t.dma.len = 0) :
    ∃ u, settle (respond Response.zero (setBusy false (dmaComplete t))) = .next u ∧
      u.dma = { t.dma with
        busy := false, stat := setHalfBit t.dma.stat t.cfg.statFullBit false
        chcr := setWordBit t.dma.chcr t.cfg.dmaDoneBit true } ∧
      u.anom = t.anom ++ (if t.dma.tcr = 0 ∧ t.dma.len = 0 then []
        else [{ code := .a6, pid := some t.cfg.owner.code, addr := t.dma.dar }]) ∧
      (∀ x y, detectorOf u x y =
        if x = t.cfg.owner ∧ t.cfg.polled x y = true then Detector.clear else detectorOf t x y) ∧
      (∀ x y, spinOf u x y = if x = t.cfg.owner ∧ t.cfg.polled x y = true then false else spinOf t x y) ∧
      u = { t with dma := u.dma, anom := u.anom, pd := u.pd, spin := u.spin, resp := Response.zero } := by
  obtain ⟨hdma, hanom, hdet, hspin, heq⟩ := dmaComplete_spec t
  have hboth : (t.dma.tcr = 0 ↔ t.dma.len = 0) ↔ (t.dma.tcr = 0 ∧ t.dma.len = 0) := by tauto
  simp only [hboth] at hanom
  have hend : (dmaComplete t).stop = none := by rw [heq]; exact hs
  exact ⟨_, settle_of_stop_none hend, congrArg (fun d : Dma => { d with busy := false }) hdma, hanom, hdet, hspin,
    congrArg (fun z => respond Response.zero (setBusy false z)) heq⟩

end

/-- Settles O55: the first turn is the write of the owner in the popped state; what follows it is a transfer of its own, or the
completion. -/
theorem destinationWriteIsABusWrite : Obligations.DestinationWriteIsABusWrite := by
  refine ⟨fun s a cyc v hs hb => exec_busWr16_busy hs hb a cyc v, fun s cyc hs hb => ⟨fun hidle => ?idle, ?turn⟩⟩
  case idle =>
    have ⟨_, _, hstop⟩ := hs
    rw [exec_dmaRun_of_ready hs, dmaRun_idle cyc hb hidle]
    exact settle_of_stop_none hstop
  case turn =>
    intro w rest ht hl hf owner pop
    refine ⟨fun r hr => exec_dmaRun_refused hs ht hl hf hr, fun t hnext => ?moves⟩
    case moves =>
      intro moved
      obtain ⟨hmove, hcfg, hready, hbusy⟩ := dmaMove_of_next (s := setBusy true s) hs rfl hnext
      replace hcfg : t.cfg = s.cfg := hcfg
      have hmoved : advanced { t with resp := s.resp } = moved := by simp only [moved, advanced, hcfg]
      replace hmove : dmaMove cyc w rest (setBusy true s) = moved := hmove.trans hmoved
      have hrun := dmaRun_turn cyc ht hl hf
      rw [hmove] at hrun
      refine ⟨hmove, fun ht' hl' => ?goesOn, fun hlast => ?completes⟩
      case goesOn =>
        have hrest : dmaRun cyc s = dmaRun cyc (setBusy false moved) := hrun.trans (dmaRun_rest cyc hbusy ht' hl')
        rw [exec_dmaRun_of_ready hs, hrest]
        exact (exec_dmaRun_of_ready (s := setBusy false moved) hready cyc).symm
      case completes =>
        have hrest : dmaRun cyc s = setBusy false (dmaComplete moved) := hrun.trans (dmaRun_last cyc hlast)
        obtain ⟨_, _, hstop⟩ := hready
        obtain ⟨u, hsettle, hdma, hanom, hdet, hspin, heq⟩ := settle_dmaComplete (t := moved) hstop hlast
        rw [show moved.cfg = s.cfg from hcfg] at hdma hanom hdet hspin
        rw [exec_dmaRun_of_ready hs, hrest]
        exact ⟨u, hsettle, hdma, hanom, hdet, hspin, heq⟩

/-! ## A transfer into backing memory (R185, R187, R192) -/

/-- A second write of a bit hides the first. -/
theorem setHalfBit_setHalfBit (v : Half) (i : Nat) (a b : Bool) : setHalfBit (setHalfBit v i a) i b = setHalfBit v i b := by
  unfold setHalfBit
  generalize (1 : Half) <<< i = m
  ext j hj
  cases a <;> cases b <;> simp <;> cases v[j] <;> simp

theorem readByte_congr {s t : State} (h : t.mem = s.mem) (r : Region) (j : Nat) : readByte t r j = readByte s r j := by
  unfold readByte
  rw [h]

theorem alignAccess_of_accepted {g : Config} {w : Width} {a : Word} (h : alignAccess g w a ≠ none) :
    alignAccess g w a = some (alignDown w a) := by
  unfold alignAccess at h ⊢
  split_ifs at h ⊢ with hr
  · exact absurd rfl h
  · rfl

/-- An access that is not refused is performed at its aligned address (R67). -/
theorem busWrite_of_accepted {s : State} {w : Width} {a : Word} (h : alignAccess s.cfg w a ≠ none) (env : Env) (p : Pid)
    (v cyc : Word) : busWrite env p w a v cyc s = busWrite env p w (alignDown w a) v cyc s := by
  unfold busWrite
  rw [alignAccess_of_accepted h, alignAccess_of_aligned (alignDown_alignDown w a)]

/-- DAR keeps its parity, so no later word of a transfer is refused (R67). -/
theorem alignAccess_add_two {g : Config} {a : Word} (h : alignAccess g .w16 a ≠ none) :
    alignAccess g .w16 (a + 2) ≠ none := by
  cases hg : g.misalign with
  | alignDown => rw [alignAccess_of_alignDown hg]; exact Option.some_ne_none _
  | refuse =>
    have ha : alignDown .w16 a = a := by
      by_contra hne
      exact h (alignAccess_of_refuse hg hne)
    have heven : a.toNat % 2 = 0 := toNat_mod_bytes_of_aligned ha
    rw [alignAccess_of_aligned (alignDown_w16_of_even (by bv_omega))]
    exact Option.some_ne_none _

/-- The words of a transfer go to even offsets (R62, R67). -/
theorem GoesTo.even {s : State} {i : Nat} {r : Region} {off : Nat} (h : GoesTo s i r off) : off % 2 = 0 := by
  obtain ⟨b, m, _, hok, rfl⟩ := h
  have hb : b % 4 = 0 := by
    unfold Config.memOk at hok
    simp only [Bool.and_eq_true, beq_iff_eq] at hok
    exact hok.2
  have haligned : alignDown .w16 (destination s i &&& m) = destination s i &&& m := by
    unfold destination alignDown
    rw [BitVec.and_assoc, BitVec.and_assoc, BitVec.and_comm m, ← BitVec.and_assoc (~~~_), BitVec.and_self,
      BitVec.and_assoc]
  have heven : (destination s i &&& m).toNat % 2 = 0 := toNat_mod_bytes_of_aligned haligned
  omega

/-- `t` is `s` after its first `n` words went to memory, the i-th to bytes `off i` and `off i + 1` of region `rgn i`: those bytes
are stored and no other, and the counts, DAR, FULL and the FIFO are all that changed besides (R185, R187). -/
structure WordsMoved (s t : State) (n : Nat) (rgn : Nat → Region) (off : Nat → Nat) : Prop where
  stored : ∀ i w, s.dma.fifo[i]? = some w → i < n →
    readByte t (rgn i) (off i) = w.extractLsb' 8 8 ∧ readByte t (rgn i) (off i + 1) = w.extractLsb' 0 8
  kept : ∀ q j, (∀ i, i < n → q = rgn i → j ≠ off i ∧ j ≠ off i + 1) → readByte t q j = readByte s q j
  dma : t.dma = { s.dma with
    dar := s.dma.dar + BitVec.ofNat 32 (2 * n), tcr := s.dma.tcr - BitVec.ofNat 32 n
    len := s.dma.len - BitVec.ofNat 16 n, fifo := s.dma.fifo.drop n
    stat := if n = 0 then s.dma.stat
      else setHalfBit s.dma.stat s.cfg.statFullBit (s.dma.fifo.length - n == s.cfg.fifoCap) }
  eq : t = { s with mem := t.mem, dma := t.dma }

theorem WordsMoved.none (s : State) (rgn : Nat → Region) (off : Nat → Nat) : WordsMoved s s 0 rgn off where
  stored i w _ hi := absurd hi (Nat.not_lt_zero i)
  kept _ _ _ := rfl
  dma := by simp
  eq := rfl

/-- A turn whose destination is memory moves one word there. -/
theorem dmaMove_memory (cyc : Word) {s : State} {w : Half} {rest : List Half} {rgn : Nat → Region} {off : Nat → Nat}
    (ha : alignAccess s.cfg .w16 s.dma.dar ≠ none) (ht : s.dma.tcr ≠ 0) (hf : s.dma.fifo = w :: rest)
    (hg : GoesTo s 0 (rgn 0) (off 0)) : WordsMoved s (dmaMove cyc w rest s) 1 rgn off := by
  obtain ⟨b, m, hres, hok, hoff⟩ := hg
  have hdest : destination s 0 = alignDown .w16 s.dma.dar := by simp [destination]
  rw [hdest] at hres hoff
  have hmove : dmaMove cyc w rest s = advanced (memWrite (rgn 0) (off 0) 2 (w.setWidth 32) (popped rest s)) := by
    have hwrite := busWrite_memory (s := popped rest s) destinationEnv (w.setWidth 32) cyc (alignDown_alignDown .w16 _) hres
    rw [dmaMove_eq, busWrite_of_accepted (s := popped rest s) ha, hwrite, hoff]
    exact congrArg (fun x : State × Response => advanced x.1) (if_pos hok)
  obtain ⟨hend, hsize, _⟩ := accessesStayInTheirEntry.1 s.cfg .w16 _ (rgn 0) b m hok (alignDown_alignDown .w16 s.dma.dar)
  have hfits : off 0 + 2 ≤ s.cfg.regionSize (rgn 0) := by
    rw [show Width.w16.bytes = 2 from rfl] at hend
    omega
  have hread : ∀ q j, readByte (dmaMove cyc w rest s) q j =
      if q = rgn 0 ∧ off 0 ≤ j ∧ j < off 0 + 2 ∧ j < s.cfg.regionSize (rgn 0)
      then storedByte 2 (w.setWidth 32) (j - off 0) else readByte s q j := fun q j => by
    rw [hmove]
    exact readByte_memWrite (popped rest s) (rgn 0) q (off 0) 2 j (w.setWidth 32)
  refine ⟨fun i x hx hi => ?stored, fun q j hj => ?kept, ?dma, by rw [hmove]; rfl⟩
  case stored =>
    obtain rfl : i = 0 := by omega
    obtain rfl : w = x := by simpa [hf] using hx
    rw [hread, hread, if_pos ⟨rfl, by omega, by omega, by omega⟩, if_pos ⟨rfl, by omega, by omega, by omega⟩,
      Nat.sub_self, Nat.add_sub_cancel_left]
    constructor
    · rw [storedByte_eq_extractLsb']
      exact BitVec.extractLsb'_setWidth_of_le (by omega)
    · rw [storedByte_eq_extractLsb']
      exact BitVec.extractLsb'_setWidth_of_le (by omega)
  case kept =>
    rw [hread]
    refine if_neg fun ⟨hq, hlo, hhi, _⟩ => ?_
    obtain ⟨h0, h1⟩ := hj 0 Nat.one_pos hq
    omega
  case dma =>
    rw [hmove]
    have hdown : s.cfg.tcrDown s.dma.tcr = s.dma.tcr - 1 := if_neg ht
    simp [advanced, popped, recomputeFull, fifoFull, hf, hdown]

/-- One word, then the words after it. -/
theorem WordsMoved.cons {s u t : State} {n : Nat} {rgn : Nat → Region} {off : Nat → Nat} (h : WordsMoved s u 1 rgn off)
    (k : WordsMoved u t n (fun i => rgn (i + 1)) (fun i => off (i + 1)))
    (hapart : ∀ i, i < n → rgn 0 = rgn (i + 1) → off 0 + 2 ≤ off (i + 1) ∨ off (i + 1) + 2 ≤ off 0) :
    WordsMoved s t (n + 1) rgn off := by
  have hfifo : u.dma.fifo = s.dma.fifo.drop 1 := by rw [h.dma]
  have hcfg : u.cfg = s.cfg := by rw [h.eq]
  refine ⟨fun i w hw hi => ?stored, fun q j hj => ?kept, ?dma, ?eq⟩
  case stored =>
    cases i with
    | zero =>
      obtain ⟨h0, h1⟩ := h.stored 0 w hw Nat.one_pos
      have hkept : ∀ j, off 0 ≤ j → j ≤ off 0 + 1 → readByte t (rgn 0) j = readByte u (rgn 0) j := fun j hlo hhi =>
        k.kept _ _ fun i hi hq => by have := hapart i hi hq; omega
      exact ⟨(hkept _ (by omega) (by omega)).trans h0, (hkept _ (by omega) (by omega)).trans h1⟩
    | succ i => exact k.stored i w (by rw [hfifo, List.getElem?_drop, Nat.add_comm]; exact hw) (by omega)
  case kept =>
    rw [k.kept q j fun i hi => hj (i + 1) (by omega), h.kept q j fun i hi hq => ?_]
    obtain rfl : i = 0 := by omega
    exact hj 0 (by omega) hq
  case dma =>
    have hstat : (if n = 0 then setHalfBit s.dma.stat s.cfg.statFullBit (s.dma.fifo.length - 1 == s.cfg.fifoCap)
        else setHalfBit (setHalfBit s.dma.stat s.cfg.statFullBit (s.dma.fifo.length - 1 == s.cfg.fifoCap)) s.cfg.statFullBit
          (s.dma.fifo.length - 1 - n == s.cfg.fifoCap)) =
        setHalfBit s.dma.stat s.cfg.statFullBit (s.dma.fifo.length - (n + 1) == s.cfg.fifoCap) := by
      rw [setHalfBit_setHalfBit, Nat.sub_sub, Nat.add_comm 1 n]
      split_ifs with hn
      · rw [hn]
      · rfl
    rw [k.dma, hcfg, h.dma]
    simp only [List.drop_drop, List.length_drop, Nat.succ_ne_zero, if_false, hstat, Nat.add_comm 1 n]
    congr 1
    · rw [Nat.mul_add, BitVec.ofNat_add, BitVec.add_comm (BitVec.ofNat 32 (2 * n)), BitVec.add_assoc]
    · rw [BitVec.ofNat_add]; bv_omega
    · rw [BitVec.ofNat_add]; bv_omega
  case eq => rw [k.eq, h.eq]

/-- The destinations of the words after the first (R185). -/
theorem GoesTo.tail {s u : State} {i : Nat} {rgn : Nat → Region} {off : Nat → Nat} (h : WordsMoved s u 1 rgn off)
    {r : Region} {o : Nat} (hg : GoesTo s (i + 1) r o) : GoesTo u i r o := by
  have hdest : destination u i = destination s (i + 1) := by
    unfold destination
    rw [h.dma, Nat.mul_add, BitVec.ofNat_add, BitVec.add_comm (BitVec.ofNat 32 (2 * i)), BitVec.add_assoc]
  obtain ⟨b, m, hres, hok, hoff⟩ := hg
  refine ⟨b, m, ?_, ?_, by rw [hdest]; exact hoff⟩
  · rw [hdest, h.eq]; exact hres
  · rw [h.eq]; exact hok

theorem movedWords_of_exhausted {s : State} (h : Exhausted s) : movedWords s = 0 := by
  unfold movedWords
  rcases h with h | h | h <;> simp [h]

theorem movedWords_tail {s u : State} {w : Half} {rest : List Half} {rgn : Nat → Region} {off : Nat → Nat}
    (h : WordsMoved s u 1 rgn off) (ht : s.dma.tcr ≠ 0) (hl : s.dma.len ≠ 0) (hf : s.dma.fifo = w :: rest) :
    movedWords s = movedWords u + 1 := by
  have ht' : (s.dma.tcr - BitVec.ofNat 32 1).toNat = s.dma.tcr.toNat - 1 := by bv_omega
  have hl' : (s.dma.len - BitVec.ofNat 16 1).toNat = s.dma.len.toNat - 1 := by bv_omega
  have hpos : 0 < s.dma.tcr.toNat ∧ 0 < s.dma.len.toNat := by constructor <;> bv_omega
  unfold movedWords
  rw [h.dma]
  simp only [ht', hl', hf, List.drop_one, List.tail_cons, List.length_cons]
  omega

/-- The loop moves exactly its words, one after the other, to their destinations. -/
theorem dmaLoop_memory (cyc : Word) {fuel : Nat} {s : State} {rgn : Nat → Region} {off : Nat → Nat}
    (hfuel : dmaFuel s ≤ fuel) (moved : Bool) (ha : alignAccess s.cfg .w16 s.dma.dar ≠ none)
    (hg : ∀ i, i < movedWords s → GoesTo s i (rgn i) (off i))
    (hinj : ∀ i j, i < movedWords s → j < movedWords s → rgn i = rgn j → off i = off j → i = j) :
    ∃ u, dmaLoop fuel cyc s moved = (u, moved || decide (0 < movedWords s)) ∧ WordsMoved s u (movedWords s) rgn off := by
  induction fuel generalizing s rgn off moved with
  | zero => unfold dmaFuel at hfuel; omega
  | succ fuel ih =>
    rcases exhausted_or_word s with h | ⟨w, rest, ht, hl, hf⟩
    · rw [dmaLoop_of_exhausted _ cyc h, movedWords_of_exhausted h]
      exact ⟨s, by simp, .none s rgn off⟩
    · have hpos : 0 < movedWords s := by
        have : 0 < s.dma.tcr.toNat ∧ 0 < s.dma.len.toNat := by constructor <;> bv_omega
        simp [movedWords, hf, this]
      have hone := dmaMove_memory cyc ha ht hf (hg 0 hpos)
      have hlt := dmaMove_fuel cyc hf hl
      have hcount := movedWords_tail hone ht hl hf
      rw [dmaLoop_of_word fuel cyc ht hl hf]
      generalize dmaMove cyc w rest s = v at hone hlt hcount
      have hav : alignAccess v.cfg .w16 v.dma.dar ≠ none := by
        rw [hone.dma, hone.eq]; exact alignAccess_add_two ha
      obtain ⟨u, hloop, hrest⟩ := ih (s := v) (rgn := fun i => rgn (i + 1)) (off := fun i => off (i + 1)) (by omega) true hav
        (fun i hi => (hg (i + 1) (by omega)).tail hone)
        (fun i j hi hj hr ho => Nat.succ.inj (hinj (i + 1) (j + 1) (by omega) (by omega) hr ho))
      refine ⟨u, by rw [hloop]; simp [hpos], ?_⟩
      rw [hcount]
      refine hone.cons hrest fun i hi hr => ?_
      have hne : off 0 ≠ off (i + 1) := fun ho => by have := hinj 0 (i + 1) (by omega) (by omega) hr ho; omega
      have h0 := (hg 0 hpos).even
      have h1 := (hg (i + 1) (by omega)).even
      omega

theorem sub_ofNat_eq_zero_iff {k n : Nat} {x : BitVec k} (h : n ≤ x.toNat) : x - BitVec.ofNat k n = 0 ↔ x.toNat = n := by
  have hn : (BitVec.ofNat k n).toNat = n := Nat.mod_eq_of_lt (h.trans_lt x.isLt)
  have hiff : x - BitVec.ofNat k n = 0 ↔ x = BitVec.ofNat k n := sub_eq_zero (a := x)
  rw [hiff, ← BitVec.toNat_inj, hn]

/-- A count reaches 0 when the words moved are as many as it (R185). -/
theorem WordsMoved.counts {s u : State} {rgn : Nat → Region} {off : Nat → Nat} (h : WordsMoved s u (movedWords s) rgn off) :
    (u.dma.tcr = 0 ↔ s.dma.tcr.toNat = movedWords s) ∧ (u.dma.len = 0 ↔ s.dma.len.toNat = movedWords s) := by
  have hle : movedWords s ≤ s.dma.tcr.toNat ∧ movedWords s ≤ s.dma.len.toNat := by unfold movedWords; omega
  rw [h.dma]
  exact ⟨sub_ofNat_eq_zero_iff hle.1, sub_ofNat_eq_zero_iff hle.2⟩

/-- DMA_RUN into memory moves its words and finishes (R185). -/
theorem dmaRun_memory (cyc : Word) {s : State} {rgn : Nat → Region} {off : Nat → Nat}
    (ha : alignAccess s.cfg .w16 s.dma.dar ≠ none) (hg : ∀ i, i < movedWords s → GoesTo s i (rgn i) (off i))
    (hinj : ∀ i j, i < movedWords s → j < movedWords s → rgn i = rgn j → off i = off j → i = j) :
    ∃ u, WordsMoved (setBusy true s) u (movedWords s) rgn off ∧
      dmaRun cyc s = setBusy false (dmaFinish (decide (0 < movedWords s)) u) := by
  obtain ⟨u, hloop, hmoved⟩ := dmaLoop_memory cyc (s := setBusy true s) le_rfl false ha hg hinj
  refine ⟨u, hmoved, ?_⟩
  unfold dmaRun
  simp only [hloop, Bool.false_or]
  rfl

/-- Settles O54: the loop moves its words, and then the transfer completes or stops where it is. -/
theorem dmaRunMovesExactlyTheWords : Obligations.DmaRunMovesExactlyTheWords := by
  intro s cyc rgn off hs hinv ha n hg hinj ends owner
  have ⟨_, _, hstop⟩ := hs
  obtain ⟨u, hmoved, hrun⟩ := dmaRun_memory cyc ha hg hinj
  obtain ⟨htcr, hlen⟩ : (u.dma.tcr = 0 ↔ s.dma.tcr.toNat = n) ∧ (u.dma.len = 0 ↔ s.dma.len.toNat = n) := hmoved.counts
  obtain ⟨hstored, hkept, hdma, heq⟩ := hmoved
  have hcfg : u.cfg = s.cfg := by rw [heq]; rfl
  have hustop : u.stop = none := by rw [heq]; exact hstop
  have hfinish : dmaFinish (decide (0 < n)) u = if ends then dmaComplete u else u := by
    simp only [dmaFinish, htcr, hlen, ← Bool.decide_and, decide_eq_true_eq, ends]
  rw [exec_dmaRun_of_ready hs, hrun, hfinish]
  by_cases hends : ends
  case pos =>
    rw [if_pos hends]
    have hlast : u.dma.tcr = 0 ∨ u.dma.len = 0 := by rw [htcr, hlen]; exact hends.2
    obtain ⟨t, hsettle, htdma, htanom, htdet, htspin, hteq⟩ := settle_dmaComplete hustop hlast
    have hmem : t.mem = u.mem := by rw [hteq]
    rw [hcfg] at htdma htanom htdet htspin
    refine ⟨t, hsettle, fun i h hi => ?stored, fun q j hj => ?kept, ?dma, ?anom,
      fun x y => ?detectors, fun x y => ?spins, ?frame⟩
    case stored =>
      rw [readByte_congr hmem, readByte_congr hmem]
      exact hstored i _ (List.getElem?_eq_getElem h) hi
    case kept =>
      rw [readByte_congr hmem]
      exact hkept q j hj
    case dma =>
      have hn : movedWords s ≠ 0 := Nat.pos_iff_ne_zero.1 hends.1
      rw [htdma, hdma]
      simp [if_pos hends, hn, setHalfBit_setHalfBit, hinv.busy, n]
    case anom =>
      have hboth : (u.dma.tcr = 0 ∧ u.dma.len = 0) ↔ s.dma.tcr.toNat = s.dma.len.toNat := by
        obtain ⟨_, h⟩ := hends
        rw [htcr, hlen]
        omega
      have hanom : u.anom = s.anom := by rw [heq]; rfl
      have hdar : u.dma.dar = s.dma.dar + BitVec.ofNat 32 (2 * n) := by rw [hdma]; rfl
      simp only [htanom, hboth, hanom, hdar, hends, true_and, ne_eq, ite_not, owner]
    case detectors =>
      simp only [hends, true_and]
      rw [htdet, heq]; rfl
    case spins =>
      simp only [hends, true_and]
      rw [htspin, heq]; rfl
    case frame =>
      rw [hteq, heq]; rfl
  case neg =>
    rw [if_neg hends]
    refine ⟨_, settle_of_stop_none hustop, fun i h hi => hstored i _ (List.getElem?_eq_getElem h) hi, hkept, ?dma, ?anom,
      fun x y => ?detectors, fun x y => ?spins, ?frame⟩
    case dma =>
      change (setBusy false u).dma = _
      rw [setBusy_dma, hdma]
      simp [if_neg hends, hinv.busy, n]
    case anom =>
      simp only [hends, false_and, if_false, List.append_nil]
      rw [heq]; rfl
    case detectors =>
      simp only [hends, false_and, if_false]
      rw [heq]; rfl
    case spins =>
      simp only [hends, false_and, if_false]
      rw [heq]; rfl
    case frame =>
      rw [heq]; rfl

end Sys2Proof.Machine
end

section
/-! PROOF. The statements of 44_register_units.md: writes of registers without a rule of their own and of COMM registers (R210 to
R212), the units as commands (R216, R221, R226, R231, R239, R240), and the register writes that start them (R215, R219, R225,
R230, R236, R238). -/

namespace Sys2Proof.Machine

/-! ## Writes that are generic, and the COMM rule (R210 to R212) -/

/-- The value a write presents has the register's width. -/
theorem presented_fits (s : State) (q : RegRow) (a v : Word) (w : Width) : Fits q.reg (presented s q a v w) :=
  regMask_fits _ _ _

theorem regStore_cfg (r : Reg) (v : Word) (s : State) : (regStore r v s).cfg = s.cfg := by rw [regStore_eq]

theorem genericWrite_cfg (p : Pid) (a : Word) (r : Reg) (old new : Word) (s : State) :
    (genericWrite p a r old new s).cfg = s.cfg := by
  unfold genericWrite
  dsimp only
  split_ifs
  · exact regStore_cfg r _ s
  · exact regStore_cfg r _ s

/-- The rule of a register without one of its own is the generic write (R97, R210). -/
theorem regWrite_of_plain {s : State} {r : Reg} (hr : plainReg s.cfg r = true) (trig : Trigger) (p : Pid)
    (a old new cyc : Word) : regWrite trig p a r old new cyc s = (genericWrite p a r old new s, true) := by
  cases r with
  | sys i =>
    simp only [plainReg, Bool.and_eq_true, bne_iff_ne] at hr
    obtain ⟨hreset, hbank⟩ := hr
    simp only [regWrite, sysWrite, resetEdge, bankChange, genericWrite_cfg, hreset, hbank, false_and, if_false]
  | vdp i =>
    simp only [plainReg, Bool.and_eq_true, bne_iff_ne] at hr
    obtain ⟨hfs, hfill⟩ := hr
    simp only [regWrite, vdpWrite, genericWrite_cfg, hfs, hfill, if_false]
  | loc k i | pwm i => rfl
  | comm i => simp [plainReg] at hr
  | dma d =>
    cases d with
    | sar | dar | tcr | stat => rfl
    | chcr | len | fifoData => simp [plainReg] at hr
  | div k d =>
    cases d with
    | dvsr | dvdnth | quot | rem | quotM | remM => rfl
    | dvdnt | dvdntl => simp [plainReg] at hr

/-- Settles O27: the rule is the generic write, and the steps of R125 follow. -/
theorem plainWriteEffects : Obligations.PlainWriteEffects := by
  intro s p w a v cyc h q W hplain
  obtain ⟨t, hexec, hends, hload, hkept, hanom, hout, hstage⟩ := exec_write_generic W (presented_fits s q a v w)
    (by rw [genericWrite_eq]) (regWrite_of_plain hplain dmaTrigger p a _ _ cyc)
  rw [genericWrite_eq] at hanom
  exact ⟨t, hexec, hload, hkept, hanom, hends, hout, hstage⟩

/-- Storing the value a COMM register holds changes nothing. -/
theorem regStore_comm_same (i : Nat) (s : State) : regStore (.comm i) (regLoad s (.comm i)) s = s := by
  have hset : s.comm.set i ((wordAt s.comm i).setWidth 16) = s.comm := by
    apply List.ext_getElem (List.length_set ..)
    intro j _ hj
    rw [List.getElem_set]
    split_ifs with hij
    · subst hij; simp [wordAt, List.getD, hj]
    · rfl
  simp only [regStore, regLoad, hset]

/-- A log that depends on a condition. -/
theorem ite_logAnomaly (c : Prop) [Decidable c] (k : Code) (x : Option (BitVec 2)) (a : Word) (s : State) :
    (if c then logAnomaly k x a s else s) =
      { s with anom := s.anom ++ if c then [{ code := k, pid := x, addr := a }] else [] } := by
  split_ifs
  · rfl
  · rw [List.append_nil]

/-- The store of a COMM write: an equal value is not stored and not marked, which leaves the same registers (R211). -/
theorem commStore_eq (i : Nat) (v : Word) (l : List Anomaly) (s : State) :
    (if v = regLoad s (.comm i) then ({ s with anom := l }, false) else (regStore (.comm i) v { s with anom := l }, true)) =
      ({ regStore (.comm i) v s with anom := l }, decide (v ≠ regLoad s (.comm i))) := by
  split_ifs with hsame
  · rw [decide_eq_false (not_not_intro hsame), hsame, regStore_comm_same]
  · rw [decide_eq_true hsame]; rfl

/-- A COMM write stores the writable bits, logs A4 and then A3, and marks when the stored value changes (R211, R212). -/
theorem commWrite_eq (p : Pid) (a : Word) (i : Nat) (new : Word) (s : State) :
    commWrite p a (.comm i) (regLoad s (.comm i)) new s =
      ({ regStore (.comm i) (storedValue s (.comm i) new) s with
          anom := s.anom ++ (if s.cfg.commOn s.sys then [] else [{ code := .a4, pid := some p.code, addr := a }]) ++
            (if s.cfg.commA3 then lockedLog s p a (.comm i) (regLoad s (.comm i)) new else []) },
        decide (storedValue s (.comm i) new ≠ regLoad s (.comm i))) := by
  have hlog : (if s.cfg.commA3 && lockedChange s.cfg (.comm i) (regLoad s (.comm i)) new then
        [({ code := .a3, pid := pidBits p, addr := a } : Anomaly)] else []) =
      if s.cfg.commA3 then lockedLog s p a (.comm i) (regLoad s (.comm i)) new else [] := by
    rw [lockedLog_eq]
    cases s.cfg.commA3 <;> rfl
  unfold commWrite
  simp only [← ite_not (p := s.cfg.commOn s.sys = true), ite_logAnomaly, hlog]
  exact commStore_eq i _ _ s

/-- Settles O28: the rule stores and logs as R211 and R212 say, and marks when the stored value changes. -/
theorem commWriteEffects : Obligations.CommWriteEffects := by
  intro s p w a v cyc h q i W hq
  have hrule := commWrite_eq p a i (presented s q a v w) s
  rw [← hq] at hrule
  obtain ⟨t, hexec, hends, hload, hkept, hanom, hout, hstage⟩ := exec_write_generic W (presented_fits s q a v w) rfl
    (show regWrite dmaTrigger p a q.reg (regLoad s q.reg) (presented s q a v w) cyc s = _ by
      rw [← hrule]; simp only [hq]; rfl)
  exact ⟨t, hexec, hload, hkept, hanom, hends, hout, hstage⟩

/-! ## Coprocessor reset (R216) -/

theorem exec_copReset_of_ready {s : State} (hs : s.Ready) (cyc : Word) :
    exec (.copReset cyc) s = .next (respond Response.zero (copReset s.writer cyc s)) := by
  have ⟨_, _, hstop⟩ := hs
  exact exec_next nofun hs (show (copReset s.writer cyc s).stop = none by rw [(copReset_spec ..).eq]; exact hstop)

/-- Settles O30: the command is `copReset` and the response. -/
theorem copResetEffects : Obligations.CopResetEffects := by
  intro s cyc hs
  have hexec := exec_copReset_of_ready hs cyc
  obtain ⟨hcalls, hvt, hdet, hspin, hdirty, hend, heq⟩ := copReset_spec s.writer cyc s
  generalize copReset s.writer cyc s = t at *
  exact ⟨_, hexec, hcalls, hvt, hdet, hspin, hdirty, hend, congrArg (respond Response.zero) heq⟩

/-! ## Bank switcher and framebuffer swap (R221, R231) -/

theorem exec_bankSelect_of_ready {s : State} (hs : s.Ready) (n : Word) :
    exec (.bankSelect n) s = .next (respond Response.zero (bankSelect n s)) := by
  have ⟨_, _, hstop⟩ := hs
  exact exec_next nofun hs (show (bankSelect n s).stop = none by rw [bankSelect_eq]; exact hstop)

theorem mem_bankSlots {g : Config} {i : Nat} : i ∈ g.bankSlots ↔ g.bankFirst ≤ i ∧ i < g.bankFirst + g.bankCount := by
  simp only [Config.bankSlots, List.mem_map, List.mem_range]
  constructor
  · rintro ⟨j, hj, rfl⟩; omega
  · rintro ⟨hlo, hhi⟩; exact ⟨i - g.bankFirst, by omega, by omega⟩

/-- The slots a bank selection rewrites, each with its width: those of the window, in each of PRI's read views. -/
def windowSlots (g : Config) : List (Width × Nat) := Width.all.flatMap fun w => g.bankSlots.map fun i => (w, i)

theorem mem_windowSlots {g : Config} {w : Width} {i : Nat} :
    (w, i) ∈ windowSlots g ↔ g.bankFirst ≤ i ∧ i < g.bankFirst + g.bankCount := by
  have hw : w ∈ Width.all := by cases w <;> decide
  rw [← mem_bankSlots]
  simp [windowSlots, hw]

/-- The window is rewritten slot by slot. -/
theorem bankViews_eq (g : Config) (off : Nat) (vs : Views) :
    bankViews g off vs =
      (windowSlots g).foldl (fun vs x => Views.put vs .pri x.1 .rd x.2 (bankEntry g off x.2)) vs := by
  simp only [bankViews, windowSlots, List.foldl_flatMap, List.foldl_map]

/-- A bank selection maps exactly the window's slots of PRI's read views (R221). -/
theorem get_bankViews {g : Config} {vs : Views} (h : g.viewsOk vs = true) (off : Nat) (p : Pid) (w : Width) (d : Dir)
    (slot : Nat) :
    Table.get Entry.stub ((((bankViews g off vs).get p).get w).get d) slot =
      if p = .pri ∧ d = .rd ∧ g.bankFirst ≤ slot ∧ slot < g.bankFirst + g.bankCount then bankEntry g off slot
      else Table.get Entry.stub (((vs.get p).get w).get d) slot := by
  obtain ⟨_, hkept, hput⟩ := Views.foldl_put (f := fun x => (Pid.pri, x.1, Dir.rd, x.2, bankEntry g off x.2))
    (windowSlots g) (wf_of_viewsOk h)
  rw [bankViews_eq]
  split_ifs with hin
  · obtain ⟨rfl, rfl, hslot⟩ := hin
    exact hput .pri w .rd slot _ ⟨(w, slot), mem_windowSlots.2 hslot, rfl, rfl, rfl, rfl⟩
      fun x _ ⟨_, _, _, hx⟩ => congrArg (bankEntry g off) hx.symm
  · exact hkept p w d slot fun x hx ⟨hp, _, hd, hslot⟩ => hin ⟨hp, hd, hslot ▸ mem_windowSlots.1 hx⟩

/-- Settles O33: the selection is refused, or rewrites the window. -/
theorem bankSelectMapsTheWindow : Obligations.BankSelectMapsTheWindow := by
  intro s n hs hviews off
  refine ⟨fun hrefused => ?refused, fun haccepted => ?accepted⟩
  case refused => rw [exec_bankSelect_of_ready hs, bankSelect_refused hrefused]; rfl
  case accepted =>
    rw [exec_bankSelect_of_ready hs, bankSelect_accepted haccepted]
    exact ⟨_, rfl, rfl, get_bankViews hviews off, rfl⟩

theorem exec_fbSwap_of_ready {s : State} (hs : s.Ready) (h : Bool) :
    exec (.fbSwap h) s = .next (respond Response.zero (fbSwap h s)) := by
  have ⟨_, _, hstop⟩ := hs
  exact exec_next (i := .fbSwap h) nofun hs hstop

/-- Slot `slot` of view VIEW[p][w][d] is the one `f` names (R231). -/
def NamesSlot (f : FbSlot) (p : Pid) (w : Width) (d : Dir) (slot : Nat) : Prop :=
  f.pid = p ∧ f.width = w ∧ f.dir = d ∧ f.slot = slot

/-- Mapping a list of framebuffer slots: canonical views stay canonical, slots no line names are kept, and a slot whose lines
agree on its base maps the half there (R231). -/
theorem get_fbViews (g : Config) (h : Bool) (l : List FbSlot) {vs : Views}
    (hwf : ∀ p w d, Table.wf Entry.stub (((vs.get p).get w).get d) = true) :
    (∀ p w d, Table.wf Entry.stub ((((fbViews g h l vs).get p).get w).get d) = true) ∧
    (∀ p w d slot, (∀ f ∈ l, ¬ NamesSlot f p w d slot) →
      Table.get Entry.stub ((((fbViews g h l vs).get p).get w).get d) slot =
        Table.get Entry.stub (((vs.get p).get w).get d) slot) ∧
    (∀ f ∈ l, (∀ f' ∈ l, NamesSlot f' f.pid f.width f.dir f.slot → f'.base = f.base) →
      Table.get Entry.stub ((((fbViews g h l vs).get f.pid).get f.width).get f.dir) f.slot =
        .mem (.fb h) f.base g.fbMask) := by
  obtain ⟨hcanon, hkept, hput⟩ := Views.foldl_put
    (f := fun f : FbSlot => (f.pid, f.width, f.dir, f.slot, Entry.mem (.fb h) f.base g.fbMask)) l hwf
  refine ⟨hcanon, fun p w d slot hnone => ?kept, fun f hf hbase => ?mapped⟩
  case kept => exact hkept p w d slot fun f hf ⟨hp, hw, hd, hs⟩ => hnone f hf ⟨hp.symm, hw.symm, hd.symm, hs.symm⟩
  case mapped =>
    refine hput _ _ _ _ _ ⟨f, hf, rfl, rfl, rfl, rfl⟩ fun f' hf' ⟨hp, hw, hd, hs⟩ => ?_
    rw [hbase f' hf' ⟨hp.symm, hw.symm, hd.symm, hs.symm⟩]

/-- Settles O36: the drawn slots are mapped first, the visible ones over them. -/
theorem fbSwapRemapsTheSlots : Obligations.FbSwapRemapsTheSlots := by
  intro s h hs hviews names
  obtain ⟨hcanon, hkeptDraw, hdraw⟩ := get_fbViews s.cfg h s.cfg.fbDraw (wf_of_viewsOk hviews)
  obtain ⟨_, hkeptVis, hvis⟩ := get_fbViews s.cfg (!h) s.cfg.fbVis hcanon
  refine ⟨_, exec_fbSwap_of_ready hs h, rfl, fun p w d slot hnone => ?kept, hvis, fun f hf hnovis hbase => ?drawn, rfl⟩
  case kept =>
    exact (hkeptVis p w d slot fun f hf => hnone f (List.mem_append_right _ hf)).trans
      (hkeptDraw p w d slot fun f hf => hnone f (List.mem_append_left _ hf))
  case drawn => exact (hkeptVis _ _ _ _ hnovis).trans (hdraw f hf hbase)

/-! ## Fill (R226) -/

/-- One word of a fill: the i-th from word address `start`. -/
def fillWord (start v : Word) (s : State) (i : Nat) : State :=
  memWrite (.fb s.fbHalf) (fillByte (s.cfg.regionSize (.fb s.fbHalf)) start i) 2 v s

/-- N, the number of words after the first (R226). -/
def fillCount (s : State) : Nat := (wordAt s.vdp s.cfg.fillLen &&& lowMask s.cfg.fillLenW).toNat

theorem fill_eq_foldl (s : State) :
    fill s = (List.range (fillCount s + 1)).foldl
      (fillWord (wordAt s.vdp s.cfg.fillAddr) (wordAt s.vdp s.cfg.fillData)) s := rfl

theorem fillWords_eq (start v : Word) (l : List Nat) (s : State) :
    l.foldl (fillWord start v) s = { s with mem := (l.foldl (fillWord start v) s).mem } := by
  induction l generalizing s with
  | nil => rfl
  | cons i rest ih => exact ih (fillWord start v s i)

/-- A fill writes memory only. -/
theorem fill_eq (s : State) : fill s = { s with mem := (fill s).mem } := fillWords_eq ..

/-- The log takes no part in a fill. -/
theorem fill_withAnom (l : List Anomaly) (s : State) : fill { s with anom := l } = { fill s with anom := l } := by
  rw [fill_eq_foldl, fill_eq_foldl]
  exact List.foldl_hom (fun s : State => { s with anom := l }) (g₁ := fillWord _ _) (g₂ := fillWord _ _) fun _ _ => rfl

theorem fillByte_even (size : Nat) (start : Word) (i : Nat) : fillByte size start i % 2 = 0 := Nat.mul_mod_left ..

/-- A byte after some words of a fill: every word is stored at an even offset, so a byte of one of them is the high byte of the
value at an even offset and the low byte at an odd one. -/
theorem readByte_fillWords (start v : Word) (l : List Nat) (s : State) (q : Region) (j : Nat) :
    readByte (l.foldl (fillWord start v) s) q j =
      if q = .fb s.fbHalf ∧ j < s.cfg.regionSize (.fb s.fbHalf) ∧
          ∃ i ∈ l, fillByte (s.cfg.regionSize (.fb s.fbHalf)) start i = j / 2 * 2
      then storedByte 2 v (j % 2) else readByte s q j := by
  induction l generalizing s with
  | nil => simp
  | cons i rest ih =>
    have heven := fillByte_even (s.cfg.regionSize (.fb s.fbHalf)) start i
    have hword := readByte_memWrite s (.fb s.fbHalf) q (fillByte (s.cfg.regionSize (.fb s.fbHalf)) start i) 2 j v
    rw [List.foldl_cons, ih]
    change (if q = .fb s.fbHalf ∧ j < s.cfg.regionSize (.fb s.fbHalf) ∧
      ∃ i ∈ rest, fillByte (s.cfg.regionSize (.fb s.fbHalf)) start i = j / 2 * 2
      then storedByte 2 v (j % 2) else readByte (memWrite _ _ 2 v s) q j) = _
    rw [hword]
    generalize s.cfg.regionSize (.fb s.fbHalf) = size at *
    generalize hoff : fillByte size start i = off at *
    by_cases hhere : q = .fb s.fbHalf ∧ j < size ∧ off = j / 2 * 2
    · obtain ⟨hq, hj, hij⟩ := hhere
      rw [if_pos (c := q = _ ∧ off ≤ j ∧ _) ⟨hq, by omega, by omega, hj⟩, show j - off = j % 2 by omega, ite_self,
        if_pos ⟨hq, hj, i, List.mem_cons_self .., hoff.trans hij⟩]
    · have hout : ¬ (q = .fb s.fbHalf ∧ off ≤ j ∧ j < off + 2 ∧ j < size) :=
        fun ⟨hq, hlo, hhi, hj⟩ => hhere ⟨hq, hj, by omega⟩
      rw [if_neg hout]
      congr 1
      simp only [List.exists_mem_cons_iff, hoff, eq_iff_iff]
      tauto

/-- Taking the low n bits is the remainder modulo 2^n, for every n. -/
theorem toNat_and_lowMask (v : Word) (n : Nat) : (v &&& lowMask n).toNat = v.toNat % 2 ^ n := by
  have hv : v.toNat % 2 ^ 32 = v.toNat := Nat.mod_eq_of_lt v.isLt
  have hle : v.toNat % 2 ^ n < 2 ^ 32 := Nat.lt_of_le_of_lt (Nat.mod_le ..) v.isLt
  calc (v &&& lowMask n).toNat
      = v.toNat % 2 ^ 32 &&& (2 ^ n - 1) % 2 ^ 32 := by rw [BitVec.toNat_and, lowMask, BitVec.toNat_ofNat, hv]
    _ = v.toNat % 2 ^ n := by
      rw [← Nat.and_mod_two_pow, Nat.and_two_pow_sub_one_eq_mod, Nat.mod_eq_of_lt hle]

theorem exec_fill_of_ready {s : State} (hs : s.Ready) : exec .fill s = .next (respond Response.zero (fill s)) := by
  have ⟨_, _, hstop⟩ := hs
  exact exec_next nofun hs (show (fill s).stop = none by rw [fill_eq]; exact hstop)

/-- A word of a half of an even number of bytes needs no alignment. -/
theorem fillByte_of_even_size {size : Nat} (h : size % 2 = 0) (start : Word) (i : Nat) :
    fillByte size start i = 2 * fillOffset start i % size := by
  have hdvd : 2 ∣ 2 * fillOffset start i % size :=
    (Nat.dvd_mod_iff (Nat.dvd_of_mod_eq_zero h)).2 (Nat.dvd_mul_right ..)
  exact Nat.div_mul_cancel hdvd

/-- Settles O34: a byte after the fill is read off its words. -/
theorem fillWrapsInItsRow : Obligations.FillWrapsInItsRow := by
  intro s hs n start v half size off
  have hcount : ∀ i, i ∈ List.range (fillCount s + 1) ↔ i ≤ n := fun i => by
    rw [List.mem_range, Nat.lt_succ_iff, show fillCount s = n from toNat_and_lowMask ..]
  have hbyte := readByte_fillWords (wordAt s.vdp s.cfg.fillAddr) v (List.range (fillCount s + 1)) s
  have hstored : ∀ i j, i ≤ n → j < size → off i = j / 2 * 2 → readByte (fill s) half j = storedByte 2 v (j % 2) :=
    fun i j hi hj hij => (hbyte half j).trans (if_pos ⟨rfl, hj, i, (hcount i).2 hi, hij⟩)
  have heven : ∀ i, off i % 2 = 0 := fillByte_even size (wordAt s.vdp s.cfg.fillAddr)
  refine ⟨_, exec_fill_of_ready hs, fun i hi => ⟨fun hj => ?high, fun hj => ?low⟩, fun q j hout => ?kept,
    fun hsize i => fillByte_of_even_size hsize _ i, congrArg (respond Response.zero) (fill_eq s)⟩
  case high =>
    have hi2 := heven i
    refine (hstored i (off i) hi hj (by omega)).trans ?_
    rw [hi2, storedByte_eq_extractLsb']
  case low =>
    have hi2 := heven i
    refine (hstored i (off i + 1) hi hj (by omega)).trans ?_
    rw [show (off i + 1) % 2 = 1 by omega, storedByte_eq_extractLsb']
  case kept =>
    refine (hbyte q j).trans (if_neg ?_)
    rintro ⟨hq, _, i, hi, hij⟩
    have hne := hout hq i ((hcount i).1 hi)
    replace hij : off i = j / 2 * 2 := hij
    omega

/-! ## Division units (R236 to R240) -/

theorem word_toInt_bounds (x : Word) : -2147483648 ≤ x.toInt ∧ x.toInt ≤ 2147483647 := by
  have hlo : -2 ^ (32 - 1) ≤ x.toInt := x.le_toInt
  have hhi : x.toInt < 2 ^ (32 - 1) := x.toInt_lt
  omega

/-- A value of the signed 32-bit range is read back from the word that holds it. -/
theorem toInt_ofInt_word {x : Int} (hlo : -2147483648 ≤ x) (hhi : x ≤ 2147483647) : (BitVec.ofInt 32 x).toInt = x :=
  BitVec.toInt_ofInt_eq_self (by decide) (by omega) (by omega)

/-- The remainder of a division by a word fits a word (R239, R240). -/
theorem toInt_ofInt_remainder (n : Int) {d : Word} (hd : d.toInt ≠ 0) :
    (BitVec.ofInt 32 (n - n.tdiv d.toInt * d.toInt)).toInt = n - n.tdiv d.toInt * d.toInt := by
  have hmod : n - n.tdiv d.toInt * d.toInt = n.tmod d.toInt := by rw [Int.tmod_def, Int.mul_comm]
  have hlt : (n.tmod d.toInt).natAbs < d.toInt.natAbs := by
    rw [Int.natAbs_tmod]; exact Nat.mod_lt _ (by omega)
  have hbounds := word_toInt_bounds d
  rw [hmod]
  exact toInt_ofInt_word (by omega) (by omega)

/-- A truncated quotient of two words fits a word, but for the one overflow (R239). -/
theorem toInt_ofInt_quotient {n d : Word} (hover : ¬ (n.toInt = -2147483648 ∧ d.toInt = -1)) :
    (BitVec.ofInt 32 (n.toInt.tdiv d.toInt)).toInt = n.toInt.tdiv d.toInt := by
  have hbounds := word_toInt_bounds n
  have habs := Int.natAbs_tdiv_le_natAbs n.toInt d.toInt
  suffices h : n.toInt.tdiv d.toInt ≤ 2147483647 from toInt_ofInt_word (by omega) h
  by_cases hmin : n.toInt = -2147483648
  case neg => omega
  case pos =>
    rcases lt_or_ge d.toInt 0 with hneg | hpos
    · -- the divisor is at most -2, so the quotient is at most half of 2^31
      have hhalf : (n.toInt.tdiv d.toInt).natAbs ≤ n.toInt.natAbs / 2 := by
        rw [Int.natAbs_tdiv]; exact Nat.div_le_div_left (by omega) (by decide)
      omega
    · have hsign : 0 ≤ (-n.toInt).tdiv d.toInt := Int.tdiv_nonneg (by omega) hpos
      rw [Int.neg_tdiv] at hsign
      omega

/-- An operation writes division unit k and the count of free values and nothing else, and the log takes no part in it. -/
def DividesOnly (k : Cop) (op : State → State) : Prop :=
  ∀ s : State, (∃ u n, op s = { s with divu := s.divu.set k u, draws := n }) ∧
    ∀ l : List Anomaly, op { s with anom := l } = { op s with anom := l }

section
variable {k : Cop} {op : State → State} {s : State}

theorem DividesOnly.eq (h : DividesOnly k op) : op s = { s with divu := (op s).divu, draws := (op s).draws } := by
  obtain ⟨⟨u, n, heq⟩, _⟩ := h s
  rw [heq]

theorem DividesOnly.others (h : DividesOnly k op) {j : Cop} (hj : j ≠ k) : (op s).divu.get j = s.divu.get j := by
  obtain ⟨⟨u, n, heq⟩, _⟩ := h s
  rw [heq]
  exact (PerCop.get_set s.divu k j u).trans (if_neg hj)

theorem DividesOnly.stop (h : DividesOnly k op) : (op s).stop = s.stop := by rw [h.eq]

end

section
variable {k : Cop} {s : State}

theorem div32_stale (hd : (s.divu.get k).dvsr.toInt = 0) (h0 : s.cfg.div0 = .stale) : div32 k s = s := by
  simp only [div32, if_pos hd, h0]

theorem div32_zero (hd : (s.divu.get k).dvsr.toInt = 0) (h0 : s.cfg.div0 = .zero) :
    div32 k s = setDivu k { s.divu.get k with quot := 0, rem := 0 } s := by
  simp only [div32, if_pos hd, h0]

theorem div32_overflow (hn : (s.divu.get k).dvdnt.toInt = -2147483648) (hd : (s.divu.get k).dvsr.toInt = -1) :
    div32 k s = countDraw (setDivu k { s.divu.get k with quot := 0x7FFFFFFF, rem := nextDraw s } s) := by
  have hne : (s.divu.get k).dvsr.toInt ≠ 0 := by omega
  exact (if_neg hne).trans (if_pos ⟨hn, hd⟩)

theorem div32_quotient (hne : (s.divu.get k).dvsr.toInt ≠ 0)
    (hover : ¬ ((s.divu.get k).dvdnt.toInt = -2147483648 ∧ (s.divu.get k).dvsr.toInt = -1)) :
    let u := s.divu.get k
    let q := u.dvdnt.toInt.tdiv u.dvsr.toInt
    div32 k s = setDivu k
      { u with quot := BitVec.ofInt 32 q, rem := BitVec.ofInt 32 (u.dvdnt.toInt - q * u.dvsr.toInt) } s :=
  (if_neg hne).trans (if_neg hover)

theorem div32_dividesOnly (k : Cop) : DividesOnly k (div32 k) := by
  intro s
  by_cases hd : (s.divu.get k).dvsr.toInt = 0
  · cases h0 : s.cfg.div0 with
    | stale =>
      rw [div32_stale hd h0]
      exact ⟨⟨s.divu.get k, s.draws, by rw [PerCop.set_get]⟩, fun l => div32_stale (s := { s with anom := l }) hd h0⟩
    | zero =>
      rw [div32_zero hd h0]
      exact ⟨⟨_, _, rfl⟩, fun l => div32_zero (s := { s with anom := l }) hd h0⟩
  · by_cases hover : (s.divu.get k).dvdnt.toInt = -2147483648 ∧ (s.divu.get k).dvsr.toInt = -1
    · obtain ⟨hn, hm⟩ := hover
      rw [div32_overflow hn hm]
      exact ⟨⟨_, _, rfl⟩, fun l => div32_overflow (s := { s with anom := l }) hn hm⟩
    · rw [div32_quotient hd hover]
      exact ⟨⟨_, _, rfl⟩, fun l => div32_quotient (s := { s with anom := l }) hd hover⟩

theorem div32_draws (hover : ¬ ((s.divu.get k).dvdnt.toInt = -2147483648 ∧ (s.divu.get k).dvsr.toInt = -1)) :
    (div32 k s).draws = s.draws := by
  by_cases hd : (s.divu.get k).dvsr.toInt = 0
  · cases h0 : s.cfg.div0 with
    | stale => rw [div32_stale hd h0]
    | zero => rw [div32_zero hd h0]; rfl
  · rw [div32_quotient hd hover]; rfl

theorem exec_div32_of_ready (hs : s.Ready) : exec (.div32 k) s = .next (respond Response.zero (div32 k s)) := by
  have ⟨_, _, hstop⟩ := hs
  exact exec_next nofun hs ((div32_dividesOnly k).stop.trans hstop)

end

/-- Settles O38: one equation of `div32` for each clause. -/
theorem div32Results : Obligations.Div32Results := by
  intro s k hs u n d
  refine ⟨_, exec_div32_of_ready hs, fun hd h0 => ?stale, fun hd h0 => ?zero, fun hn hd => ?overflow,
    fun hd hover => ?quotient, fun hover => div32_draws hover, fun j hj => ?others, ?frame⟩
  case stale => rw [div32_stale hd h0]; rfl
  case zero => rw [div32_zero hd h0]; exact PerCop.get_set_same ..
  case overflow => rw [div32_overflow hn hd]; exact ⟨PerCop.get_set_same .., rfl⟩
  case quotient =>
    rw [div32_quotient hd hover]
    exact ⟨_, _, PerCop.get_set_same .., toInt_ofInt_quotient hover, toInt_ofInt_remainder n hd⟩
  case others => exact (div32_dividesOnly k).others hj
  case frame => exact congrArg (respond Response.zero) (div32_dividesOnly k).eq

section
variable {k : Cop} {s : State}

theorem div64_stale (hd : (s.divu.get k).dvsr.toInt = 0) (h0 : s.cfg.div0 = .stale) : div64 k s = s := by
  simp only [div64, if_pos hd, h0]

theorem div64_zero (hd : (s.divu.get k).dvsr.toInt = 0) (h0 : s.cfg.div0 = .zero) :
    div64 k s = setDivu k (setResults (s.divu.get k) 0 0) s := by
  simp only [div64, if_pos hd, h0]

/-- The quotient of a 64-bit division of unit u (R240). -/
def quotient64 (u : Divu) : Int := (dividend64 u).tdiv u.dvsr.toInt

theorem div64_above (hd : (s.divu.get k).dvsr.toInt ≠ 0) (hq : 2147483647 < quotient64 (s.divu.get k)) :
    div64 k s = countDraw (setDivu k (setResults (s.divu.get k) 0x7FFFFFFF (nextDraw s)) s) :=
  (if_neg hd).trans (if_pos hq)

theorem div64_below (hd : (s.divu.get k).dvsr.toInt ≠ 0) (hq : quotient64 (s.divu.get k) < -2147483648) :
    div64 k s = countDraw (setDivu k (setResults (s.divu.get k) 0x80000000 (nextDraw s)) s) := by
  have hlow : ¬ 2147483647 < quotient64 (s.divu.get k) := by omega
  exact (if_neg hd).trans ((if_neg hlow).trans (if_pos hq))

theorem div64_quotient (hd : (s.divu.get k).dvsr.toInt ≠ 0) (hlo : -2147483648 ≤ quotient64 (s.divu.get k))
    (hhi : quotient64 (s.divu.get k) ≤ 2147483647) :
    let u := s.divu.get k
    div64 k s = setDivu k (setResults u (BitVec.ofInt 32 (quotient64 u))
      (BitVec.ofInt 32 (dividend64 u - quotient64 u * u.dvsr.toInt))) s := by
  have habove : ¬ 2147483647 < quotient64 (s.divu.get k) := by omega
  have hbelow : ¬ quotient64 (s.divu.get k) < -2147483648 := by omega
  exact (if_neg hd).trans ((if_neg habove).trans (if_neg hbelow))

theorem div64_dividesOnly (k : Cop) : DividesOnly k (div64 k) := by
  intro s
  by_cases hd : (s.divu.get k).dvsr.toInt = 0
  · cases h0 : s.cfg.div0 with
    | stale =>
      rw [div64_stale hd h0]
      exact ⟨⟨s.divu.get k, s.draws, by rw [PerCop.set_get]⟩, fun l => div64_stale (s := { s with anom := l }) hd h0⟩
    | zero =>
      rw [div64_zero hd h0]
      exact ⟨⟨_, _, rfl⟩, fun l => div64_zero (s := { s with anom := l }) hd h0⟩
  · rcases lt_or_ge 2147483647 (quotient64 (s.divu.get k)) with habove | hhi
    · rw [div64_above hd habove]
      exact ⟨⟨_, _, rfl⟩, fun l => div64_above (s := { s with anom := l }) hd habove⟩
    · rcases lt_or_ge (quotient64 (s.divu.get k)) (-2147483648) with hbelow | hlo
      · rw [div64_below hd hbelow]
        exact ⟨⟨_, _, rfl⟩, fun l => div64_below (s := { s with anom := l }) hd hbelow⟩
      · rw [div64_quotient hd hlo hhi]
        exact ⟨⟨_, _, rfl⟩, fun l => div64_quotient (s := { s with anom := l }) hd hlo hhi⟩

theorem exec_div64_of_ready (hs : s.Ready) : exec (.div64 k) s = .next (respond Response.zero (div64 k s)) := by
  have ⟨_, _, hstop⟩ := hs
  exact exec_next nofun hs ((div64_dividesOnly k).stop.trans hstop)

end

/-- Settles O39: one equation of `div64` for each clause. -/
theorem div64Results : Obligations.Div64Results := by
  intro s k hs u n d q both
  refine ⟨_, exec_div64_of_ready hs, fun hd h0 => ?stale, fun hd h0 => ?zero, fun hd hq => ?above, fun hd hq => ?below,
    fun hd hlo hhi => ?quotient, fun hd => ?draws, fun j hj => ?others, ?frame⟩
  case stale => rw [div64_stale hd h0]; rfl
  case zero => rw [div64_zero hd h0]; exact PerCop.get_set_same ..
  case above => rw [div64_above hd hq]; exact ⟨PerCop.get_set_same .., rfl⟩
  case below => rw [div64_below hd hq]; exact ⟨PerCop.get_set_same .., rfl⟩
  case quotient =>
    rw [div64_quotient hd hlo hhi]
    exact ⟨rfl, _, _, PerCop.get_set_same .., toInt_ofInt_word hlo hhi, toInt_ofInt_remainder n hd⟩
  case draws =>
    cases h0 : s.cfg.div0 with
    | stale => rw [div64_stale hd h0]; rfl
    | zero => rw [div64_zero hd h0]; rfl
  case others => exact (div64_dividesOnly k).others hj
  case frame => exact congrArg (respond Response.zero) (div64_dividesOnly k).eq

/-! ## A write whose rule starts a unit -/

/-- The generic write changes its register's array or record and the log. -/
theorem genericWrite_frame (p : Pid) (a : Word) (r : Reg) (new : Word) (s : State) :
    let g := genericWrite p a r (regLoad s r) new s
    g = { s with
      sys := g.sys, vdp := g.vdp, loc := g.loc, comm := g.comm, pwm := g.pwm, dma := g.dma, divu := g.divu
      anom := s.anom ++ lockedLog s p a r (regLoad s r) new } := by
  intro g
  simp only [g, genericWrite_eq]
  exact congrArg (fun z : State => { z with anom := s.anom ++ lockedLog s p a r (regLoad s r) new }) (regStore_eq ..)

/-- A state with the register bank of a generic write holds the stored value and otherwise the registers it held. -/
theorem genericWrite_stores {s : State} {p : Pid} {w : Width} {a cyc : Word} {h : Handler} {q : RegRow}
    (W : WritesRegister s p w a cyc h q) {new : Word} (hn : Fits q.reg new) {t : State}
    (hbanks : SameBanks (genericWrite p a q.reg (regLoad s q.reg) new s) t)
    (hdma : t.dma = (genericWrite p a q.reg (regLoad s q.reg) new s).dma) :
    regLoad t q.reg = storedValue s q.reg new ∧ OtherRegistersKept s t q.reg ∧ SameStaging s t := by
  have ⟨_, hat, _⟩ := W.reaches
  rw [genericWrite_eq] at hbanks hdma
  obtain ⟨hsys, hvdp, hloc, hcomm, hpwm, hdivu⟩ := hbanks
  have hload : ∀ r, regLoad t r = regLoad (regStore q.reg (storedValue s q.reg new) s) r :=
    regLoad_congr hsys hvdp hloc hcomm hpwm hdma hdivu
  refine ⟨?stored, fun r hr => (hload r).trans (regLoad_regStore_other _ hr), ?staging⟩
  case stored =>
    exact (hload _).trans
      (regLoad_regStore_same W.sized (holds_of_regAt hat) (merge_fits (regLoad_fits s q.reg) hn))
  case staging =>
    unfold SameStaging
    rw [hdma]
    exact regStore_staging q.reg (storedValue s q.reg new) s

/-- A rule that leads from `s` to `s'` keeps the flags, the calls, the time and what the host gave. -/
def KeepsFlags (s s' : State) : Prop :=
  s' = { s with
    sys := s'.sys, vdp := s'.vdp, loc := s'.loc, comm := s'.comm, pwm := s'.pwm, dma := s'.dma, divu := s'.divu
    mem := s'.mem, view := s'.view, fbHalf := s'.fbHalf, bankOff := s'.bankOff, anom := s'.anom, draws := s'.draws }

/-- A write whose rule keeps the flags completes as R125 says, and leaves what its rule left. -/
theorem exec_write_keepsFlags {s s' : State} {p : Pid} {w : Width} {a v cyc : Word} {h : Handler} {q : RegRow} {mark : Bool}
    (W : WritesRegister s p w a cyc h q)
    (hrule : regWrite dmaTrigger p a q.reg (regLoad s q.reg) (presented s q a v w) cyc s = (s', mark))
    (hkeeps : KeepsFlags s s') :
    ∃ t, exec (writeCmd w p a v cyc) s = .next t ∧ WriteEnds s t p w h q.reg (regLoad s q.reg) mark ∧
      SameBanks s' t ∧ t.dma = s'.dma ∧ t.mem = s'.mem ∧ SameMapping s' t ∧ t.anom = s'.anom ∧
      SameControl { s with draws := s'.draws } t := by
  have ⟨_, _, hstop⟩ := W.ready
  unfold KeepsFlags at hkeeps
  obtain ⟨t, hexec, hends, _, ht⟩ := exec_write_ends W hrule (by rw [hkeeps]) (by rw [hkeeps]) (by rw [hkeeps])
    (by rw [hkeeps]) (by rw [hkeeps]) (by rw [hkeeps]) (by rw [hkeeps]; exact hstop)
  refine ⟨t, hexec, hends, ?_⟩
  rw [ht]
  refine ⟨⟨rfl, rfl, rfl, rfl, rfl, rfl⟩, rfl, rfl, ⟨rfl, rfl, rfl⟩, rfl, ?_⟩
  rw [hkeeps]
  exact ⟨rfl, rfl, rfl, rfl, rfl, rfl, rfl, rfl, rfl, rfl⟩

/-! ## A write of a dividend (R236, R238) -/

/-- A rule that is the generic write and then a division of unit k. -/
theorem exec_write_divides {s : State} {p : Pid} {w : Width} {a v cyc : Word} {h : Handler} {q : RegRow}
    (W : WritesRegister s p w a cyc h q) {k : Cop} {d : DivReg} (hq : q.reg = .div k d) {op : State → State}
    (hop : DividesOnly k op)
    (hrule : regWrite dmaTrigger p a q.reg (regLoad s q.reg) (presented s q a v w) cyc s =
      (op (genericWrite p a q.reg (regLoad s q.reg) (presented s q a v w) s), true)) :
    let u := respond Response.zero (op (regStore q.reg (storedValue s q.reg (presented s q a v w)) s))
    ∃ t, exec (writeCmd w p a v cyc) s = .next t ∧ t.divu = u.divu ∧ t.draws = u.draws ∧
      t.anom = s.anom ++ lockedLog s p a q.reg (regLoad s q.reg) (presented s q a v w) ∧
      WriteEnds s t p w h q.reg (regLoad s q.reg) true ∧ SameControl u t ∧ SameMapping s t ∧ t.mem = s.mem ∧
      t.dma = s.dma ∧ SameBanks u t := by
  intro u
  let x := regStore q.reg (storedValue s q.reg (presented s q a v w)) s
  have hx : x = { s with divu := x.divu } := by simp only [x, hq]; rfl
  have hu : op x = { s with divu := (op x).divu, draws := (op x).draws } :=
    hop.eq.trans (congrArg (fun z : State => { z with divu := (op x).divu, draws := (op x).draws }) hx)
  obtain ⟨_, hlog⟩ := hop x
  rw [genericWrite_eq, hlog] at hrule
  simp only [u]
  change ∃ t, _ ∧ t.divu = (op x).divu ∧ t.draws = (op x).draws ∧ _ ∧ _ ∧ SameControl (op x) t ∧ _ ∧ _ ∧ _ ∧
    SameBanks (op x) t
  generalize op x = y at hrule hu ⊢
  obtain ⟨t, hexec, hends, hbanks, hdma, hmem, hmap, hanom, hctl⟩ :=
    exec_write_keepsFlags W hrule (by unfold KeepsFlags; rw [hu])
  have ⟨_, _, _, _, _, _, _, _, hdraws, _⟩ := hctl
  have ⟨_, _, _, _, _, hdivu⟩ := hbanks
  refine ⟨t, hexec, hdivu, hdraws, hanom, hends, ?control, ?mapping, ?mem, ?dma, hbanks⟩
  case control => rw [hu]; exact hctl
  case mapping => rw [hu] at hmap; exact hmap
  case mem => rw [hmem, hu]
  case dma => rw [hdma, hu]

/-- Settles O40: each dividend's rule is the generic write and its division. -/
theorem dividendWriteDivides : Obligations.DividendWriteDivides := by
  intro s p w a v cyc h q k W i hi
  have hready : (regStore q.reg (storedValue s q.reg (presented s q a v w)) s).Ready := by
    rw [regStore_eq]; exact W.ready
  rcases hi with ⟨hq, rfl⟩ | ⟨hq, rfl⟩
  · obtain ⟨t, ht⟩ := exec_write_divides W hq (div32_dividesOnly k) (by rw [hq]; rfl)
    exact ⟨t, _, exec_div32_of_ready hready, ht⟩
  · obtain ⟨t, ht⟩ := exec_write_divides W hq (div64_dividesOnly k) (by rw [hq]; rfl)
    exact ⟨t, _, exec_div64_of_ready hready, ht⟩

/-! ## A write of FILL_DATA (R225) -/

/-- The rule of FILL_DATA, where it is not FS_REG too, is the generic write and then a fill (R225). -/
theorem regWrite_fillData {s : State} {r : Reg} (hr : r = .vdp s.cfg.fillData) (hne : s.cfg.fillData ≠ s.cfg.fsReg)
    (trig : Trigger) (p : Pid) (a new cyc : Word) :
    regWrite trig p a r (regLoad s r) new cyc s = (fill (genericWrite p a r (regLoad s r) new s), true) := by
  subst hr
  simp only [regWrite, vdpWrite, if_neg hne, genericWrite_cfg, if_true]

/-- Settles O35: the rule is the generic write and then the fill, in which the log takes no part. -/
theorem fillDataWriteFills : Obligations.FillDataWriteFills := by
  intro s p w a v cyc h q W hq hne
  have hready : (regStore q.reg (storedValue s q.reg (presented s q a v w)) s).Ready := by
    rw [regStore_eq]; exact W.ready
  have hrule := regWrite_fillData hq hne dmaTrigger p a (presented s q a v w) cyc
  have hframe := genericWrite_frame p a q.reg (presented s q a v w) s
  have hfill : (fill (genericWrite p a q.reg (regLoad s q.reg) (presented s q a v w) s)).mem =
      (fill (regStore q.reg (storedValue s q.reg (presented s q a v w)) s)).mem := by
    rw [genericWrite_eq, fill_withAnom]
  have hstores := fun t => genericWrite_stores W (presented_fits s q a v w) (t := t)
  rw [fill_eq, hfill] at hrule
  generalize genericWrite p a q.reg (regLoad s q.reg) (presented s q a v w) s = g at hrule hframe hstores
  obtain ⟨t, hexec, hends, hbanks, hdma, hmem, hmap, hanom, hctl⟩ :=
    exec_write_keepsFlags W hrule (by unfold KeepsFlags; rw [hframe])
  obtain ⟨hload, hkept, hstage⟩ := hstores t hbanks hdma
  refine ⟨t, _, exec_fill_of_ready hready, hexec, hmem, hload, hkept, ?log, hends, ?control, ?mapping, hstage⟩
  case log => rw [hanom, hframe]
  case control => rw [hframe] at hctl; exact hctl
  case mapping => rw [hframe] at hmap; exact hmap

/-! ## A write of FS_REG (R230) -/

/-- FS_REG's rule with the gate open: a generic write, and a swap when the FS bit changes. -/
theorem fsWrite_open {s : State} (hopen : s.cfg.gateOpen s.vdp = true) (p : Pid) (a : Word) (i : Nat) (old new : Word) :
    fsWrite p a i old new s =
      if new.getLsbD s.cfg.fsBit = old.getLsbD s.cfg.fsBit then genericWrite p a (.vdp i) old new s
      else fbSwap (new.getLsbD s.cfg.fsBit) (genericWrite p a (.vdp i) old new s) := by
  simp only [fsWrite, if_pos hopen, genericWrite_cfg, ne_eq, ite_not]

/-- FS_REG's rule with the gate closed: a generic write that presents the old FS bit. -/
theorem fsWrite_closed {s : State} (hclosed : ¬ s.cfg.gateOpen s.vdp = true) (p : Pid) (a : Word) (i : Nat)
    (old new : Word) :
    fsWrite p a i old new s =
      genericWrite p a (.vdp i) old (setWordBit new s.cfg.fsBit (old.getLsbD s.cfg.fsBit)) s := by
  simp only [fsWrite, if_neg hclosed]

/-- A swap that depends on a condition changes the half and the views, or neither (R231). -/
theorem ite_fbSwap (c : Prop) [Decidable c] (b : Bool) (s : State) :
    (if c then s else fbSwap b s) = { s with
      fbHalf := if c then s.fbHalf else b
      view := if c then s.view else fbViews s.cfg (!b) s.cfg.fbVis (fbViews s.cfg b s.cfg.fbDraw s.view) } := by
  split_ifs <;> rfl

theorem fsWrite_cfg (p : Pid) (a : Word) (i : Nat) (old new : Word) (s : State) :
    (fsWrite p a i old new s).cfg = s.cfg := by
  by_cases hopen : s.cfg.gateOpen s.vdp = true
  · rw [fsWrite_open hopen]
    split_ifs
    · exact genericWrite_cfg ..
    · exact genericWrite_cfg ..
  · rw [fsWrite_closed hopen]
    exact genericWrite_cfg ..

/-- The rule of FS_REG, where it is not FILL_DATA too (R230). -/
theorem regWrite_fsReg {s : State} {r : Reg} (hr : r = .vdp s.cfg.fsReg) (hne : s.cfg.fillData ≠ s.cfg.fsReg)
    (trig : Trigger) (p : Pid) (a new cyc : Word) :
    regWrite trig p a r (regLoad s r) new cyc s = (fsWrite p a s.cfg.fsReg (regLoad s r) new s, true) := by
  subst hr
  simp only [regWrite, vdpWrite, if_true, fsWrite_cfg, if_neg hne.symm]

/-- The bits of a word after one is written. -/
theorem getLsbD_setWordBit (v : Word) (i : Nat) (b : Bool) {n : Nat} (hn : n < 32) :
    (setWordBit v i b).getLsbD n = if n = i then b else v.getLsbD n := by
  have hone : ((1 : Word) <<< i).getLsbD n = decide (n = i) := by
    refine (BitVec.getLsbD_twoPow i n).trans ?_
    by_cases hni : n = i
    · simp [← hni, hn]
    · simp [hni, Ne.symm hni]
  unfold setWordBit
  cases b
  · rw [if_neg Bool.false_ne_true, BitVec.getLsbD_and, BitVec.getLsbD_not, hone]
    by_cases hni : n = i <;> simp [hni, hn]
  · rw [if_pos rfl, BitVec.getLsbD_or, hone]
    by_cases hni : n = i <;> simp [hni]

/-- Writing the bit of another value into a word: that bit is the other value's, the others are the word's. -/
theorem getLsbD_setWordBit_getLsbD (v old : Word) (i n : Nat) :
    (setWordBit v i (old.getLsbD i)).getLsbD n = if n = i then old.getLsbD n else v.getLsbD n := by
  by_cases hn : n < 32
  · rw [getLsbD_setWordBit v i _ hn]
    split_ifs with hni
    · rw [hni]
    · rfl
  · simp [BitVec.getLsbD_of_ge _ n (Nat.le_of_not_lt hn)]

/-- A word with a bit of another value of the register's width has the register's width. -/
theorem setWordBit_fits {r : Reg} {v old : Word} (hv : Fits r v) (ho : Fits r old) (i : Nat) :
    Fits r (setWordBit v i (old.getLsbD i)) := by
  apply BitVec.eq_of_getLsbD_eq
  intro n _
  have hvn := congrArg (·.getLsbD n) hv
  have hon := congrArg (·.getLsbD n) ho
  simp only [BitVec.getLsbD_and] at hvn hon ⊢
  rw [getLsbD_setWordBit_getLsbD]
  split_ifs
  · exact hon
  · exact hvn

/-- A bit of the value a generic write stores: the new value's where it is writable, else the old one's (R210). -/
theorem getLsbD_storedValue (s : State) (r : Reg) (v : Word) (n : Nat) :
    (storedValue s r v).getLsbD n =
      if (s.cfg.writable r).getLsbD n then v.getLsbD n else (regLoad s r).getLsbD n := by
  unfold storedValue
  simp only [BitVec.getLsbD_or, BitVec.getLsbD_and, BitVec.getLsbD_not]
  by_cases hn : n < 32
  · cases (s.cfg.writable r).getLsbD n <;> simp [hn]
  · simp [BitVec.getLsbD_of_ge _ n (Nat.le_of_not_lt hn)]

/-- Settles O37: with the gate open the rule is the generic write and the swap; with it closed, a generic write that presents the
old FS bit. -/
theorem swapIsGated : Obligations.SwapIsGated := by
  intro s p w a v cyc h q W hq hne old new b
  have hrule := regWrite_fsReg hq hne dmaTrigger p a new cyc
  by_cases hopen : s.cfg.gateOpen s.vdp = true
  case neg =>
    rw [fsWrite_closed hopen, ← hq] at hrule
    obtain ⟨t, hexec, hends, hload, hkept, hanom, ⟨hctl, ⟨hview, hhalf, hbank⟩, hmem⟩, hstage⟩ :=
      exec_write_generic W (setWordBit_fits (presented_fits s q a v w) (regLoad_fits s q.reg) s.cfg.fsBit)
        (by rw [genericWrite_eq]) hrule
    rw [genericWrite_eq] at hanom
    refine ⟨t, hexec, hkept, hends, hmem, hstage, hctl, hbank, ?_⟩
    rw [if_neg hopen, hload]
    refine ⟨?fsBit, fun n hn => ?otherBits, hanom, hhalf, hview⟩
    case fsBit => rw [getLsbD_storedValue, getLsbD_setWordBit_getLsbD, if_pos rfl, ite_self]
    case otherBits => rw [getLsbD_storedValue, getLsbD_setWordBit_getLsbD, if_neg hn, getLsbD_storedValue]
  case pos =>
    have hframe := genericWrite_frame p a q.reg new s
    have hstores := fun t => genericWrite_stores W (presented_fits s q a v w) (t := t)
    rw [fsWrite_open hopen, ← hq, ite_fbSwap] at hrule
    generalize genericWrite p a q.reg (regLoad s q.reg) new s = g at hrule hframe hstores
    obtain ⟨t, hexec, hends, hbanks, hdma, hmem, ⟨hview, hhalf, hbank⟩, hanom, hctl⟩ :=
      exec_write_keepsFlags W hrule (by unfold KeepsFlags; rw [hframe])
    obtain ⟨hload, hkept, hstage⟩ := hstores t hbanks hdma
    rw [hframe] at hmem hview hhalf hbank hanom hctl
    refine ⟨t, hexec, hkept, hends, hmem, hstage, hctl, hbank, ?_⟩
    rw [if_pos hopen]
    refine ⟨hload, hanom, ?_⟩
    split_ifs with hsame
    · exact ⟨hhalf.trans (if_pos hsame), hview.trans (if_pos hsame)⟩
    · exact ⟨hhalf.trans (if_neg hsame), hview.trans (if_neg hsame)⟩

/-! ## A write of a SYS register (R215, R219) -/

/-- The configuration and the flags agree, which is what the steps after a register's rule read and change (R125). -/
structure SameFlags (s t : State) : Prop where
  cfg : t.cfg = s.cfg
  detectors : ∀ x c, detectorOf t x c = detectorOf s x c
  spins : ∀ x c, spinOf t x c = spinOf s x c
  dirty : ∀ c d, dirtyOf t c d = dirtyOf s c d
  calls : t.calls = s.calls
  endSlice : t.endSlice = s.endSlice

theorem SameFlags.respond {s t : State} (h : SameFlags s t) (x : Response) : SameFlags (Machine.respond x s) t :=
  ⟨h.cfg, h.detectors, h.spins, h.dirty, h.calls, h.endSlice⟩

/-- A write whose rule left `s'` completes, and ends as R125 says from any state with the flags of `s'`. -/
theorem exec_write_rule {s s' : State} {p : Pid} {w : Width} {a v cyc : Word} {h : Handler} {q : RegRow} {mark : Bool}
    (W : WritesRegister s p w a cyc h q)
    (hrule : regWrite dmaTrigger p a q.reg (regLoad s q.reg) (presented s q a v w) cyc s = (s', mark))
    (hstop : s'.stop = none) :
    ∃ t, exec (writeCmd w p a v cyc) s = .next t ∧
      (∀ u, SameFlags u s' → WriteEnds u t p w h q.reg (regLoad s q.reg) mark) ∧
      t = { s' with
        pd := t.pd, spin := t.spin, dirty := t.dirty, calls := t.calls, endSlice := t.endSlice, resp := t.resp } := by
  have hexec := exec_write_register (v := v) W
  rw [hrule] at hexec
  dsimp only at hexec
  obtain ⟨_, ht⟩ := writeEnds_after p w h q.reg (regLoad s q.reg) mark s' Response.zero
  have hends : ∀ u, SameFlags u s' → _ := fun u ⟨hcfg, hdet, hspin, hdirty, hcalls, hend⟩ =>
    (writeEnds_of_rule (p := p) (w := w) (h := h) (r := q.reg) (old := regLoad s q.reg) (mark := mark)
      hcfg hdet hspin hdirty hcalls hend).1
  generalize respond _ (afterWrite p q.reg (regLoad s q.reg) mark s').1 = t at hexec ht hends
  exact ⟨t, hexec.trans (settle_of_stop_none (by rw [ht]; exact hstop)), hends, ht⟩

/-- The old and the new value of SYS word i show a rising reset-enable bit (R215). -/
def RisesReset (g : Config) (i : Nat) (old new : Word) : Prop :=
  i = g.resReg ∧ old.getLsbD g.resBit = false ∧ new.getLsbD g.resBit = true

theorem resetEdge_of_rises {p : Pid} {i : Nat} {old cyc : Word} {s : State}
    (h : RisesReset s.cfg i old (regLoad s (.sys i))) : resetEdge p i old cyc s = copReset p cyc s := if_pos h

theorem resetEdge_of_not {p : Pid} {i : Nat} {old cyc : Word} {s : State}
    (h : ¬ RisesReset s.cfg i old (regLoad s (.sys i))) : resetEdge p i old cyc s = s := if_neg h

/-- RES_REG's rule changes what a coprocessor reset changes (R216). -/
theorem resetEdge_eq (p : Pid) (i : Nat) (old cyc : Word) (s : State) :
    resetEdge p i old cyc s = { s with
      calls := (resetEdge p i old cyc s).calls, vt := (resetEdge p i old cyc s).vt, pd := (resetEdge p i old cyc s).pd
      spin := (resetEdge p i old cyc s).spin, dirty := (resetEdge p i old cyc s).dirty
      endSlice := (resetEdge p i old cyc s).endSlice } := by
  by_cases h : RisesReset s.cfg i old (regLoad s (.sys i))
  · rw [resetEdge_of_rises h]
    exact (copReset_spec p cyc s).eq
  · rw [resetEdge_of_not h]

theorem bankChange_of_changes {i : Nat} {old : Word} {s : State}
    (h : i = s.cfg.bankReg ∧ s.cfg.bankField (regLoad s (.sys i)) ≠ s.cfg.bankField old) :
    bankChange i old s = bankSelect (s.cfg.bankField (regLoad s (.sys i))) s := if_pos h

theorem bankChange_of_not {i : Nat} {old : Word} {s : State}
    (h : ¬ (i = s.cfg.bankReg ∧ s.cfg.bankField (regLoad s (.sys i)) ≠ s.cfg.bankField old)) :
    bankChange i old s = s := if_neg h

/-- BANK_FIELD's rule changes the mapping and the log (R219, R221). -/
theorem bankChange_eq (i : Nat) (old : Word) (s : State) :
    bankChange i old s = { s with
      bankOff := (bankChange i old s).bankOff, view := (bankChange i old s).view, anom := (bankChange i old s).anom } := by
  by_cases h : i = s.cfg.bankReg ∧ s.cfg.bankField (regLoad s (.sys i)) ≠ s.cfg.bankField old
  · rw [bankChange_of_changes h]
    exact bankSelect_eq ..
  · rw [bankChange_of_not h]

/-- The state a write of SYS word i reaches before the bank change: the generic write and then the reset edge (R97). -/
def edged (s : State) (p : Pid) (a v cyc : Word) (w : Width) (q : RegRow) (i : Nat) : State :=
  resetEdge p i (regLoad s q.reg) cyc (genericWrite p a q.reg (regLoad s q.reg) (presented s q a v w) s)

/-- What the generic write and the reset edge keep, and what the generic write logs. -/
theorem edged_frame (s : State) (p : Pid) (a v cyc : Word) (w : Width) (q : RegRow) (i : Nat) :
    let e := edged s p a v cyc w q i
    e = { s with
      sys := e.sys, vdp := e.vdp, loc := e.loc, comm := e.comm, pwm := e.pwm, dma := e.dma, divu := e.divu
      anom := s.anom ++ lockedLog s p a q.reg (regLoad s q.reg) (presented s q a v w)
      calls := e.calls, vt := e.vt, pd := e.pd, spin := e.spin, dirty := e.dirty, endSlice := e.endSlice } := by
  have hg := genericWrite_frame p a q.reg (presented s q a v w) s
  have he := resetEdge_eq p i (regLoad s q.reg) cyc
    (genericWrite p a q.reg (regLoad s q.reg) (presented s q a v w) s)
  dsimp only [edged] at hg ⊢
  generalize genericWrite p a q.reg (regLoad s q.reg) (presented s q a v w) s = g at hg he ⊢
  generalize resetEdge p i (regLoad s q.reg) cyc g = e at he ⊢
  rw [he, hg]

/-- The register bank after the generic write and the reset edge is the generic write's. -/
theorem edged_stores {s : State} {p : Pid} {w : Width} {a v cyc : Word} {h : Handler} {q : RegRow} {i : Nat}
    (W : WritesRegister s p w a cyc h q) {t : State} (hbanks : SameBanks (edged s p a v cyc w q i) t)
    (hdma : t.dma = (edged s p a v cyc w q i).dma) :
    regLoad t q.reg = storedValue s q.reg (presented s q a v w) ∧ OtherRegistersKept s t q.reg ∧ SameStaging s t := by
  unfold edged at hbanks hdma
  rw [resetEdge_eq] at hbanks hdma
  exact genericWrite_stores W (presented_fits s q a v w) hbanks hdma

/-- What a write of SYS word i leaves, in terms of the state `e` after its reset edge. -/
structure SysWritten (s t e : State) (p : Pid) (w : Width) (a v : Word) (h : Handler) (q : RegRow) (i : Nat) : Prop where
  stored : regLoad t q.reg = storedValue s q.reg (presented s q a v w)
  others : OtherRegistersKept s t q.reg
  staging : SameStaging s t
  mem : t.mem = s.mem
  fbHalf : t.fbHalf = s.fbHalf
  control : SameControl { s with vt := e.vt } t
  mapping : SameMapping (bankChange i (regLoad s q.reg) e) t
  anom : t.anom = (bankChange i (regLoad s q.reg) e).anom
  ends : ∀ u, SameFlags u e → WriteEnds u t p w h q.reg (regLoad s q.reg) true

theorem exec_write_sys {s : State} {p : Pid} {w : Width} {a v cyc : Word} {h : Handler} {q : RegRow} {i : Nat}
    (W : WritesRegister s p w a cyc h q) (hq : q.reg = .sys i) :
    ∃ t, exec (writeCmd w p a v cyc) s = .next t ∧ SysWritten s t (edged s p a v cyc w q i) p w a v h q i := by
  have ⟨_, _, hstop⟩ := W.ready
  have hrule : regWrite dmaTrigger p a q.reg (regLoad s q.reg) (presented s q a v w) cyc s =
      (bankChange i (regLoad s q.reg) (edged s p a v cyc w q i), true) := by
    unfold edged
    rw [hq]; rfl
  have hstores := fun t => edged_stores (i := i) (v := v) W (t := t)
  have hframe := edged_frame s p a v cyc w q i
  dsimp only at hframe
  generalize edged s p a v cyc w q i = e at hrule hstores hframe ⊢
  have hbank := bankChange_eq i (regLoad s q.reg) e
  obtain ⟨t, hexec, hends, ht⟩ := exec_write_rule W hrule (by rw [hbank, hframe]; exact hstop)
  generalize hb : bankChange i (regLoad s q.reg) e = b at hbank hends ht
  have hbanks : SameBanks e t := by rw [ht, hbank]; exact ⟨rfl, rfl, rfl, rfl, rfl, rfl⟩
  have hdma : t.dma = e.dma := by rw [ht, hbank]
  obtain ⟨hload, hkept, hstage⟩ := hstores t hbanks hdma
  refine ⟨t, hexec, hload, hkept, hstage, ?mem, ?fbHalf, ?control, ?mapping, ?anom, fun u hu => hends u ?flags⟩
  case mem => rw [ht, hbank, hframe]
  case fbHalf => rw [ht, hbank, hframe]
  case control => rw [ht, hbank, hframe]; exact ⟨rfl, rfl, rfl, rfl, rfl, rfl, rfl, rfl, rfl, rfl⟩
  case mapping => rw [hb, ht]; exact ⟨rfl, rfl, rfl⟩
  case anom => rw [hb, ht]
  case flags =>
    obtain ⟨hcfg, hdet, hspin, hdirty, hcalls, hend⟩ := hu
    rw [hbank]
    exact ⟨hcfg, hdet, hspin, hdirty, hcalls, hend⟩

section
variable {s : State} {p : Pid} {w : Width} {a v cyc : Word} {h : Handler} {q : RegRow} {i : Nat}

/-- SYS word i holds the stored value after the generic write. -/
theorem regLoad_genericWrite (W : WritesRegister s p w a cyc h q) (hq : q.reg = .sys i) :
    regLoad (genericWrite p a q.reg (regLoad s q.reg) (presented s q a v w) s) (.sys i) =
      storedValue s q.reg (presented s q a v w) := by
  obtain ⟨hload, _⟩ := genericWrite_stores W (presented_fits s q a v w) ⟨rfl, rfl, rfl, rfl, rfl, rfl⟩ rfl
  exact hq ▸ hload

theorem edged_of_rises (W : WritesRegister s p w a cyc h q) (hq : q.reg = .sys i)
    (hr : RisesReset s.cfg i (regLoad s q.reg) (storedValue s q.reg (presented s q a v w))) :
    edged s p a v cyc w q i =
      copReset p cyc (genericWrite p a q.reg (regLoad s q.reg) (presented s q a v w) s) := by
  refine resetEdge_of_rises ?_
  rw [genericWrite_cfg, regLoad_genericWrite W hq]
  exact hr

theorem edged_of_not (W : WritesRegister s p w a cyc h q) (hq : q.reg = .sys i)
    (hr : ¬ RisesReset s.cfg i (regLoad s q.reg) (storedValue s q.reg (presented s q a v w))) :
    edged s p a v cyc w q i = genericWrite p a q.reg (regLoad s q.reg) (presented s q a v w) s := by
  refine resetEdge_of_not ?_
  rw [genericWrite_cfg, regLoad_genericWrite W hq]
  exact hr

/-- Without a reset edge the flags before the steps of R125 are those before the write, and no virtual time has moved. -/
theorem edged_flags_of_not (W : WritesRegister s p w a cyc h q) (hq : q.reg = .sys i)
    (hr : ¬ RisesReset s.cfg i (regLoad s q.reg) (storedValue s q.reg (presented s q a v w))) :
    SameFlags s (edged s p a v cyc w q i) ∧ (edged s p a v cyc w q i).vt = s.vt := by
  have hframe := genericWrite_frame p a q.reg (presented s q a v w) s
  rw [edged_of_not W hq hr]
  generalize genericWrite p a q.reg (regLoad s q.reg) (presented s q a v w) s = g at hframe ⊢
  rw [hframe]
  exact ⟨⟨rfl, fun _ _ => rfl, fun _ _ => rfl, fun _ _ => rfl, rfl, rfl⟩, rfl⟩

end

/-- Settles O32: what the write leaves is read off the state after the reset edge, where the bank change follows. -/
theorem bankFieldWrite : Obligations.BankFieldWrite := by
  intro s p w a v cyc h q W hq old new n off
  obtain ⟨t, hexec, hload, hkept, hstage, hmem, hhalf, hctl, ⟨hview, _, hoff⟩, hanom, hends⟩ :=
    exec_write_sys (v := v) W hq
  refine ⟨t, hexec, hload, hkept, hmem, hstage, hhalf, fun hno => ?flags, ?bank⟩
  case flags =>
    obtain ⟨hflags, hvt⟩ := edged_flags_of_not W hq hno
    rw [hvt] at hctl
    exact ⟨hends s hflags, hctl⟩
  case bank =>
    have hframe := edged_frame s p a v cyc w q s.cfg.bankReg
    obtain ⟨hnew, _⟩ := edged_stores (i := s.cfg.bankReg) (v := v) W ⟨rfl, rfl, rfl, rfl, rfl, rfl⟩ rfl
    dsimp only at hframe
    generalize edged s p a v cyc w q s.cfg.bankReg = e at *
    have hcfg : e.cfg = s.cfg := by rw [hframe]
    have heview : e.view = s.view := by rw [hframe]
    have heoff : e.bankOff = s.bankOff := by rw [hframe]
    have helog : e.anom = s.anom ++ lockedLog s p a q.reg old (presented s q a v w) := by rw [hframe]
    have hfield : e.cfg.bankField (regLoad e (.sys s.cfg.bankReg)) = n := by rw [hcfg, ← hq, hnew]
    by_cases hsame : n = s.cfg.bankField old
    case pos =>
      have hb : bankChange s.cfg.bankReg old e = e :=
        bankChange_of_not fun ⟨_, hne⟩ => hne (by rw [hfield, hcfg]; exact hsame)
      rw [if_pos hsame, hview, hoff, hanom, hb]
      exact ⟨heview, heoff, helog⟩
    case neg =>
      have hb : bankChange s.cfg.bankReg old e = bankSelect n e := by
        refine (bankChange_of_changes ⟨congrArg Config.bankReg hcfg.symm, ?_⟩).trans ?_
        · rw [hfield, hcfg]; exact hsame
        · rw [hfield]
      rw [if_neg hsame, hview, hoff, hanom, hb]
      split_ifs with hrefused
      · rw [bankSelect_refused (by rw [hcfg]; exact hrefused)]
        exact ⟨heview, heoff, congrArg (· ++ _) helog⟩
      · rw [bankSelect_accepted (by rw [hcfg]; exact Nat.lt_of_not_le hrefused), hcfg, heview]
        exact ⟨rfl, rfl, helog⟩

/-- Coprocessor resets by one writer at one time leave the same flags of states with the same flags (R216). -/
theorem CopResets.sameFlags {p : Pid} {cyc : Word} {s s' t t' : State} (hs : CopResets p cyc s s') (ht : CopResets p cyc t t')
    (h : SameFlags s t) : SameFlags s' t' := by
  refine ⟨?cfg, fun x c => ?detectors, fun x c => ?spins, fun c d => ?dirty, ?calls, PerPid.ext_get fun x => ?endSlice⟩
  case cfg => rw [hs.eq, ht.eq]; exact h.cfg
  case detectors => rw [hs.detectors, ht.detectors, h.cfg, h.detectors]
  case spins => rw [hs.spins, ht.spins, h.cfg, h.spins]
  case dirty => rw [hs.dirty, ht.dirty, h.dirty]
  case calls => rw [hs.calls, ht.calls, h.calls]
  case endSlice => rw [hs.endSlice, ht.endSlice, h.endSlice]

/-- With a reset edge the flags before the steps of R125 are those a COP_RESET of the writer leaves of the stored value's state, and
PRI moves the virtual times (R215, R216). -/
theorem edged_flags_of_rises {s : State} {p : Pid} {w : Width} {a v cyc : Word} {h : Handler} {q : RegRow} {i : Nat}
    (W : WritesRegister s p w a cyc h q) (hq : q.reg = .sys i)
    (hr : RisesReset s.cfg i (regLoad s q.reg) (storedValue s q.reg (presented s q a v w))) :
    let x : State := { regStore q.reg (storedValue s q.reg (presented s q a v w)) s with writer := p }
    SameFlags s x ∧ SameFlags (copReset p cyc x) (edged s p a v cyc w q i) ∧
      ∀ k, (edged s p a v cyc w q i).vt.get k = if p = .pri then cyc else s.vt.get k := by
  intro x
  have hsx : SameFlags s x := by
    simp only [x]
    rw [regStore_eq]
    exact ⟨rfl, fun _ _ => rfl, fun _ _ => rfl, fun _ _ => rfl, rfl, rfl⟩
  rw [edged_of_rises W hq hr, genericWrite_eq]
  have hxg : SameFlags x { regStore q.reg (storedValue s q.reg (presented s q a v w)) s with
      anom := s.anom ++ lockedLog s p a q.reg (regLoad s q.reg) (presented s q a v w) } :=
    ⟨rfl, fun _ _ => rfl, fun _ _ => rfl, fun _ _ => rfl, rfl, rfl⟩
  refine ⟨hsx, (copReset_spec p cyc x).sameFlags (copReset_spec ..) hxg, fun k => ?_⟩
  rw [(copReset_spec ..).vt, regStore_eq]

section
variable {s u t : State} {p : Pid} {w : Width} {cyc : Word} {h : Handler} {r : Reg} {old : Word} {mark : Bool}

/-- After a coprocessor reset and the steps of R125 no coprocessor is observed to spin (R216). -/
theorem CopResets.detectors_after (hu : CopResets p cyc s u) (ht : WriteEnds u t p w h r old mark) (k : Cop) (c : RegClass)
    (hp : s.cfg.polled k.pid c = true) : detectorOf t k.pid c = Detector.clear ∧ spinOf t k.pid c = false := by
  have hreset : k.pid ≠ .pri ∧ s.cfg.polled k.pid c = true := ⟨k.pid_ne_pri, hp⟩
  rw [ht.detectors, ht.spins, hu.detectors, hu.spins, if_pos hreset, if_pos hreset, ite_self, Bool.false_and]
  exact ⟨rfl, rfl⟩

/-- A coprocessor's END_SLICE is set after the reset only by an interrupt its own write makes likely (R127, R216). -/
theorem CopResets.endSlice_after (hu : CopResets p cyc s u) (ht : WriteEnds u t p w h r old mark) (k : Cop) :
    t.endSlice.get k.pid = (decide (k.pid = p) && u.cfg.irqLikely p r old (regLoad t r)) := by
  rw [ht.endSlice, hu.endSlice, if_neg k.pid_ne_pri, Bool.false_or]

/-- A SHARED class is dirty for the coprocessors after the reset only where the write marks it (R126, R216). -/
theorem CopResets.dirty_after (hu : CopResets p cyc s u) (ht : WriteEnds u t p w h r old true) (hr : r.cls.shared = true)
    (c : RegClass) (hc : c.shared = true) : dirtyOf t c .cop = (decide (c = r.cls) && decide (p = .pri)) := by
  have hside : decide (Side.cop = p.side.other) = decide (p = .pri) := by cases p <;> rfl
  rw [ht.dirty, hu.dirty, if_pos ⟨rfl, hc⟩, hr, hside, Bool.false_or, Bool.true_and, Bool.true_and]

end

/-- Settles O31: the edge is a COP_RESET of the writer in the state the generic write left, and the steps of R125 start from its
flags. -/
theorem resetEnableEdge : Obligations.ResetEnableEdge := by
  intro s p w a v cyc h q W hq old new raised
  obtain ⟨t, hexec, hload, hkept, hstage, hmem, _, hctl, hmap, hanom, hends⟩ := exec_write_sys (v := v) W hq
  have ⟨_, hsync, hvt, _, _, _, _, hruns, hdraws, _⟩ := hctl
  refine ⟨t, hexec, hload, hkept, hmem, hstage, hsync, hruns, hdraws, fun hne => ?mapping, ?edge⟩
  case mapping =>
    have hframe := edged_frame s p a v cyc w q s.cfg.resReg
    dsimp only at hframe
    generalize edged s p a v cyc w q s.cfg.resReg = e at *
    have hcfg : e.cfg = s.cfg := by rw [hframe]
    rw [bankChange_of_not fun ⟨hr, _⟩ => hne (hr.trans (congrArg Config.bankReg hcfg))] at hmap hanom
    rw [hframe] at hmap hanom
    exact ⟨hanom, hmap⟩
  case edge =>
    by_cases hedge : old.getLsbD s.cfg.resBit = false ∧ new.getLsbD s.cfg.resBit = true
    case neg =>
      rw [if_neg hedge]
      obtain ⟨hflags, hsame⟩ := edged_flags_of_not (v := v) W hq fun ⟨_, hr⟩ => hedge hr
      exact ⟨hends s hflags, hvt.trans hsame⟩
    case pos =>
      rw [if_pos hedge]
      obtain ⟨⟨hcfg, _, _, _, hcalls, _⟩, hflags, htimes⟩ := edged_flags_of_rises (v := v) W hq ⟨rfl, hedge⟩
      let x : State := { regStore q.reg new s with writer := p }
      replace hcfg : x.cfg = s.cfg := hcfg
      replace hcalls : x.calls = s.calls := hcalls
      replace hflags : SameFlags (copReset p cyc x) _ := hflags
      have hready : x.Ready := by simp only [x]; rw [regStore_eq]; exact W.ready
      have hcommand : exec (.copReset cyc) x = .next (respond Response.zero (copReset p cyc x)) :=
        exec_copReset_of_ready hready cyc
      have hreset := copReset_spec p cyc x
      have hends' := hends _ hflags
      have hu := hends _ (hflags.respond Response.zero)
      generalize copReset p cyc x = y at hreset hends' hcommand hu
      have hycfg : y.cfg = s.cfg := by rw [hreset.eq]; exact hcfg
      refine ⟨?calls, fun k => ?times, fun k c hp => ?detectors, fun k => ?endSlice, fun c hc => ?dirty, _, hcommand, hu⟩
      case calls => rw [hends'.calls, hreset.calls, hcalls, hycfg, hload]
      case times => rw [hvt]; exact htimes k
      case detectors => exact hreset.detectors_after hends' k c (by rw [hcfg]; exact hp)
      case endSlice => rw [hreset.endSlice_after hends', hycfg, hload]
      case dirty => rw [hreset.dirty_after hends' (by rw [hq]; rfl) c hc, hq]; rfl

end Sys2Proof.Machine
end

section
/-! PROOF. The statements of 60_exceptions.md: no command fails (R250), INIT and the refusals around it (R255, R256), ACK_SLICE
(R273) and STATUS (R274). -/

namespace Sys2Proof

/-! ## Processors and classes by number (R3, R6) -/

theorem Pid.mem_all (p : Pid) : p ∈ Pid.all := by cases p <;> decide

theorem RegClass.mem_all (c : RegClass) : c ∈ RegClass.all := by cases c <;> decide

theorem Pid.index_le (p : Pid) : p.index ≤ 2 := by cases p <;> decide

theorem RegClass.index_le (c : RegClass) : c.index ≤ 5 := by cases c <;> decide

end Sys2Proof

namespace Sys2Proof.Machine

/-! ## INIT and the refusals (R255, R256, R280) -/

theorem perform_uninitialised {s : State} (hi : s.initialised = false) (f : State → State) :
    perform s f = .refused .uninitialised := by
  unfold perform
  rw [hi]
  rfl

theorem perform_initFailed {s : State} (hi : s.initialised = true) (hf : s.initFailed = true) (f : State → State) :
    perform s f = .refused .initFailed := by
  unfold perform
  rw [hi, hf]
  rfl

/-- Settles O8: every command but INIT is performed, and performing is what asks for the two flags. -/
theorem commandsRefusedUntilInit : Obligations.CommandsRefusedUntilInit := by
  intro i s hi
  rw [exec_eq_perform i s hi]
  exact ⟨fun h => perform_uninitialised h _, fun h hf => perform_initFailed h hf _⟩

/-- INIT of a well-formed configuration either fails or resets, whatever state it finds (R255). -/
theorem exec_init_of_wf {s : State} (hg : s.cfg.wf = true) (fail : Bool) (cyc : Word) :
    exec (.init fail cyc) s = settle (respond Response.zero (if fail then initFailure s else initSuccess cyc s)) := by
  change execInit fail cyc s = _
  unfold execInit
  rw [hg]
  rfl

theorem resetAll_initFailed (cyc : Word) (s : State) : (resetAll cyc s).initFailed = s.initFailed := by
  rw [(resetAll_spec cyc s).eq]
  rfl

theorem initSuccess_initFailed (cyc : Word) (s : State) : (initSuccess cyc s).initFailed = false :=
  resetAll_initFailed cyc _

/-- Settles O9: a failed INIT is written out; a successful one is RESET_ALL with the two flags set first. -/
theorem initFailsOrResets : Obligations.InitFailsOrResets := by
  intro s cyc hg hstop
  let cleared : State := { s with initFailed := false, initialised := true }
  have hready : cleared.Ready := ⟨rfl, rfl, hstop⟩
  have hreset : exec (.resetAll cyc) cleared = settle (respond Response.zero (initSuccess cyc s)) :=
    perform_of_ready hready fun u => respond Response.zero (resetAll cyc u)
  have hnext : settle (respond Response.zero (initSuccess cyc s)) = .next (respond Response.zero (initSuccess cyc s)) :=
    hreset.symm.trans (exec_resetAll hready cyc)
  rw [exec_init_of_wf hg, exec_init_of_wf hg]
  exact ⟨settle_of_stop_none hstop, _, hnext, hreset.trans hnext, initSuccess_initFailed cyc s, rfl⟩

/-! ## ACK_SLICE (R273) -/

/-- Settles O15: ACK_SLICE is one write of END_SLICE. -/
theorem ackClearsEndSlice : Obligations.AckClearsEndSlice := by
  intro s p hs
  have ⟨_, _, hstop⟩ := hs
  exact ⟨_, exec_next (i := .ackSlice p) nofun hs hstop, fun q => PerPid.get_set s.endSlice p q false, rfl⟩

/-! ## STATUS (R274) -/

theorem bitAt_eq_setWordBit (b : Bool) (k : Nat) : bitAt b k = setWordBit 0 k b := by
  cases b
  · exact BitVec.zero_and.symm
  · exact BitVec.zero_or.symm

theorem getLsbD_bitAt (b : Bool) {k : Nat} (hk : k < 32) (n : Nat) :
    (bitAt b k).getLsbD n = true ↔ n = k ∧ b = true := by
  by_cases hn : n < 32
  · rw [bitAt_eq_setWordBit, getLsbD_setWordBit 0 k b hn]
    by_cases hnk : n = k <;> simp [hnk]
  · rw [BitVec.getLsbD_of_ge _ n (Nat.le_of_not_lt hn)]
    exact iff_of_false Bool.false_ne_true fun ⟨hnk, _⟩ => hn (hnk ▸ hk)

/-- The bits of a disjunction over a list. -/
theorem getLsbD_foldl_or {α : Type} (f : α → Word) (n : Nat) (l : List α) (v : Word) :
    (l.foldl (fun v x => v ||| f x) v).getLsbD n = true ↔ v.getLsbD n = true ∨ ∃ x ∈ l, (f x).getLsbD n = true := by
  induction l generalizing v with
  | nil => simp
  | cons x rest ih => rw [List.foldl_cons, ih, BitVec.getLsbD_or, Bool.or_eq_true, List.exists_mem_cons_iff, or_assoc]

theorem getLsbD_spinBits (s : State) (p : Pid) (n : Nat) : (spinBits s p).getLsbD n = true ↔
    ∃ c, n = 8 * p.index + c.index ∧ s.cfg.polled p c = true ∧ spinOf s p c = true := by
  have hbit (c : RegClass) : 8 * p.index + c.index < 32 := by
    have := Pid.index_le p
    have := RegClass.index_le c
    omega
  rw [spinBits, getLsbD_foldl_or]
  simp [getLsbD_bitAt _ (hbit _), RegClass.mem_all]

theorem getLsbD_statusWord (s : State) (n : Nat) : (statusWord s).getLsbD n = true ↔
    (∃ p c, n = 8 * p.index + c.index ∧ s.cfg.polled p c = true ∧ spinOf s p c = true) ∨
    ∃ p, n = 24 + p.index ∧ s.endSlice.get p = true := by
  have hbit (p : Pid) : 24 + p.index < 32 := by
    have := Pid.index_le p
    omega
  unfold statusWord
  simp only [BitVec.or_assoc]
  rw [getLsbD_foldl_or]
  simp [getLsbD_spinBits, getLsbD_bitAt _ (hbit _), Pid.mem_all, exists_or]

/-- Settles O14: STATUS gives the status word as its response and does nothing else. -/
theorem statusReturnsTheFlags : Obligations.StatusReturnsTheFlags := by
  intro s hs
  have ⟨_, _, hstop⟩ := hs
  exact ⟨_, exec_next (i := .status) nofun hs hstop, getLsbD_statusWord s, rfl⟩

/-! ## No command fails (R250) -/

theorem Fixed.initFailed_respond {s u : State} (h : Fixed s u) (r : Response) : (respond r u).initFailed = s.initFailed :=
  h.initFailed

theorem stateRestored_initFailed (cyc : Word) (s : State) : (stateRestored cyc s).initFailed = s.initFailed := by
  rw [(stateRestored_spec cyc s).eq]

/-- INIT_FAILED is INIT's alone: no other command sets or clears it (R40, R255). -/
theorem effectOf_initFailed (i : Instr) (s : State) : (effectOf i s).initFailed = s.initFailed := by
  have W (p : Pid) : Writes (Relation.ReflTransGen PriMicro) p commandEnv := (within_command p).toWrites
  cases i with
  | ackSlice | advance | status | fbSwap | init => rfl
  | busRd8 | busRd16 | busRd32 => exact (busRead_fixed ..).initFailed_respond _
  | busWr8 | busWr16 | busWr32 => exact (busWrite_fixed ..).initFailed_respond _
  | pollDetect p c a cyc => exact (pollDetect_fixed p c a cyc s).1.initFailed_respond _
  | pollUndetect p c => exact (pollUndetect_fixed p c s).1.initFailed_respond _
  | syncRd c now => exact (syncRead_fixed c now s).initFailed_respond _
  | syncWr c now => exact (gapSync_fixed c now s).initFailed_respond _
  | dmaRun cyc => exact (dmaRun_fixed cyc s).1.initFailed_respond _
  | bankSelect n => exact (bankSelect_fixed n s).1.initFailed_respond _
  | fill => exact (pri_chain_fixed ((W .pri).fill s)).initFailed_respond _
  | div32 k => exact (pri_chain_fixed ((W .pri).div32 k s)).initFailed_respond _
  | div64 k => exact (pri_chain_fixed ((W .pri).div64 k s)).initFailed_respond _
  | copReset cyc => exact (pri_chain_fixed ((W s.writer).copReset cyc s)).initFailed_respond _
  | resetAll cyc => exact resetAll_initFailed cyc s
  | stateRestored cyc => exact stateRestored_initFailed cyc s

/-- No effect of a command, INIT's included, stops it or brings a run that hangs, in a block whose accesses run on. -/
theorem Effect.runs_on {s u : State} (e : Effect s u) (h : RunsOn s) (hr : s.RunsReturn) :
    u.initialised = true ∧ u.stop = none ∧ u.RunsReturn := by
  have ⟨hinit, _, hstop⟩ := h.ready
  cases e with
  | access c =>
    obtain ⟨hu, hret⟩ := h.pri_chain c hr
    obtain ⟨hinit, _, hstop⟩ := hu.ready
    exact ⟨hinit, hstop, hret⟩
  | reset cyc =>
    rw [(resetAll_spec cyc s).eq]
    exact ⟨hinit, hstop, hr⟩
  | restore cyc =>
    rw [(stateRestored_spec cyc s).eq]
    exact ⟨hinit, hstop, hr⟩
  | initFails => exact ⟨rfl, hstop, hr⟩
  | initSucceeds cyc =>
    unfold initSuccess
    rw [(resetAll_spec cyc _).eq]
    exact ⟨rfl, hstop, hr⟩

/-- Every command but INIT answers a next state of a block that still accepts commands. -/
theorem exec_runs_on {i : Instr} {s : State} (hi : ∀ fail cyc, i ≠ .init fail cyc) (h : RunsOn s) (hr : s.RunsReturn) :
    ∃ t, exec i s = .next t ∧ t.Ready ∧ t.RunsReturn := by
  have ⟨_, hfail, _⟩ := h.ready
  have hkept := effectOf_initFailed i s
  obtain ⟨u, r, e, heq⟩ := effectOf_eq_respond i s
  obtain ⟨hinit, hstop, hret⟩ := e.runs_on h hr
  have hexec := exec_next hi h.ready (by rw [heq]; exact hstop)
  rw [heq] at hkept hexec
  exact ⟨_, hexec, ⟨hinit, hkept.trans hfail, hstop⟩, hret⟩

/-- INIT answers a next state, which accepts commands unless it failed (R255, R256). -/
theorem exec_init_runs_on (fail : Bool) (cyc : Word) {s : State} (h : RunsOn s) (hr : s.RunsReturn) :
    ∃ t, exec (.init fail cyc) s = .next t ∧ (fail = false → t.Ready) ∧ t.RunsReturn := by
  rw [exec_init_of_wf h.sound.cfg]
  cases fail with
  | true =>
    obtain ⟨_, hstop, hret⟩ := Effect.initFails.runs_on h hr
    exact ⟨_, settle_of_stop_none hstop, nofun, hret⟩
  | false =>
    obtain ⟨hinit, hstop, hret⟩ := (Effect.initSucceeds cyc).runs_on h hr
    exact ⟨_, settle_of_stop_none hstop, fun _ => ⟨hinit, initSuccess_initFailed cyc s, hstop⟩, hret⟩

/-- Settles O58: INIT apart, a command is effects that nothing stops and that leave INIT_FAILED alone. -/
theorem noCommandFails : Obligations.NoCommandFails := by
  intro i s hinv hs hr halign
  have hon : RunsOn s := ⟨sound_of_inv hinv, halign, hs⟩
  by_cases hinit : ∃ fail cyc, i = .init fail cyc
  · obtain ⟨fail, cyc, rfl⟩ := hinit
    obtain ⟨t, hexec, hready, hret⟩ := exec_init_runs_on fail cyc hon hr
    exact ⟨t, hexec, fun hne => hready (Bool.eq_false_iff.2 fun hf => hne cyc (hf ▸ rfl)), hret⟩
  · obtain ⟨t, hexec, hready, hret⟩ := exec_runs_on (fun fail cyc e => hinit ⟨fail, cyc, e⟩) hon hr
    exact ⟨t, hexec, fun _ => hready, hret⟩

end Sys2Proof.Machine
end

section
/-! PROOF. The statements of 70_reset_and_hazards.md: a second reset (R286), what a restore rebuilds (R287, R288) and what it
forgets (R287, R289), and the accesses of a coprocessor, which open no gate (R123, R291, R298). -/

namespace Sys2Proof.Machine

/-! ## Tables of a state from their entries -/

theorem pd_eq_of_detectorOf {s t : State} (h : ∀ p c, detectorOf s p c = detectorOf t p c) : s.pd = t.pd :=
  PerPid.ext_get fun p => PerClass.ext_get fun c => h p c

theorem spin_eq_of_spinOf {s t : State} (h : ∀ p c, spinOf s p c = spinOf t p c) : s.spin = t.spin :=
  PerPid.ext_get fun p => PerClass.ext_get fun c => h p c

theorem dirty_eq_of_dirtyOf {s t : State} (h : ∀ c d, dirtyOf s c d = dirtyOf t c d) : s.dirty = t.dirty :=
  PerClass.ext_get fun c => PerSide.ext_get fun d => h c d

/-! ## What a reset and a restore set alike (R285, R287) -/

/-- DIRTY, END_SLICE, LAST_SYNC and VT, which `clearTracking` sets without looking at the block. -/
structure SameTracking (s t : State) : Prop where
  dirty : s.dirty = t.dirty
  endSlice : s.endSlice = t.endSlice
  lastSync : s.lastSync = t.lastSync
  vt : s.vt = t.vt

theorem Tracks.sameTracking {cyc : Word} {s s' t t' : State} (h : Tracks cyc s t) (h' : Tracks cyc s' t') :
    SameTracking t t' where
  dirty := dirty_eq_of_dirtyOf fun c d => (h.dirty c d).trans (h'.dirty c d).symm
  endSlice := PerPid.ext_get fun p => (h.endSlice p).trans (h'.endSlice p).symm
  lastSync := h.lastSync.trans h'.lastSync.symm
  vt := PerCop.ext_get fun k => (h.vt k).trans (h'.vt k).symm

/-! ## A second reset (R286) -/

section
variable {cyc : Word} {r : Response} {s t u : State}

theorem Resets.cfg (h : Resets cyc s t) : t.cfg = s.cfg := by rw [h.eq]; rfl

/-- The register bank of a reset block is at its reset values already. -/
theorem Resets.resetRegisters_eq (h : Resets cyc s t) : resetRegisters (respond r t) = respond r t := by
  rw [h.eq]; rfl

/-- Undetecting a second time changes no detector. -/
theorem Resets.pd_again (h : Resets cyc s t) (h' : Resets cyc (respond r t) u) : u.pd = t.pd := by
  refine pd_eq_of_detectorOf fun p c => (h'.tracks.detectors p c).trans ?_
  by_cases hp : t.cfg.polled p c = true
  · have hclear : detectorOf t p c = Detector.clear := (h.tracks.detectors p c).trans (if_pos (h.cfg ▸ hp))
    exact (if_pos hp).trans hclear.symm
  · exact if_neg hp

theorem Resets.spin_again (h : Resets cyc s t) (h' : Resets cyc (respond r t) u) : u.spin = t.spin := by
  refine spin_eq_of_spinOf fun p c => (h'.tracks.spins p c).trans ?_
  have hspin : spinOf t p c = (spinOf s p c && !t.cfg.polled p c) := h.cfg ▸ h.tracks.spins p c
  change (spinOf t p c && !t.cfg.polled p c) = spinOf t p c
  rw [hspin, Bool.and_assoc, Bool.and_self]

/-- A reset of a reset block, whatever its last response, only logs what selecting bank 0 logs. -/
theorem Resets.again (h : Resets cyc s t) (h' : Resets cyc (respond r t) u) :
    u = { respond r t with anom := t.anom ++ selectLog s.cfg 0 } := by
  have hcfg : (respond r t).cfg = s.cfg := h.cfg
  have hview : u.view = t.view := by rw [h'.view, h.view, hcfg]
  have hanom : u.anom = t.anom ++ selectLog s.cfg 0 := by rw [h'.anom, hcfg]; rfl
  obtain ⟨hdirty, hend, hlast, hvt⟩ := h'.tracks.sameTracking h.tracks
  dsimp only at hdirty hend hlast hvt
  refine h'.eq.trans ?_
  rw [h.resetRegisters_eq, hview, h'.fbHalf.trans h.fbHalf.symm, h'.bankOff.trans h.bankOff.symm, hanom, h.pd_again h',
    h.spin_again h', hdirty, hend, hlast, hvt]
  rfl

theorem Resets.ready (h : Resets cyc s t) (hs : s.Ready) : (respond r t).Ready := by
  rw [h.eq]; exact hs

end

/-- Settles O11: the second reset finds every field as the first one leaves it. -/
theorem resetTwiceIsResetOnce : Obligations.ResetTwiceIsResetOnce := by
  intro s cyc hs
  have h := resetAll_spec cyc s
  have h' := resetAll_spec cyc (respond Response.zero (resetAll cyc s))
  refine ⟨_, exec_resetAll hs cyc, ?_⟩
  rw [exec_resetAll (h.ready hs), h.again h', selectLog_zero]
  rfl

/-! ## What a restore leaves (R287, R288) -/

/-- The restored BANK_FIELD. -/
def restoredField (s : State) : Word := s.cfg.bankField (regLoad s (.sys s.cfg.bankReg))

/-- The bank offset it names. -/
def restoredOffset (s : State) : Nat := (restoredField s).toNat * s.cfg.bankSize

/-- The framebuffer half that the restored FS bit names. -/
def restoredHalf (s : State) : Bool := (regLoad s (.vdp s.cfg.fsReg)).getLsbD s.cfg.fsBit

/-- VIEW0 with the bank window at the restored offset, or at bank 0 when that is out of range. -/
def restoredWindow (s : State) : Views :=
  if restoredOffset s < s.cfg.cartSize then bankViews s.cfg (restoredOffset s) s.cfg.view0
  else if s.cfg.cartSize = 0 then s.cfg.view0 else bankViews s.cfg 0 s.cfg.view0

section
variable {cyc : Word} {s t : State}

theorem Restores.view_eq (h : Restores cyc s t) : t.view = fbViews s.cfg (!restoredHalf s) s.cfg.fbVis
    (fbViews s.cfg (restoredHalf s) s.cfg.fbDraw (restoredWindow s)) := by
  obtain ⟨hwindow, _⟩ := restoreBank_spec { s with view := s.cfg.view0 }
  rw [h.view, hwindow, selectedViews_zero, h.fbHalf]
  rfl

theorem Restores.bankOff_eq (h : Restores cyc s t) :
    t.bankOff = if restoredOffset s < s.cfg.cartSize then BitVec.ofNat 32 (restoredOffset s)
      else if s.cfg.cartSize = 0 then s.bankOff else 0 := by
  obtain ⟨_, hoff, _⟩ := restoreBank_spec { s with view := s.cfg.view0 }
  exact h.bankOff.trans hoff

theorem Restores.anom_eq (h : Restores cyc s t) :
    t.anom = s.anom ++ if restoredOffset s < s.cfg.cartSize then []
      else if s.cfg.cartSize = 0 then [⟨.a7, some 0, restoredField s⟩, ⟨.a7, some 0, 0⟩]
      else [⟨.a7, some 0, restoredField s⟩] := by
  obtain ⟨_, _, hbank, _⟩ := restoreBank_spec { s with view := s.cfg.view0 }
  have hlog : t.anom = s.anom ++ if restoredOffset s < s.cfg.cartSize then []
      else ⟨.a7, some 0, restoredField s⟩ :: selectLog s.cfg 0 := h.anom.trans hbank
  rw [hlog, selectLog_zero]
  split_ifs <;> rfl

/-- A pair of POLL_SET has been undetected. -/
theorem Restores.undetected (h : Restores cyc s t) {p : Pid} {c : RegClass} (hp : s.cfg.polled p c = true) :
    detectorOf t p c = Detector.clear ∧ spinOf t p c = false := by
  have hspin : (spinOf s p c && !s.cfg.polled p c) = false := by rw [hp, Bool.not_true, Bool.and_false]
  exact ⟨(h.tracks.detectors p c).trans (if_pos hp), (h.tracks.spins p c).trans hspin⟩

end

theorem exec_stateRestored {s : State} (hs : s.Ready) (cyc : Word) :
    exec (.stateRestored cyc) s = .next (respond Response.zero (stateRestored cyc s)) := by
  have ⟨_, _, hstop⟩ := hs
  refine exec_next nofun hs ?_
  change (stateRestored cyc s).stop = none
  rw [(stateRestored_spec cyc s).eq]
  exact hstop

/-- Settles O12: what STATE_RESTORED leaves (`Restores`), field by field. -/
theorem restoreRederivesTheBlock : Obligations.RestoreRederivesTheBlock := by
  intro s cyc hs
  refine ⟨_, exec_stateRestored hs cyc, ?_⟩
  have h := stateRestored_spec cyc s
  generalize stateRestored cyc s = t at h ⊢
  refine ⟨h.view_eq, h.bankOff_eq, h.anom_eq, h.fbHalf, h.dma, fun _ _ => h.undetected, h.tracks.dirty,
    h.tracks.endSlice, h.tracks.lastSync, h.tracks.vt, ?frame⟩
  case frame => rw [h.eq]; rfl

/-! ## What a restore forgets (R287, R289) -/

/-- A DMA record with FULL as its FIFO says (R30). -/
def fullFromFifo (g : Config) (d : Dma) : Dma := { d with stat := setHalfBit d.stat g.statFullBit (d.fifo.length == g.fifoCap) }

section
variable {cyc : Word} {s s' t t' : State}

theorem Restores.cfg (h : Restores cyc s t) : t.cfg = s.cfg := by rw [h.eq]

/-- Of the saved part a restore changes FULL alone. -/
theorem Restores.savedOf_eq (h : Restores cyc s t) :
    savedOf t = { savedOf s with dma := fullFromFifo s.cfg (savedOf s).dma } := by
  have hdma : ({ t.dma with busy := false } : Dma) = fullFromFifo s.cfg (savedOf s).dma := by rw [h.dma]; rfl
  unfold savedOf at hdma ⊢
  rw [hdma, h.eq]

theorem Restores.sameSaved (h : Restores cyc s t) (h' : Restores cyc s' t') (hs : SameSaved s s') : SameSaved t t' := by
  obtain ⟨hcfg, hsaved⟩ := hs
  exact ⟨by rw [h.cfg, h'.cfg, hcfg], by rw [h.savedOf_eq, h'.savedOf_eq, hcfg, hsaved]⟩

/-- After a restore SPIN is down everywhere: outside POLL_SET it never was up (R33). -/
theorem Restores.spinOf_eq (h : Restores cyc s t) (hs : s.Inv) (p : Pid) (c : RegClass) : spinOf t p c = false := by
  cases hp : s.cfg.polled p c with
  | true =>
    obtain ⟨_, hspin⟩ := h.undetected hp
    exact hspin
  | false =>
    refine (h.tracks.spins p c).trans ?_
    rw [hs.spins p c hp, Bool.false_and]

end

/-- What the mapping is derived from is part of the configuration and of the saved part. -/
theorem SameSaved.restored {s s' : State} (h : SameSaved s s') :
    restoredOffset s = restoredOffset s' ∧ restoredHalf s = restoredHalf s' ∧ restoredWindow s = restoredWindow s' := by
  obtain ⟨hcfg, hsaved⟩ := h
  have hsys : s.sys = s'.sys := congrArg Saved.sys hsaved
  have hvdp : s.vdp = s'.vdp := congrArg Saved.vdp hsaved
  have hoff : restoredOffset s = restoredOffset s' := by simp only [restoredOffset, restoredField, regLoad, hcfg, hsys]
  refine ⟨hoff, ?_, ?_⟩
  · simp only [restoredHalf, regLoad, hcfg, hvdp]
  · simp only [restoredWindow, hoff, hcfg]

/-- Settles O13: each field after a restore is given by the configuration, the saved part and CYC. -/
theorem restoreForgetsTheRest : Obligations.RestoreForgetsTheRest := by
  intro s s' cyc hs hs' hinv hinv' hsame
  refine ⟨_, _, exec_stateRestored hs cyc, exec_stateRestored hs' cyc, ?_⟩
  have h := stateRestored_spec cyc s
  have h' := stateRestored_spec cyc s'
  generalize stateRestored cyc s = t at h ⊢
  generalize stateRestored cyc s' = t' at h' ⊢
  have ⟨hcfg, _⟩ := hsame
  have hsaved := h.sameSaved h' hsame
  obtain ⟨hoff, hhalf, hwindow⟩ := hsame.restored
  obtain ⟨hdirty, hend, hlast, hvt⟩ := h.tracks.sameTracking h'.tracks
  refine ⟨hsaved, ?busy, ?view, h.fbHalf.trans (hhalf.trans h'.fbHalf.symm), fun hcart => ?bankOff, hdirty,
    hend, hlast, hvt, ?spin, fun p c hp => ?detector⟩
  case busy =>
    change t.dma.busy = t'.dma.busy
    rw [h.dma, h'.dma]
  case view =>
    change t.view = t'.view
    rw [h.view_eq, h'.view_eq, hcfg, hhalf, hwindow]
  case bankOff =>
    change t.bankOff = t'.bankOff
    rw [h.bankOff_eq, h'.bankOff_eq, ← hoff, ← hcfg, if_neg hcart, if_neg hcart]
  case spin => exact spin_eq_of_spinOf fun p c => (h.spinOf_eq hinv p c).trans (h'.spinOf_eq hinv' p c).symm
  case detector =>
    obtain ⟨hd, _⟩ := h.undetected hp
    obtain ⟨hd', _⟩ := h'.undetected (hcfg ▸ hp)
    exact hd.trans hd'.symm

/-! ## Accesses of a coprocessor (R123, R291, R298) -/

/-- A bus command of a coprocessor is a chain of a coprocessor's elementary changes: the gate is PRI's alone. -/
theorem within_command_of_coprocessor {p : Pid} (hp : p ≠ .pri) :
    Within (Relation.ReflTransGen CopMicro) p commandEnv where
  refl _ := .refl
  trans := Relation.ReflTransGen.trans
  base h := .single (.base h)
  trigger q cyc s := dmaTrigger_micros q cyc s
  gate h := absurd h hp
  vt h := absurd h hp
  detect q c a cyc s := .single (.detect s q c a cyc)

theorem effectOf_coprocessorAccess {i : Instr} (hi : CoprocessorAccess i) (s : State) :
    ∃ u r, Relation.ReflTransGen CopMicro s u ∧ effectOf i s = respond r u := by
  cases i with
  | busRd8 p a cyc | busRd16 p a cyc | busRd32 p a cyc =>
    exact ⟨_, _, (within_command_of_coprocessor hi).busRead _ a cyc s, rfl⟩
  | busWr8 p a v cyc | busWr16 p a v cyc | busWr32 p a v cyc =>
    exact ⟨_, _, (within_command_of_coprocessor hi).busWrite _ a _ cyc s, rfl⟩
  | _ => exact hi.elim

/-- A coprocessor's bus command keeps time and takes no run (R291). -/
theorem exec_coprocessorAccess_timeless {i : Instr} {s t : State} (hi : CoprocessorAccess i) (h : exec i s = .next t) :
    Timeless s t := by
  have hinit : ∀ f cyc, i ≠ .init f cyc := by rintro f cyc rfl; exact hi
  rw [exec_eq_perform i s hinit] at h
  obtain ⟨_, _, _, rfl⟩ := perform_eq_next.1 h
  obtain ⟨u, r, hu, e⟩ := effectOf_coprocessorAccess hi s
  obtain ⟨hlast, hvt, hruns⟩ := (cop_chain_fixed hu).2
  rw [e]
  exact ⟨hlast, hvt, hruns⟩

theorem ReadFrame.trans {s t u : State} (h : ReadFrame s t) (k : ReadFrame t u) : ReadFrame s u := by
  unfold ReadFrame at *
  exact k.trans (congrArg (fun z : State => { z with
    dirty := u.dirty, pd := u.pd, spin := u.spin, endSlice := u.endSlice, anom := u.anom }) h)

/-- A 32-bit read is split, or takes the path of a narrow one. -/
theorem wideRead_cases (env : Env) (p : Pid) (a cyc : Word) (s : State) :
    wideRead env p a cyc s = splitRead env p a cyc s ∨ wideRead env p a cyc s = narrowRead env p .w32 a cyc s := by
  unfold wideRead narrowRead
  cases resolve s p .w32 .rd a with
  | mem r b m => exact .inr rfl
  | hnd h => exact ite_eq_or_eq ..
  | split => exact .inl rfl
  | stub => exact .inr rfl

section
variable {p : Pid} {w : Width} {a cyc : Word} {s : State}

theorem narrowRead_frame_of_coprocessor (hp : p ≠ .pri) (h : (narrowRead commandEnv p w a cyc s).1.stop = none) :
    ReadFrame s (narrowRead commandEnv p w a cyc s).1 := by
  rw [narrowRead_coprocessor hp commandEnv coprocessorEnv] at h ⊢
  exact narrowRead_frame h

/-- Each half keeps what a read keeps: nothing stops the first, or the second would be stopped too. -/
theorem splitRead_frame (hp : p ≠ .pri) (h : (splitRead commandEnv p a cyc s).1.stop = none) :
    ReadFrame s (splitRead commandEnv p a cyc s).1 := by
  have hhigh : (narrowRead commandEnv p .w16 a cyc s).1.stop = none :=
    (narrowRead_fixed p (w := .w16) (by decide) (a + 2) cyc _).stop_none h
  exact (narrowRead_frame_of_coprocessor hp hhigh).trans (narrowRead_frame_of_coprocessor hp h)

/-- A coprocessor's read changes only flags, detectors and the log (R122, R298). -/
theorem busRead_frame (hp : p ≠ .pri) (h : (busRead commandEnv p w a cyc s).1.stop = none) :
    ReadFrame s (busRead commandEnv p w a cyc s).1 := by
  unfold busRead at h ⊢
  cases halign : alignAccess s.cfg w a with
  | none =>
    simp only [halign, halt_stop, Option.or_eq_none_iff] at h
    obtain ⟨_, hmisaligned⟩ := h
    exact absurd hmisaligned nofun
  | some b =>
    simp only [halign] at h ⊢
    cases w with
    | w8 | w16 => exact narrowRead_frame_of_coprocessor hp h
    | w32 =>
      dsimp only at h ⊢
      rcases wideRead_cases commandEnv p b cyc s with e | e
      · rw [e] at h ⊢; exact splitRead_frame hp h
      · rw [e] at h ⊢; exact narrowRead_frame_of_coprocessor hp h

end

/-- Settles O60: a coprocessor's access is a chain of changes that keep time, and its read changes only flags, detectors and
the log. -/
theorem coprocessorAccessesOpenNoGate : Obligations.CoprocessorAccessesOpenNoGate := by
  refine ⟨fun i s t hi h => ?time, fun p w a cyc s t hp h => ?read⟩
  case time =>
    obtain ⟨hlast, hvt, hruns⟩ := exec_coprocessorAccess_timeless hi h
    exact ⟨hlast, hvt, hruns⟩
  case read =>
    rw [exec_readCmd] at h
    obtain ⟨_, _, hstop, rfl⟩ := perform_eq_next.1 h
    have hframe : ReadFrame s (busRead commandEnv p w a cyc s).1 := busRead_frame hp hstop
    unfold answer
    rw [hframe]
    exact ⟨regLoad_congr rfl rfl rfl rfl rfl rfl rfl, rfl, rfl, rfl⟩

end Sys2Proof.Machine
end
